-- ==== Sys2Proof/Word.lean ====
section
/-! DEFINITION. The word types of the spec (00_scope.md R8): unsigned words and the two IEEE 754 interchange formats,
held as their bit patterns (20_memory.md R62, R63: a sample is moved as its pattern). -/

namespace Sys2Proof

/-- `u32` (R8). -/
abbrev U32 := BitVec 32

/-- `u64` (R8). -/
abbrev U64 := BitVec 64

/-- `b32` (R8): an IEEE 754 binary32, as its 32-bit pattern. -/
abbrev B32 := BitVec 32

/-- `b64` (R8): an IEEE 754 binary64, as its 64-bit pattern. -/
abbrev B64 := BitVec 64

end Sys2Proof
end

