-- ==== Sys2Proof/Config.lean ====
section
/-! DEFINITION. The configuration parameters of 00_scope.md R6, and the free values of the spec.
The parameters that are data stand in `Config`, a record that State carries, so that every statement holds for every
configuration (log entry 9). The parameters that are functions, and the draws, are constants without a body: nothing can
be proved of the value they give (log entries 2, 3, 5, 10, 11). -/

namespace Sys2Proof

/-- `DEGEN_POLICY` (R6, R124, R125). -/
inductive DegenPolicy where
  | identity
  | fault
deriving DecidableEq, Repr

/-- The data parameters of R6, each with the default the spec gives it. -/
structure Config where
  /-- `MAXBLK_CAP`: the largest `maxBlockSamples`, and the elements of one BUF channel (D42). -/
  maxBlkCap : Nat := 8192
  /-- `C_RELAY`: slots of each relay FIFO (D22). -/
  cRelay : Nat := 32
  /-- `C_SPEC`: slots of each spectrum FIFO (D22). -/
  cSpec : Nat := 32
  /-- `FFT_ORDER`: log2 of the transform length (D26). -/
  fftOrder : Nat := 13
  /-- `HOP`: new samples that justify a transform (D27). -/
  hop : Nat := 1
  /-- `DB_FLOOR`, binary32, default -48.0 (D30). -/
  dbFloor : B32 := 0xC2400000#32
  /-- `NYQ_RATIO`, binary64, default 0.49 (D8). -/
  nyqRatio : B64 := 0x3FDF5C28F5C28F5C#64
  /-- `DEGEN_POLICY`, default IDENTITY (D9). -/
  degenPolicy : DegenPolicy := .identity
  /-- `FTZ`: flush binary32 subnormals to zero, default false (D3). -/
  ftz : Bool := false
  /-- `WINDOW`: a table of L binary32 values, or `none` for the default table of 44_spectrum.md R226 (D28). -/
  window : Option (List B32) := none
deriving DecidableEq, Repr

/-- L = 2^FFT_ORDER (R6, derived). -/
def Config.len (c : Config) : Nat := 2 ^ c.fftOrder

/-- NBINS = L/2 (R6, derived). -/
def Config.nbins (c : Config) : Nat := c.len / 2

/-- The bounds R6 puts on the parameters. `maxBlkCap < 2^32` because MAXBLK is a u32 (10_state.md R27). 0 < NYQ_RATIO < 0.5
is said of the pattern: the positive binary64 numbers are ordered as their patterns, infinity and the NaNs lie above them,
and 0x3FE0000000000000 is 0.5. -/
def Config.wf (c : Config) : Bool :=
  decide (1 ≤ c.maxBlkCap) && decide (c.maxBlkCap < 2 ^ 32) && decide (1 ≤ c.cRelay) && decide (1 ≤ c.cSpec)
    && decide (1 ≤ c.fftOrder) && decide (c.fftOrder ≤ 16) && decide (1 ≤ c.hop)
    && decide (0 < c.nyqRatio.toNat) && decide (c.nyqRatio.toNat < 0x3FE0000000000000)
    && (match c.window with
        | none => true
        | some t => decide (t.length = 2 ^ c.fftOrder))

/-- The IEEE 754 operations that can return a NaN: the tag under which a NaN is drawn (R14). -/
inductive FpOp where
  | add
  | sub
  | mul
  | div
  | sqrt
  | toB32
  | toB64
deriving DecidableEq, Repr

/-- SIN, COS, TAN, POW10 and LOG10 (R13): total deterministic functions of their argument, nothing else assumed. -/
opaque Config.SIN : B64 → B64
opaque Config.COS : B64 → B64
opaque Config.TAN : B64 → B64
opaque Config.POW10 : B64 → B64
opaque Config.LOG10 : B64 → B64

/-- FFT_MAG (44_spectrum.md R227): the magnitude of bin k of the windowed samples, for transforms of length 2^order. -/
opaque Config.FFT_MAG (order : Nat) (xw : List B32) (k : Nat) : B32

/-- NANV (R14): the draw from which a binary32 NaN takes its sign and payload; it depends on the operation, its operands
(widened to 64 bits) and the draw counter (log entry 3). -/
opaque Config.nanDraw32 (op : FpOp) (seq : Nat) (a b : U64) : U32

/-- NANV (R14) for binary64 results. -/
opaque Config.nanDraw64 (op : FpOp) (seq : Nat) (a b : U64) : U64

/-- The draw a read of a BUF element gives that nothing has written since reset (10_state.md R33). -/
opaque Config.bufDraw (ch j seq : Nat) : B32

/-- The content of a staging or relay-slot element that nothing has written (10_state.md R34, R35: unspecified). -/
opaque Config.relayDraw (ch j seq : Nat) : B32

/-- The content of a spectrum slot that nothing has written (10_state.md R37: unspecified). -/
opaque Config.specDbDraw (ch k seq : Nat) : B32
opaque Config.specBinwDraw (ch seq : Nat) : B64

/-- The coefficient bank after reset (10_state.md R29, R44: unspecified): word i of the 45 words of the bank. -/
opaque Config.coefAtReset (seq i : Nat) : B32

/-- The payload of LATEST after reset (10_state.md R38, R44: unspecified). -/
opaque Config.latestDbAtReset (ch k seq : Nat) : B32
opaque Config.latestBinwAtReset (ch seq : Nat) : B64

end Sys2Proof
end

