-- ==== Sys2Proof/Syntax.lean ====
section
/-! DEFINITION. The commands of EQCORE as syntax: one constructor for each row of spec/opcode_table.json
(30_encoding.md R82, R87). A command that more than one port admits carries the port it is issued on, as the assembler's
`port:` prefix does (R100); every other command has the one port R82 gives it (log entry 8). ARG0 and ARG1 are port
registers (R81), so they are in State, not here. -/

namespace Sys2Proof

/-- The three command ports: AUD = 0, CTL = 1, RND = 2 (10_state.md R20). -/
inductive Port where
  | aud
  | ctl
  | rnd
deriving DecidableEq, Repr

/-- A channel: 0 = left, 1 = right (00_scope.md R6, NCH = 2). -/
inductive Chan where
  | left
  | right
deriving DecidableEq, Repr

/-- The channel select of RPOLL and SDRAIN: L, R or LR (R83). -/
inductive ChanSel where
  | left
  | right
  | both
deriving DecidableEq, Repr

/-- The RDMETA selector (R85). -/
inductive MetaSel where
  | valid
  | bins
  | binw
deriving DecidableEq, Repr

/-- The RDOCC selector (R85). -/
inductive OccSel where
  | relay
  | spec
deriving DecidableEq, Repr

/-- The commands. `pid` is the raw PID field: a value above 0x0A decodes and faults at execution (R84). -/
inductive Instr where
  | nop (p : Port)
  | prepare
  | process
  | setp (pid : BitVec 8)
  | rdp (pid : BitVec 8)
  | rpoll (c : ChanSel)
  | sdrain (c : ChanSel)
  | rdbin (c : Chan)
  | rdmeta (c : Chan) (sel : MetaSel)
  | rdgen (p : Port)
  | rdocc (c : Chan) (sel : OccSel)
  | rdstat (p : Port)
deriving DecidableEq, Repr

/-- The port a command is issued on (R82). -/
def Instr.port : Instr → Port
  | .nop p => p
  | .prepare => .aud
  | .process => .aud
  | .setp _ => .ctl
  | .rdp _ => .ctl
  | .rpoll _ => .rnd
  | .sdrain _ => .rnd
  | .rdbin _ => .rnd
  | .rdmeta _ _ => .rnd
  | .rdgen p => p
  | .rdocc _ _ => .rnd
  | .rdstat p => p

end Sys2Proof
end

