-- ==== Sys2Proof/WellFormed.lean ====
section
/-! DEFINITION. Well-formed commands. Channels, selectors and ports are already names, so the one check left is port
admission (30_encoding.md R82, R92): RDGEN is admitted on CTL and RND only; NOP and RDSTAT on every port. -/

namespace Sys2Proof

/-- The command is admitted on the port it names (R92). -/
def Instr.wf : Instr → Bool
  | .nop _ => true
  | .prepare => true
  | .process => true
  | .setp _ => true
  | .rdp _ => true
  | .rpoll _ => true
  | .sdrain _ => true
  | .rdbin _ => true
  | .rdmeta _ _ => true
  | .rdgen p => decide (p ≠ .aud)
  | .rdocc _ _ => true
  | .rdstat _ => true

end Sys2Proof
end

