-- ==== Sys2Proof/Decode.lean ====
section
/-! DEFINITION. The command word (30_encoding.md R80 to R92): its fields, the decoder, total on every word and port and
rejecting by name, and the encoder written from the same tables. -/

namespace Sys2Proof

/-- Why a word decodes as Illegal (R88, R90). Every one raises F_ILLEGAL_CMD. -/
inductive Reject where
  | opcode
  | wrongPort
  | reservedBits
  | channel
  | pid
  | imm8
deriving DecidableEq, Repr

/-- The fields of format F1 (R80). -/
def opcField (w : U32) : BitVec 8 := w.extractLsb' 24 8
def chField (w : U32) : BitVec 2 := w.extractLsb' 22 2
def rsvField (w : U32) : BitVec 6 := w.extractLsb' 16 6
def pidField (w : U32) : BitVec 8 := w.extractLsb' 8 8
def immField (w : U32) : BitVec 8 := w.extractLsb' 0 8

/-- The operation codes of R82. -/
inductive Opcode where
  | nop
  | prepare
  | process
  | setp
  | rdp
  | rpoll
  | sdrain
  | rdbin
  | rdmeta
  | rdgen
  | rdocc
  | rdstat
deriving DecidableEq, Repr

/-- The OPC value of each operation (R82). -/
def Opcode.byte : Opcode → BitVec 8
  | .nop => 0x00#8
  | .prepare => 0x01#8
  | .process => 0x02#8
  | .setp => 0x10#8
  | .rdp => 0x11#8
  | .rpoll => 0x20#8
  | .sdrain => 0x21#8
  | .rdbin => 0x22#8
  | .rdmeta => 0x23#8
  | .rdgen => 0x24#8
  | .rdocc => 0x25#8
  | .rdstat => 0x30#8

/-- Every operation, in the table's order. -/
def Opcode.all : List Opcode :=
  [.nop, .prepare, .process, .setp, .rdp, .rpoll, .sdrain, .rdbin, .rdmeta, .rdgen, .rdocc, .rdstat]

/-- The operation an OPC value names; every value not in R82 is reserved. -/
def Opcode.ofByte? (b : BitVec 8) : Option Opcode := Opcode.all.find? fun o => o.byte == b

/-- Port admission (R82, R92). -/
def Opcode.admits : Opcode → Port → Bool
  | .nop, _ => true
  | .prepare, p => p == .aud
  | .process, p => p == .aud
  | .setp, p => p == .ctl
  | .rdp, p => p == .ctl
  | .rpoll, p => p == .rnd
  | .sdrain, p => p == .rnd
  | .rdbin, p => p == .rnd
  | .rdmeta, p => p == .rnd
  | .rdgen, p => p == .ctl || p == .rnd
  | .rdocc, p => p == .rnd
  | .rdstat, _ => true

/-- CH codes (R80, R83). -/
def ChanSel.bits : ChanSel → BitVec 2
  | .left => 0b00#2
  | .right => 0b01#2
  | .both => 0b10#2

def Chan.bits : Chan → BitVec 2
  | .left => 0b00#2
  | .right => 0b01#2

/-- The channel select a CH field names; 11 is reserved (R83). -/
def ChanSel.ofBits? (b : BitVec 2) : Option ChanSel :=
  if b = 0b00#2 then some .left else if b = 0b01#2 then some .right else if b = 0b10#2 then some .both else none

/-- The single channel a CH field names; 10 and 11 are not accepted (R83). -/
def Chan.ofBits? (b : BitVec 2) : Option Chan :=
  if b = 0b00#2 then some .left else if b = 0b01#2 then some .right else none

/-- IMM8 selectors (R85). -/
def MetaSel.byte : MetaSel → BitVec 8
  | .valid => 0x00#8
  | .bins => 0x01#8
  | .binw => 0x02#8

def MetaSel.ofByte? (b : BitVec 8) : Option MetaSel :=
  if b = 0x00#8 then some .valid else if b = 0x01#8 then some .bins else if b = 0x02#8 then some .binw else none

def OccSel.byte : OccSel → BitVec 8
  | .relay => 0x00#8
  | .spec => 0x01#8

def OccSel.ofByte? (b : BitVec 8) : Option OccSel :=
  if b = 0x00#8 then some .relay else if b = 0x01#8 then some .spec else none

/-- CH values an operation accepts (R83). -/
def Opcode.acceptsCh : Opcode → BitVec 2 → Bool
  | .rpoll, b => (ChanSel.ofBits? b).isSome
  | .sdrain, b => (ChanSel.ofBits? b).isSome
  | .rdbin, b => (Chan.ofBits? b).isSome
  | .rdmeta, b => (Chan.ofBits? b).isSome
  | .rdocc, b => (Chan.ofBits? b).isSome
  | .nop, b => b == 0#2
  | .prepare, b => b == 0#2
  | .process, b => b == 0#2
  | .setp, b => b == 0#2
  | .rdp, b => b == 0#2
  | .rdgen, b => b == 0#2
  | .rdstat, b => b == 0#2

/-- The operations whose PID field is decoded (R84); every other requires 0x00. -/
def Opcode.takesPid (o : Opcode) : Bool := o == .setp || o == .rdp

/-- IMM8 values an operation accepts (R85). -/
def Opcode.acceptsImm : Opcode → BitVec 8 → Bool
  | .rdmeta, b => (MetaSel.ofByte? b).isSome
  | .rdocc, b => (OccSel.ofByte? b).isSome
  | .nop, b => b == 0#8
  | .prepare, b => b == 0#8
  | .process, b => b == 0#8
  | .setp, b => b == 0#8
  | .rdp, b => b == 0#8
  | .rpoll, b => b == 0#8
  | .sdrain, b => b == 0#8
  | .rdbin, b => b == 0#8
  | .rdgen, b => b == 0#8
  | .rdstat, b => b == 0#8

/-- The command of accepted fields. The defaults stand where `decode` has already refused the field. -/
def Opcode.build (o : Opcode) (p : Port) (ch : BitVec 2) (pid imm : BitVec 8) : Instr :=
  match o with
  | .nop => .nop p
  | .prepare => .prepare
  | .process => .process
  | .setp => .setp pid
  | .rdp => .rdp pid
  | .rpoll => .rpoll ((ChanSel.ofBits? ch).getD .left)
  | .sdrain => .sdrain ((ChanSel.ofBits? ch).getD .left)
  | .rdbin => .rdbin ((Chan.ofBits? ch).getD .left)
  | .rdmeta => .rdmeta ((Chan.ofBits? ch).getD .left) ((MetaSel.ofByte? imm).getD .valid)
  | .rdgen => .rdgen p
  | .rdocc => .rdocc ((Chan.ofBits? ch).getD .left) ((OccSel.ofByte? imm).getD .relay)
  | .rdstat => .rdstat p

/-- The decoder of R88, its checks in the order of the rule. -/
def decode (w : U32) (p : Port) : Except Reject Instr :=
  match Opcode.ofByte? (opcField w) with
  | none => .error .opcode
  | some o =>
    if !o.admits p then .error .wrongPort
    else if rsvField w ≠ 0#6 then .error .reservedBits
    else if !o.acceptsCh (chField w) then .error .channel
    else if !o.takesPid && pidField w ≠ 0#8 then .error .pid
    else if !o.acceptsImm (immField w) then .error .imm8
    else .ok (o.build p (chField w) (pidField w) (immField w))

/-- A word from its five fields (R80). -/
def packWord (opc : BitVec 8) (ch : BitVec 2) (pid imm : BitVec 8) : U32 := opc ++ ch ++ 0#6 ++ pid ++ imm

/-- The word of a command (R87, R102). -/
def encode : Instr → U32
  | .nop _ => packWord 0x00#8 0#2 0#8 0#8
  | .prepare => packWord 0x01#8 0#2 0#8 0#8
  | .process => packWord 0x02#8 0#2 0#8 0#8
  | .setp pid => packWord 0x10#8 0#2 pid 0#8
  | .rdp pid => packWord 0x11#8 0#2 pid 0#8
  | .rpoll c => packWord 0x20#8 c.bits 0#8 0#8
  | .sdrain c => packWord 0x21#8 c.bits 0#8 0#8
  | .rdbin c => packWord 0x22#8 c.bits 0#8 0#8
  | .rdmeta c sel => packWord 0x23#8 c.bits 0#8 sel.byte
  | .rdgen _ => packWord 0x24#8 0#2 0#8 0#8
  | .rdocc c sel => packWord 0x25#8 c.bits 0#8 sel.byte
  | .rdstat _ => packWord 0x30#8 0#2 0#8 0#8

/-- Decoding without the reason for a refusal. -/
def decode? (w : U32) (p : Port) : Option Instr :=
  match decode w p with
  | .ok i => some i
  | .error _ => none

/-- The command word in the low `nbits` bits of `w` (every command is one 32-bit word, R93). -/
def tableWord (nbits w : Nat) : U32 := BitVec.ofNat 32 (w % 2 ^ nbits)

/-- The first port, in the order of their numbers, on which the word decodes (log entry 8). -/
def firstPort? (w : U32) : Option Port :=
  [Port.aud, Port.ctl, Port.rnd].find? fun p => (decode? w p).isSome

/-- The command the decoder reads from a table word, on the first port that admits it. -/
def decodeTableWord (nbits w : Nat) : Option Instr :=
  match firstPort? (tableWord nbits w) with
  | some p => decode? (tableWord nbits w) p
  | none => none

end Sys2Proof
end

