-- ==== Sys2Proof/Machine/State.lean ====
section
/-! DEFINITION. The state of EQCORE (10_state.md), as plain data, the reasons a step can stop, and the state after
hardware reset (10_state.md R44, 70_reset_and_hazards.md R320). INVENTORY.md lists every field with its rule and reset
value. -/

namespace Sys2Proof.Machine

/-- One thing per channel: left = channel 0, right = channel 1. -/
structure Stereo (α : Type) where
  left : α
  right : α
deriving DecidableEq, Repr

/-- One thing per section of a cut stage, sections 0 to 3 (00_scope.md R6, NSEC = 4). -/
structure Quad (α : Type) where
  s0 : α
  s1 : α
  s2 : α
  s3 : α
deriving DecidableEq, Repr

/-- An element array some of whose elements hold a value: pairs of index and value, indices strictly rising. An unlisted
element holds no value (10_state.md R33; log entries 1 and 2). -/
abbrev Cells (α : Type) := List (Nat × α)

/-- One channel of BUF, or the staging block of one relay: b32 elements. -/
abbrev Memory := Cells B32

/-- The eleven settings parameters, by the names of 10_state.md R23. -/
inductive Pid where
  | peakFreq
  | peakGain
  | peakQ
  | hpFreq
  | lpFreq
  | hpSlope
  | lpSlope
  | hpByp
  | pkByp
  | lpByp
  | specEn
deriving DecidableEq, Repr

/-- The settings register file SR (R23): the raw 32-bit value of each register. -/
structure Settings where
  peakFreq : U32
  peakGain : U32
  peakQ : U32
  hpFreq : U32
  lpFreq : U32
  hpSlope : U32
  lpSlope : U32
  hpByp : U32
  pkByp : U32
  lpByp : U32
  specEn : U32
deriving DecidableEq, Repr

/-- The snapshot register SNAP (R28). -/
structure Snap where
  pf : B32
  pg : B32
  pq : B32
  hf : B32
  lf : B32
  hs : Fin 4
  ls : Fin 4
  hb : Bool
  pb : Bool
  lb : Bool
  se : Bool
deriving DecidableEq, Repr

/-- A coefficient set, a0 = 1 (R29). -/
structure Coef where
  b0 : B32
  b1 : B32
  b2 : B32
  a1 : B32
  a2 : B32
deriving DecidableEq, Repr

/-- The coefficient bank, the degenerate flags and the stage control (R29, R30, R31). -/
structure Bank where
  cpk : Coef
  chp : Quad Coef
  clp : Quad Coef
  dgpk : Bool
  dghp : Quad Bool
  dglp : Quad Bool
  actHp : Nat
  actLp : Nat
  bypHp : Bool
  bypPk : Bool
  bypLp : Bool
deriving DecidableEq, Repr

/-- The history of one section in one channel (R32). -/
structure Hist where
  x1 : B32
  x2 : B32
  y1 : B32
  y2 : B32
deriving DecidableEq, Repr

/-- The history bank H of one channel: sections HP0 to HP3, PK, LP0 to LP3 (R32). -/
structure ChanHist where
  hp : Quad Hist
  pk : Hist
  lp : Quad Hist
deriving DecidableEq, Repr

/-- A FIFO instance (43_relay_fifo.md R190): slots by slot number, write index and read index. -/
structure Fifo (α : Type) where
  slots : Cells α
  wr : Nat
  rd : Nat
deriving DecidableEq, Repr

/-- The relay of one channel: RSTG, RSIDX and the FIFO (RSLOT, RWR, RRD) (R34, R35). -/
structure RelayCh where
  stg : Memory
  idx : Nat
  fifo : Fifo (List B32)
deriving DecidableEq, Repr

/-- A Spectrum Snapshot (R37): DB[0..NBINS-1] and BINW. -/
structure Spectrum where
  db : List B32
  binw : B64
deriving DecidableEq, Repr

/-- LATEST of one channel (R38). -/
structure Latest where
  valid : Bool
  db : List B32
  binw : B64
deriving DecidableEq, Repr

/-- The spectrum state of one channel: WIN (oldest first), NEWCNT, the FIFO (SSLOT, SWR, SRD) and LATEST
(R36, R37, R38). -/
structure SpecCh where
  win : List B32
  newcnt : Nat
  fifo : Fifo Spectrum
  latest : Latest
deriving DecidableEq, Repr

/-- The step position of the command in progress on a port (R21): which atomic step it takes next. `start`: it has been
issued and has taken no step (or the port is idle). -/
inductive Pos where
  | start
  /-- PREPARE: arguments checked, held until RND is idle (R271). -/
  | prepHold
  /-- PROCESS: the next snapshot field to read (R262). -/
  | procSnap (field : Pid)
  | procCoef
  | procFilt
  | procRelay (ch : Chan)
  /-- RPOLL: SPEC_EN has been read; next the count step of `ch`, then the channels `rest` (R222). -/
  | rpollCount (se : Bool) (ch : Chan) (rest : List Chan)
  /-- RPOLL: `more` + 1 pops of `ch` are left. -/
  | rpollPop (se : Bool) (ch : Chan) (more : Nat) (rest : List Chan)
  /-- SDRAIN: next the count step of `ch` (R231). -/
  | sdrainCount (ch : Chan) (rest : List Chan)
  /-- SDRAIN: `more` + 1 pops of `ch` are left. -/
  | sdrainPop (ch : Chan) (more : Nat) (rest : List Chan)
deriving DecidableEq, Repr

/-- The registers of one port (R22), with the step position of its command (R21). -/
structure PortRegs where
  cmd : U32
  arg0 : U64
  arg1 : U64
  res : U64
  busy : Bool
  pos : Pos
deriving DecidableEq, Repr

/-- What an agent outside the block does next (log entry 6). The writes are the issue protocol of 30_encoding.md R94;
`run` lets the command of a port take all its steps with no other agent between them, `advance` lets it take its next
atomic step (20_memory.md R69); `hostWrite` and `hostRead` are HOST's accesses to BUF (R61); `readRes` is an
agent's read of RES of its port (R77); `hwReset` is hardware reset (70_reset_and_hazards.md R320). A read delivers what
stands in State and changes nothing, so the move carries no value (log entry 15). -/
inductive Move where
  | writeArg0 (p : Port) (v : U64)
  | writeArg1 (p : Port) (v : U64)
  | writeCmd (p : Port) (w : U32)
  | run (p : Port)
  | advance (p : Port)
  | hostWrite (ch : Chan) (j : Nat) (v : B32)
  | hostRead (ch : Chan) (j : Nat)
  | readRes (p : Port)
  | hwReset
deriving DecidableEq, Repr

/-- Reasons the machine stops. No command raises one: a command's fault is a record in FSTAT and FIRST, and the machine
goes on (60_exceptions.md R290). -/
inductive Fault where
  /-- Raised by a HOST access to a BUF element at or above MAXBLK_CAP, which does not exist (20_memory.md R62). Safe. -/
  | bufIndex
deriving DecidableEq, Repr

/-- Reasons a step has no meaning. -/
inductive Refusal where
  /-- Raised by exec's arm of a command that has no meaning in the model yet; none is left. Safe. -/
  | notModelled (mnemonic : String)
  /-- Raised by an agent's write of CMD, ARG0 or ARG1 while the port is busy, which R22 forbids the agent, and by its read
  of RES then, which 20_memory.md R77 and 70_reset_and_hazards.md R332 forbid (what it would read the spec does not say; log
  entry 15). Safe. -/
  | portBusy
  /-- Raised by a HOST access to BUF while BUSY[AUD] is true: HOST has no such move (R61, R329, I18). Safe. -/
  | hostWhileBusy
deriving DecidableEq, Repr

/-- The state of the machine. -/
structure State where
  /-- The configuration parameters (00_scope.md R6); no step changes them. -/
  cfg : Config
  /-- The three ports (R22). -/
  aud : PortRegs
  ctl : PortRegs
  rnd : PortRegs
  /-- SR (R23). -/
  sr : Settings
  /-- GEN (R25). -/
  gen : U32
  /-- PREPARED and HALTED (R26). -/
  prepared : Bool
  halted : Bool
  /-- FS (R27). -/
  fs : B64
  /-- MAXBLK (R27). -/
  maxblk : Nat
  /-- SNAP (R28). -/
  snap : Snap
  /-- CPK, CHP, CLP, DG flags, ACT and BYP (R29, R30, R31). -/
  bank : Bank
  /-- H (R32). -/
  hist : Stereo ChanHist
  /-- BUF (R33). -/
  buf : Stereo Memory
  /-- RSTG, RSIDX, RSLOT, RWR, RRD (R34, R35). -/
  relay : Stereo RelayCh
  /-- WIN, NEWCNT, SSLOT, SWR, SRD, LATEST (R36, R37, R38). -/
  spec : Stereo SpecCh
  /-- FSTAT and FIRST (R39). -/
  fstat : U32
  first : U32
  /-- The model's own: the counter that free values are drawn with (log entry 4). -/
  draws : Nat
  /-- The model's own: the agents' moves still to come, next one first (log entry 6). -/
  sched : List Move
deriving DecidableEq, Repr

/-- An idle port (R22, reset values). -/
def PortRegs.idle : PortRegs :=
  { cmd := 0#32, arg0 := 0#64, arg1 := 0#64, res := 0#64, busy := false, pos := .start }

/-- The reset values of SR (R23). -/
def Settings.reset : Settings :=
  { peakFreq := 0x447A0000#32, peakGain := 0x00000000#32, peakQ := 0x3F800000#32, hpFreq := 0x41A00000#32,
    lpFreq := 0x469C4000#32, hpSlope := 0#32, lpSlope := 0#32, hpByp := 0#32, pkByp := 0#32, lpByp := 0#32,
    specEn := 1#32 }

/-- SNAP after reset: the clamped reset values of SR (R28). -/
def Snap.reset : Snap :=
  { pf := 0x447A0000#32, pg := 0x00000000#32, pq := 0x3F800000#32, hf := 0x41A00000#32, lf := 0x469C4000#32,
    hs := 0, ls := 0, hb := false, pb := false, lb := false, se := true }

/-- Coefficient set number `i` after reset: free values (R29, R44; log entry 5). -/
def Coef.atReset (seq i : Nat) : Coef :=
  { b0 := Config.coefAtReset seq (5 * i), b1 := Config.coefAtReset seq (5 * i + 1),
    b2 := Config.coefAtReset seq (5 * i + 2), a1 := Config.coefAtReset seq (5 * i + 3),
    a2 := Config.coefAtReset seq (5 * i + 4) }

/-- The bank after reset (R44): the sets unspecified, no degenerate flag, ACT 1, BYP false. -/
def Bank.reset (seq : Nat) : Bank :=
  { cpk := Coef.atReset seq 0,
    chp := ⟨Coef.atReset seq 1, Coef.atReset seq 2, Coef.atReset seq 3, Coef.atReset seq 4⟩,
    clp := ⟨Coef.atReset seq 5, Coef.atReset seq 6, Coef.atReset seq 7, Coef.atReset seq 8⟩,
    dgpk := false, dghp := ⟨false, false, false, false⟩, dglp := ⟨false, false, false, false⟩,
    actHp := 1, actLp := 1, bypHp := false, bypPk := false, bypLp := false }

/-- A cleared history: four +0.0 (R32). -/
def Hist.zero : Hist := { x1 := 0#32, x2 := 0#32, y1 := 0#32, y2 := 0#32 }

/-- The cleared histories of one channel (R32). -/
def ChanHist.zero : ChanHist :=
  { hp := ⟨Hist.zero, Hist.zero, Hist.zero, Hist.zero⟩, pk := Hist.zero,
    lp := ⟨Hist.zero, Hist.zero, Hist.zero, Hist.zero⟩ }

/-- A relay after reset: empty, no staged sample (R34, R35). -/
def RelayCh.reset : RelayCh := { stg := [], idx := 0, fifo := { slots := [], wr := 0, rd := 0 } }

/-- The spectrum state of channel number `ch` after reset (R36, R37, R38); the payload of LATEST is a free value. -/
def SpecCh.reset (c : Config) (seq ch : Nat) : SpecCh :=
  { win := List.replicate c.len 0#32, newcnt := 0, fifo := { slots := [], wr := 0, rd := 0 },
    latest := { valid := false, db := (List.range c.nbins).map fun k => Config.latestDbAtReset ch k seq,
                binw := Config.latestBinwAtReset ch seq } }

/-- Hardware reset under a configuration, with the draw counter at `seq` (R320). -/
def State.resetWith (c : Config) (seq : Nat) : State :=
  { cfg := c, aud := .idle, ctl := .idle, rnd := .idle, sr := .reset, gen := 0#32, prepared := false, halted := false,
    fs := 0#64, maxblk := 0, snap := .reset, bank := .reset seq, hist := ⟨.zero, .zero⟩, buf := ⟨[], []⟩,
    relay := ⟨.reset, .reset⟩, spec := ⟨.reset c seq 0, .reset c seq 1⟩, fstat := 0#32, first := 0#32,
    draws := seq, sched := [] }

/-- The machine right after reset, with the default configuration of R6. -/
def State.reset : State := State.resetWith {} 0

end Sys2Proof.Machine
end

