-- ==== Sys2Proof/Machine/Float.lean ====
section
/-! DEFINITION. IEEE 754 binary32 and binary64 arithmetic as 00_scope.md R9, R11, R13 and R14 use it: operands are
unpacked to exact numbers, the operation is exact, and one rounding to nearest, ties to even, packs the result. A NaN
result is drawn (R14). FTZ acts on every binary32 operand and result (R9; log entry 12). -/

namespace Sys2Proof.Machine

/-- A binary interchange format: exponent and fraction widths. -/
structure Fmt where
  ebits : Nat
  fbits : Nat
deriving DecidableEq, Repr

def Fmt.b32 : Fmt := { ebits := 8, fbits := 23 }
def Fmt.b64 : Fmt := { ebits := 11, fbits := 52 }

/-- An exact number: `fin neg m e` is (-1)^neg * m * 2^e, a zero when m = 0. -/
inductive Num where
  | nan
  | inf (neg : Bool)
  | fin (neg : Bool) (m : Nat) (e : Int)
deriving DecidableEq, Repr

/-- The exponent of the unit in the last place of the subnormals: -149 and -1074. -/
def Fmt.emin (f : Fmt) : Int := 2 - (2 ^ (f.ebits - 1) : Nat) - (f.fbits : Nat)

/-- The pattern of +infinity. -/
def Fmt.infBits (f : Fmt) : Nat := (2 ^ f.ebits - 1) * 2 ^ f.fbits

/-- The weight of the sign bit. -/
def Fmt.signBit (f : Fmt) : Nat := 2 ^ (f.ebits + f.fbits)

/-- The number a pattern stands for. -/
def Fmt.unpack (f : Fmt) (x : Nat) : Num :=
  let frac := x % 2 ^ f.fbits
  let ex := x / 2 ^ f.fbits % 2 ^ f.ebits
  let neg := x / f.signBit % 2 == 1
  if ex = 2 ^ f.ebits - 1 then
    if frac = 0 then .inf neg else .nan
  else if ex = 0 then .fin neg frac f.emin
  else .fin neg (frac + 2 ^ f.fbits) (f.emin + (ex - 1 : Nat))

/-- m / 2^k rounded to the nearest integer, ties to even. -/
def roundShift (m k : Nat) : Nat :=
  let t := m / 2 ^ k
  let r := m % 2 ^ k
  if 2 * r > 2 ^ k || (2 * r == 2 ^ k && t % 2 == 1) then t + 1 else t

/-- The magnitude pattern of m * 2^e rounded to nearest even, with gradual underflow; an overflow gives infinity.
A carry out of the fraction moves into the exponent field by itself. -/
def Fmt.roundMag (f : Fmt) (m : Nat) (e : Int) : Nat :=
  if m = 0 then 0
  else
    let q : Int := max (e + (Nat.log2 m : Nat) - (f.fbits : Nat)) f.emin
    let sig := if q ≤ e then m * 2 ^ (e - q).toNat else roundShift m (q - e).toNat
    min ((q - f.emin).toNat * 2 ^ f.fbits + sig) f.infBits

/-- The sign bit of a pattern. -/
def Fmt.withSign (f : Fmt) (neg : Bool) (mag : Nat) : Nat := if neg then f.signBit + mag else mag

/-- The pattern of a number that is not a NaN (a NaN is drawn by the caller). -/
def Fmt.pack (f : Fmt) : Num → Nat
  | .nan => f.infBits + 1
  | .inf neg => f.withSign neg f.infBits
  | .fin neg m e => f.withSign neg (f.roundMag m e)

/-- The other sign. -/
def Num.negate : Num → Num
  | .nan => .nan
  | .inf neg => .inf (!neg)
  | .fin neg m e => .fin (!neg) m e

/-- A significand as a signed integer. -/
def signedSig (neg : Bool) (m : Nat) : Int := if neg then -(m : Int) else (m : Int)

/-- Exact sum; an exact zero is -0 only when both operands are negative (round to nearest). -/
def Num.add : Num → Num → Num
  | .nan, _ => .nan
  | .inf _, .nan => .nan
  | .fin _ _ _, .nan => .nan
  | .inf s, .inf t => if s = t then .inf s else .nan
  | .inf s, .fin _ _ _ => .inf s
  | .fin _ _ _, .inf t => .inf t
  | .fin s m e, .fin t n g =>
    let l := min e g
    let v := signedSig s (m * 2 ^ (e - l).toNat) + signedSig t (n * 2 ^ (g - l).toNat)
    if v = 0 then .fin (s && t) 0 l else .fin (decide (v < 0)) v.natAbs l

/-- Exact difference. -/
def Num.sub (a b : Num) : Num := Num.add a b.negate

/-- Exact product; zero times infinity is invalid. -/
def Num.mul : Num → Num → Num
  | .nan, _ => .nan
  | .inf _, .nan => .nan
  | .fin _ _ _, .nan => .nan
  | .inf s, .inf t => .inf (s != t)
  | .inf s, .fin t n _ => if n = 0 then .nan else .inf (s != t)
  | .fin s m _, .inf t => if m = 0 then .nan else .inf (s != t)
  | .fin s m e, .fin t n g => .fin (s != t) (m * n) (e + g)

/-- Quotient, exact but for a last sticky bit: `guard` extra bits are kept, more than any rounding of format looks at.
0/0 and infinity/infinity are invalid; a finite non-zero number over zero is an infinity. -/
def Num.div (guard : Nat) : Num → Num → Num
  | .nan, _ => .nan
  | .inf _, .nan => .nan
  | .fin _ _ _, .nan => .nan
  | .inf _, .inf _ => .nan
  | .inf s, .fin t _ _ => .inf (s != t)
  | .fin s _ e, .inf t => .fin (s != t) 0 e
  | .fin s m e, .fin t n g =>
    if n = 0 then if m = 0 then .nan else .inf (s != t)
    else
      let k := guard + Nat.log2 n + 1
      let q := m * 2 ^ k / n
      let r := m * 2 ^ k % n
      .fin (s != t) (2 * q + (if r = 0 then 0 else 1)) (e - g - (k : Nat) - 1)

/-- The integer square root of n, found bit by bit from bit `b` - 1 down, starting from `r`. -/
def isqrtFrom (n : Nat) : Nat → Nat → Nat
  | 0, r => r
  | b + 1, r => if (r + 2 ^ b) * (r + 2 ^ b) ≤ n then isqrtFrom n b (r + 2 ^ b) else isqrtFrom n b r

/-- Square root, exact but for a last sticky bit; the root of a negative number is invalid, that of -0 is -0. -/
def Num.sqrt (guard : Nat) : Num → Num
  | .nan => .nan
  | .inf neg => if neg then .nan else .inf false
  | .fin neg m e =>
    if m = 0 then .fin neg 0 e
    else if neg then .nan
    else
      let k := 2 * guard + (e % 2).toNat
      let n := m * 2 ^ k
      let r := isqrtFrom n (Nat.log2 n / 2 + 1) 0
      .fin false (2 * r + (if r * r = n then 0 else 1)) ((e - (k : Nat)) / 2 - 1)

/-- a < b; false when an operand is a NaN. -/
def Num.lt : Num → Num → Bool
  | .nan, _ => false
  | .inf _, .nan => false
  | .fin _ _ _, .nan => false
  | .inf s, .inf t => s && !t
  | .inf s, .fin _ _ _ => s
  | .fin _ _ _, .inf t => !t
  | .fin s m e, .fin t n g =>
    let l := min e g
    decide (signedSig s (m * 2 ^ (e - l).toNat) < signedSig t (n * 2 ^ (g - l).toNat))

/-- `isfinite` and `isnan` (R11). -/
def isFinite32 (x : B32) : Bool := decide (x.toNat % 2 ^ 31 < Fmt.b32.infBits)
def isNan32 (x : B32) : Bool := decide (Fmt.b32.infBits < x.toNat % 2 ^ 31)
def isFinite64 (x : B64) : Bool := decide (x.toNat % 2 ^ 63 < Fmt.b64.infBits)
def isNan64 (x : B64) : Bool := decide (Fmt.b64.infBits < x.toNat % 2 ^ 63)

/-- What a binary32 operation needs beside its operands: the FTZ mode and the draw counter. -/
structure FpEnv where
  ftz : Bool
  seq : Nat
deriving DecidableEq, Repr

/-- A subnormal becomes the zero of its sign (R9, FTZ). -/
def flushSub (x : B32) : B32 := if x.toNat / 2 ^ 23 % 2 ^ 8 = 0 then x &&& 0x80000000#32 else x

/-- The flush of R9 under the mode. -/
def FpEnv.flush (e : FpEnv) (x : B32) : B32 := if e.ftz then flushSub x else x

/-- A binary32 NaN with the sign and payload of a draw (R14): every NaN pattern comes from some draw. -/
def mkNan32 (d : U32) : B32 := BitVec.ofNat 32 (d.toNat / 2 ^ 31 * 2 ^ 31 + Fmt.b32.infBits + 1 + d.toNat % (2 ^ 23 - 1))

/-- A binary64 NaN with the sign and payload of a draw. -/
def mkNan64 (d : U64) : B64 := BitVec.ofNat 64 (d.toNat / 2 ^ 63 * 2 ^ 63 + Fmt.b64.infBits + 1 + d.toNat % (2 ^ 52 - 1))

/-- The exact value of a binary32 operand (after the flush) and of a binary64 operand. -/
def FpEnv.num32 (e : FpEnv) (x : B32) : Num := Fmt.b32.unpack (e.flush x).toNat
def num64 (x : B64) : Num := Fmt.b64.unpack x.toNat

/-- The binary32 result of an operation whose exact value is `v`. -/
def FpEnv.result32 (e : FpEnv) (op : FpOp) (a b : U64) (v : Num) : B32 :=
  match v with
  | .nan => mkNan32 (Config.nanDraw32 op e.seq a b)
  | .inf neg => BitVec.ofNat 32 (Fmt.b32.pack (.inf neg))
  | .fin neg m x => e.flush (BitVec.ofNat 32 (Fmt.b32.pack (.fin neg m x)))

/-- The binary64 result of an operation whose exact value is `v`. -/
def FpEnv.result64 (e : FpEnv) (op : FpOp) (a b : U64) (v : Num) : B64 :=
  match v with
  | .nan => mkNan64 (Config.nanDraw64 op e.seq a b)
  | .inf neg => BitVec.ofNat 64 (Fmt.b64.pack (.inf neg))
  | .fin neg m x => BitVec.ofNat 64 (Fmt.b64.pack (.fin neg m x))

/-- The binary32 operators (R9). -/
def add32 (e : FpEnv) (a b : B32) : B32 :=
  e.result32 .add (a.zeroExtend 64) (b.zeroExtend 64) ((e.num32 a).add (e.num32 b))
def sub32 (e : FpEnv) (a b : B32) : B32 :=
  e.result32 .sub (a.zeroExtend 64) (b.zeroExtend 64) ((e.num32 a).sub (e.num32 b))
def mul32 (e : FpEnv) (a b : B32) : B32 :=
  e.result32 .mul (a.zeroExtend 64) (b.zeroExtend 64) ((e.num32 a).mul (e.num32 b))
def div32 (e : FpEnv) (a b : B32) : B32 :=
  e.result32 .div (a.zeroExtend 64) (b.zeroExtend 64) (Num.div 28 (e.num32 a) (e.num32 b))

/-- The binary32 comparison a < b. -/
def lt32 (e : FpEnv) (a b : B32) : Bool := (e.num32 a).lt (e.num32 b)

/-- The binary64 operators (R9) and the correctly rounded square root (R13). -/
def add64 (e : FpEnv) (a b : B64) : B64 := e.result64 .add a b ((num64 a).add (num64 b))
def sub64 (e : FpEnv) (a b : B64) : B64 := e.result64 .sub a b ((num64 a).sub (num64 b))
def mul64 (e : FpEnv) (a b : B64) : B64 := e.result64 .mul a b ((num64 a).mul (num64 b))
def div64 (e : FpEnv) (a b : B64) : B64 := e.result64 .div a b (Num.div 57 (num64 a) (num64 b))
def sqrt64 (e : FpEnv) (a : B64) : B64 := e.result64 .sqrt a 0#64 (Num.sqrt 57 (num64 a))

/-- The binary64 comparison a < b. -/
def lt64 (a b : B64) : Bool := (num64 a).lt (num64 b)

/-- `f32(v)` and `f64(v)` (R9). -/
def toB32 (e : FpEnv) (v : B64) : B32 := e.result32 .toB32 v 0#64 (num64 v)
def toB64 (e : FpEnv) (v : B32) : B64 := e.result64 .toB64 (v.zeroExtend 64) 0#64 (e.num32 v)

/-- `f64` of an unsigned integer, and the binary32 nearest an unsigned integer. -/
def natB64 (n : Nat) : B64 := BitVec.ofNat 64 (Fmt.b64.pack (.fin false n 0))
def natB32 (n : Nat) : B32 := BitVec.ofNat 32 (Fmt.b32.pack (.fin false n 0))

/-- `clamp(v, lo, hi)` (R11): a NaN goes to the lower bound; a value in range is kept bit for bit. -/
def clamp32 (e : FpEnv) (v lo hi : B32) : B32 :=
  if isNan32 v || lt32 e v lo then lo else if lt32 e hi v then hi else v

/-- The pattern nearest the decimal m / 10^k, as R15 reads a decimal constant. -/
def Fmt.decimal (f : Fmt) (neg : Bool) (m k : Nat) : Nat :=
  f.pack (Num.div (f.fbits + 5) (.fin neg m 0) (.fin false (10 ^ k) 0))

/-- The binary64 and the binary32 nearest the decimal m / 10^k (R15). -/
def dec64 (neg : Bool) (m k : Nat) : B64 := BitVec.ofNat 64 (Fmt.b64.decimal neg m k)
def dec32 (neg : Bool) (m k : Nat) : B32 := BitVec.ofNat 32 (Fmt.b32.decimal neg m k)

end Sys2Proof.Machine
end

