-- ==== Sys2Proof/Machine/Ops.lean ====
section
/-! DEFINITION. The named operations over storage that every command shares: channels and sections, ports, the settings
file, element arrays, FIFOs (43_relay_fifo.md), the end of a command, and raising a fault (60_exceptions.md R292). -/

namespace Sys2Proof.Machine

/-- The component of a channel, and its replacement. -/
def Stereo.get (q : Stereo α) : Chan → α
  | .left => q.left
  | .right => q.right

def Stereo.set (q : Stereo α) (ch : Chan) (v : α) : Stereo α :=
  match ch with
  | .left => { q with left := v }
  | .right => { q with right := v }

/-- The channel's number (00_scope.md R6). -/
def chanNo : Chan → Nat
  | .left => 0
  | .right => 1

/-- The component of a section, its replacement, and a quad given by its sections. -/
def Quad.get (q : Quad α) (i : Fin 4) : α :=
  match i with
  | 0 => q.s0
  | 1 => q.s1
  | 2 => q.s2
  | 3 => q.s3

def Quad.set (q : Quad α) (i : Fin 4) (v : α) : Quad α :=
  match i with
  | 0 => { q with s0 := v }
  | 1 => { q with s1 := v }
  | 2 => { q with s2 := v }
  | 3 => { q with s3 := v }

def Quad.tab (f : Fin 4 → α) : Quad α := ⟨f 0, f 1, f 2, f 3⟩

/-- Element j of an array, if it holds a value. -/
def Cells.read (c : Cells α) (j : Nat) : Option α :=
  match c with
  | [] => none
  | (i, v) :: rest => if i = j then some v else Cells.read rest j

/-- The array with element j replaced by v; the indices stay strictly rising. -/
def Cells.write (c : Cells α) (j : Nat) (v : α) : Cells α :=
  match c with
  | [] => [(j, v)]
  | (i, w) :: rest =>
    if j < i then (j, v) :: (i, w) :: rest
    else if i = j then (j, v) :: rest
    else (i, w) :: Cells.write rest j v

/-- The canonical form: indices strictly rising. -/
def Cells.wf : Cells α → Bool
  | [] => true
  | [_] => true
  | (i, _) :: (j, w) :: rest => decide (i < j) && Cells.wf ((j, w) :: rest)

/-- Every listed index is below a bound. -/
def Cells.below (c : Cells α) (n : Nat) : Bool := c.all fun p => decide (p.1 < n)

/-- The canonical form of one BUF channel or staging block: strictly rising indices below MAXBLK_CAP. -/
def Memory.wf (cap : Nat) (m : Memory) : Bool := Cells.wf m && Cells.below m cap

/-- `MemRead(BUF[ch], j)` (20_memory.md R62). An element nothing has written reads as a draw (10_state.md R33). -/
def memRead (seq : Nat) (ch : Chan) (m : Memory) (j : Nat) : B32 :=
  match m.read j with
  | some v => v
  | none => Config.bufDraw (chanNo ch) j seq

/-- `MemWrite(BUF[ch], j, v)` (R62). -/
def memWrite (m : Memory) (j : Nat) (v : B32) : Memory := m.write j v

/-- `count(Q)` of a FIFO of capacity c (43_relay_fifo.md R191). -/
def Fifo.count (c : Nat) (q : Fifo α) : Nat := (q.wr + 2 * c - q.rd) % (2 * c)

/-- `push(Q, blk)` (R192): a push on a full FIFO changes nothing. -/
def Fifo.push (c : Nat) (q : Fifo α) (blk : α) : Fifo α :=
  if Fifo.count c q = c then q
  else { slots := q.slots.write (q.wr % c) blk, wr := (q.wr + 1) % (2 * c), rd := q.rd }

/-- `pop(Q)` (R193): the oldest block and the FIFO without it, or nothing when it is empty. A slot that holds no value,
which no reachable state has under a read index, gives `dflt` (a draw). -/
def Fifo.pop (c : Nat) (q : Fifo α) (dflt : α) : Option (α × Fifo α) :=
  if Fifo.count c q = 0 then none
  else some ((q.slots.read (q.rd % c)).getD dflt, { q with rd := (q.rd + 1) % (2 * c) })

/-- The FIFO emptied by PREPARE (R200): both indices 0; the slots keep their content. -/
def Fifo.clear (q : Fifo α) : Fifo α := { q with wr := 0, rd := 0 }

/-- The registers of a port, and their replacement. -/
def State.portRegs (s : State) : Port → PortRegs
  | .aud => s.aud
  | .ctl => s.ctl
  | .rnd => s.rnd

def State.setPort (s : State) (p : Port) (r : PortRegs) : State :=
  match p with
  | .aud => { s with aud := r }
  | .ctl => { s with ctl := r }
  | .rnd => { s with rnd := r }

/-- The step position of a port's command moves on. -/
def setPos (p : Port) (pos : Pos) (s : State) : State := s.setPort p { s.portRegs p with pos := pos }

/-- Completion of the command in progress on a port: BUSY[p] becomes false (30_encoding.md R94). -/
def complete (p : Port) (s : State) : State := s.setPort p { s.portRegs p with busy := false, pos := .start }

/-- Completion of a read command: RES[p] holds its result (20_memory.md R77, 30_encoding.md R94). -/
def completeWith (p : Port) (v : U64) (s : State) : State :=
  s.setPort p { s.portRegs p with res := v, busy := false, pos := .start }

/-- The fault causes (60_exceptions.md R291). -/
inductive Cause where
  | illegalCmd
  | badPid
  | notPrepared
  | badRate
  | badMaxBlock
  | blockTooLong
  | degenerateCoeff
  | binIndex
deriving DecidableEq, Repr

/-- The code of a cause (R291). -/
def Cause.code : Cause → Nat
  | .illegalCmd => 1
  | .badPid => 2
  | .notPrepared => 3
  | .badRate => 4
  | .badMaxBlock => 5
  | .blockTooLong => 6
  | .degenerateCoeff => 7
  | .binIndex => 8

/-- `raise Fault(c)` on port p (R292): the sticky record, HALTED for a degenerate coefficient, and the end of the
command. RES[p] is unchanged. -/
def raise (c : Cause) (p : Port) (s : State) : State :=
  complete p
    { s with
      fstat := s.fstat ||| (1#32 <<< c.code)
      first := if s.first = 0#32 then BitVec.ofNat 32 c.code else s.first
      halted := s.halted || decide (c = .degenerateCoeff) }

/-- What a binary32 or binary64 operation takes from the state. -/
def State.env (s : State) : FpEnv := { ftz := s.cfg.ftz, seq := s.draws }

end Sys2Proof.Machine
end

