-- ==== Sys2Proof/Machine/Operands.lean ====
section
/-! DEFINITION. Operand forms (30_encoding.md R81, R83, R84): the argument registers at the widths the commands read
them, the channels a channel select names, and the settings register a PID names. -/

namespace Sys2Proof.Machine

/-- ARG0 of PREPARE: the sample rate, a binary64 pattern (R81). -/
def rateArg (s : State) : B64 := s.aud.arg0

/-- ARG1 of PREPARE: `maxBlockSamples`, u64 (R81). -/
def maxBlockArg (s : State) : Nat := s.aud.arg1.toNat

/-- ARG0 of PROCESS: n, u64 (R81). -/
def blockArg (s : State) : Nat := s.aud.arg0.toNat

/-- ARG0[31:0] of SETP; bits 63:32 are ignored (R81). -/
def valueArg (s : State) : U32 := s.ctl.arg0.extractLsb' 0 32

/-- ARG0 of RDBIN: the bin index, u64 (R81). -/
def binArg (s : State) : Nat := s.rnd.arg0.toNat

/-- The first channel a select acts on, and those after it: LR is channel 0 and then channel 1 (R83). -/
def firstChan : ChanSel → Chan
  | .left => .left
  | .right => .right
  | .both => .left

def restChans : ChanSel → List Chan
  | .left => []
  | .right => []
  | .both => [.right]

/-- The settings parameter a PID field names; 0x0B to 0xFF name none (R84, 10_state.md R23). -/
def Pid.ofByte? (b : BitVec 8) : Option Pid :=
  match b.toNat with
  | 0 => some .peakFreq
  | 1 => some .peakGain
  | 2 => some .peakQ
  | 3 => some .hpFreq
  | 4 => some .lpFreq
  | 5 => some .hpSlope
  | 6 => some .lpSlope
  | 7 => some .hpByp
  | 8 => some .pkByp
  | 9 => some .lpByp
  | 10 => some .specEn
  | _ => none

/-- The number of a parameter (R84). -/
def Pid.byte : Pid → BitVec 8
  | .peakFreq => 0x00#8
  | .peakGain => 0x01#8
  | .peakQ => 0x02#8
  | .hpFreq => 0x03#8
  | .lpFreq => 0x04#8
  | .hpSlope => 0x05#8
  | .lpSlope => 0x06#8
  | .hpByp => 0x07#8
  | .pkByp => 0x08#8
  | .lpByp => 0x09#8
  | .specEn => 0x0A#8

/-- The next parameter in pid order (20_memory.md R71). -/
def Pid.next? : Pid → Option Pid
  | .peakFreq => some .peakGain
  | .peakGain => some .peakQ
  | .peakQ => some .hpFreq
  | .hpFreq => some .lpFreq
  | .lpFreq => some .hpSlope
  | .hpSlope => some .lpSlope
  | .lpSlope => some .hpByp
  | .hpByp => some .pkByp
  | .pkByp => some .lpByp
  | .lpByp => some .specEn
  | .specEn => none

/-- SR[pid], read (R23). -/
def Settings.get (r : Settings) : Pid → U32
  | .peakFreq => r.peakFreq
  | .peakGain => r.peakGain
  | .peakQ => r.peakQ
  | .hpFreq => r.hpFreq
  | .lpFreq => r.lpFreq
  | .hpSlope => r.hpSlope
  | .lpSlope => r.lpSlope
  | .hpByp => r.hpByp
  | .pkByp => r.pkByp
  | .lpByp => r.lpByp
  | .specEn => r.specEn

/-- SR[pid], written whole, any value (45_control.md R260). -/
def Settings.set (r : Settings) (pid : Pid) (v : U32) : Settings :=
  match pid with
  | .peakFreq => { r with peakFreq := v }
  | .peakGain => { r with peakGain := v }
  | .peakQ => { r with peakQ := v }
  | .hpFreq => { r with hpFreq := v }
  | .lpFreq => { r with lpFreq := v }
  | .hpSlope => { r with hpSlope := v }
  | .lpSlope => { r with lpSlope := v }
  | .hpByp => { r with hpByp := v }
  | .pkByp => { r with pkByp := v }
  | .lpByp => { r with lpByp := v }
  | .specEn => { r with specEn := v }

end Sys2Proof.Machine
end

