-- ==== Sys2Proof/Machine/Flags.lean ====
section
/-! DEFINITION. Flags and status (10_state.md R42): EQCORE has no condition codes; its flags are the bits software sets in
SR, the tests commands make on their arguments, and the status word of RDSTAT. -/

namespace Sys2Proof.Machine

/-- A flag register's meaningful bit, bit 0 (45_control.md R265). -/
def flagBit (r : U32) : Bool := r.getLsbD 0

/-- SPEC_EN as RPOLL reads it (45_control.md R276). -/
def specEnabled (s : State) : Bool := flagBit s.sr.specEn

/-- The F_BAD_RATE condition of PREPARE: a NaN, an infinity, or a rate <= 0.0, including -0.0 (45_control.md R269). -/
def badRate (fs : B64) : Bool := !isFinite64 fs || !lt64 0#64 fs

/-- The F_BAD_MAXBLOCK condition of PREPARE (R269). -/
def badMaxBlock (c : Config) (m : Nat) : Bool := m == 0 || decide (c.maxBlkCap < m)

/-- A coefficient set with a NaN or an infinity in it (41_coefficient_factory.md R123). -/
def Coef.degenerate (co : Coef) : Bool :=
  !(isFinite32 co.b0 && isFinite32 co.b1 && isFinite32 co.b2 && isFinite32 co.a1 && isFinite32 co.a2)

/-- The RDSTAT word: bit 31 HALTED, bit 30 PREPARED, bits 19:16 FIRST[3:0], bits 8:0 FSTAT[8:0], the rest zero
(45_control.md R274). -/
def statusWord (halted prepared : Bool) (first fstat : U32) : U32 :=
  BitVec.ofBool halted ++ BitVec.ofBool prepared ++ 0#10 ++ first.extractLsb' 0 4 ++ 0#7 ++ fstat.extractLsb' 0 9

/-- The words that execute while HALTED is true: exactly NOP and RDSTAT (60_exceptions.md R296). -/
def runsWhileHalted (w : U32) : Bool := w == 0x00000000#32 || w == 0x30000000#32

end Sys2Proof.Machine
end

