-- ==== Sys2Proof/Machine/Coefficients.lean ====
section
/-! DEFINITION. The snapshot step (45_control.md R262) and the Coefficient Factory (41_coefficient_factory.md): the design
of every section in binary64, the degeneracy test, and the coefficient step that installs the sets (R126). The design
equations are the spec's own, supplied from general knowledge (93_implementation_defined.md K2 to K7; log entry 16). -/

namespace Sys2Proof.Machine

/-! ### Constants (00_scope.md R15): the binary64 and binary32 values nearest the decimals. -/

def c1 : B64 := 0x3FF0000000000000#64
def c2 : B64 := 0x4000000000000000#64
def cNeg2 : B64 := 0xC000000000000000#64
def c20 : B64 := 0x4034000000000000#64
def cPi : B64 := 0x400921FB54442D18#64
def cTwoPi : B64 := 0x401921FB54442D18#64
def freqLo : B32 := 0x41A00000#32
def freqHi : B32 := 0x469C4000#32
def gainLo : B32 := 0xC1C00000#32
def gainHi : B32 := 0x41C00000#32
def qLo : B32 := 0x3DCCCCCD#32
def qHi : B32 := 0x41200000#32

/-! ### The snapshot -/

/-- The order selector of a slope register: a value above 3 reads as 3 (45_control.md R262, R264). -/
def selector (r : U32) : Fin 4 := if r = 0#32 then 0 else if r = 1#32 then 1 else if r = 2#32 then 2 else 3

/-- One field read of the snapshot step (R262): SNAP with the field of `pid` taken from SR and clamped. -/
def Snap.readField (e : FpEnv) (r : Settings) (sn : Snap) (pid : Pid) : Snap :=
  match pid with
  | .peakFreq => { sn with pf := clamp32 e r.peakFreq freqLo freqHi }
  | .peakGain => { sn with pg := clamp32 e r.peakGain gainLo gainHi }
  | .peakQ => { sn with pq := clamp32 e r.peakQ qLo qHi }
  | .hpFreq => { sn with hf := clamp32 e r.hpFreq freqLo freqHi }
  | .lpFreq => { sn with lf := clamp32 e r.lpFreq freqLo freqHi }
  | .hpSlope => { sn with hs := selector r.hpSlope }
  | .lpSlope => { sn with ls := selector r.lpSlope }
  | .hpByp => { sn with hb := flagBit r.hpByp }
  | .pkByp => { sn with pb := flagBit r.pkByp }
  | .lpByp => { sn with lb := flagBit r.lpByp }
  | .specEn => { sn with se := flagBit r.specEn }

/-- Every parameter, in pid order (20_memory.md R71). -/
def Pid.all : List Pid :=
  [.peakFreq, .peakGain, .peakQ, .hpFreq, .lpFreq, .hpSlope, .lpSlope, .hpByp, .pkByp, .lpByp, .specEn]

/-- `snapshot()` with no other agent between its eleven reads (R262). -/
def takeSnapshot (s : State) : State :=
  { s with snap := Pid.all.foldl (Snap.readField s.env s.sr) s.snap }

/-- One of the eleven atomic reads of a PROCESS snapshot. -/
def takeField (pid : Pid) (s : State) : State := { s with snap := s.snap.readField s.env s.sr pid }

/-! ### The designs -/

/-- The Nyquist clamp `fclamp` (R112). -/
def fclamp (e : FpEnv) (c : Config) (fs : B64) (f : B32) : B64 :=
  let fe := toB64 e f
  let lim := mul64 e c.nyqRatio fs
  if lt64 lim fe then lim else fe

/-- POW10 (00_scope.md R13): at a zero of either sign it is 1.0, as R117(a) says of the gain 0.0 and 95_test_vectors.md
V-CF-2 of -0.0; elsewhere the configuration function (log entry 10). -/
def pow10 (x : B64) : B64 := if x = 0#64 ∨ x = 0x8000000000000000#64 then c1 else Config.POW10 x

/-- The peak section (R113 to R116). -/
def peakCoeffs (e : FpEnv) (c : Config) (fs : B64) (pf pg pq : B32) : Coef :=
  let g := pow10 (div64 e (toB64 e pg) c20)
  let a := sqrt64 e g
  let f := fclamp e c fs pf
  let q := toB64 e pq
  let w := div64 e (mul64 e cTwoPi f) fs
  let sn := Config.SIN w
  let cs := Config.COS w
  let alpha := div64 e sn (mul64 e c2 q)
  let aA := mul64 e alpha a
  let aoA := div64 e alpha a
  let b0 := add64 e c1 aA
  let b1 := mul64 e cNeg2 cs
  let b2 := sub64 e c1 aA
  let a0 := add64 e c1 aoA
  let a1 := mul64 e cNeg2 cs
  let a2 := sub64 e c1 aoA
  { b0 := toB32 e (div64 e b0 a0), b1 := toB32 e (div64 e b1 a0), b2 := toB32 e (div64 e b2 a0),
    a1 := toB32 e (div64 e a1 a0), a2 := toB32 e (div64 e a2 a0) }

/-- The Butterworth section Q of order n = 2k, section i (R119). -/
def bwq (e : FpEnv) (n i : Nat) : B64 :=
  div64 e c1 (mul64 e c2 (Config.COS (div64 e (mul64 e (natB64 (2 * i + 1)) cPi) (natB64 (2 * n)))))

/-- The pre-warped frequency K of R120 and R121: TAN((PI * f) / FS). -/
def prewarp (e : FpEnv) (c : Config) (fs : B64) (f : B32) : B64 :=
  Config.TAN (div64 e (mul64 e cPi (fclamp e c fs f)) fs)

/-- The scale factor c1 of R120 and R121 from n and 1/Q. -/
def sectionScale (e : FpEnv) (n iq : B64) : B64 :=
  div64 e c1 (add64 e (add64 e c1 (mul64 e iq n)) (mul64 e n n))

/-- The last coefficient of R120 and R121: c1 * ((1 - iq*n) + n2). -/
def sectionA2 (e : FpEnv) (n iq : B64) : B64 :=
  mul64 e (sectionScale e n iq) (add64 e (sub64 e c1 (mul64 e iq n)) (mul64 e n n))

/-- A high-pass section with cutoff hf and quality q (R120). -/
def hpSection (e : FpEnv) (c : Config) (fs : B64) (hf : B32) (q : B64) : Coef :=
  let n := prewarp e c fs hf
  let iq := div64 e c1 q
  let n2 := mul64 e n n
  let k := sectionScale e n iq
  { b0 := toB32 e k, b1 := toB32 e (mul64 e cNeg2 k), b2 := toB32 e k,
    a1 := toB32 e (mul64 e (mul64 e c2 k) (sub64 e n2 c1)), a2 := toB32 e (sectionA2 e n iq) }

/-- A low-pass section with cutoff lf and quality q (R121). -/
def lpSection (e : FpEnv) (c : Config) (fs : B64) (lf : B32) (q : B64) : Coef :=
  let n := div64 e c1 (prewarp e c fs lf)
  let iq := div64 e c1 q
  let n2 := mul64 e n n
  let k := sectionScale e n iq
  { b0 := toB32 e k, b1 := toB32 e (mul64 e c2 k), b2 := toB32 e k,
    a1 := toB32 e (mul64 e (mul64 e c2 k) (sub64 e c1 n2)), a2 := toB32 e (sectionA2 e n iq) }

/-- The active section count of a selector, k = selector + 1 (R118). -/
def activeCount (s : Fin 4) : Nat := s.val + 1

/-- The candidates of the high-pass stage: sections 0 to k-1, none for the slots beyond (R122). -/
def hpCands (e : FpEnv) (c : Config) (fs : B64) (sn : Snap) : Quad (Option Coef) :=
  Quad.tab fun i =>
    if i.val < activeCount sn.hs then some (hpSection e c fs sn.hf (bwq e (2 * activeCount sn.hs) i.val)) else none

/-- The candidates of the low-pass stage (R122). -/
def lpCands (e : FpEnv) (c : Config) (fs : B64) (sn : Snap) : Quad (Option Coef) :=
  Quad.tab fun i =>
    if i.val < activeCount sn.ls then some (lpSection e c fs sn.lf (bwq e (2 * activeCount sn.ls) i.val)) else none

/-- The candidate of the peak section (R126). -/
def pkCand (e : FpEnv) (c : Config) (fs : B64) (sn : Snap) : Coef := peakCoeffs e c fs sn.pf sn.pg sn.pq

/-! ### Installation -/

/-- A slot's candidate is degenerate. -/
def candDegenerate : Option Coef → Bool
  | none => false
  | some co => co.degenerate

/-- Some candidate of a stage is degenerate. -/
def Quad.anyDegenerate (q : Quad (Option Coef)) : Bool :=
  candDegenerate q.s0 || candDegenerate q.s1 || candDegenerate q.s2 || candDegenerate q.s3

/-- The set a slot holds after the coefficient step: a degenerate candidate leaves it, no candidate leaves it, any other
replaces it whole (R124, R126). -/
def installSet (old : Coef) : Option Coef → Coef
  | none => old
  | some co => if co.degenerate then old else co

/-- The degenerate flag of a slot after the coefficient step (R124, R126). -/
def installFlag (old : Bool) : Option Coef → Bool
  | none => old
  | some co => co.degenerate

/-- A whole stage installed. -/
def installSets (old : Quad Coef) (cand : Quad (Option Coef)) : Quad Coef :=
  Quad.tab fun i => installSet (old.get i) (cand.get i)
def installFlags (old : Quad Bool) (cand : Quad (Option Coef)) : Quad Bool :=
  Quad.tab fun i => installFlag (old.get i) (cand.get i)

/-- The bank after the coefficient step (R126). The history bank is no part of it (R127), and the bypass flags do not
keep a stage from getting its sets (R128). -/
def installBank (e : FpEnv) (c : Config) (fs : B64) (sn : Snap) (b : Bank) : Bank :=
  { cpk := installSet b.cpk (some (pkCand e c fs sn)),
    chp := installSets b.chp (hpCands e c fs sn),
    clp := installSets b.clp (lpCands e c fs sn),
    dgpk := installFlag b.dgpk (some (pkCand e c fs sn)),
    dghp := installFlags b.dghp (hpCands e c fs sn),
    dglp := installFlags b.dglp (lpCands e c fs sn),
    actHp := activeCount sn.hs, actLp := activeCount sn.ls,
    bypHp := sn.hb, bypPk := sn.pb, bypLp := sn.lb }

/-- Some candidate of the coefficient step is degenerate (R125, R126). -/
def someDegenerate (e : FpEnv) (c : Config) (fs : B64) (sn : Snap) : Bool :=
  (pkCand e c fs sn).degenerate || (hpCands e c fs sn).anyDegenerate || (lpCands e c fs sn).anyDegenerate

/-- The arithmetic of the designs: a NaN in a design depends on the operation and its operands alone, so that the same
(SNAP, FS) always yields the same sets (R111). No NaN is ever installed (R123). -/
def designEnv (c : Config) : FpEnv := { ftz := c.ftz, seq := 0 }

/-- The coefficient step faults: DEGEN_POLICY = FAULT and some candidate is degenerate (R125). -/
def coefFaults (fs : B64) (s : State) : Bool :=
  decide (s.cfg.degenPolicy = .fault) && someDegenerate (designEnv s.cfg) s.cfg fs s.snap

/-- The coefficient step where it does not fault (R126). -/
def coefStep (fs : B64) (s : State) : State := { s with bank := installBank (designEnv s.cfg) s.cfg fs s.snap s.bank }

end Sys2Proof.Machine
end

