-- ==== Sys2Proof/Machine/Filter.lean ====
section
/-! DEFINITION. Biquad sections, stages, the channel chain, sample staging, and PROCESS (42_filter_chain.md,
43_relay_fifo.md R198). -/

namespace Sys2Proof.Machine

/-- The section step, Direct Form I, every operation rounded once in this order (R150). -/
def sectionStep (e : FpEnv) (co : Coef) (h : Hist) (x : B32) : B32 :=
  let t0 := mul32 e co.b0 x
  let t1 := add32 e t0 (mul32 e co.b1 h.x1)
  let t2 := add32 e t1 (mul32 e co.b2 h.x2)
  let t3 := sub32 e t2 (mul32 e co.a1 h.y1)
  sub32 e t3 (mul32 e co.a2 h.y2)

/-- The history update after a section step (R151). -/
def Hist.shift (h : Hist) (x y : B32) : Hist := { x1 := x, x2 := h.x1, y1 := y, y2 := h.y1 }

/-- A processed section: its output and its new history. -/
def runSection (e : FpEnv) (co : Coef) (h : Hist) (x : B32) : B32 × Hist :=
  (sectionStep e co h x, h.shift x (sectionStep e co h x))

/-- A cut stage on its sections (R154): in increasing index, those below the active count and not flagged are processed;
the others pass the sample through and keep their history (R153). -/
def cutSections (e : FpEnv) (act : Nat) (dg : Quad Bool) (co : Quad Coef) : List (Fin 4) → B32 × Quad Hist → B32 × Quad Hist
  | [], vh => vh
  | i :: rest, (v, h) =>
    if decide (i.val < act) && !dg.get i then
      let r := runSection e (co.get i) (h.get i) v
      cutSections e act dg co rest (r.1, h.set i r.2)
    else cutSections e act dg co rest (v, h)

/-- A cut stage: bypassed as a whole, or its sections (R154). -/
def cutStage (e : FpEnv) (byp : Bool) (act : Nat) (dg : Quad Bool) (co : Quad Coef) (h : Quad Hist) (x : B32) :
    B32 × Quad Hist :=
  if byp then (x, h) else cutSections e act dg co [0, 1, 2, 3] (x, h)

/-- The peak stage (R155). -/
def pkStage (e : FpEnv) (b : Bank) (h : Hist) (x : B32) : B32 × Hist :=
  if b.bypPk || b.dgpk then (x, h) else runSection e b.cpk h x

/-- The channel chain: high-pass, peak, low-pass (R156). -/
def chain (e : FpEnv) (b : Bank) (h : ChanHist) (x : B32) : B32 × ChanHist :=
  let hp := cutStage e b.bypHp b.actHp b.dghp b.chp h.hp x
  let pk := pkStage e b h.pk hp.1
  let lp := cutStage e b.bypLp b.actLp b.dglp b.clp h.lp pk.1
  (lp.1, { hp := hp.2, pk := pk.2, lp := lp.2 })

/-- The FILT loop of one channel: `n` samples from element `j` on, in place (R160 S3). Sample j draws under counter
`seq` + j, the same for both channels (log entry 3). -/
def filtLoop (e : FpEnv) (b : Bank) (ch : Chan) : Nat → Nat → Memory × ChanHist → Memory × ChanHist
  | 0, _, mh => mh
  | n + 1, j, (m, h) =>
    let ej : FpEnv := { e with seq := e.seq + j }
    let r := chain ej b h (memRead ej.seq ch m j)
    filtLoop e b ch n (j + 1) (memWrite m j r.1, r.2)

/-- FILT of one channel. -/
def filtChan (n : Nat) (ch : Chan) (s : State) : State :=
  let r := filtLoop s.env s.bank ch n 0 (s.buf.get ch, s.hist.get ch)
  { s with buf := s.buf.set ch r.1, hist := s.hist.set ch r.2 }

/-- FILT: channel 0, then channel 1 (R160 S3, R161). -/
def filtStep (n : Nat) (s : State) : State :=
  let s1 := filtChan n .right (filtChan n .left s)
  { s1 with draws := s1.draws + n }

/-- The staged block RSTG[ch][0..N-1] as a relay block. An element nothing has staged, which no reachable push has, is a
draw (10_state.md R34). -/
def stagedBlock (seq : Nat) (ch : Chan) (n : Nat) (m : Memory) : List B32 :=
  (List.range n).map fun j => (m.read j).getD (Config.relayDraw (chanNo ch) j seq)

/-- `relay_stage(ch, v)` (43_relay_fifo.md R198): stage one sample; a full staging block is pushed, and the index
returns to 0 whether the push published or was dropped (R199). -/
def relaySample (c : Config) (seq : Nat) (ch : Chan) (n : Nat) (r : RelayCh) (v : B32) : RelayCh :=
  let stg := r.stg.write r.idx v
  if r.idx + 1 = n then { stg := stg, idx := 0, fifo := Fifo.push c.cRelay r.fifo (stagedBlock seq ch n stg) }
  else { r with stg := stg, idx := r.idx + 1 }

/-- The RELAY loop of one channel: `k` samples of BUF[ch] from element `j` on (R160 S4). -/
def relayLoop (c : Config) (seq : Nat) (ch : Chan) (n : Nat) (m : Memory) : Nat → Nat → RelayCh → RelayCh
  | 0, _, r => r
  | k + 1, j, r => relayLoop c seq ch n m k (j + 1) (relaySample c seq ch n r (memRead seq ch m j))

/-- RELAY of one channel: one atomic step, since only its push can be observed and there is at most one (R162, R198). -/
def relayChan (n : Nat) (ch : Chan) (s : State) : State :=
  { s with relay := s.relay.set ch (relayLoop s.cfg s.draws ch s.maxblk (s.buf.get ch) n 0 (s.relay.get ch)) }

/-- The first-step check of PROCESS, in the order of R159: the fault it raises, if any. -/
def processCheck (s : State) : Option Cause :=
  if !s.prepared then some .notPrepared else if s.maxblk < blockArg s then some .blockTooLong else none

/-- S3 and S4 of PROCESS with no other agent between its steps. -/
def processBody (n : Nat) (s : State) : State := relayChan n .right (relayChan n .left (filtStep n s))

/-- PROCESS, all its steps (R158 to R163): the check, the snapshot, the coefficient step, FILT, RELAY. A degenerate fault
leaves nothing changed but SNAP and the fault record (R159, 60_exceptions.md R293). -/
def execProcess (s : State) : Host.Outcome State Fault Refusal :=
  match processCheck s with
  | some c => .next (raise c .aud s)
  | none =>
    if coefFaults s.fs (takeSnapshot s) then .next (raise .degenerateCoeff .aud (takeSnapshot s))
    else .next (complete .aud (processBody (blockArg s) (coefStep s.fs (takeSnapshot s))))

/-! ### The atomic steps of PROCESS (R160): each is one step of the port's command, to which `Pos` points. -/

/-- The check. -/
def processFirst (s : State) : State :=
  match processCheck s with
  | some c => raise c .aud s
  | none => setPos .aud (.procSnap .peakFreq) s

/-- One field read of the snapshot. -/
def processSnap (pid : Pid) (s : State) : State :=
  setPos .aud (match pid.next? with | some q => .procSnap q | none => .procCoef) (takeField pid s)

/-- The coefficient step. -/
def processCoef (s : State) : State :=
  if coefFaults s.fs s then raise .degenerateCoeff .aud s else setPos .aud .procFilt (coefStep s.fs s)

/-- FILT. -/
def processFilt (s : State) : State := setPos .aud (.procRelay .left) (filtStep (blockArg s) s)

/-- RELAY of one channel; that of channel 1 ends the command. -/
def processRelay (ch : Chan) (s : State) : State :=
  match ch with
  | .left => setPos .aud (.procRelay .right) (relayChan (blockArg s) .left s)
  | .right => complete .aud (relayChan (blockArg s) .right s)

end Sys2Proof.Machine
end

