-- ==== Sys2Proof/Machine/Spectrum.lean ====
section
/-! DEFINITION. The Spectrum Data Generator and the commands of port RND: RPOLL, SDRAIN, RDBIN, RDMETA, RDOCC
(44_spectrum.md). -/

namespace Sys2Proof.Machine

/-! ### The transform -/

/-- The four-term Blackman-Harris taper before scaling, sample j of L (R226). -/
def rawWindow (e : FpEnv) (l j : Nat) : B64 :=
  let ang (m : B64) : B64 := Config.COS (div64 e (mul64 e (mul64 e m cPi) (natB64 j)) (natB64 (l - 1)))
  sub64 e (add64 e (sub64 e 0x3FD6F5C28F5C28F6#64 (mul64 e 0x3FDF4024B33DAF8E#64 (ang c2)))
    (mul64 e 0x3FC2157689CA18BD#64 (ang 0x4010000000000000#64)))
    (mul64 e 0x3F87EBAF102363B2#64 (ang 0x4018000000000000#64))

/-- S, the sum of the raw taper in increasing j (R226). -/
def rawWindowSum (e : FpEnv) (l : Nat) : B64 :=
  (List.range (l - 1)).foldl (fun s j => add64 e s (rawWindow e l (j + 1))) (rawWindow e l 0)

/-- WINDOW[j] of the default table: the raw taper scaled so that it sums to L (R226). -/
def defaultWindow (e : FpEnv) (l : Nat) : List B32 :=
  let scale := div64 e (natB64 l) (rawWindowSum e l)
  (List.range l).map fun j => toB32 e (mul64 e (rawWindow e l j) scale)

/-- The WINDOW table of a configuration (R226, 00_scope.md R6). It is computed once for a machine, so no draw of a
run's counter enters it. -/
def windowTable (c : Config) : List B32 :=
  match c.window with
  | some t => t
  | none => defaultWindow { ftz := c.ftz, seq := 0 } c.len

/-- The windowed samples xw[j] = WIN[ch][j] * WINDOW[j] (R226). -/
def windowed (e : FpEnv) (c : Config) (win : List B32) : List B32 :=
  (List.range c.len).map fun j => mul32 e (win.getD j 0#32) ((windowTable c).getD j 0#32)

/-- `clampfin`: a non-finite value becomes +0.0 (R228, R230). -/
def clampFin (v : B32) : B32 := if isFinite32 v then v else 0#32

/-- `db(v)` (R229). -/
def decibel (e : FpEnv) (c : Config) (v : B32) : B32 :=
  if lt32 e 0#32 v then
    let d := toB32 e (mul64 e c20 (Config.LOG10 (toB64 e v)))
    if lt32 e d c.dbFloor then c.dbFloor else d
  else c.dbFloor

/-- `transform(ch)` (R230) on a window buffer. -/
def transform (e : FpEnv) (c : Config) (fs : B64) (win : List B32) : Spectrum :=
  let xw := windowed e c win
  { db := (List.range c.nbins).map fun k =>
      decibel e c (clampFin (div32 e (Config.FFT_MAG c.fftOrder xw k) (natB32 c.nbins))),
    binw := div64 e fs (natB64 c.len) }

/-- `shift_in` (R224): the last L samples of the window followed by the block. -/
def shiftIn (l : Nat) (win blk : List B32) : List B32 := (win ++ blk).drop (win.length + blk.length - l)

/-! ### RPOLL -/

/-- What a popped block does to the spectrum state of its channel when the spectrum is enabled (R222): shift in, count,
and at HOP or more new samples transform and push. -/
def feedBlock (e : FpEnv) (c : Config) (fs : B64) (n : Nat) (sp : SpecCh) (blk : List B32) : SpecCh :=
  let win := shiftIn c.len sp.win blk
  if c.hop ≤ sp.newcnt + n then
    { sp with win := win, newcnt := 0, fifo := Fifo.push c.cSpec sp.fifo (transform e c fs win) }
  else { sp with win := win, newcnt := sp.newcnt + n }

/-- The content of a relay slot nothing has pushed to: a draw (10_state.md R35). -/
def relaySlotDraw (seq : Nat) (ch : Chan) (n : Nat) : List B32 :=
  (List.range n).map fun j => Config.relayDraw (chanNo ch) j seq

/-- One pop step of RPOLL on a channel, with the shift, count and transform of its block (R222); with the spectrum
disabled the block is discarded (R223). -/
def pollBlock (se : Bool) (ch : Chan) (s : State) : State :=
  match Fifo.pop s.cfg.cRelay (s.relay.get ch).fifo (relaySlotDraw s.draws ch s.maxblk) with
  | none => s
  | some (blk, q) =>
    let s1 := { s with relay := s.relay.set ch { s.relay.get ch with fifo := q } }
    if se then
      { s1 with
        spec := s1.spec.set ch (feedBlock s1.env s1.cfg s1.fs s1.maxblk (s1.spec.get ch) blk),
        draws := s1.draws + 1 }
    else s1

/-- `m` pop steps. -/
def pollBlocks (se : Bool) (ch : Chan) : Nat → State → State
  | 0, s => s
  | m + 1, s => pollBlocks se ch m (pollBlock se ch s)

/-- The number of blocks in the relay of a channel (43_relay_fifo.md R191). -/
def relayCount (s : State) (ch : Chan) : Nat := Fifo.count s.cfg.cRelay (s.relay.get ch).fifo

/-- RPOLL's drain of one channel: the count, then that many pops (R222). -/
def pollChan (se : Bool) (s : State) (ch : Chan) : State := pollBlocks se ch (relayCount s ch) s

/-- RPOLL, all its steps (R221 to R225): SPEC_EN is read once, then each selected channel is drained. -/
def execRpoll (c : ChanSel) (s : State) : Host.Outcome State Fault Refusal :=
  .next (complete .rnd ((firstChan c :: restChans c).foldl (pollChan (specEnabled s)) s))

/-! ### SDRAIN -/

/-- The content of a spectrum slot nothing has pushed to: a draw (10_state.md R37). -/
def specSlotDraw (c : Config) (seq : Nat) (ch : Chan) : Spectrum :=
  { db := (List.range c.nbins).map fun k => Config.specDbDraw (chanNo ch) k seq,
    binw := Config.specBinwDraw (chanNo ch) seq }

/-- One pop step of SDRAIN; the last one (`last`) makes LATEST the snapshot it pops (R231). -/
def drainOne (last : Bool) (ch : Chan) (s : State) : State :=
  match Fifo.pop s.cfg.cSpec (s.spec.get ch).fifo (specSlotDraw s.cfg s.draws ch) with
  | none => s
  | some (snap, q) =>
    { s with
      spec := s.spec.set ch
        { s.spec.get ch with
          fifo := q,
          latest := if last then { valid := true, db := snap.db, binw := snap.binw } else (s.spec.get ch).latest } }

/-- `m` pop steps, the last of them the last of the drain. -/
def drainMany (ch : Chan) : Nat → State → State
  | 0, s => s
  | m + 1, s => drainMany ch m (drainOne (m == 0) ch s)

/-- The number of snapshots in the spectrum FIFO of a channel. -/
def specCount (s : State) (ch : Chan) : Nat := Fifo.count s.cfg.cSpec (s.spec.get ch).fifo

/-- SDRAIN's drain of one channel (R231). -/
def drainChan (s : State) (ch : Chan) : State := drainMany ch (specCount s ch) s

/-- SDRAIN, all its steps (R231, R232). -/
def execSdrain (c : ChanSel) (s : State) : Host.Outcome State Fault Refusal :=
  .next (complete .rnd ((firstChan c :: restChans c).foldl drainChan s))

/-! ### The atomic steps of RPOLL and SDRAIN -/

/-- After a channel of RPOLL: the next channel's count, or the end. -/
def pollNext (se : Bool) (rest : List Chan) (s : State) : State :=
  match rest with
  | [] => complete .rnd s
  | ch :: more => setPos .rnd (.rpollCount se ch more) s

/-- RPOLL's first step: the SPEC_EN read (R222). -/
def pollFirst (c : ChanSel) (s : State) : State := setPos .rnd (.rpollCount (specEnabled s) (firstChan c) (restChans c)) s

/-- RPOLL's count step of a channel. -/
def pollCountStep (se : Bool) (ch : Chan) (rest : List Chan) (s : State) : State :=
  match relayCount s ch with
  | 0 => pollNext se rest s
  | m + 1 => setPos .rnd (.rpollPop se ch m rest) s

/-- RPOLL's pop step of a channel, with `more` pops after it. -/
def pollPopStep (se : Bool) (ch : Chan) (more : Nat) (rest : List Chan) (s : State) : State :=
  match more with
  | 0 => pollNext se rest (pollBlock se ch s)
  | m + 1 => setPos .rnd (.rpollPop se ch m rest) (pollBlock se ch s)

/-- After a channel of SDRAIN: the next channel's count, or the end. -/
def drainNext (rest : List Chan) (s : State) : State :=
  match rest with
  | [] => complete .rnd s
  | ch :: more => setPos .rnd (.sdrainCount ch more) s

/-- SDRAIN's count step of a channel; its first step is that of its first channel. -/
def drainCountStep (ch : Chan) (rest : List Chan) (s : State) : State :=
  match specCount s ch with
  | 0 => drainNext rest s
  | m + 1 => setPos .rnd (.sdrainPop ch m rest) s

/-- SDRAIN's pop step of a channel, with `more` pops after it. -/
def drainPopStep (ch : Chan) (more : Nat) (rest : List Chan) (s : State) : State :=
  match more with
  | 0 => drainNext rest (drainOne true ch s)
  | m + 1 => setPos .rnd (.sdrainPop ch m rest) (drainOne false ch s)

/-! ### Reads -/

/-- RDBIN (R233). -/
def execRdbin (c : Chan) (s : State) : Host.Outcome State Fault Refusal :=
  if s.cfg.nbins ≤ binArg s then .next (raise .binIndex .rnd s)
  else
    let l := (s.spec.get c).latest
    .next (completeWith .rnd
      ((if l.valid then l.db.getD (binArg s) s.cfg.dbFloor else s.cfg.dbFloor).zeroExtend 64) s)

/-- The RDMETA result (R234): 0 for every selector while there is no valid spectrum. -/
def metaWord (c : Config) (l : Latest) (sel : MetaSel) : U64 :=
  if l.valid then
    match sel with
    | .valid => 1#64
    | .bins => BitVec.ofNat 64 c.nbins
    | .binw => l.binw
  else 0#64

/-- RDMETA (R234). -/
def execRdmeta (c : Chan) (sel : MetaSel) (s : State) : Host.Outcome State Fault Refusal :=
  .next (completeWith .rnd (metaWord s.cfg (s.spec.get c).latest sel) s)

/-- RDOCC (R235). -/
def execRdocc (c : Chan) (sel : OccSel) (s : State) : Host.Outcome State Fault Refusal :=
  .next (completeWith .rnd
    (BitVec.ofNat 64 (match sel with | .relay => relayCount s c | .spec => specCount s c)) s)

end Sys2Proof.Machine
end

