-- ==== Sys2Proof/Machine/Control.lean ====
section
/-! DEFINITION. The settings, transport and status commands: SETP, RDP, RDGEN, PREPARE, RDSTAT, NOP (45_control.md). -/

namespace Sys2Proof.Machine

/-- NOP: no effect but its completion (R275). -/
def execNop (p : Port) (s : State) : Host.Outcome State Fault Refusal := .next (complete p s)

/-- SETP (R261): the register write and the GEN increment are one step. -/
def execSetp (pid : BitVec 8) (s : State) : Host.Outcome State Fault Refusal :=
  match Pid.ofByte? pid with
  | none => .next (raise .badPid .ctl s)
  | some r => .next (complete .ctl { s with sr := s.sr.set r (valueArg s), gen := s.gen + 1#32 })

/-- RDP (R266): the raw stored value. -/
def execRdp (pid : BitVec 8) (s : State) : Host.Outcome State Fault Refusal :=
  match Pid.ofByte? pid with
  | none => .next (raise .badPid .ctl s)
  | some r => .next (completeWith .ctl ((s.sr.get r).zeroExtend 64) s)

/-- RDGEN (R268). -/
def execRdgen (p : Port) (s : State) : Host.Outcome State Fault Refusal :=
  .next (completeWith p (s.gen.zeroExtend 64) s)

/-- RDSTAT (R274). -/
def execRdstat (p : Port) (s : State) : Host.Outcome State Fault Refusal :=
  .next (completeWith p ((statusWord s.halted s.prepared s.first s.fstat).zeroExtend 64) s)

/-! ### PREPARE -/

/-- The first-step check of PREPARE, in the order of R269. -/
def prepareCheck (s : State) : Option Cause :=
  if badRate (rateArg s) then some .badRate
  else if badMaxBlock s.cfg (maxBlockArg s) then some .badMaxBlock
  else none

/-- The relay of one channel emptied (R270, 43_relay_fifo.md R200): the contents stay, unobservable. -/
def clearRelay (r : RelayCh) : RelayCh := { r with idx := 0, fifo := r.fifo.clear }

/-- The spectrum state of one channel cleared (R270). -/
def clearSpec (c : Config) (sp : SpecCh) : SpecCh :=
  { win := List.replicate c.len 0#32, newcnt := 0, fifo := sp.fifo.clear, latest := { sp.latest with valid := false } }

/-- The writes of PREPARE's global step after its coefficient step (R270). -/
def prepareWrites (fs : B64) (m : Nat) (s : State) : State :=
  { s with
    fs := fs, maxblk := m, prepared := true, hist := ⟨ChanHist.zero, ChanHist.zero⟩,
    relay := ⟨clearRelay s.relay.left, clearRelay s.relay.right⟩,
    spec := ⟨clearSpec s.cfg s.spec.left, clearSpec s.cfg s.spec.right⟩ }

/-- PREPARE's global step (R270). Under the FAULT policy a degenerate candidate leaves every piece of state but the fault
record as it was (log entry 14). -/
def prepareGlobal (s : State) : State :=
  if coefFaults (rateArg s) (takeSnapshot s) then raise .degenerateCoeff .aud s
  else complete .aud (prepareWrites (rateArg s) (maxBlockArg s) (coefStep (rateArg s) (takeSnapshot s)))

/-- PREPARE, all its steps (R269 to R273): the check; while RND is busy it holds (R271), otherwise the global step. -/
def execPrepare (s : State) : Host.Outcome State Fault Refusal :=
  match prepareCheck s with
  | some c => .next (raise c .aud s)
  | none => if s.rnd.busy then .next (setPos .aud .prepHold s) else .next (prepareGlobal s)

/-- PREPARE's first atomic step: the check, then the hold. -/
def prepareFirst (s : State) : State :=
  match prepareCheck s with
  | some c => raise c .aud s
  | none => setPos .aud .prepHold s

/-- PREPARE's later steps: it stays in the hold while RND is busy, then takes the global step (R271). BUSY[RND] is tested
at each of them, so a new RND command issued before the next one extends the hold; 20_memory.md R74 and R271 leave that open
(DESIGN CHOICE, log entry 25). -/
def prepareHeld (s : State) : State := if s.rnd.busy then s else prepareGlobal s

end Sys2Proof.Machine
end

