-- ==== Sys2Proof/Machine/Dispatch.lean ====
section
/-! DEFINITION. The meaning of every command: one arm per constructor of Instr. -/

namespace Sys2Proof.Machine

def exec (i : Instr) (s : State) : Host.Outcome State Fault Refusal :=
  match i with
  | .nop p => Sys2Proof.Machine.execNop p s
  | .prepare => Sys2Proof.Machine.execPrepare s
  | .process => Sys2Proof.Machine.execProcess s
  | .setp pid => Sys2Proof.Machine.execSetp pid s
  | .rdp pid => Sys2Proof.Machine.execRdp pid s
  | .rpoll c => Sys2Proof.Machine.execRpoll c s
  | .sdrain c => Sys2Proof.Machine.execSdrain c s
  | .rdbin c => Sys2Proof.Machine.execRdbin c s
  | .rdmeta c sel => Sys2Proof.Machine.execRdmeta c sel s
  | .rdgen p => Sys2Proof.Machine.execRdgen p s
  | .rdocc c sel => Sys2Proof.Machine.execRdocc c sel s
  | .rdstat p => Sys2Proof.Machine.execRdstat p s

end Sys2Proof.Machine
end

