-- ==== Sys2Proof/Machine/Sched.lean ====
section
/-! DEFINITION. Ports taking steps, and the moves of the agents outside the block (20_memory.md R69, 30_encoding.md R94,
60_exceptions.md R296). Machine/Step.lean only calls what stands here. -/

namespace Sys2Proof.Machine

/-- Fetching a command: CMD[p] decoded for its port (R88, R94). -/
def fetch (p : Port) (s : State) : Except Reject Instr := decode (s.portRegs p).cmd p

/-- The first atomic step of a command. A command of one step takes it whole. -/
def firstStep (i : Instr) (s : State) : Host.Outcome State Fault Refusal :=
  match i with
  | .prepare => .next (prepareFirst s)
  | .process => .next (processFirst s)
  | .rpoll c => .next (pollFirst c s)
  | .sdrain c => .next (drainCountStep (firstChan c) (restChans c) s)
  | .nop p => exec (.nop p) s
  | .setp pid => exec (.setp pid) s
  | .rdp pid => exec (.rdp pid) s
  | .rdbin c => exec (.rdbin c) s
  | .rdmeta c sel => exec (.rdmeta c sel) s
  | .rdgen p => exec (.rdgen p) s
  | .rdocc c sel => exec (.rdocc c sel) s
  | .rdstat p => exec (.rdstat p) s

/-- The next atomic step of the command in progress on port p. An idle port has none. A word that does not decode
raises F_ILLEGAL_CMD at its first step (R88, 60_exceptions.md R293). -/
def advancePort (p : Port) (s : State) : Host.Outcome State Fault Refusal :=
  if (s.portRegs p).busy then
    match (s.portRegs p).pos with
    | .start =>
      match fetch p s with
      | .error _ => .next (raise .illegalCmd p s)
      | .ok i => firstStep i s
    | .prepHold => .next (prepareHeld s)
    | .procSnap pid => .next (processSnap pid s)
    | .procCoef => .next (processCoef s)
    | .procFilt => .next (processFilt s)
    | .procRelay ch => .next (processRelay ch s)
    | .rpollCount se ch rest => .next (pollCountStep se ch rest s)
    | .rpollPop se ch more rest => .next (pollPopStep se ch more rest s)
    | .sdrainCount ch rest => .next (drainCountStep ch rest s)
    | .sdrainPop ch more rest => .next (drainPopStep ch more rest s)
  else .next s

/-- A command that has taken no step yet runs whole: exec of what CMD[p] decodes to. One in progress takes its next
atomic step (log entry 7). -/
def runPort (p : Port) (s : State) : Host.Outcome State Fault Refusal :=
  if (s.portRegs p).busy && (s.portRegs p).pos == .start then
    match fetch p s with
    | .error _ => .next (raise .illegalCmd p s)
    | .ok i => exec i s
  else advancePort p s

/-- The agent's write of ARG0[p] or ARG1[p], whole, while the port is idle (10_state.md R22, 20_memory.md R65). -/
def writeArg0 (p : Port) (v : U64) (s : State) : Host.Outcome State Fault Refusal :=
  if (s.portRegs p).busy then .refused .portBusy else .next (s.setPort p { s.portRegs p with arg0 := v })

def writeArg1 (p : Port) (v : U64) (s : State) : Host.Outcome State Fault Refusal :=
  if (s.portRegs p).busy then .refused .portBusy else .next (s.setPort p { s.portRegs p with arg1 := v })

/-- The agent's write of CMD[p], which is the issue (R94). While HALTED, a word other than NOP and RDSTAT completes at
once with no effect, undecoded (60_exceptions.md R296). -/
def writeCmd (p : Port) (w : U32) (s : State) : Host.Outcome State Fault Refusal :=
  if (s.portRegs p).busy then .refused .portBusy
  else if s.halted && !runsWhileHalted w then .next (s.setPort p { s.portRegs p with cmd := w })
  else .next (s.setPort p { s.portRegs p with cmd := w, busy := true, pos := .start })

/-- HOST's write of one BUF element (20_memory.md R61, R62). -/
def hostWrite (ch : Chan) (j : Nat) (v : B32) (s : State) : Host.Outcome State Fault Refusal :=
  if s.aud.busy then .refused .hostWhileBusy
  else if s.cfg.maxBlkCap ≤ j then .fault .bufIndex
  else .next { s with buf := s.buf.set ch (memWrite (s.buf.get ch) j v) }

/-- HOST's read of one BUF element: it changes nothing (20_memory.md R61, R66). -/
def hostRead (j : Nat) (s : State) : Host.Outcome State Fault Refusal :=
  if s.aud.busy then .refused .hostWhileBusy
  else if s.cfg.maxBlkCap ≤ j then .fault .bufIndex
  else .next s

/-- An agent's read of RES[p]: only while the port is idle, and it changes nothing (20_memory.md R77). What it reads is
`(s.portRegs p).res`. -/
def readRes (p : Port) (s : State) : Host.Outcome State Fault Refusal :=
  if (s.portRegs p).busy then .refused .portBusy else .next s

/-- Hardware reset (70_reset_and_hazards.md R320): every piece of the machine's state; the configuration, the agents'
remaining moves and the draw counter are no state of the machine (log entry 17). -/
def hwReset (s : State) : State := { State.resetWith s.cfg s.draws with sched := s.sched }

/-- One move of an agent. -/
def applyMove (m : Move) (s : State) : Host.Outcome State Fault Refusal :=
  match m with
  | .writeArg0 p v => writeArg0 p v s
  | .writeArg1 p v => writeArg1 p v s
  | .writeCmd p w => writeCmd p w s
  | .run p => runPort p s
  | .advance p => advancePort p s
  | .hostWrite ch j v => hostWrite ch j v s
  | .hostRead _ j => hostRead j s
  | .readRes p => readRes p s
  | .hwReset => .next (hwReset s)

/-- With no move listed: the first busy port in the order RND, CTL, AUD (log entry 6; RND first, so that a held PREPARE
is not waited on by the port it waits for). -/
def defaultPort (s : State) : Option Port := [Port.rnd, Port.ctl, Port.aud].find? fun p => (s.portRegs p).busy

/-- The machine's step: the next listed move, or, with none listed, the default port; an idle machine stays as it is. -/
def takeStep (s : State) : Host.Outcome State Fault Refusal :=
  match s.sched with
  | m :: rest => applyMove m { s with sched := rest }
  | [] =>
    match defaultPort s with
    | some p => runPort p s
    | none => .next s

/-- A command word placed in CMD[p] as just issued, and the move that runs it put first. -/
def placeCommand (p : Port) (w : U32) (s : State) : State :=
  { s.setPort p { s.portRegs p with cmd := w, busy := true, pos := .start } with sched := .run p :: s.sched }

/-- The port a table word is issued on: the first that admits it, AUD for a word no port admits. -/
def issuePort (w : U32) : Port := (firstPort? w).getD .aud

end Sys2Proof.Machine
end

