-- ==== Sys2Proof/Machine/Step.lean ====
section
/-! DEFINITION. The step of the machine, and where a command stands that the next step fetches. -/

namespace Sys2Proof.Machine

/-- One step (Machine/Sched.lean). -/
def step (s : State) : Host.Outcome State Fault Refusal := takeStep s

/-- `s` with a table word standing in CMD of the port it is issued on, as just issued, to be run by the next step. The
argument registers keep what they hold. -/
def State.withFetchWord (s : State) (nbits w : Nat) : State :=
  placeCommand (issuePort (tableWord nbits w)) (tableWord nbits w) s

end Sys2Proof.Machine
end

