-- ==== Sys2Proof/Machine/Assembler.lean ====
section
/-! DEFINITION. The assembler of 30_encoding.md R100 to R106: the mnemonic forms and the command words and arguments they
assemble to, the pseudo-instructions, and the moves by which an agent issues the result (R94). -/

namespace Sys2Proof.Machine

/-- A command as an agent issues it: the port, the word, and the two arguments. -/
structure Issue where
  port : Port
  word : U32
  arg0 : U64
  arg1 : U64
deriving DecidableEq, Repr

/-- The issue of a command with its arguments, on its own port (R102). For an argument R102 shows as `-` the assembler
gives 0 (DESIGN CHOICE, log entry 24). -/
def assemble (i : Instr) (a0 a1 : U64) : Issue := { port := i.port, word := encode i, arg0 := a0, arg1 := a1 }

/-- The moves of an issue (R94): ARG0, ARG1, then CMD; then the command runs. Both arguments are written whether the
command reads them or not (DESIGN CHOICE, log entry 24). -/
def Issue.moves (k : Issue) : List Move :=
  [.writeArg0 k.port k.arg0, .writeArg1 k.port k.arg1, .writeCmd k.port k.word, .run k.port]

/-- The stages of BYPASS (R105). -/
inductive Stage where
  | hp
  | pk
  | lp
deriving DecidableEq, Repr

/-- The pseudo-instructions (R103 to R106). SPECEN takes b in 0 and 1 (R104); R105 states no range for the b of BYPASS and
BYPASSALL, which is any u32, the value of the SETP it expands to (DESIGN CHOICE, log entry 18). -/
inductive Pseudo where
  | poll
  | specEn (b : Bool)
  | bypass (stage : Stage) (b : U32)
  | bypassAll (b : U32)
  | hpSlope (d : Nat)
  | lpSlope (d : Nat)
deriving DecidableEq, Repr

/-- `ctl: SETP pid, v` (R102). -/
def setpIssue (pid : Pid) (v : U32) : Issue := assemble (.setp pid.byte) (v.zeroExtend 64) 0#64

/-- The b of SPECEN, in 0 and 1 (R104). -/
def flagWord (b : Bool) : U32 := if b then 1#32 else 0#32

/-- The settings parameter of a stage's bypass flag (R105). -/
def Stage.pid : Stage → Pid
  | .hp => .hpByp
  | .pk => .pkByp
  | .lp => .lpByp

/-- The selector of a slope in dB per octave, d/12 - 1; any other d is an assembly error (R106). -/
def slopeSelector (d : Nat) : Option U32 :=
  if d = 12 then some 0#32 else if d = 24 then some 1#32 else if d = 36 then some 2#32
  else if d = 48 then some 3#32 else none

/-- The expansion of a pseudo-instruction (R103 to R106). -/
def Pseudo.expand : Pseudo → Option (List Issue)
  | .poll => some [assemble (.rpoll .both) 0#64 0#64, assemble (.sdrain .both) 0#64 0#64]
  | .specEn b => some [setpIssue .specEn (flagWord b)]
  | .bypass st b => some [setpIssue st.pid b]
  | .bypassAll b => some [setpIssue .hpByp b, setpIssue .pkByp b, setpIssue .lpByp b]
  | .hpSlope d => (slopeSelector d).map fun v => [setpIssue .hpSlope v]
  | .lpSlope d => (slopeSelector d).map fun v => [setpIssue .lpSlope v]

/-! ### Source lines (R100, R101) -/

/-- The words of a line: blanks separate, a comma is a word of its own, and a semicolon starts a comment. -/
def lineWords : List Char → List Char → List (List Char)
  | [], cur => if cur.isEmpty then [] else [cur]
  | c :: cs, cur =>
    let done := if cur.isEmpty then [] else [cur]
    if c = ';' then done
    else if c = ' ' || c = '\t' then done ++ lineWords cs []
    else if c = ',' then done ++ [[',']] ++ lineWords cs []
    else lineWords cs (cur ++ [c])

/-- A digit in base ten or sixteen. -/
def digit? (base : Nat) (c : Char) : Option Nat :=
  let n := c.toNat
  let v := if 48 ≤ n && n ≤ 57 then n - 48 else if 65 ≤ n && n ≤ 70 then n - 55 else if 97 ≤ n && n ≤ 102 then n - 87 else 16
  if v < base then some v else none

/-- A non-empty run of digits. -/
def digitsFrom (base : Nat) : List Char → Nat → Option Nat
  | [], acc => some acc
  | c :: cs, acc =>
    match digit? base c with
    | some d => digitsFrom base cs (acc * base + d)
    | none => none

def digits? (base : Nat) (cs : List Char) : Option Nat := if cs.isEmpty then none else digitsFrom base cs 0

/-- A number as R100 spells it: an integer, a decimal real m / 10^k, or a binary32 pattern `f32:0x...`; and `NaN`, which
R100 does not list and the programs of 95_test_vectors.md write (DESIGN CHOICE, log entry 18). -/
inductive NumTok where
  | int (n : Nat)
  | real (neg : Bool) (m k : Nat)
  | nan
  | pattern (n : Nat)
deriving DecidableEq, Repr

/-- Digits with an optional decimal point: the m and k of m / 10^k. A point needs a digit on each side: R100 does not say
whether `.5` and `5.` are reals, and they are refused (DESIGN CHOICE, log entry 18). -/
def mantissa? (cs : List Char) : Option (Nat × Nat) :=
  let whole := cs.takeWhile (· ≠ '.')
  match cs.dropWhile (· ≠ '.') with
  | [] => (digits? 10 whole).map fun n => (n, 0)
  | _ :: frac =>
    if whole.isEmpty || frac.isEmpty then none else (digits? 10 (whole ++ frac)).map fun m => (m, frac.length)

/-- The mark of a decimal exponent. -/
def isExpMark (c : Char) : Bool := c = 'e' || c = 'E'

/-- m / 10^k scaled by the power of ten the digits after an exponent mark give, with an optional sign. -/
def scaled? (neg : Bool) (m k : Nat) : List Char → Option NumTok
  | '-' :: ds => (digits? 10 ds).map fun x => .real neg m (k + x)
  | '+' :: ds => (digits? 10 ds).map fun x => .real neg (m * 10 ^ x) k
  | ds => (digits? 10 ds).map fun x => .real neg (m * 10 ^ x) k

/-- A decimal real, with an optional exponent, as in `1e200`: R100 names no exponent, the programs of 95_test_vectors.md
write one (DESIGN CHOICE, log entry 18). -/
def real? (neg : Bool) (cs : List Char) : Option NumTok :=
  (mantissa? (cs.takeWhile fun c => !isExpMark c)).bind fun mk =>
    match cs.dropWhile fun c => !isExpMark c with
    | [] => some (.real neg mk.1 mk.2)
    | _ :: ex => scaled? neg mk.1 mk.2 ex

/-- A number token (R100; a sign, an exponent and `NaN` are the model's choice, log entry 18). R100 names no sign: a number
with `-` is a real with a point or without, so that `-6` is the real -6.0 where `6` is an integer (DESIGN CHOICE, log
entry 18). -/
def num? (cs : List Char) : Option NumTok :=
  match cs with
  | 'f' :: '3' :: '2' :: ':' :: '0' :: 'x' :: hex => (digits? 16 hex).map .pattern
  | '0' :: 'x' :: hex => (digits? 16 hex).map .int
  | '-' :: rest => real? true rest
  | ['N', 'a', 'N'] => some .nan
  | _ => if cs.contains '.' || cs.any isExpMark then real? false cs else (digits? 10 cs).map .int

/-- A number as the sample rate of PREPARE: the nearest binary64 (R100); `NaN` is the quiet NaN of 00_scope.md R14, which
the program P4 of 95_test_vectors.md shows. -/
def rateOf : NumTok → Option U64
  | .int n => some (dec64 false n 0)
  | .real neg m k => some (dec64 neg m k)
  | .nan => some 0x7FF8000000000000#64
  | .pattern _ => none

/-- A number as an integer, decimal or hexadecimal (R100). -/
def NumTok.int? : NumTok → Option Nat
  | .int n => some n
  | .real _ _ _ => none
  | .nan => none
  | .pattern _ => none

/-- An integer operand (R100). -/
def int? (cs : List Char) : Option Nat := (num? cs).bind NumTok.int?

/-- A u64 operand. R102 does not say what a wider integer assembles to; the line is an assembly error (DESIGN CHOICE, log
entry 18). -/
def u64? (cs : List Char) : Option U64 := (int? cs).bind fun n => if n < 2 ^ 64 then some (BitVec.ofNat 64 n) else none

/-- The parameters whose value is a binary32 (10_state.md R23). -/
def Pid.isReal : Pid → Bool
  | .peakFreq => true
  | .peakGain => true
  | .peakQ => true
  | .hpFreq => true
  | .lpFreq => true
  | .hpSlope => false
  | .lpSlope => false
  | .hpByp => false
  | .pkByp => false
  | .lpByp => false
  | .specEn => false

/-- A number as the value of a SETP: for a binary32 parameter a decimal converts to the nearest binary32 and `NaN` is the
quiet NaN of 00_scope.md R14; an integer is the 32-bit pattern itself, and so is an `f32:0x...` pattern, for a u32
parameter too (R100, R102; DESIGN CHOICE, log entry 18). An integer or a pattern wider than 32 bits has no value, so that the
line is an assembly error; R102 does not say so (DESIGN CHOICE, log entry 18). -/
def valueOf (realPid : Bool) : NumTok → Option U32
  | .int n => if n < 2 ^ 32 then some (BitVec.ofNat 32 n) else none
  | .real neg m k => if realPid then some (dec32 neg m k) else none
  | .nan => if realPid then some 0x7FC00000#32 else none
  | .pattern n => if n < 2 ^ 32 then some (BitVec.ofNat 32 n) else none

/-- The value operand of a SETP, and of the BYPASS forms, which set a u32 parameter. -/
def value? (realPid : Bool) (cs : List Char) : Option U32 := (num? cs).bind (valueOf realPid)

/-- Operand spellings (R101). -/
def portOf? (w : String) : Option Port :=
  if w == "aud:" then some .aud else if w == "ctl:" then some .ctl else if w == "rnd:" then some .rnd else none

def sel? (w : String) : Option ChanSel :=
  if w == "L" then some .left else if w == "R" then some .right else if w == "LR" then some .both else none

def meta? (w : String) : Option MetaSel :=
  if w == "VALID" then some .valid else if w == "BINS" then some .bins else if w == "BINW" then some .binw else none

def occ? (w : String) : Option OccSel :=
  if w == "RELAY" then some .relay else if w == "SPEC" then some .spec else none

def stage? (w : String) : Option Stage :=
  if w == "HP" then some .hp else if w == "PK" then some .pk else if w == "LP" then some .lp else none

/-- The b of SPECEN: the integer 0 or 1 (R104); any other is an assembly error, as R106 says of a slope (DESIGN CHOICE, log
entry 18). -/
def flag? (cs : List Char) : Option Bool :=
  (int? cs).bind fun n => if n = 0 then some false else if n = 1 then some true else none

def pidName? (w : String) : Option Pid :=
  if w == "PEAK_FREQ" then some .peakFreq else if w == "PEAK_GAIN" then some .peakGain
  else if w == "PEAK_Q" then some .peakQ else if w == "HP_FREQ" then some .hpFreq
  else if w == "LP_FREQ" then some .lpFreq else if w == "HP_SLOPE" then some .hpSlope
  else if w == "LP_SLOPE" then some .lpSlope else if w == "HP_BYP" then some .hpByp
  else if w == "PK_BYP" then some .pkByp else if w == "LP_BYP" then some .lpByp
  else if w == "SPEC_EN" then some .specEn else none

/-- A PID operand: a parameter's name (R101), or its number, which R101 does not list and by which a pid above 0x0A can be
written (DESIGN CHOICE, log entry 18). -/
def pid? (cs : List Char) : Option (BitVec 8) :=
  match pidName? (String.ofList cs) with
  | some p => some p.byte
  | none => (int? cs).bind fun n => if n < 256 then some (BitVec.ofNat 8 n) else none

/-- Operands are separated by commas (R100). -/
def operands? : List (List Char) → Option (List (List Char))
  | [] => some []
  | [w] => if w = [','] then none else some [w]
  | w :: c :: rest =>
    if w = [','] || c ≠ [','] || rest.isEmpty then none else (operands? rest).map fun ws => w :: ws

/-- The issue of RDBIN, RDMETA or RDOCC on the channel operand c. R101 and R102 give `LR` the field CH = 10 and name no
error: the line assembles to that word, which decodes as illegal (R83, R90; DESIGN CHOICE, log entry 18). -/
def chanIssue (f : Chan → Instr) (c : ChanSel) (a0 : U64) : Issue :=
  match c with
  | .left => assemble (f .left) a0 0#64
  | .right => assemble (f .right) a0 0#64
  | .both => { assemble (f .left) a0 0#64 with word := encode (f .left) ||| (ChanSel.both.bits.zeroExtend 32 <<< 22) }

/-- A command of one issue, with its arguments. -/
def one (i : Option Instr) (a0 a1 : Option U64) : Option (List Issue) :=
  match i, a0, a1 with
  | some j, some x, some y => some [assemble j x y]
  | _, _, _ => none

/-- The mnemonic forms (R102) and the pseudo-instructions (R103 to R106); every number in them is read as R100 spells it.
`port` is the prefix of the line; NOP, RDGEN and RDSTAT need one, since more than one port admits them. -/
def asmForm (port : Option Port) (mn : String) (ops : List (List Char)) : Option (List Issue) :=
  match ops with
  | [] =>
    if mn == "NOP" then one (port.map .nop) (some 0#64) (some 0#64)
    else if mn == "RDGEN" then one (port.map .rdgen) (some 0#64) (some 0#64)
    else if mn == "RDSTAT" then one (port.map .rdstat) (some 0#64) (some 0#64)
    else if mn == "POLL" then Pseudo.poll.expand
    else none
  | [x] =>
    if mn == "PROCESS" then one (some .process) (u64? x) (some 0#64)
    else if mn == "RDP" then one ((pid? x).map .rdp) (some 0#64) (some 0#64)
    else if mn == "RPOLL" then one ((sel? (String.ofList x)).map .rpoll) (some 0#64) (some 0#64)
    else if mn == "SDRAIN" then one ((sel? (String.ofList x)).map .sdrain) (some 0#64) (some 0#64)
    else if mn == "SPECEN" then (flag? x).bind fun b => (Pseudo.specEn b).expand
    else if mn == "BYPASSALL" then (value? false x).bind fun b => (Pseudo.bypassAll b).expand
    else if mn == "HPSLOPE" then (int? x).bind fun d => (Pseudo.hpSlope d).expand
    else if mn == "LPSLOPE" then (int? x).bind fun d => (Pseudo.lpSlope d).expand
    else none
  | [x, y] =>
    if mn == "PREPARE" then one (some .prepare) ((num? x).bind rateOf) (u64? y)
    else if mn == "SETP" then
      (pid? x).bind fun b =>
        one (some (.setp b))
          ((value? (((Pid.ofByte? b).map Pid.isReal).getD false) y).map fun v => v.zeroExtend 64) (some 0#64)
    else if mn == "RDBIN" then
      (sel? (String.ofList x)).bind fun c => (u64? y).map fun k => [chanIssue .rdbin c k]
    else if mn == "RDMETA" then
      (sel? (String.ofList x)).bind fun c => (meta? (String.ofList y)).map fun sl => [chanIssue (.rdmeta · sl) c 0#64]
    else if mn == "RDOCC" then
      (sel? (String.ofList x)).bind fun c => (occ? (String.ofList y)).map fun sl => [chanIssue (.rdocc · sl) c 0#64]
    else if mn == "BYPASS" then
      (stage? (String.ofList x)).bind fun st => (value? false y).bind fun b => (Pseudo.bypass st b).expand
    else none
  | _ :: _ :: _ :: _ => none

/-- The issuing port a prefix names, put on every issue of the line (R100). -/
def onPort (port : Option Port) (ks : List Issue) : List Issue :=
  match port with
  | some p => ks.map fun k => { k with port := p }
  | none => ks

/-- One source line (R100): an optional port prefix, the mnemonic, the operands. A line without words is empty. -/
def asmLine (line : List Char) : Option (List Issue) :=
  match lineWords line [] with
  | [] => some []
  | w :: rest =>
    match portOf? (String.ofList w), rest with
    | some p, mn :: ops => ((operands? ops).bind (asmForm (some p) (String.ofList mn))).map (onPort (some p))
    | some _, [] => none
    | none, ops => (operands? ops).bind (asmForm none (String.ofList w))

end Sys2Proof.Machine
end

