-- ==== Sys2Proof/Safety.lean ====
section
/-! DEFINITION. What counts as a good state and a safe run, in the terms claims use: the fault record
(60_exceptions.md R297), the invariants of the machine, what the spec assumes of the configuration functions
(00_scope.md R13, 44_spectrum.md R227), what the filter does to a
whole block (42_filter_chain.md R150, R156), and the reference magnitude of a section and of a chain (R185). -/

namespace Sys2Proof.Machine

/-- No fault recorded (60_exceptions.md R297). -/
def NoFault (s : State) : Prop := s.fstat = 0#32

/-- The positions a command of a port can be at (10_state.md R21, R41): PREPARE and PROCESS run on AUD, RPOLL and SDRAIN
on RND, and every command of CTL is one step. -/
def posFits : Port → Pos → Bool
  | _, .start => true
  | .aud, .prepHold => true
  | .aud, .procSnap _ => true
  | .aud, .procCoef => true
  | .aud, .procFilt => true
  | .aud, .procRelay _ => true
  | .rnd, .rpollCount _ _ _ => true
  | .rnd, .rpollPop _ _ _ _ => true
  | .rnd, .sdrainCount _ _ => true
  | .rnd, .sdrainPop _ _ _ => true
  | _, _ => false

/-- Every port stands at a position of its own commands, and an idle port at none of them. -/
def PortInv (s : State) : Prop :=
  ∀ p, posFits p (s.portRegs p).pos = true ∧ ((s.portRegs p).busy = false → (s.portRegs p).pos = .start)

/-- The fault record (10_state.md R39, 60_exceptions.md R291, R292, R296): FSTAT has only bits 1 to 8, FIRST is a cause
whose bit is set, or 0 when no bit is, and HALTED comes only from F_DEGENERATE_COEFF under the FAULT policy. -/
def FaultInv (s : State) : Prop :=
  s.fstat &&& 0xFFFFFE01#32 = 0#32 ∧ s.first.toNat ≤ 8 ∧ (s.first = 0#32 ↔ s.fstat = 0#32)
    ∧ (s.first ≠ 0#32 → s.fstat.getLsbD s.first.toNat = true)
    ∧ (s.halted = true → s.fstat.getLsbD 7 = true ∧ s.cfg.degenPolicy = .fault)

/-- A section that is processed has a finite coefficient set, and the active counts are in 1..4
(10_state.md R31, 41_coefficient_factory.md R123, R124). -/
def BankInv (s : State) : Prop :=
  (1 ≤ s.bank.actHp ∧ s.bank.actHp ≤ 4) ∧ (1 ≤ s.bank.actLp ∧ s.bank.actLp ≤ 4)
    ∧ (s.prepared = true →
        (s.bank.dgpk = false → s.bank.cpk.degenerate = false)
        ∧ (∀ i : Fin 4, i.val < s.bank.actHp → s.bank.dghp.get i = false → (s.bank.chp.get i).degenerate = false)
        ∧ (∀ i : Fin 4, i.val < s.bank.actLp → s.bank.dglp.get i = false → (s.bank.clp.get i).degenerate = false))

/-- AUD is past the checks of a PROCESS. -/
def inProcess : Pos → Bool
  | .procSnap _ => true
  | .procCoef => true
  | .procFilt => true
  | .procRelay _ => true
  | .start => false
  | .prepHold => false
  | .rpollCount _ _ _ => false
  | .rpollPop _ _ _ _ => false
  | .sdrainCount _ _ => false
  | .sdrainPop _ _ _ => false

/-- The transport state (10_state.md R26, R27): PREPARED goes with a legal MAXBLK and rate, a PROCESS in progress has
passed its checks (42_filter_chain.md R159), and a held PREPARE its own (45_control.md R271). -/
def TransportInv (s : State) : Prop :=
  s.maxblk ≤ s.cfg.maxBlkCap ∧ (s.prepared = true ↔ 1 ≤ s.maxblk) ∧ (s.prepared = true → badRate s.fs = false)
    ∧ (inProcess s.aud.pos = true → s.prepared = true ∧ blockArg s ≤ s.maxblk)
    ∧ (s.aud.pos = .prepHold → prepareCheck s = none)

/-- The memories are in canonical form, and the staging index is below the relay block length once there is one
(10_state.md R33, R34). -/
def MemoryInv (s : State) : Prop :=
  ∀ ch, Memory.wf s.cfg.maxBlkCap (s.buf.get ch) = true ∧ Memory.wf s.cfg.maxBlkCap (s.relay.get ch).stg = true
    ∧ (s.relay.get ch).idx < max 1 s.maxblk

/-- A FIFO of capacity c whose blocks satisfy `ok` (43_relay_fifo.md R190, R191): indices below 2c, at most c blocks, and
a block in every slot from the read index on. -/
def Fifo.wf (c : Nat) (ok : α → Prop) (q : Fifo α) : Prop :=
  q.wr < 2 * c ∧ q.rd < 2 * c ∧ Fifo.count c q ≤ c ∧ Cells.wf q.slots = true ∧ Cells.below q.slots c = true
    ∧ ∀ k, k < Fifo.count c q → ∃ b, q.slots.read ((q.rd + k) % c) = some b ∧ ok b

/-- The blocks of a FIFO, oldest first (43_relay_fifo.md R196). -/
def Fifo.contents (c : Nat) (q : Fifo α) : List (Option α) :=
  (List.range (Fifo.count c q)).map fun k => q.slots.read ((q.rd + k) % c)

/-- The relays hold blocks of MAXBLK samples and the spectrum FIFOs snapshots of NBINS bins; a drain in progress has no
more pops left than there are blocks (43_relay_fifo.md R194). -/
def FifoInv (s : State) : Prop :=
  (∀ ch, Fifo.wf s.cfg.cRelay (fun b => b.length = s.maxblk) (s.relay.get ch).fifo
      ∧ Fifo.wf s.cfg.cSpec (fun b => b.db.length = s.cfg.nbins) (s.spec.get ch).fifo)
    ∧ (∀ se ch more rest, s.rnd.busy = true → s.rnd.pos = .rpollPop se ch more rest → more < relayCount s ch)
    ∧ (∀ ch more rest, s.rnd.busy = true → s.rnd.pos = .sdrainPop ch more rest → more < specCount s ch)

/-- The window holds L samples, fewer than HOP new ones are uncounted for, and a valid LATEST has NBINS bins
(10_state.md R36, R38, 44_spectrum.md R225). -/
def SpectrumInv (s : State) : Prop :=
  ∀ ch, (s.spec.get ch).win.length = s.cfg.len ∧ (s.spec.get ch).newcnt < s.cfg.hop
    ∧ ((s.spec.get ch).latest.valid = true → (s.spec.get ch).latest.db.length = s.cfg.nbins)
    ∧ ∀ p ∈ (s.spec.get ch).fifo.slots, p.2.db.length = s.cfg.nbins

/-! ### The sections of a channel -/

/-- The sections of a channel's chain: those of the high-pass stage, the peak, those of the low-pass stage
(10_state.md R32). -/
inductive Sec where
  | hp (i : Fin 4)
  | pk
  | lp (i : Fin 4)
deriving DecidableEq, Repr

/-- The sections in the order the sample meets them (42_filter_chain.md R154, R156). -/
def Sec.all : List Sec := [.hp 0, .hp 1, .hp 2, .hp 3, .pk, .lp 0, .lp 1, .lp 2, .lp 3]

/-- The coefficient set of a section (10_state.md R29), and its history in one channel (R32). -/
def Bank.coef (b : Bank) : Sec → Coef
  | .hp i => b.chp.get i
  | .pk => b.cpk
  | .lp i => b.clp.get i

def ChanHist.sec (h : ChanHist) : Sec → Hist
  | .hp i => h.hp.get i
  | .pk => h.pk
  | .lp i => h.lp.get i

/-- The sections that are processed: the stage is not bypassed, the section lies below the active count and is not flagged
degenerate (42_filter_chain.md R153, R154, R155). -/
def Bank.processes (b : Bank) : Sec → Bool
  | .hp i => !b.bypHp && decide (i.val < b.actHp) && !b.dghp.get i
  | .pk => !b.bypPk && !b.dgpk
  | .lp i => !b.bypLp && decide (i.val < b.actLp) && !b.dglp.get i

/-! ### Runs of the filter over a block -/

/-- The chain run over a block: sample j draws under counter seq + j. -/
def chainRun (e : FpEnv) (b : Bank) : Nat → List B32 → ChanHist → List B32 × ChanHist
  | _, [], h => ([], h)
  | j, x :: xs, h =>
    let r := chain { e with seq := e.seq + j } b h x
    let q := chainRun e b (j + 1) xs r.2
    (r.1 :: q.1, q.2)

/-- The input block of a channel: BUF[ch][0..n-1], an element without a value being a draw. -/
def inputBlock (s : State) (ch : Chan) (n : Nat) : List B32 :=
  (List.range n).map fun j => memRead (s.draws + j) ch (s.buf.get ch) j

/-- What a section does to a list of inputs. -/
def sectionRun (e : FpEnv) (co : Coef) : List B32 → Hist → List B32
  | [], _ => []
  | x :: xs, h => sectionStep e co h x :: sectionRun e co xs (h.shift x (sectionStep e co h x))

/-- Some element of a history is a NaN. -/
def Hist.hasNan (h : Hist) : Bool := isNan32 h.x1 || isNan32 h.x2 || isNan32 h.y1 || isNan32 h.y2

/-- Every element of a history is finite. -/
def Hist.allFinite (h : Hist) : Bool := isFinite32 h.x1 && isFinite32 h.x2 && isFinite32 h.y1 && isFinite32 h.y2

/-- The registers of SR in pid order. -/
def srList (r : Settings) : List U32 :=
  [r.peakFreq, r.peakGain, r.peakQ, r.hpFreq, r.lpFreq, r.hpSlope, r.lpSlope, r.hpByp, r.pkByp, r.lpByp, r.specEn]

/-! ### What the spec assumes of the configuration functions

The model's functions carry no property; a claim that needs one takes the contract as a premise. -/

/-- The exact value of a number. -/
def Num.toRat? : Num → Option ℚ
  | .nan => none
  | .inf _ => none
  | .fin neg m e => some ((if neg then -1 else 1) * (m : ℚ) * (2 : ℚ) ^ e)

/-- The exact value of a number among the reals and the two infinities; a NaN has none. -/
def Num.HasValue (a : Num) (x : EReal) : Prop :=
  match a with
  | .nan => False
  | .inf neg => x = if neg then ⊥ else ⊤
  | .fin neg m e => ∃ q, (Num.fin neg m e).toRat? = some q ∧ x = ((q : ℝ) : EReal)

/-- One unit in the last place of a binary64. -/
def ulp64 (y : B64) : ℚ := (2 : ℚ) ^ (Fmt.b64.emin + (max 1 (y.toNat / 2 ^ 52 % 2 ^ 11) : Nat) - 1)

/-- y is within one unit in the last place of the real r. -/
def WithinUlp (y : B64) (r : ℝ) : Prop := ∃ q, (num64 y).toRat? = some q ∧ |(q : ℝ) - r| ≤ (ulp64 y : ℝ)

/-- R9: the pattern r of a format is x rounded to nearest, ties to even. It is finite exactly below the format's
largest number plus half a unit, and an infinity at or past that bound; it has x's sign unless x is 0; and where it is
finite no number of the format is nearer to x than r's value, and if another is as near, r's last bit is 0. -/
def RoundsTo (f : Fmt) (r : Nat) (x : ℝ) : Prop :=
  r < 2 * f.signBit ∧ r % f.signBit ≤ f.infBits
    ∧ (r % f.signBit < f.infBits ↔ |x| < (2 ^ (f.fbits + 1) - 1 / 2) * 2 ^ (f.emin + (2 ^ f.ebits : Nat) - 3))
    ∧ (x ≠ 0 → (f.signBit ≤ r ↔ x < 0))
    ∧ ∀ v : ℚ, (f.unpack r).toRat? = some v → ∀ (y : Nat) (t : ℚ), (f.unpack y).toRat? = some t →
        |(v : ℝ) - x| ≤ |(t : ℝ) - x| ∧ (|(v : ℝ) - x| = |(t : ℝ) - x| → t ≠ v → r % 2 = 0)

/-- R9 under FTZ or not: y is x rounded to binary32, a subnormal result being replaced by the zero of its sign under FTZ. -/
def Rounded32 (e : FpEnv) (y : B32) (x : ℝ) : Prop := ∃ r : B32, RoundsTo .b32 r.toNat x ∧ y = e.flush r

/-- R13, of functions in the place of SIN, COS, TAN, POW10 and LOG10: each is within one unit in the last place of the exact
result, for finite arguments in the ranges the factory, the window and the decibel conversion use. The angles reach past the
0.98*pi of 41_coefficient_factory.md R114 where the rate is so small that R112 and R114 round among the subnormals: 3.25 for
SIN at the rate 2e-323, 1.625 for TAN at 4e-323 (log entry 10). -/
structure MathContractOf (sin cos tan pow10 log10 : B64 → B64) : Prop where
  sin : ∀ x q, (num64 x).toRat? = some q → 0 ≤ (q : ℝ) → (q : ℝ) ≤ 13 / 4 → WithinUlp (sin x) (Real.sin q)
  cos : ∀ x q, (num64 x).toRat? = some q → 0 ≤ (q : ℝ) → (q : ℝ) ≤ 6 * Real.pi → WithinUlp (cos x) (Real.cos q)
  tan : ∀ x q, (num64 x).toRat? = some q → 0 ≤ (q : ℝ) → (q : ℝ) ≤ 13 / 8 → WithinUlp (tan x) (Real.tan q)
  pow10 : ∀ x q, (num64 x).toRat? = some q → |(q : ℝ)| ≤ 2 → WithinUlp (pow10 x) ((10 : ℝ) ^ (q : ℝ))
  log10 : ∀ x q, (num64 x).toRat? = some q → 0 < (q : ℝ) → WithinUlp (log10 x) (Real.log q / Real.log 10)

/-- R13 of the configuration functions. -/
abbrev MathContract : Prop := MathContractOf Config.SIN Config.COS Config.TAN pow10 Config.LOG10

/-- R227's tolerance: y is a finite b32 within 2^-16 times the sum of the absolute inputs of the exact magnitude of bin k
of the discrete Fourier transform of the n inputs v. -/
def FftWithin (n : Nat) (v : Nat → ℚ) (k : Nat) (y : B32) : Prop :=
  ∃ q, (Fmt.b32.unpack y.toNat).toRat? = some q ∧
    |(q : ℝ) - ‖∑ j ∈ Finset.range n, ((v j : ℝ) : ℂ) * Complex.exp (-2 * Real.pi * Complex.I * j * k / n)‖|
      ≤ (2 : ℝ) ^ (-16 : ℤ) * ∑ j ∈ Finset.range n, |(v j : ℝ)|

/-- R227: for finite inputs each magnitude is within the tolerance. R227 gives a b32 magnitude and leaves open what it is
where no finite b32 meets the bound (an exact magnitude past the largest b32, or below the smallest with inputs as small):
there the contract asks nothing, so that a conforming FFT_MAG exists (DESIGN CHOICE, log entry 11). -/
def FftContract : Prop :=
  ∀ (order : Nat) (xw : List B32) (v : Nat → ℚ) (k : Nat), xw.length = 2 ^ order → k < 2 ^ order / 2 →
    (∀ j < xw.length, (Fmt.b32.unpack (xw.getD j 0#32).toNat).toRat? = some (v j)) →
    (∃ y, FftWithin xw.length v k y) → FftWithin xw.length v k (Config.FFT_MAG order xw k)

/-- R185: r is the analytic magnitude of a stored coefficient set at frequency f and sample rate fs, where the denominator
is not 0 there. A reference for stating properties of the designs, no command (00_scope.md R5(c)). -/
def Coef.HasMagnitude (co : Coef) (f fs r : ℝ) : Prop :=
  ∃ (b0 b1 b2 a1 a2 : ℚ) (z : ℂ), z = Complex.exp (-Complex.I * 2 * Real.pi * f / fs) ∧
    (Fmt.b32.unpack co.b0.toNat).toRat? = some b0 ∧ (Fmt.b32.unpack co.b1.toNat).toRat? = some b1
    ∧ (Fmt.b32.unpack co.b2.toNat).toRat? = some b2 ∧ (Fmt.b32.unpack co.a1.toNat).toRat? = some a1
    ∧ (Fmt.b32.unpack co.a2.toNat).toRat? = some a2
    ∧ 1 + ((a1 : ℝ) : ℂ) * z + ((a2 : ℝ) : ℂ) * z ^ 2 ≠ 0
    ∧ r = ‖((b0 : ℝ) : ℂ) + ((b1 : ℝ) : ℂ) * z + ((b2 : ℝ) : ℂ) * z ^ 2‖
          / ‖1 + ((a1 : ℝ) : ℂ) * z + ((a2 : ℝ) : ℂ) * z ^ 2‖

/-- R185: r is the chain's magnitude, the product over the sections R154 and R155 would process. -/
def Bank.HasMagnitude (b : Bank) (f fs r : ℝ) : Prop :=
  ∃ g : Sec → ℝ, (∀ σ, b.processes σ = true → (b.coef σ).HasMagnitude f fs (g σ))
    ∧ r = ((Sec.all.filter b.processes).map g).prod

/-- R185: d is the chain's decibel value, 20 * log10 of its magnitude; a magnitude of 0 has none. -/
def Bank.HasDecibels (b : Bank) (f fs d : ℝ) : Prop :=
  ∃ r, 0 < r ∧ b.HasMagnitude f fs r ∧ d = 20 * Real.logb 10 r

end Sys2Proof.Machine
end

