-- ==== Sys2Proof/Certificates/Slice0/Obligations.lean ====
section
/-! DEFINITION. The statements for the provers. Each names the rules of spec/ it formalises. A frame is written
`t = { s with f := t.f, … }`: every field but the named ones is as before. -/

namespace Sys2Proof.Machine

/-! ### What the statements are written with -/

/-- One row of the command table of 30_encoding.md R87, with the ports of R82. -/
structure EncRow where
  pattern : U32
  mask : U32
  ports : List Port
  chs : List (BitVec 2)
  imms : List (BitVec 8)
deriving DecidableEq, Repr

/-- The table of R87, row by row; a CH or IMM8 the mask fixes is listed with its one value. -/
def encTable : List EncRow :=
  [ ⟨0x00000000#32, 0xFFFFFFFF#32, [.aud, .ctl, .rnd], [0], [0]⟩,
    ⟨0x01000000#32, 0xFFFFFFFF#32, [.aud], [0], [0]⟩,
    ⟨0x02000000#32, 0xFFFFFFFF#32, [.aud], [0], [0]⟩,
    ⟨0x10000000#32, 0xFFFF00FF#32, [.ctl], [0], [0]⟩,
    ⟨0x11000000#32, 0xFFFF00FF#32, [.ctl], [0], [0]⟩,
    ⟨0x20000000#32, 0xFF3FFFFF#32, [.rnd], [0, 1, 2], [0]⟩,
    ⟨0x21000000#32, 0xFF3FFFFF#32, [.rnd], [0, 1, 2], [0]⟩,
    ⟨0x22000000#32, 0xFF3FFFFF#32, [.rnd], [0, 1], [0]⟩,
    ⟨0x23000000#32, 0xFF3FFF00#32, [.rnd], [0, 1], [0, 1, 2]⟩,
    ⟨0x24000000#32, 0xFFFFFFFF#32, [.ctl, .rnd], [0], [0]⟩,
    ⟨0x25000000#32, 0xFF3FFF00#32, [.rnd], [0, 1], [0, 1]⟩,
    ⟨0x30000000#32, 0xFFFFFFFF#32, [.aud, .ctl, .rnd], [0], [0]⟩ ]

/-- Bits of a word. -/
def bitsOf (w : U32) (lo len : Nat) : BitVec len := w.extractLsb' lo len

/-- A word a row of the table accepts on a port. -/
def EncRow.accepts (r : EncRow) (w : U32) (p : Port) : Prop :=
  w &&& r.mask = r.pattern ∧ p ∈ r.ports ∧ bitsOf w 22 2 ∈ r.chs ∧ bitsOf w 0 8 ∈ r.imms

/-- Port p is idle, with its other registers as they were. -/
def EndsOn (p : Port) (s t : State) : Prop :=
  t.portRegs p = { s.portRegs p with busy := false, pos := .start } ∧ ∀ q, q ≠ p → t.portRegs q = s.portRegs q

/-- Port p is idle with result v, its other registers as they were. -/
def EndsWith (p : Port) (v : U64) (s t : State) : Prop :=
  t.portRegs p = { s.portRegs p with res := v, busy := false, pos := .start }
    ∧ ∀ q, q ≠ p → t.portRegs q = s.portRegs q

/-- The fault record after cause number c. -/
def Recorded (c : Nat) (s t : State) : Prop :=
  (∀ i, t.fstat.getLsbD i = (s.fstat.getLsbD i || i == c)) ∧ t.first = if s.first = 0#32 then BitVec.ofNat 32 c else s.first

/-- A command that ends in fault c on port p: the record, the end of the command, and nothing else
(60_exceptions.md R290, R292). -/
def FaultsWith (c : Nat) (p : Port) (s t : State) : Prop :=
  Recorded c s t ∧ EndsOn p s t ∧ t.halted = (s.halted || c == 7)
    ∧ t = { s with fstat := t.fstat, first := t.first, halted := t.halted, aud := t.aud, ctl := t.ctl, rnd := t.rnd }

/-- A clamped field: the table of 45_control.md R263. -/
def ClampedTo (e : FpEnv) (lo hi raw v : B32) : Prop :=
  (isNan32 raw = true → v = lo) ∧ (lt32 e raw lo = true → v = lo) ∧ (lt32 e hi raw = true → v = hi)
    ∧ (isNan32 raw = false → lt32 e raw lo = false → lt32 e hi raw = false → v = raw)
    ∧ isNan32 v = false ∧ lt32 e v lo = false ∧ lt32 e hi v = false

/-- Two snapshots agree on the field of a parameter. -/
def SameField (pid : Pid) (a b : Snap) : Prop :=
  match pid with
  | .peakFreq => a.pf = b.pf
  | .peakGain => a.pg = b.pg
  | .peakQ => a.pq = b.pq
  | .hpFreq => a.hf = b.hf
  | .lpFreq => a.lf = b.lf
  | .hpSlope => a.hs = b.hs
  | .lpSlope => a.ls = b.ls
  | .hpByp => a.hb = b.hb
  | .pkByp => a.pb = b.pb
  | .lpByp => a.lb = b.lb
  | .specEn => a.se = b.se

/-- A binary32 that is no NaN and lies within two bounds. -/
def InRange (e : FpEnv) (lo hi v : B32) : Prop := isNan32 v = false ∧ lt32 e v lo = false ∧ lt32 e hi v = false

/-- y is the output of a processed section for the input x (42_filter_chain.md R150), each operation rounded once. -/
def SectionOutput (e : FpEnv) (co : Coef) (h : Hist) (x y : B32) : Prop :=
  y = sub32 e (sub32 e (add32 e (add32 e (mul32 e co.b0 x) (mul32 e co.b1 h.x1)) (mul32 e co.b2 h.x2)) (mul32 e co.a1 h.y1))
        (mul32 e co.a2 h.y2)

/-- The peak section written out (41_coefficient_factory.md R113 to R116); 20.0, 2*pi, 1.0, 2.0 and -2.0 are patterns. -/
def PeakDesign (e : FpEnv) (c : Config) (fs : B64) (pf pg pq : B32) (co : Coef) : Prop :=
  ∃ G A w alpha aA aoA B1 A0 : B64,
    G = pow10 (div64 e (toB64 e pg) 0x4034000000000000#64) ∧ A = sqrt64 e G
    ∧ w = div64 e (mul64 e 0x401921FB54442D18#64 (fclamp e c fs pf)) fs
    ∧ alpha = div64 e (Config.SIN w) (mul64 e 0x4000000000000000#64 (toB64 e pq))
    ∧ aA = mul64 e alpha A ∧ aoA = div64 e alpha A
    ∧ B1 = mul64 e 0xC000000000000000#64 (Config.COS w) ∧ A0 = add64 e 0x3FF0000000000000#64 aoA
    ∧ co = { b0 := toB32 e (div64 e (add64 e 0x3FF0000000000000#64 aA) A0), b1 := toB32 e (div64 e B1 A0),
             b2 := toB32 e (div64 e (sub64 e 0x3FF0000000000000#64 aA) A0), a1 := toB32 e (div64 e B1 A0),
             a2 := toB32 e (div64 e (sub64 e 0x3FF0000000000000#64 aoA) A0) }

/-- Section i of a cut stage of order N written out, high-pass or low-pass (R119, R120, R121). -/
def CutDesign (highPass : Bool) (e : FpEnv) (c : Config) (fs : B64) (f : B32) (N i : Nat) (co : Coef) : Prop :=
  ∃ Q K n n2 iq k : B64,
    Q = div64 e 0x3FF0000000000000#64 (mul64 e 0x4000000000000000#64
          (Config.COS (div64 e (mul64 e (natB64 (2 * i + 1)) 0x400921FB54442D18#64) (natB64 (2 * N)))))
    ∧ K = Config.TAN (div64 e (mul64 e 0x400921FB54442D18#64 (fclamp e c fs f)) fs)
    ∧ n = (if highPass then K else div64 e 0x3FF0000000000000#64 K) ∧ n2 = mul64 e n n
    ∧ iq = div64 e 0x3FF0000000000000#64 Q
    ∧ k = div64 e 0x3FF0000000000000#64 (add64 e (add64 e 0x3FF0000000000000#64 (mul64 e iq n)) n2)
    ∧ co = { b0 := toB32 e k,
             b1 := toB32 e (mul64 e (if highPass then 0xC000000000000000#64 else 0x4000000000000000#64) k),
             b2 := toB32 e k,
             a1 := toB32 e (mul64 e (mul64 e 0x4000000000000000#64 k)
                     (if highPass then sub64 e n2 0x3FF0000000000000#64 else sub64 e 0x3FF0000000000000#64 n2)),
             a2 := toB32 e (mul64 e k (add64 e (sub64 e 0x3FF0000000000000#64 (mul64 e iq n)) n2)) }

/-- The set and flag of a section after the coefficient step, from its candidate (41_coefficient_factory.md R124). -/
def InstalledFrom (cand old new : Coef) (flag : Bool) : Prop :=
  flag = cand.degenerate ∧ (cand.degenerate = true → new = old) ∧ (cand.degenerate = false → new = cand)

/-- The read commands (20_memory.md R66). -/
def isRead : Instr → Bool
  | .rdp _ => true
  | .rdgen _ => true
  | .rdbin _ => true
  | .rdmeta _ _ => true
  | .rdocc _ _ => true
  | .rdstat _ => true
  | .nop _ => false
  | .prepare => false
  | .process => false
  | .setp _ => false
  | .rpoll _ => false
  | .sdrain _ => false

/-- The channels a select acts on. -/
def selects : ChanSel → Chan → Bool
  | .left, ch => ch == .left
  | .right, ch => ch == .right
  | .both, _ => true

/-- The blocks waiting in a relay, oldest first, and the snapshots waiting in a spectrum FIFO. -/
def waitingBlocks (s : State) (ch : Chan) : List (List B32) :=
  (Fifo.contents s.cfg.cRelay (s.relay.get ch).fifo).map fun o => o.getD []
def waitingSpectra (s : State) (ch : Chan) : List Spectrum :=
  (Fifo.contents s.cfg.cSpec (s.spec.get ch).fifo).filterMap id

/-- The invariants together. -/
def Inv (s : State) : Prop :=
  s.cfg.wf = true ∧ PortInv s ∧ FaultInv s ∧ BankInv s ∧ TransportInv s ∧ MemoryInv s ∧ FifoInv s ∧ SpectrumInv s

end Sys2Proof.Machine

open Sys2Proof Sys2Proof.Machine

/-! ### Encoding -/

/-- Decoding the word of a well-formed command on its port gives the command back (30_encoding.md R80 to R88). -/
def Obligations.DecodeOfEncode : Prop :=
  ∀ i : Instr, i.wf = true → decode (encode i) i.port = .ok i

/-- A word that decodes is the word of the command it decodes to, on a port that admits the command
(R80, R86, R87, R92). -/
def Obligations.DecodedWordIsItsEncoding : Prop :=
  ∀ (w : U32) (p : Port) (i : Instr), decode w p = .ok i → encode i = w ∧ i.port = p ∧ i.wf = true

/-- The decoder accepts exactly the words the command table accepts (R87, R92). -/
def Obligations.DecoderMatchesTable : Prop :=
  ∀ (w : U32) (p : Port), (∃ i, decode w p = .ok i) ↔ ∃ r ∈ encTable, r.accepts w p

/-- Words written out from the table decode to their commands, and some others to none (95_test_vectors.md V-ENC-1). -/
def Obligations.TableWordsDecode : Prop :=
  decode 0x00000000#32 .ctl = .ok (.nop .ctl) ∧ decode 0x01000000#32 .aud = .ok .prepare
    ∧ decode 0x02000000#32 .aud = .ok .process ∧ decode 0x10000100#32 .ctl = .ok (.setp 0x01#8)
    ∧ decode 0x11000A00#32 .ctl = .ok (.rdp 0x0A#8) ∧ decode 0x20800000#32 .rnd = .ok (.rpoll .both)
    ∧ decode 0x21400000#32 .rnd = .ok (.sdrain .right) ∧ decode 0x22400000#32 .rnd = .ok (.rdbin .right)
    ∧ decode 0x23400002#32 .rnd = .ok (.rdmeta .right .binw) ∧ decode 0x24000000#32 .ctl = .ok (.rdgen .ctl)
    ∧ decode 0x25400001#32 .rnd = .ok (.rdocc .right .spec) ∧ decode 0x30000000#32 .aud = .ok (.rdstat .aud)
    ∧ decode 0x01000000#32 .ctl = .error .wrongPort ∧ decode 0x20C00000#32 .rnd = .error .channel
    ∧ decode 0x10010100#32 .ctl = .error .reservedBits ∧ decode 0xF0000000#32 .aud = .error .opcode

/-! ### Arithmetic -/

/-- `f64` of a value that is no NaN has the same exact value, and `f32` of it gives the value back bit for bit (00_scope.md
R9); under FTZ a subnormal counts as the zero of its sign (log entry 12). -/
def Obligations.WideningIsExact : Prop :=
  ∀ (e : FpEnv) (v : B32), isNan32 v = false →
    (num64 (toB64 e v)).toRat? = (e.num32 v).toRat? ∧ toB32 e (toB64 e v) = e.flush v

/-- The sum, difference, product and quotient of two finite values, and the square root and `f32` of a finite binary64, are
the exact ones rounded to nearest, ties to even, in each format (00_scope.md R9, R13). The sign is that of the exact result,
and where that is zero the one IEEE 754 gives: of a sum and a difference the common sign or +, of a product and a quotient the
product of the signs, of a root the operand's. A finite number over zero is an infinity, zero over zero and the root of a
negative number a NaN. The comparisons are the order of the exact values, infinities included, and false on a NaN. Under FTZ a
subnormal binary32 operand or result counts as the zero of its sign, in `f32` and the comparison too (log entry 12). -/
def Obligations.OperationsRoundToNearest : Prop :=
  (∀ (e : FpEnv) (a b : B32) (p q : ℚ), (e.num32 a).toRat? = some p → (e.num32 b).toRat? = some q →
      (Rounded32 e (add32 e a b) ((p + q : ℚ) : ℝ) ∧ (p + q = 0 → (add32 e a b).msb = (a.msb && b.msb)))
      ∧ (Rounded32 e (sub32 e a b) ((p - q : ℚ) : ℝ) ∧ (p - q = 0 → (sub32 e a b).msb = (a.msb && !b.msb)))
      ∧ (Rounded32 e (mul32 e a b) ((p * q : ℚ) : ℝ) ∧ (mul32 e a b).msb = (a.msb != b.msb))
      ∧ (q ≠ 0 → Rounded32 e (div32 e a b) ((p / q : ℚ) : ℝ) ∧ (div32 e a b).msb = (a.msb != b.msb))
      ∧ (q = 0 → p ≠ 0 → div32 e a b = if a.msb = b.msb then 0x7F800000#32 else 0xFF800000#32)
      ∧ (q = 0 → p = 0 → isNan32 (div32 e a b) = true))
  ∧ (∀ (e : FpEnv) (a b : B64) (p q : ℚ), (num64 a).toRat? = some p → (num64 b).toRat? = some q →
      (RoundsTo .b64 (add64 e a b).toNat ((p + q : ℚ) : ℝ) ∧ (p + q = 0 → (add64 e a b).msb = (a.msb && b.msb)))
      ∧ (RoundsTo .b64 (sub64 e a b).toNat ((p - q : ℚ) : ℝ) ∧ (p - q = 0 → (sub64 e a b).msb = (a.msb && !b.msb)))
      ∧ (RoundsTo .b64 (mul64 e a b).toNat ((p * q : ℚ) : ℝ) ∧ (mul64 e a b).msb = (a.msb != b.msb))
      ∧ (q ≠ 0 → RoundsTo .b64 (div64 e a b).toNat ((p / q : ℚ) : ℝ) ∧ (div64 e a b).msb = (a.msb != b.msb))
      ∧ (q = 0 → p ≠ 0 → div64 e a b = if a.msb = b.msb then 0x7FF0000000000000#64 else 0xFFF0000000000000#64)
      ∧ (q = 0 → p = 0 → isNan64 (div64 e a b) = true))
  ∧ (∀ (e : FpEnv) (a : B64) (p : ℚ), (num64 a).toRat? = some p →
      (Rounded32 e (toB32 e a) (p : ℝ) ∧ (toB32 e a).msb = a.msb)
      ∧ (0 ≤ p → RoundsTo .b64 (sqrt64 e a).toNat (Real.sqrt p) ∧ (sqrt64 e a).msb = a.msb)
      ∧ (p < 0 → isNan64 (sqrt64 e a) = true))
  ∧ (∀ (e : FpEnv) (a b : B32), (isNan32 a = true ∨ isNan32 b = true → lt32 e a b = false)
      ∧ ∀ x y, (e.num32 a).HasValue x → (e.num32 b).HasValue y → (lt32 e a b = true ↔ x < y))
  ∧ (∀ a b : B64, (isNan64 a = true ∨ isNan64 b = true → lt64 a b = false)
      ∧ ∀ x y, (num64 a).HasValue x → (num64 b).HasValue y → (lt64 a b = true ↔ x < y))

/-! ### Steps and issue -/

/-- A port's issued command runs as exec of what its word decodes to: when its agent lets it run, and when it is the
default port with no move listed (30_encoding.md R94; the moves are the model's, log entries 6 and 7). -/
def Obligations.StepRunsTheDecodedCommand : Prop :=
  ∀ (s : State) (p : Port) (i : Instr) (rest : List Move),
    (s.portRegs p).busy = true → (s.portRegs p).pos = .start → decode (s.portRegs p).cmd p = .ok i →
    (s.sched = .run p :: rest → step s = exec i { s with sched := rest })
      ∧ (s.sched = [] → defaultPort s = some p → step s = exec i s)

/-- A table word placed as a command is run by the very next step. -/
def Obligations.PlacedWordRunsNext : Prop :=
  ∀ (s : State) (w : Nat) (i : Instr), decodeTableWord 32 w = some i →
    step (s.withFetchWord 32 w)
      = exec i (s.setPort i.port { s.portRegs i.port with cmd := BitVec.ofNat 32 w, busy := true, pos := .start })

/-- An illegal word raises F_ILLEGAL_CMD and has no other effect, whether its port runs or advances (R88, R90). -/
def Obligations.IllegalWordIsOnlyRecorded : Prop :=
  ∀ (s : State) (p : Port) (r : Reject) (m : Move) (rest : List Move),
    (s.portRegs p).busy = true → (s.portRegs p).pos = .start → decode (s.portRegs p).cmd p = .error r →
    (m = .run p ∨ m = .advance p) → s.sched = m :: rest →
    ∃ t, step s = .next t ∧ FaultsWith 1 p { s with sched := rest } t

/-- Issue on an idle port: CMD holds the word, and BUSY is set, the command at its start, unless HALTED turns the word away
(R94, 60_exceptions.md R296). That a word turned away stands in CMD is the model's reading (log entry 13). -/
def Obligations.IssueSetsBusyUnlessHalted : Prop :=
  ∀ (s : State) (p : Port) (w : U32) (rest : List Move),
    s.sched = .writeCmd p w :: rest → (s.portRegs p).busy = false →
    ∃ t, step s = .next t
      ∧ t.portRegs p = (if s.halted = false ∨ w = 0x00000000#32 ∨ w = 0x30000000#32 then
            { s.portRegs p with cmd := w, busy := true, pos := .start } else { s.portRegs p with cmd := w })
      ∧ (∀ q, q ≠ p → t.portRegs q = s.portRegs q)
      ∧ t = { s with aud := t.aud, ctl := t.ctl, rnd := t.rnd, sched := rest }

/-- The whole issue on an idle port of a machine that is not HALTED: the agent's writes of ARG0, ARG1 and CMD, then the
command (R94), are exec of the command with those registers in place. That the issue writes both arguments, where R94 says
`if the command reads them`, is the model's choice (log entry 24), and so are the agents' writes as moves of a schedule and
the whole run as one of them (log entries 6 and 7). -/
def Obligations.IssueProtocolRunsCommand : Prop :=
  ∀ (s : State) (i : Instr) (a0 a1 : U64) (rest : List Move), i.wf = true →
    (s.portRegs i.port).busy = false → s.halted = false → s.sched = (assemble i a0 a1).moves ++ rest →
    Sys2Proof.core.run 4 s
      = exec i { s.setPort i.port { s.portRegs i.port with cmd := encode i, arg0 := a0, arg1 := a1, busy := true, pos := .start }
                 with sched := rest }

/-- The pseudo-instructions expand to the commands of 30_encoding.md R103 to R106, and a slope that is not 12, 24, 36 or 48
expands to none. The value 0 of the arguments R102 shows as `-` (both of POLL's commands, ARG1 of every SETP) is the model's
choice (log entry 24), and so is the range of b in the BYPASS forms, any u32 (log entry 18). -/
def Obligations.PseudoInstructionsExpand : Prop :=
  Pseudo.poll.expand = some [⟨.rnd, 0x20800000#32, 0#64, 0#64⟩, ⟨.rnd, 0x21800000#32, 0#64, 0#64⟩]
    ∧ (∀ b : Bool, (Pseudo.specEn b).expand = some [⟨.ctl, 0x10000A00#32, if b then 1#64 else 0#64, 0#64⟩])
    ∧ (∀ b : U32,
      let v : U64 := BitVec.ofNat 64 b.toNat
      (Pseudo.bypass .hp b).expand = some [⟨.ctl, 0x10000700#32, v, 0#64⟩]
      ∧ (Pseudo.bypass .pk b).expand = some [⟨.ctl, 0x10000800#32, v, 0#64⟩]
      ∧ (Pseudo.bypass .lp b).expand = some [⟨.ctl, 0x10000900#32, v, 0#64⟩]
      ∧ (Pseudo.bypassAll b).expand
          = some [⟨.ctl, 0x10000700#32, v, 0#64⟩, ⟨.ctl, 0x10000800#32, v, 0#64⟩, ⟨.ctl, 0x10000900#32, v, 0#64⟩])
    ∧ ∀ d : Nat,
      (Pseudo.hpSlope d).expand =
        (if d = 12 ∨ d = 24 ∨ d = 36 ∨ d = 48 then some [⟨.ctl, 0x10000500#32, BitVec.ofNat 64 (d / 12 - 1), 0#64⟩] else none)
      ∧ (Pseudo.lpSlope d).expand =
        (if d = 12 ∨ d = 24 ∨ d = 36 ∨ d = 48 then some [⟨.ctl, 0x10000600#32, BitVec.ofNat 64 (d / 12 - 1), 0#64⟩] else none)

/-- An agent's accesses to the registers of its port need the port idle: a write of ARG0 or ARG1 replaces that register
alone, a write of CMD is the issue (IssueSetsBusyUnlessHalted), a read of RES changes nothing (10_state.md R22, 20_memory.md
R77). HOST's accesses to BUF need AUD idle and an element below MAXBLK_CAP: a write replaces that element alone, a read
changes nothing (20_memory.md R61, R62). The refusals and the fault are the model's form of these duties (log entry 15). -/
def Obligations.AgentAccessRules : Prop :=
  ∀ (s : State) (rest : List Move),
    (∀ p v, s.sched = .writeArg0 p v :: rest →
      (step s = .refused .portBusy ↔ (s.portRegs p).busy = true)
      ∧ ((s.portRegs p).busy = false → ∃ t, step s = .next t ∧ t.portRegs p = { s.portRegs p with arg0 := v }
          ∧ (∀ q, q ≠ p → t.portRegs q = s.portRegs q)
          ∧ t = { s with aud := t.aud, ctl := t.ctl, rnd := t.rnd, sched := rest }))
    ∧ (∀ p v, s.sched = .writeArg1 p v :: rest →
      (step s = .refused .portBusy ↔ (s.portRegs p).busy = true)
      ∧ ((s.portRegs p).busy = false → ∃ t, step s = .next t ∧ t.portRegs p = { s.portRegs p with arg1 := v }
          ∧ (∀ q, q ≠ p → t.portRegs q = s.portRegs q)
          ∧ t = { s with aud := t.aud, ctl := t.ctl, rnd := t.rnd, sched := rest }))
    ∧ (∀ ch j v, s.sched = .hostWrite ch j v :: rest →
      (s.aud.busy = true → step s = .refused .hostWhileBusy)
      ∧ (s.aud.busy = false → s.cfg.maxBlkCap ≤ j → step s = .fault .bufIndex)
      ∧ (s.aud.busy = false → j < s.cfg.maxBlkCap →
          ∃ t, step s = .next t ∧ (t.buf.get ch).read j = some v
            ∧ (∀ k, k ≠ j → (t.buf.get ch).read k = (s.buf.get ch).read k)
            ∧ (∀ c, c ≠ ch → t.buf.get c = s.buf.get c) ∧ t = { s with buf := t.buf, sched := rest }))
    ∧ (∀ p w, s.sched = .writeCmd p w :: rest → (step s = .refused .portBusy ↔ (s.portRegs p).busy = true))
    ∧ (∀ p, s.sched = .readRes p :: rest →
      ((s.portRegs p).busy = true → step s = .refused .portBusy)
      ∧ ((s.portRegs p).busy = false → step s = .next { s with sched := rest }))
    ∧ (∀ ch j, s.sched = .hostRead ch j :: rest →
      (s.aud.busy = true → step s = .refused .hostWhileBusy)
      ∧ (s.aud.busy = false → s.cfg.maxBlkCap ≤ j → step s = .fault .bufIndex)
      ∧ (s.aud.busy = false → j < s.cfg.maxBlkCap → step s = .next { s with sched := rest }))

/-! ### Settings and status commands -/

/-- NOP (45_control.md R275): word 0 on every port; its issue sets BUSY, HALTED or not; it changes nothing but that its
port is idle again. -/
def Obligations.NopOnlyCompletes : Prop :=
  ∀ (p : Port) (s : State),
    decode 0x00000000#32 p = .ok (.nop p)
    ∧ ((s.portRegs p).busy = false → ∀ rest, s.sched = .writeCmd p 0x00000000#32 :: rest →
        ∃ t, step s = .next t ∧ (t.portRegs p).busy = true)
    ∧ ∃ t, exec (.nop p) s = .next t ∧ EndsOn p s t ∧ t = { s with aud := t.aud, ctl := t.ctl, rnd := t.rnd }

/-- SETP (45_control.md R261): its word; a PID up to 0x0A has its register replaced by ARG0[31:0], whatever the value, and
GEN goes up by one modulo 2^32 in the same step; a larger PID raises F_BAD_PID. -/
def Obligations.SetpWritesRegisterAndCounts : Prop :=
  ∀ (pid : BitVec 8) (s : State),
    decode (0x10000000#32 ||| (pid.zeroExtend 32 <<< 8)) .ctl = .ok (.setp pid)
    ∧ (pid.toNat ≤ 10 → ∃ t, exec (.setp pid) s = .next t ∧ EndsOn .ctl s t
      ∧ srList t.sr = (srList s.sr).set pid.toNat (s.ctl.arg0.truncate 32)
      ∧ t.gen.toNat = (s.gen.toNat + 1) % 2 ^ 32
      ∧ t = { s with sr := t.sr, gen := t.gen, ctl := t.ctl })
    ∧ (10 < pid.toNat → ∃ t, exec (.setp pid) s = .next t ∧ FaultsWith 2 .ctl s t)

/-- RDP (45_control.md R266): its word; the raw stored value, zero-extended; a PID above 0x0A raises F_BAD_PID with no write
to RES. -/
def Obligations.RdpReturnsStoredValue : Prop :=
  ∀ (pid : BitVec 8) (s : State),
    decode (0x11000000#32 ||| (pid.zeroExtend 32 <<< 8)) .ctl = .ok (.rdp pid)
    ∧ (pid.toNat ≤ 10 → ∃ t v, exec (.rdp pid) s = .next t ∧ (srList s.sr)[pid.toNat]? = some v
      ∧ EndsWith .ctl (v.zeroExtend 64) s t ∧ t = { s with ctl := t.ctl })
    ∧ (10 < pid.toNat → ∃ t, exec (.rdp pid) s = .next t ∧ FaultsWith 2 .ctl s t)

/-- RDGEN (45_control.md R268): its word, on CTL and RND; GEN, zero-extended. -/
def Obligations.RdgenReturnsGeneration : Prop :=
  ∀ (p : Port) (s : State), (p ≠ .aud → decode 0x24000000#32 p = .ok (.rdgen p)) ∧ ∃ t, exec (.rdgen p) s = .next t ∧ EndsWith p (s.gen.zeroExtend 64) s t
    ∧ t = { s with aud := t.aud, ctl := t.ctl, rnd := t.rnd }

/-- RDSTAT (45_control.md R274): its word, on every port; the result bit by bit, HALTED or not. -/
def Obligations.RdstatLaysOutStatus : Prop :=
  ∀ (p : Port) (s : State), decode 0x30000000#32 p = .ok (.rdstat p) ∧ ∃ t v, exec (.rdstat p) s = .next t ∧ EndsWith p v s t
    ∧ (∀ i, v.getLsbD i =
        if i ≤ 8 then s.fstat.getLsbD i
        else if 16 ≤ i ∧ i ≤ 19 then s.first.getLsbD (i - 16)
        else if i = 30 then s.prepared else if i = 31 then s.halted else false)
    ∧ t = { s with aud := t.aud, ctl := t.ctl, rnd := t.rnd }

/-- A read command changes nothing but RES of its port, and repeating it returns the same value (20_memory.md R66).
A read that faults is left to the statements of its fault. -/
def Obligations.ReadsAreIdempotent : Prop :=
  ∀ (i : Instr) (s : State), isRead i = true → ∃ t, exec i s = .next t ∧ exec i t = .next t
    ∧ (t.fstat = s.fstat → t.first = s.first →
        ∃ v, EndsWith i.port v s t ∧ t = { s with aud := t.aud, ctl := t.ctl, rnd := t.rnd })

/-- Only SETP writes SR and GEN, but for hardware reset: a step that changes either is one SETP of port CTL, which raises
GEN by one (45_control.md R267). -/
def Obligations.OnlySetpChangesSettings : Prop :=
  ∀ s t : State, step s = .next t → (∀ rest, s.sched ≠ .hwReset :: rest) →
    (t.sr = s.sr ∧ t.gen = s.gen)
    ∨ (∃ pid : BitVec 8, pid.toNat ≤ 10 ∧ (s.ctl.busy = true ∧ s.ctl.pos = .start)
        ∧ decode s.ctl.cmd .ctl = .ok (.setp pid) ∧ t.gen = s.gen + 1#32
        ∧ srList t.sr = (srList s.sr).set pid.toNat (s.ctl.arg0.truncate 32))

/-! ### The snapshot and the coefficient step -/

/-- The snapshot step gives every field its clamped value, and never a NaN or a value out of range
(45_control.md R262, R263, R264, R265). -/
def Obligations.SnapshotClampsEveryField : Prop :=
  ∀ s : State,
    ClampedTo s.env 0x41A00000#32 0x469C4000#32 s.sr.peakFreq (takeSnapshot s).snap.pf
    ∧ ClampedTo s.env 0xC1C00000#32 0x41C00000#32 s.sr.peakGain (takeSnapshot s).snap.pg
    ∧ ClampedTo s.env 0x3DCCCCCD#32 0x41200000#32 s.sr.peakQ (takeSnapshot s).snap.pq
    ∧ ClampedTo s.env 0x41A00000#32 0x469C4000#32 s.sr.hpFreq (takeSnapshot s).snap.hf
    ∧ ClampedTo s.env 0x41A00000#32 0x469C4000#32 s.sr.lpFreq (takeSnapshot s).snap.lf
    ∧ (takeSnapshot s).snap.hs.val = min s.sr.hpSlope.toNat 3 ∧ (takeSnapshot s).snap.ls.val = min s.sr.lpSlope.toNat 3
    ∧ (takeSnapshot s).snap.hb = s.sr.hpByp.getLsbD 0 ∧ (takeSnapshot s).snap.pb = s.sr.pkByp.getLsbD 0
    ∧ (takeSnapshot s).snap.lb = s.sr.lpByp.getLsbD 0 ∧ (takeSnapshot s).snap.se = s.sr.specEn.getLsbD 0
    ∧ takeSnapshot s = { s with snap := (takeSnapshot s).snap }

/-- One field read of a PROCESS in progress is one step: it takes that field from SR as SR is then, and leaves the other
fields and everything else but the position (20_memory.md R71, 70_reset_and_hazards.md R326). -/
def Obligations.SnapshotReadsOneFieldPerStep : Prop :=
  ∀ (s : State) (pid : Pid) (rest : List Move),
    s.sched = .advance .aud :: rest → s.aud.busy = true → s.aud.pos = .procSnap pid →
    ∃ t, step s = .next t ∧ t = { s with snap := t.snap, aud := { s.aud with pos := t.aud.pos }, sched := rest }
      ∧ SameField pid t.snap (takeSnapshot s).snap ∧ (∀ q, q ≠ pid → SameField q t.snap s.snap)
      ∧ t.aud.pos = (match pid.next? with | some q => .procSnap q | none => .procCoef)

/-- The designs and the coefficient step (41_coefficient_factory.md). The frequency clamp (R112) gives the clamp value where
the frequency is above it, else the frequency, and never more than the clamp value; POW10 of a zero is 1.0. Every section
below the active count gets the set written out in R113 to R121 whole, or keeps its set and is flagged when that is
degenerate; the others keep set and flag; the counts and bypass flags come from SNAP; nothing outside the bank changes (R122,
R124, R126, R127, R128). A peak set of gain 0.0 that is not degenerate has b0 = 1.0, b1 = a1 and b2 = a2 bit for bit
(R117(a)). Where the configuration functions keep R13's contract (log entry 10), no design is degenerate at the default
NYQ_RATIO, for a rate from 1.0 to 1e100 and parameters in their ranges (R129). The design equations are the spec's own from
general knowledge (log entry 16). -/
def Obligations.CoefStepInstallsDesigns : Prop :=
  (∀ (e : FpEnv) (c : Config) (fs : B64) (f : B32),
    let lim := mul64 e c.nyqRatio fs
    (lt64 lim (toB64 e f) = true → fclamp e c fs f = lim)
    ∧ (lt64 lim (toB64 e f) = false → fclamp e c fs f = toB64 e f)
    ∧ lt64 lim (fclamp e c fs f) = false)
  ∧ (∀ x : B64, pow10 x = if x = 0#64 ∨ x = 0x8000000000000000#64 then 0x3FF0000000000000#64 else Config.POW10 x)
  ∧ (∀ (fs : B64) (s : State),
    let t := coefStep fs s
    let e := designEnv s.cfg
    (∃ cand, PeakDesign e s.cfg fs s.snap.pf s.snap.pg s.snap.pq cand ∧ InstalledFrom cand s.bank.cpk t.bank.cpk t.bank.dgpk)
    ∧ (∀ i : Fin 4, i.val ≤ s.snap.hs.val →
        ∃ cand, CutDesign true e s.cfg fs s.snap.hf (2 * (s.snap.hs.val + 1)) i.val cand
          ∧ InstalledFrom cand (s.bank.chp.get i) (t.bank.chp.get i) (t.bank.dghp.get i))
    ∧ (∀ i : Fin 4, i.val ≤ s.snap.ls.val →
        ∃ cand, CutDesign false e s.cfg fs s.snap.lf (2 * (s.snap.ls.val + 1)) i.val cand
          ∧ InstalledFrom cand (s.bank.clp.get i) (t.bank.clp.get i) (t.bank.dglp.get i))
    ∧ (∀ i : Fin 4, s.snap.hs.val < i.val →
        t.bank.chp.get i = s.bank.chp.get i ∧ t.bank.dghp.get i = s.bank.dghp.get i)
    ∧ (∀ i : Fin 4, s.snap.ls.val < i.val →
        t.bank.clp.get i = s.bank.clp.get i ∧ t.bank.dglp.get i = s.bank.dglp.get i)
    ∧ t.bank.actHp = s.snap.hs.val + 1 ∧ t.bank.actLp = s.snap.ls.val + 1
    ∧ t.bank.bypHp = s.snap.hb ∧ t.bank.bypPk = s.snap.pb ∧ t.bank.bypLp = s.snap.lb
    ∧ t = { s with bank := t.bank })
  ∧ (∀ (e : FpEnv) (c : Config) (fs : B64) (pf pg pq : B32) (co : Coef), pg = 0#32 ∨ pg = 0x80000000#32 →
      PeakDesign e c fs pf pg pq co → co.degenerate = false → co.b0 = 0x3F800000#32 ∧ co.b1 = co.a1 ∧ co.b2 = co.a2)
  ∧ (MathContract → ∀ (e : FpEnv) (c : Config) (fs : B64), c.nyqRatio = 0x3FDF5C28F5C28F5C#64 → isFinite64 fs = true →
      lt64 fs 0x3FF0000000000000#64 = false → lt64 0x54B249AD2594C37D#64 fs = false →
      (∀ (pf pg pq : B32) (co : Coef), InRange e 0x41A00000#32 0x469C4000#32 pf → InRange e 0xC1C00000#32 0x41C00000#32 pg →
        InRange e 0x3DCCCCCD#32 0x41200000#32 pq → PeakDesign e c fs pf pg pq co → co.degenerate = false)
      ∧ (∀ (highPass : Bool) (f : B32) (k i : Nat) (co : Coef), InRange e 0x41A00000#32 0x469C4000#32 f → k ≤ 4 → i < k →
        CutDesign highPass e c fs f (2 * k) i co → co.degenerate = false))

/-! ### PREPARE -/

/-- PREPARE with good arguments while RND is idle (45_control.md R270): its global step, whatever the state before.
Where the coefficient step faults (FAULT policy only) it only records the fault. -/
def Obligations.PrepareTakesItsGlobalStep : Prop :=
  ∀ s : State, isFinite64 s.aud.arg0 = true → lt64 0#64 s.aud.arg0 = true → 1 ≤ s.aud.arg1.toNat →
    s.aud.arg1.toNat ≤ s.cfg.maxBlkCap → s.rnd.busy = false →
    ∃ t, exec .prepare s = .next t
      ∧ (if s.cfg.degenPolicy = .fault ∧ someDegenerate (designEnv s.cfg) s.cfg s.aud.arg0 (takeSnapshot s).snap = true then
          FaultsWith 7 .aud s t
         else
          EndsOn .aud s t ∧ t.fs = s.aud.arg0 ∧ t.maxblk = s.aud.arg1.toNat ∧ t.prepared = true
          ∧ t.snap = (takeSnapshot s).snap
          ∧ t.bank = (coefStep s.aud.arg0 (takeSnapshot s)).bank
          ∧ t.hist = ⟨.zero, .zero⟩
          ∧ (∀ ch, (t.relay.get ch).idx = 0 ∧ relayCount t ch = 0 ∧ (t.relay.get ch).fifo.wr = 0
              ∧ (t.relay.get ch).fifo.rd = 0)
          ∧ (∀ ch, (t.spec.get ch).win = List.replicate s.cfg.len 0#32 ∧ (t.spec.get ch).newcnt = 0
              ∧ (t.spec.get ch).fifo.wr = 0 ∧ (t.spec.get ch).fifo.rd = 0 ∧ (t.spec.get ch).latest.valid = false)
          ∧ t = { s with fs := t.fs, maxblk := t.maxblk, prepared := t.prepared, snap := t.snap, bank := t.bank,
                         hist := t.hist, relay := t.relay, spec := t.spec, aud := t.aud })

/-- PREPARE's argument checks, the rate before the block size (45_control.md R269, 60_exceptions.md R294): nothing but the
record changes. -/
def Obligations.PrepareRejectsBadArguments : Prop :=
  ∀ s : State,
    ((isFinite64 s.aud.arg0 = false ∨ lt64 0#64 s.aud.arg0 = false) →
      ∃ t, exec .prepare s = .next t ∧ FaultsWith 4 .aud s t)
    ∧ (isFinite64 s.aud.arg0 = true → lt64 0#64 s.aud.arg0 = true →
        (s.aud.arg1 = 0#64 ∨ s.cfg.maxBlkCap < s.aud.arg1.toNat) →
        ∃ t, exec .prepare s = .next t ∧ FaultsWith 5 .aud s t)

/-- PREPARE waits while RND is in a command, and takes its global step when RND is idle (45_control.md R271): PREPARE with
good arguments issued while RND is busy is left at its hold, still in progress, with nothing else changed; a held PREPARE
stays as it is while RND is busy, in a command issued during the hold too (the model's choice, log entry 25). -/
def Obligations.PrepareHoldsForRnd : Prop :=
  (∀ s : State, isFinite64 s.aud.arg0 = true → lt64 0#64 s.aud.arg0 = true → 1 ≤ s.aud.arg1.toNat →
      s.aud.arg1.toNat ≤ s.cfg.maxBlkCap → s.rnd.busy = true →
      exec .prepare s = .next { s with aud := { s.aud with pos := .prepHold } })
  ∧ ∀ (s : State) (rest : List Move), s.aud.busy = true → s.aud.pos = .prepHold → s.sched = .advance .aud :: rest →
    (s.rnd.busy = true → step s = .next { s with sched := rest })
    ∧ (s.rnd.busy = false → prepareCheck s = none → step s = exec .prepare { s with sched := rest })

/-- Two PREPAREs with the same arguments and nothing between them leave the same state as one (45_control.md R272). -/
def Obligations.PrepareTwiceIsOnce : Prop :=
  ∀ s t : State, exec .prepare s = .next t → exec .prepare t = .next t

/-! ### PROCESS -/

/-- PROCESS (42_filter_chain.md R158 to R161, 43_relay_fifo.md R198): when prepared and n <= MAXBLK it takes the snapshot,
installs the coefficients, replaces BUF[ch][0..n-1] by the chain's outputs, leaves every other element of BUF, and passes
the outputs to the relay; where the coefficient step faults (FAULT policy only) nothing but SNAP and the record
changes. -/
def Obligations.ProcessFiltersInPlace : Prop :=
  ∀ s : State, s.prepared = true → s.aud.arg0.toNat ≤ s.maxblk →
    ∃ t, exec .process s = .next t
      ∧ (if s.cfg.degenPolicy = .fault ∧ someDegenerate (designEnv s.cfg) s.cfg s.fs (takeSnapshot s).snap = true then
          FaultsWith 7 .aud (takeSnapshot s) t
         else
          let n := s.aud.arg0.toNat
          let b := (coefStep s.fs (takeSnapshot s)).bank
          let out := fun ch => chainRun s.env b 0 (inputBlock s ch n) (s.hist.get ch)
          EndsOn .aud s t ∧ t.snap = (takeSnapshot s).snap ∧ t.bank = b
          ∧ (∀ ch, (out ch).1.length = n ∧ t.hist.get ch = (out ch).2
              ∧ (∀ j, j < n → (t.buf.get ch).read j = (out ch).1[j]?)
              ∧ (∀ j, n ≤ j → (t.buf.get ch).read j = (s.buf.get ch).read j)
              ∧ t.relay.get ch
                  = (out ch).1.foldl (relaySample s.cfg (s.draws + n) ch s.maxblk) (s.relay.get ch))
          ∧ t.draws = s.draws + n
          ∧ t = { s with snap := t.snap, bank := t.bank, hist := t.hist, buf := t.buf, relay := t.relay,
                         draws := t.draws, aud := t.aud })

/-- PROCESS before PREPARE, or on a block longer than MAXBLK, faults in that order and changes nothing else
(42_filter_chain.md R159). -/
def Obligations.ProcessChecksFirst : Prop :=
  ∀ s : State,
    (s.prepared = false → ∃ t, exec .process s = .next t ∧ FaultsWith 3 .aud s t)
    ∧ (s.prepared = true → s.maxblk < s.aud.arg0.toNat → ∃ t, exec .process s = .next t ∧ FaultsWith 6 .aud s t)

/-- PROCESS 0 takes the snapshot, installs the coefficients, and filters and relays nothing (42_filter_chain.md R163),
under either policy, where its coefficient step does not fault. -/
def Obligations.ProcessZeroInstallsOnly : Prop :=
  ∀ s : State, s.prepared = true → s.aud.arg0 = 0#64 →
    ¬ (s.cfg.degenPolicy = .fault ∧ someDegenerate (designEnv s.cfg) s.cfg s.fs (takeSnapshot s).snap = true) →
    ∃ t, exec .process s = .next t ∧ t.bank = (coefStep s.fs (takeSnapshot s)).bank ∧ EndsOn .aud s t
      ∧ t = { s with snap := (takeSnapshot s).snap, bank := t.bank, aud := t.aud }

/-- With all three stages bypassed PROCESS leaves every element of BUF that holds a value, and every history, as it was
(42_filter_chain.md R165). -/
def Obligations.FullBypassIsIdentity : Prop :=
  ∀ s : State, s.sr.hpByp.getLsbD 0 = true → s.sr.pkByp.getLsbD 0 = true → s.sr.lpByp.getLsbD 0 = true →
    ∃ t, exec .process s = .next t ∧ t.hist = s.hist
      ∧ ∀ ch j v, (s.buf.get ch).read j = some v → (t.buf.get ch).read j = some v

/-- Channels are independent: the filtered block and history of a channel do not depend on the other channel's, and with
equal inputs and histories the two channels give equal outputs bit for bit (42_filter_chain.md R157), NaN payloads included:
that is so of a NaN's payload by the model's choice of its draws only (log entry 3). -/
def Obligations.ChannelsAreIndependent : Prop :=
  (∀ (n : Nat) (ch : Chan) (s r : State), r.cfg = s.cfg → r.bank = s.bank → r.draws = s.draws →
      r.buf.get ch = s.buf.get ch → r.hist.get ch = s.hist.get ch →
      (filtStep n r).buf.get ch = (filtStep n s).buf.get ch ∧ (filtStep n r).hist.get ch = (filtStep n s).hist.get ch)
  ∧ (∀ (n : Nat) (s : State), s.hist.left = s.hist.right →
      (∀ j, j < n → ∃ v, s.buf.left.read j = some v ∧ s.buf.right.read j = some v) →
      (filtStep n s).hist.left = (filtStep n s).hist.right
      ∧ ∀ j, j < n → (filtStep n s).buf.left.read j = (filtStep n s).buf.right.read j)

/-- The stages as cascades (42_filter_chain.md R150, R151, R153, R154, R155, R156, R166). A bypassed cut stage passes the
sample and keeps its histories. One that is not takes the sample through its sections in increasing order: v k is what
section k is given; a section below the active count and not flagged is processed, its output, which R150 spells out, goes on
and its history moves on by one sample; any other passes what it is given and keeps its history, and its coefficients do not
matter. The chain takes the sample through the high-pass, the peak and the low-pass sections in this order, each processed or
passed so. -/
def Obligations.CutStageRunsActiveSections : Prop :=
  (∀ (e : FpEnv) (act : Nat) (dg : Quad Bool) (co : Quad Coef) (h : Quad Hist) (x : B32),
    cutStage e true act dg co h x = (x, h)
    ∧ (let r := cutStage e false act dg co h x
       (∃ v : Nat → B32, v 0 = x ∧ r.1 = v 4 ∧ ∀ i : Fin 4,
          (i.val < act ∧ dg.get i = false →
            SectionOutput e (co.get i) (h.get i) (v i.val) (v (i.val + 1))
            ∧ r.2.get i = { x1 := v i.val, x2 := (h.get i).x1, y1 := v (i.val + 1), y2 := (h.get i).y1 })
          ∧ (act ≤ i.val ∨ dg.get i = true → v (i.val + 1) = v i.val ∧ r.2.get i = h.get i))
       ∧ (∀ co' : Quad Coef, (∀ k : Fin 4, k.val < act → dg.get k = false → co'.get k = co.get k) →
           cutStage e false act dg co' h x = r)))
  ∧ (∀ (e : FpEnv) (b : Bank) (h : ChanHist) (x : B32),
    let r := chain e b h x
    ∃ v : Nat → B32, v 0 = x ∧ r.1 = v 9 ∧ ∀ (k : Nat) (σ : Sec), Sec.all[k]? = some σ →
      (b.processes σ = true →
        SectionOutput e (b.coef σ) (h.sec σ) (v k) (v (k + 1))
        ∧ r.2.sec σ = { x1 := v k, x2 := (h.sec σ).x1, y1 := v (k + 1), y2 := (h.sec σ).y1 })
      ∧ (b.processes σ = false → v (k + 1) = v k ∧ r.2.sec σ = h.sec σ))

/-- Poisoning (42_filter_chain.md R152(a), (b), R168): a NaN fed to a processed section, or standing in its history, makes
this output and every later one a NaN, and an infinity makes them non-finite, whatever the coefficients and the inputs that
follow. -/
def Obligations.NonFinitePoisonsSection : Prop :=
  ∀ (e : FpEnv) (co : Coef) (h : Hist) (x : B32) (xs : List B32),
    (h.hasNan = true ∨ isNan32 x = true → ∀ y ∈ sectionRun e co (x :: xs) h, isNan32 y = true)
    ∧ (h.allFinite = false ∨ isFinite32 x = false → ∀ y ∈ sectionRun e co (x :: xs) h, isFinite32 y = false)

/-- The atomic steps of PROCESS with no other agent between them are exec: eleven field reads, the coefficient step, FILT
and two relay steps after the check (42_filter_chain.md R160, 70_reset_and_hazards.md R336). -/
def Obligations.ProcessStepsMakeExec : Prop :=
  ∀ (s : State) (rest : List Move), s.aud.busy = true → s.aud.pos = .start → decode s.aud.cmd .aud = .ok .process →
    s.sched = List.replicate 16 (.advance .aud) ++ rest →
    Sys2Proof.core.run 16 s = exec .process { s with sched := rest }

/-- A full staging block is pushed and the staging index returns to 0 whether the push published or was dropped; until
then nothing is published (43_relay_fifo.md R198, R199). The staging block afterwards holds the staged samples in order, so
that the next PROCESS goes on from it. -/
def Obligations.StagingPublishesFullBlocks : Prop :=
  ∀ (c : Config) (seq : Nat) (ch : Chan) (n : Nat) (r : RelayCh) (vs : List B32),
    0 < vs.length → r.idx < n → vs.length ≤ n →
    let t := vs.foldl (relaySample c seq ch n) r
    (r.idx + vs.length < n → t.fifo = r.fifo ∧ t.idx = r.idx + vs.length
        ∧ ∀ j, t.stg.read j = if r.idx ≤ j ∧ j < t.idx then vs[j - r.idx]? else r.stg.read j)
    ∧ (n ≤ r.idx + vs.length → t.idx = r.idx + vs.length - n
        ∧ ∃ blk : List B32, blk.length = n ∧ t.fifo = Fifo.push c.cRelay r.fifo blk
          ∧ (∀ j v, j < r.idx → r.stg.read j = some v → blk[j]? = some v)
          ∧ (∀ j, r.idx ≤ j → j < n → blk[j]? = vs[j - r.idx]?)
        ∧ ∀ j, t.stg.read j = if j < t.idx then vs[n - r.idx + j]?
            else if r.idx ≤ j ∧ j < n then vs[j - r.idx]? else r.stg.read j)

/-! ### FIFOs, RPOLL and SDRAIN -/

/-- A FIFO is a bounded queue (43_relay_fifo.md R192, R193, R196): a push on one that is not full adds its block last, a
push on a full one changes nothing, and a pop takes the first block; the form of the FIFO is kept. -/
def Obligations.FifoIsBoundedQueue : Prop :=
  ∀ (α : Type) (c : Nat) (ok : α → Prop) (q : Fifo α) (b dflt : α), 1 ≤ c → Fifo.wf c ok q → ok b →
    (Fifo.count c q < c → Fifo.contents c (Fifo.push c q b) = Fifo.contents c q ++ [some b])
    ∧ (Fifo.count c q = c → Fifo.push c q b = q)
    ∧ Fifo.wf c ok (Fifo.push c q b)
    ∧ (Fifo.pop c q dflt = none ↔ Fifo.contents c q = [])
    ∧ (∀ x q', Fifo.pop c q dflt = some (x, q') →
        Fifo.contents c q = some x :: Fifo.contents c q' ∧ ok x ∧ Fifo.wf c ok q')

/-- RPOLL empties the relay of every selected channel and leaves the other's; with SPEC_EN = 0 the spectrum state does not
change, and with SPEC_EN = 1 the window is its last L samples once the waiting blocks have been appended in order
(44_spectrum.md R222, R223, R224). -/
def Obligations.RpollDrainsRelays : Prop :=
  ∀ (c : ChanSel) (s : State), s.cfg.wf = true → FifoInv s → SpectrumInv s →
    ∃ t, exec (.rpoll c) s = .next t ∧ EndsOn .rnd s t
      ∧ (∀ ch, (selects c ch = true → relayCount t ch = 0 ∧ t.relay.get ch = { s.relay.get ch with fifo := (t.relay.get ch).fifo })
          ∧ (selects c ch = false → t.relay.get ch = s.relay.get ch ∧ t.spec.get ch = s.spec.get ch)
          ∧ (t.relay.get ch).fifo.slots = (s.relay.get ch).fifo.slots ∧ (t.relay.get ch).fifo.wr = (s.relay.get ch).fifo.wr
          ∧ (t.spec.get ch).latest = (s.spec.get ch).latest)
      ∧ (s.sr.specEn.getLsbD 0 = false → t.spec = s.spec)
      ∧ (s.sr.specEn.getLsbD 0 = true → ∀ ch, selects c ch = true →
          (t.spec.get ch).win =
            ((s.spec.get ch).win ++ (waitingBlocks s ch).flatten).drop ((waitingBlocks s ch).flatten.length))
      ∧ t = { s with relay := t.relay, spec := t.spec, draws := t.draws, rnd := t.rnd }

/-- One pop step of an RPOLL with the spectrum enabled (44_spectrum.md R222, R225, R226, R228, R230): the oldest block leaves
the relay of the channel and is shifted in, and the transform of the new window is pushed exactly when NEWCNT reaches HOP,
which sets NEWCNT to 0. Bin k of the pushed snapshot is the decibel value of the magnitude over L/2, a value that is not
finite counting as +0.0. The step leaves the rest of the state, and the command goes on to its next pop, to its next channel,
or ends. FFT_MAG and the default WINDOW are the configuration's (log entries 11 and 23), the moves the model's (log entry 7).
-/
def Obligations.PolledBlockTriggersTransform : Prop :=
  ∀ (ch : Chan) (more : Nat) (chs : List Chan) (s : State) (rest : List Move), s.cfg.wf = true → FifoInv s →
    s.rnd.busy = true → s.rnd.pos = .rpollPop true ch more chs → s.sched = .advance .rnd :: rest →
    ∃ t blk, step s = .next t ∧ waitingBlocks s ch = blk :: waitingBlocks t ch ∧ blk.length = s.maxblk
      ∧ (let sp := s.spec.get ch
         let tp := t.spec.get ch
         tp.win = shiftIn s.cfg.len sp.win blk ∧ tp.latest = sp.latest
         ∧ (s.cfg.hop ≤ sp.newcnt + s.maxblk →
              tp.newcnt = 0 ∧ ∃ x, tp.fifo = Fifo.push s.cfg.cSpec sp.fifo x
                ∧ x = transform s.env s.cfg s.fs (shiftIn s.cfg.len sp.win blk)
                ∧ x.db.length = s.cfg.nbins ∧ x.binw = div64 s.env s.fs (natB64 s.cfg.len)
                ∧ ∀ k, k < s.cfg.nbins → ∃ xw : List B32, xw.length = s.cfg.len
                    ∧ (∀ j, j < s.cfg.len → xw[j]? = some (mul32 s.env ((shiftIn s.cfg.len sp.win blk).getD j 0#32)
                        ((windowTable s.cfg).getD j 0#32)))
                    ∧ (let v := div32 s.env (Config.FFT_MAG s.cfg.fftOrder xw k) (natB32 (s.cfg.len / 2))
                       x.db[k]? = some (decibel s.env s.cfg (if isFinite32 v = true then v else 0#32))))
         ∧ (sp.newcnt + s.maxblk < s.cfg.hop → tp.newcnt = sp.newcnt + s.maxblk ∧ tp.fifo = sp.fifo))
      ∧ t.relay.get ch = { s.relay.get ch with fifo := { (s.relay.get ch).fifo with rd := (t.relay.get ch).fifo.rd } }
      ∧ (∀ c, c ≠ ch → t.relay.get c = s.relay.get c ∧ t.spec.get c = s.spec.get c)
      ∧ (∀ m, more = m + 1 → t.rnd = { s.rnd with pos := .rpollPop true ch m chs })
      ∧ (∀ c cs, more = 0 → chs = c :: cs → t.rnd = { s.rnd with pos := .rpollCount true c cs })
      ∧ (more = 0 → chs = [] → EndsOn .rnd s t)
      ∧ t = { s with relay := t.relay, spec := t.spec, draws := t.draws, rnd := t.rnd, sched := rest }

/-- The ring shift (44_spectrum.md R224): element j of the shifted window. -/
def Obligations.ShiftInIsRingShift : Prop :=
  ∀ (l : Nat) (win blk : List B32), win.length = l →
    (shiftIn l win blk).length = l
    ∧ ∀ j, j < l → (shiftIn l win blk)[j]? =
        if l ≤ blk.length then blk[blk.length - l + j]?
        else if j < l - blk.length then win[j + blk.length]? else blk[j - (l - blk.length)]?

/-- The decibel value (44_spectrum.md R229): of a value above 0.0 it is f32(20.0 * LOG10(f64(v))), or the floor where that is
below it; of any other value it is the floor; and it is never below the floor. LOG10 is the configuration's (log entry 10). -/
def Obligations.DecibelKeepsFloor : Prop :=
  ∀ (e : FpEnv) (c : Config) (v : B32),
    lt32 e (decibel e c v) c.dbFloor = false ∧ (lt32 e 0#32 v = false → decibel e c v = c.dbFloor)
    ∧ (lt32 e 0#32 v = true →
        let d := toB32 e (mul64 e 0x4034000000000000#64 (Config.LOG10 (toB64 e v)))
        (lt32 e d c.dbFloor = false → decibel e c v = d) ∧ (lt32 e d c.dbFloor = true → decibel e c v = c.dbFloor))

/-- SDRAIN (its word, and its effect) empties the spectrum FIFO of every selected channel and keeps the newest snapshot it
took as LATEST; a channel with nothing waiting, or not selected, keeps its LATEST; only the read index of a drained FIFO
moves (44_spectrum.md R231, R232, 43_relay_fifo.md R193). -/
def Obligations.SdrainKeepsNewest : Prop :=
  ∀ (c : ChanSel) (s : State), s.cfg.wf = true → FifoInv s →
    decode (0x21000000#32 ||| (c.bits.zeroExtend 32 <<< 22)) .rnd = .ok (.sdrain c)
    ∧ ∃ t, exec (.sdrain c) s = .next t ∧ EndsOn .rnd s t
      ∧ (∀ ch, (selects c ch = false → t.spec.get ch = s.spec.get ch)
          ∧ (selects c ch = true → specCount t ch = 0
              ∧ (t.spec.get ch).latest =
                  (match (waitingSpectra s ch).getLast? with
                   | some x => { valid := true, db := x.db, binw := x.binw }
                   | none => (s.spec.get ch).latest)
              ∧ t.spec.get ch = { s.spec.get ch with
                  fifo := { (s.spec.get ch).fifo with rd := (t.spec.get ch).fifo.rd }, latest := (t.spec.get ch).latest }))
      ∧ t = { s with spec := t.spec, rnd := t.rnd }

/-- The atomic steps of RPOLL with no other agent between them are exec, within the bound of 70_reset_and_hazards.md R336
(44_spectrum.md R222). -/
def Obligations.RpollStepsMakeExec : Prop :=
  ∀ (c : ChanSel) (s : State) (rest : List Move), s.cfg.wf = true → FifoInv s → s.rnd.busy = true → s.rnd.pos = .start →
    decode s.rnd.cmd .rnd = .ok (.rpoll c) →
    s.sched = List.replicate (1 + 2 * (1 + s.cfg.cRelay)) (.advance .rnd) ++ rest →
    Sys2Proof.core.run (1 + 2 * (1 + s.cfg.cRelay)) s = exec (.rpoll c) { s with sched := rest }

/-- The atomic steps of SDRAIN with no other agent between them are exec, within the bound of R336
(44_spectrum.md R231). -/
def Obligations.SdrainStepsMakeExec : Prop :=
  ∀ (c : ChanSel) (s : State) (rest : List Move), s.cfg.wf = true → FifoInv s → s.rnd.busy = true → s.rnd.pos = .start →
    decode s.rnd.cmd .rnd = .ok (.sdrain c) →
    s.sched = List.replicate (2 * (1 + s.cfg.cSpec)) (.advance .rnd) ++ rest →
    Sys2Proof.core.run (2 * (1 + s.cfg.cSpec)) s = exec (.sdrain c) { s with sched := rest }

/-- RDBIN (44_spectrum.md R233): its word; DB[k] of LATEST, the floor where there is no spectrum, and F_BIN_INDEX. -/
def Obligations.RdbinReadsLatest : Prop :=
  ∀ (c : Chan) (s : State), ((s.spec.get c).latest.valid = true → (s.spec.get c).latest.db.length = s.cfg.nbins) →
    decode (0x22000000#32 ||| (c.bits.zeroExtend 32 <<< 22)) .rnd = .ok (.rdbin c)
    ∧ (s.rnd.arg0.toNat < s.cfg.nbins → ∃ t v, exec (.rdbin c) s = .next t ∧ EndsWith .rnd (v.zeroExtend 64) s t
      ∧ ((s.spec.get c).latest.valid = true → (s.spec.get c).latest.db[s.rnd.arg0.toNat]? = some v)
      ∧ ((s.spec.get c).latest.valid = false → v = s.cfg.dbFloor) ∧ t = { s with rnd := t.rnd })
    ∧ (s.cfg.nbins ≤ s.rnd.arg0.toNat → ∃ t, exec (.rdbin c) s = .next t ∧ FaultsWith 8 .rnd s t)

/-- RDMETA (44_spectrum.md R234): its word, and the table of the rule. -/
def Obligations.RdmetaReadsMetadata : Prop :=
  ∀ (c : Chan) (sel : MetaSel) (s : State),
    decode (0x23000000#32 ||| (c.bits.zeroExtend 32 <<< 22) ||| sel.byte.zeroExtend 32) .rnd = .ok (.rdmeta c sel) ∧ ∃ t, exec (.rdmeta c sel) s = .next t ∧ t = { s with rnd := t.rnd }
    ∧ ((s.spec.get c).latest.valid = false → EndsWith .rnd 0#64 s t)
    ∧ ((s.spec.get c).latest.valid = true →
        (sel = .valid → EndsWith .rnd 1#64 s t)
        ∧ (sel = .bins → EndsWith .rnd (BitVec.ofNat 64 (2 ^ s.cfg.fftOrder / 2)) s t)
        ∧ (sel = .binw → EndsWith .rnd (s.spec.get c).latest.binw s t))

/-- RDOCC (44_spectrum.md R235): its word; the count of R191, (WR - RD) mod 2C. -/
def Obligations.RdoccReadsCount : Prop :=
  ∀ (c : Chan) (sel : OccSel) (s : State),
    decode (0x25000000#32 ||| (c.bits.zeroExtend 32 <<< 22) ||| sel.byte.zeroExtend 32) .rnd = .ok (.rdocc c sel) ∧ ∃ t v, exec (.rdocc c sel) s = .next t ∧ EndsWith .rnd v s t
    ∧ t = { s with rnd := t.rnd }
    ∧ (sel = .relay → (s.relay.get c).fifo.rd < 2 * s.cfg.cRelay → 2 * s.cfg.cRelay ≤ 2 ^ 64 →
        (v.toNat : ℤ) = (((s.relay.get c).fifo.wr : ℤ) - (s.relay.get c).fifo.rd) % (2 * s.cfg.cRelay : Nat))
    ∧ (sel = .spec → (s.spec.get c).fifo.rd < 2 * s.cfg.cSpec → 2 * s.cfg.cSpec ≤ 2 ^ 64 →
        (v.toNat : ℤ) = (((s.spec.get c).fifo.wr : ℤ) - (s.spec.get c).fifo.rd) % (2 * s.cfg.cSpec : Nat))

/-! ### Whole-machine rules -/

/-- The fault record is sticky: no step but hardware reset clears a bit of FSTAT, changes a FIRST that is set, or clears
HALTED (60_exceptions.md R297, R296). -/
def Obligations.FaultRecordIsSticky : Prop :=
  ∀ s t : State, step s = .next t → (∀ rest, s.sched ≠ .hwReset :: rest) →
    (∀ i, s.fstat.getLsbD i = true → t.fstat.getLsbD i = true)
    ∧ (s.first ≠ 0#32 → t.first = s.first) ∧ (s.halted = true → t.halted = true)

/-- Who writes what (10_state.md R41): a command leaves alone the state it does not own. -/
def Obligations.CommandsKeepToTheirState : Prop :=
  ∀ (i : Instr) (s t : State), exec i s = .next t →
    (i ≠ .process → t.buf = s.buf)
    ∧ (i ≠ .prepare → i ≠ .process → t.hist = s.hist ∧ t.bank = s.bank ∧ t.snap = s.snap)
    ∧ (i ≠ .prepare → t.fs = s.fs ∧ t.maxblk = s.maxblk ∧ t.prepared = s.prepared)
    ∧ ((∀ c, i ≠ .rpoll c) → (∀ c, i ≠ .sdrain c) → i ≠ .prepare → t.spec = s.spec)
    ∧ ((∀ c, i ≠ .rpoll c) → i ≠ .prepare → ∀ ch, (t.relay.get ch).fifo.rd = (s.relay.get ch).fifo.rd)
    ∧ (i ≠ .process → i ≠ .prepare → ∀ ch, (t.relay.get ch).fifo.wr = (s.relay.get ch).fifo.wr
        ∧ (t.relay.get ch).fifo.slots = (s.relay.get ch).fifo.slots ∧ (t.relay.get ch).stg = (s.relay.get ch).stg
        ∧ (t.relay.get ch).idx = (s.relay.get ch).idx)
    ∧ (∀ q, q ≠ i.port → t.portRegs q = s.portRegs q)
    ∧ (t.portRegs i.port).cmd = (s.portRegs i.port).cmd ∧ (t.portRegs i.port).arg0 = (s.portRegs i.port).arg0
    ∧ (t.portRegs i.port).arg1 = (s.portRegs i.port).arg1
    ∧ (isRead i = false → (t.portRegs i.port).res = (s.portRegs i.port).res)

/-- No step changes the configuration (00_scope.md R6). -/
def Obligations.ConfigurationIsFixed : Prop := ∀ s t : State, step s = .next t → t.cfg = s.cfg

/-- Every port stays at a position of its own commands, and an idle port at none (10_state.md R21). -/
def Obligations.PositionsStayLegal : Prop := ∀ s t : State, PortInv s → step s = .next t → PortInv t

/-- The fault record keeps its form (10_state.md R39, 60_exceptions.md R291, R292, R296). -/
def Obligations.FaultRecordStaysLegal : Prop := ∀ s t : State, FaultInv s → step s = .next t → FaultInv t

/-- A section that is processed always has a finite coefficient set: a NaN or an infinity is never installed
(41_coefficient_factory.md R123, R124). -/
def Obligations.ProcessedSetsStayFinite : Prop := ∀ s t : State, BankInv s → step s = .next t → BankInv t

/-- The transport state stays legal, and a PROCESS in progress has passed its checks (10_state.md R26, R27,
42_filter_chain.md R159). -/
def Obligations.TransportStaysLegal : Prop :=
  ∀ s t : State, PortInv s → TransportInv s → step s = .next t → TransportInv t

/-- BUF and the staging blocks stay in canonical form and the staging index below the relay block length
(10_state.md R33, R34). -/
def Obligations.MemoryStaysCanonical : Prop :=
  ∀ s t : State, s.cfg.wf = true → PortInv s → TransportInv s → MemoryInv s → step s = .next t → MemoryInv t

/-- The FIFOs stay legal: at most C blocks, a whole block of the right length in every occupied slot, and a drain in
progress never finds its FIFO empty (43_relay_fifo.md R191, R194, R195). -/
def Obligations.FifosStayLegal : Prop :=
  ∀ s t : State, s.cfg.wf = true → PortInv s → FifoInv s → step s = .next t → FifoInv t

/-- The spectrum state stays legal: L samples in the window, fewer than HOP of them uncounted for
(10_state.md R36, R37, R38, 44_spectrum.md R225). -/
def Obligations.SpectrumStaysLegal : Prop :=
  ∀ s t : State, s.cfg.wf = true → SpectrumInv s → step s = .next t → SpectrumInv t

/-- Every invariant at once is kept by every step, hardware reset and every agent's move included. -/
def Obligations.InvariantIsKept : Prop := ∀ s t : State, Inv s → step s = .next t → Inv t

/-- The invariants hold after hardware reset under every legal configuration. -/
def Obligations.ResetMeetsInvariant : Prop := ∀ (c : Config) (n : Nat), c.wf = true → Inv (State.resetWith c n)

/-- What hardware reset leaves (10_state.md R44, 70_reset_and_hazards.md R320), for the values the spec states. That no BUF or
staging element holds a value is the model's form of a content the spec leaves open (log entry 2), and that the configuration
is kept is the model's too (log entry 17). -/
def Obligations.ResetValues : Prop :=
  ∀ (s : State) (rest : List Move), s.sched = .hwReset :: rest →
    ∃ t, step s = .next t
      ∧ (∀ p, t.portRegs p = { cmd := 0#32, arg0 := 0#64, arg1 := 0#64, res := 0#64, busy := false, pos := .start })
      ∧ srList t.sr = [0x447A0000#32, 0#32, 0x3F800000#32, 0x41A00000#32, 0x469C4000#32, 0, 0, 0, 0, 0, 1#32]
      ∧ t.gen = 0#32 ∧ t.prepared = false ∧ t.halted = false ∧ t.fs = 0#64 ∧ t.maxblk = 0
      ∧ (t.bank.dgpk = false ∧ ∀ i, t.bank.dghp.get i = false ∧ t.bank.dglp.get i = false)
      ∧ t.bank.actHp = 1 ∧ t.bank.actLp = 1 ∧ t.bank.bypHp = false ∧ t.bank.bypPk = false ∧ t.bank.bypLp = false
      ∧ t.hist = ⟨.zero, .zero⟩
      ∧ (∀ ch j, (t.buf.get ch).read j = none ∧ (t.relay.get ch).stg.read j = none)
      ∧ (∀ ch, (t.relay.get ch).idx = 0 ∧ (t.relay.get ch).fifo.wr = 0 ∧ (t.relay.get ch).fifo.rd = 0)
      ∧ (∀ ch, (t.spec.get ch).win = List.replicate (2 ^ s.cfg.fftOrder) 0#32 ∧ (t.spec.get ch).newcnt = 0
          ∧ (t.spec.get ch).fifo.wr = 0 ∧ (t.spec.get ch).fifo.rd = 0 ∧ (t.spec.get ch).latest.valid = false)
      ∧ t.fstat = 0#32 ∧ t.first = 0#32 ∧ t.cfg = s.cfg
end

