-- ==== Sys2Proof/Laws/Float.lean ====
section
/-! SUPPORT. What the binary32 operations do with NaNs, infinities and order. -/

namespace Sys2Proof.Machine

/-! ### Classes of patterns -/

/-- The exact value is a NaN, or finite. -/
def Num.isNan : Num → Bool
  | .nan => true
  | .inf _ => false
  | .fin _ _ _ => false

def Num.isFin : Num → Bool
  | .nan => false
  | .inf _ => false
  | .fin _ _ _ => true

theorem flushSub_exp (x : B32) : (flushSub x).toNat / 2 ^ 23 % 2 ^ 8 = x.toNat / 2 ^ 23 % 2 ^ 8 := by
  unfold flushSub
  split
  · rename_i h
    rw [h, BitVec.toNat_and]
    have : (0x80000000#32).toNat = 2 ^ 31 := rfl
    rw [this, Nat.and_two_pow]
    cases x.toNat.testBit 31 <;> simp
  · rfl

theorem flushSub_eq_of_exp (x : B32) (h : x.toNat / 2 ^ 23 % 2 ^ 8 ≠ 0) : flushSub x = x := by
  unfold flushSub; rw [if_neg h]

theorem flush_eq_of_exp (e : FpEnv) (x : B32) (h : x.toNat / 2 ^ 23 % 2 ^ 8 ≠ 0) : e.flush x = x := by
  unfold FpEnv.flush; split
  · exact flushSub_eq_of_exp x h
  · rfl

theorem flush_exp (e : FpEnv) (x : B32) : (e.flush x).toNat / 2 ^ 23 % 2 ^ 8 = x.toNat / 2 ^ 23 % 2 ^ 8 := by
  unfold FpEnv.flush; split
  · exact flushSub_exp x
  · rfl

theorem isFinite32_iff (x : B32) : isFinite32 x = true ↔ x.toNat / 2 ^ 23 % 2 ^ 8 ≠ 255 := by
  have h := x.isLt
  simp only [isFinite32, Fmt.infBits, Fmt.b32]
  norm_num at h ⊢
  omega

theorem isNan32_iff (x : B32) : isNan32 x = true ↔ x.toNat / 2 ^ 23 % 2 ^ 8 = 255 ∧ x.toNat % 2 ^ 23 ≠ 0 := by
  have h := x.isLt
  simp only [isNan32, Fmt.infBits, Fmt.b32]
  norm_num at h ⊢
  omega

theorem isFinite32_of_isNan32 {x : B32} (h : isNan32 x = true) : isFinite32 x = false := by
  rw [isNan32_iff] at h
  rw [Bool.eq_false_iff, Ne, isFinite32_iff]
  omega

@[simp] theorem isFinite32_flush (e : FpEnv) (x : B32) : isFinite32 (e.flush x) = isFinite32 x := by
  rw [Bool.eq_iff_iff, isFinite32_iff, isFinite32_iff, flush_exp]

theorem unpack_isNan (x : B32) : (Fmt.b32.unpack x.toNat).isNan = isNan32 x := by
  rw [Bool.eq_iff_iff, isNan32_iff]
  by_cases h1 : x.toNat / 8388608 % 256 = 255
  · by_cases h2 : x.toNat % 8388608 = 0 <;> simp [Fmt.unpack, Fmt.b32, h1, h2, Num.isNan]
  · by_cases h2 : x.toNat / 8388608 % 256 = 0 <;> simp [Fmt.unpack, Fmt.b32, h1, h2, Num.isNan]

theorem unpack_isFin (x : B32) : (Fmt.b32.unpack x.toNat).isFin = isFinite32 x := by
  rw [Bool.eq_iff_iff, isFinite32_iff]
  by_cases h1 : x.toNat / 8388608 % 256 = 255
  · by_cases h2 : x.toNat % 8388608 = 0 <;> simp [Fmt.unpack, Fmt.b32, h1, h2, Num.isFin]
  · by_cases h2 : x.toNat / 8388608 % 256 = 0 <;> simp [Fmt.unpack, Fmt.b32, h1, h2, Num.isFin]

@[simp] theorem isNan_num32 (e : FpEnv) (x : B32) : (e.num32 x).isNan = isNan32 x := by
  rw [FpEnv.num32, unpack_isNan]
  by_cases h : x.toNat / 2 ^ 23 % 2 ^ 8 = 0
  · rw [Bool.eq_iff_iff, isNan32_iff, isNan32_iff, flush_exp]; omega
  · rw [flush_eq_of_exp e x h]

@[simp] theorem isFin_num32 (e : FpEnv) (x : B32) : (e.num32 x).isFin = isFinite32 x := by
  rw [FpEnv.num32, unpack_isFin, isFinite32_flush]

/-- A drawn NaN is a NaN (00_scope.md R14). -/
@[simp] theorem isNan32_mkNan32 (d : U32) : isNan32 (mkNan32 d) = true := by
  rw [isNan32_iff]
  have h := d.isLt
  simp only [mkNan32, Fmt.infBits, Fmt.b32, BitVec.toNat_ofNat]
  omega

/-- A result is a NaN when its exact value is. -/
theorem isNan32_result32 (e : FpEnv) (op : FpOp) (a b : U64) {v : Num} (h : v.isNan = true) :
    isNan32 (e.result32 op a b v) = true := by
  cases v <;> simp_all [Num.isNan, FpEnv.result32]

/-- A result is not finite when its exact value is not. -/
theorem isFinite32_result32 (e : FpEnv) (op : FpOp) (a b : U64) {v : Num} (h : v.isFin = false) :
    isFinite32 (e.result32 op a b v) = false := by
  cases v with
  | nan => exact isFinite32_of_isNan32 (by simp [FpEnv.result32])
  | inf s =>
    have : ∀ s, isFinite32 (BitVec.ofNat 32 (Fmt.b32.pack (.inf s))) = false := by decide
    exact this s
  | fin s m x => simp [Num.isFin] at h

/-! ### Propagation -/

theorem Num.isNan_negate (a : Num) : a.negate.isNan = a.isNan := by cases a <;> rfl
theorem Num.isFin_negate (a : Num) : a.negate.isFin = a.isFin := by cases a <;> rfl

theorem Num.isNan_add {a b : Num} (h : a.isNan = true ∨ b.isNan = true) : (a.add b).isNan = true := by
  cases a <;> cases b <;> simp_all [Num.isNan, Num.add]

theorem Num.isFin_add {a b : Num} (h : a.isFin = false ∨ b.isFin = false) : (a.add b).isFin = false := by
  cases a <;> cases b <;> simp_all [Num.isFin, Num.add]
  split_ifs <;> simp

theorem Num.isNan_mul {a b : Num} (h : a.isNan = true ∨ b.isNan = true) : (a.mul b).isNan = true := by
  cases a <;> cases b <;> simp_all [Num.isNan, Num.mul]

theorem Num.isFin_mul {a b : Num} (h : a.isFin = false ∨ b.isFin = false) : (a.mul b).isFin = false := by
  cases a <;> cases b <;> simp_all [Num.isFin, Num.mul] <;> split_ifs <;> simp

theorem isNan32_add32 (e : FpEnv) {a b : B32} (h : isNan32 a = true ∨ isNan32 b = true) :
    isNan32 (add32 e a b) = true :=
  isNan32_result32 _ _ _ _ (Num.isNan_add (by simpa using h))

theorem isNan32_sub32 (e : FpEnv) {a b : B32} (h : isNan32 a = true ∨ isNan32 b = true) :
    isNan32 (sub32 e a b) = true :=
  isNan32_result32 _ _ _ _ (Num.isNan_add (by simpa [Num.isNan_negate] using h))

theorem isNan32_mul32 (e : FpEnv) {a b : B32} (h : isNan32 a = true ∨ isNan32 b = true) :
    isNan32 (mul32 e a b) = true :=
  isNan32_result32 _ _ _ _ (Num.isNan_mul (by simpa using h))

theorem isFinite32_add32 (e : FpEnv) {a b : B32} (h : isFinite32 a = false ∨ isFinite32 b = false) :
    isFinite32 (add32 e a b) = false :=
  isFinite32_result32 _ _ _ _ (Num.isFin_add (by simpa using h))

theorem isFinite32_sub32 (e : FpEnv) {a b : B32} (h : isFinite32 a = false ∨ isFinite32 b = false) :
    isFinite32 (sub32 e a b) = false :=
  isFinite32_result32 _ _ _ _ (Num.isFin_add (by simpa [Num.isFin_negate] using h))

theorem isFinite32_mul32 (e : FpEnv) {a b : B32} (h : isFinite32 a = false ∨ isFinite32 b = false) :
    isFinite32 (mul32 e a b) = false :=
  isFinite32_result32 _ _ _ _ (Num.isFin_mul (by simpa using h))

/-! ### Order -/

theorem Num.lt_irrefl (a : Num) : a.lt a = false := by cases a <;> simp [Num.lt]

theorem Num.lt_isNan_left {a b : Num} (h : a.isNan = true) : a.lt b = false := by
  cases a <;> simp_all [Num.isNan, Num.lt]

theorem Num.lt_isNan_right {a b : Num} (h : b.isNan = true) : a.lt b = false := by
  cases a <;> cases b <;> simp_all [Num.isNan, Num.lt]

theorem signedSig_mul_lt (s t : Bool) (m n k : Nat) :
    signedSig s (m * 2 ^ k) < signedSig t (n * 2 ^ k) ↔ signedSig s m < signedSig t n := by
  have hk : (0 : ℤ) < 2 ^ k := by positivity
  have h (b : Bool) (x : Nat) : signedSig b (x * 2 ^ k) = signedSig b x * 2 ^ k := by
    cases b <;> simp [signedSig]
  rw [h, h]
  exact mul_lt_mul_iff_of_pos_right hk

/-- Finite numbers compare as their significands at any common scale. -/
theorem Num.lt_fin_scale {s t : Bool} {m n : Nat} {e g l : Int} (he : l ≤ e) (hg : l ≤ g) :
    (Num.fin s m e).lt (.fin t n g) = decide (signedSig s (m * 2 ^ (e - l).toNat) < signedSig t (n * 2 ^ (g - l).toNat)) := by
  simp only [Num.lt, decide_eq_decide]
  have h1 : (e - l).toNat = (e - min e g).toNat + (min e g - l).toNat := by omega
  have h2 : (g - l).toNat = (g - min e g).toNat + (min e g - l).toNat := by omega
  rw [h1, h2, pow_add, pow_add, ← mul_assoc, ← mul_assoc, signedSig_mul_lt]

theorem Num.lt_trans {a b c : Num} (h1 : a.lt b = true) (h2 : b.lt c = true) : a.lt c = true := by
  cases a with
  | nan => simp [Num.lt] at h1
  | inf s =>
    cases b with
    | nan => simp [Num.lt] at h1
    | inf t => cases c <;> simp_all [Num.lt]
    | fin t n g => cases c <;> simp_all [Num.lt]
  | fin s m e =>
    cases b with
    | nan => simp [Num.lt] at h1
    | inf t => cases c <;> simp_all [Num.lt]
    | fin t n g =>
      cases c with
      | nan => simp [Num.lt] at h2
      | inf u => simpa [Num.lt] using h2
      | fin u k f =>
        have l1 : min e (min g f) ≤ e := by omega
        have l2 : min e (min g f) ≤ g := by omega
        have l3 : min e (min g f) ≤ f := by omega
        rw [Num.lt_fin_scale l1 l2, decide_eq_true_eq] at h1
        rw [Num.lt_fin_scale l2 l3, decide_eq_true_eq] at h2
        rw [Num.lt_fin_scale l1 l3, decide_eq_true_eq]
        exact h1.trans h2

/-- A number above an upper bound is not below the lower one. -/
theorem Num.not_lt_of_lt {lo hi v : Num} (hb : hi.lt lo = false) (h : hi.lt v = true) : v.lt lo = false := by
  rw [Bool.eq_false_iff] at hb ⊢
  exact fun h' => hb (Num.lt_trans h h')

theorem lt32_irrefl (e : FpEnv) (a : B32) : lt32 e a a = false := Num.lt_irrefl _

theorem lt32_of_isNan_left (e : FpEnv) {a b : B32} (h : isNan32 a = true) : lt32 e a b = false :=
  Num.lt_isNan_left (by simpa using h)

theorem lt32_of_isNan_right (e : FpEnv) {a b : B32} (h : isNan32 b = true) : lt32 e a b = false :=
  Num.lt_isNan_right (by simpa using h)

theorem lt32_trans (e : FpEnv) {a b c : B32} (h1 : lt32 e a b = true) (h2 : lt32 e b c = true) : lt32 e a c = true :=
  Num.lt_trans h1 h2

/-- A comparison does not look at the draw counter. -/
theorem lt32_seq (e : FpEnv) (n : Nat) (a b : B32) : lt32 { e with seq := n } a b = lt32 e a b := rfl

end Sys2Proof.Machine
end

