-- ==== Sys2Proof/Laws/Rounding.lean ====
section
/-! SUPPORT. Rounding: exact where the format holds the number, else the nearest pattern, ties to the even one. -/

namespace Sys2Proof.Machine

/-! ### Numbers a format holds exactly -/

/-- Rounding a number the format holds exactly: its significand shifted to its binade. -/
theorem roundMag_exact (f : Fmt) (m : Nat) (e : Int) (hm : 0 < m) (hlt : m < 2 ^ (f.fbits + 1)) (he : f.emin ≤ e) :
    ∃ (k : Nat) (j : Nat), f.roundMag m e = min (j * 2 ^ f.fbits + m * 2 ^ k) f.infBits ∧ (j : Int) + f.emin + k = e ∧
      m * 2 ^ k < 2 ^ (f.fbits + 1) ∧ (0 < j → 2 ^ f.fbits ≤ m * 2 ^ k) := by
  have hL := Nat.log2_lt (by omega : m ≠ 0) |>.mpr hlt
  have hself := Nat.log2_self_le (by omega : m ≠ 0)
  have hlt2 : m < 2 ^ (m.log2 + 1) := Nat.lt_log2_self
  set L := m.log2
  set q : Int := max (e + (L : Nat) - (f.fbits : Nat)) f.emin with hq
  have hqe : q ≤ e := by omega
  refine ⟨(e - q).toNat, (q - f.emin).toNat, ?_, by omega, ?_, ?_⟩
  · unfold Fmt.roundMag
    rw [if_neg (by omega)]
    simp only [← hq]
    rw [if_pos hqe]
  · calc m * 2 ^ (e - q).toNat < 2 ^ (L + 1) * 2 ^ (e - q).toNat := Nat.mul_lt_mul_of_pos_right hlt2 (by positivity)
      _ = 2 ^ (L + 1 + (e - q).toNat) := by rw [← pow_add]
      _ ≤ _ := Nat.pow_le_pow_right (by norm_num) (by omega)
  · intro hj
    calc 2 ^ f.fbits = 2 ^ (L + (e - q).toNat) := by congr 1; omega
      _ = 2 ^ L * 2 ^ (e - q).toNat := by rw [pow_add]
      _ ≤ _ := Nat.mul_le_mul_right _ hself

/-- unpack of a packed magnitude -/
theorem unpack_mag (f : Fmt) (neg : Bool) (j s : Nat) (hs : s < 2 ^ (f.fbits + 1)) (hj : 0 < j → 2 ^ f.fbits ≤ s)
    (hlt : j * 2 ^ f.fbits + s < f.infBits) :
    f.unpack (f.withSign neg (j * 2 ^ f.fbits + s)) = .fin neg s (f.emin + j) := by
  have hB : 0 < 2 ^ f.fbits := by positivity
  have hE : 0 < 2 ^ f.ebits := by positivity
  generalize hb : 2 ^ f.fbits = B at *
  generalize he : 2 ^ f.ebits = E at *
  have hsb : f.signBit = E * B := by unfold Fmt.signBit; rw [pow_add, hb, he]
  have hib : f.infBits = (E - 1) * B := by unfold Fmt.infBits; rw [hb, he]
  rw [hib] at hlt
  rw [pow_succ, hb] at hs
  have hlt2 : j * B + s < E * B := by
    refine lt_of_lt_of_le hlt ?_
    exact Nat.mul_le_mul_right _ (by omega)
  obtain ⟨k, hk⟩ : ∃ k, f.withSign neg (j * B + s) = k * (E * B) + (j * B + s) ∧ (k % 2 == 1) = neg := by
    cases neg
    · exact ⟨0, by simp [Fmt.withSign], rfl⟩
    · exact ⟨1, by simp [Fmt.withSign, hsb], rfl⟩
  obtain ⟨hk1, hk2⟩ := hk
  rw [hk1]
  unfold Fmt.unpack
  simp only [hb, he, hsb]
  have hsign : (k * (E * B) + (j * B + s)) / (E * B) = k := by
    rw [Nat.mul_comm k, Nat.mul_add_div (by positivity), Nat.div_eq_of_lt hlt2]; simp
  have hfrac : (k * (E * B) + (j * B + s)) % B = s % B := by
    have : k * (E * B) + (j * B + s) = s + B * (k * E + j) := by ring
    rw [this, Nat.add_mul_mod_self_left]
  have hdiv : (k * (E * B) + (j * B + s)) / B % E = j + s / B := by
    have : k * (E * B) + (j * B + s) = s + B * (k * E + j) := by ring
    rw [this, Nat.add_mul_div_left _ _ hB]
    have : s / B + (k * E + j) = (j + s / B) + E * k := by ring
    rw [this, Nat.add_mul_mod_self_left, Nat.mod_eq_of_lt]
    have : (j + s / B) = (s + B * j) / B := by rw [Nat.add_mul_div_left _ _ hB]; ring
    rw [this, Nat.div_lt_iff_lt_mul hB]
    linarith [Nat.mul_comm B j]
  rw [hsign, hfrac, hdiv, hk2]
  have hex : j + s / B < E - 1 := by
    have : (j + s / B) = (s + B * j) / B := by rw [Nat.add_mul_div_left _ _ hB]; ring
    rw [this, Nat.div_lt_iff_lt_mul hB]
    linarith [Nat.mul_comm B j]
  rw [if_neg (by omega)]
  by_cases h0 : s < B
  · have : j = 0 := by by_contra hne; have := hj (by omega); omega
    subst this
    rw [Nat.div_eq_of_lt h0, Nat.mod_eq_of_lt h0, if_pos (by omega)]; simp
  · have h1 : s / B = 1 := by
      apply Nat.div_eq_of_lt_le <;> omega
    have h2 : s % B = s - B := by
      rw [Nat.mod_eq_sub_mod (by omega), Nat.mod_eq_of_lt (by omega)]
    rw [h1, h2, if_neg (by omega)]
    congr 1
    omega

theorem roundShift_exact (a k : Nat) : roundShift (a * 2 ^ k) k = a := by
  unfold roundShift
  have h1 : a * 2 ^ k / 2 ^ k = a := Nat.mul_div_cancel _ (by positivity)
  have h2 : a * 2 ^ k % 2 ^ k = 0 := Nat.mul_mod_left _ _
  simp only [h1, h2]
  have : (2 ^ k : Nat) ≠ 0 := by positivity
  rw [if_neg]; simp; omega

theorem log2_shift (m k : Nat) (hm : 0 < m) : (m * 2 ^ k).log2 = m.log2 + k := by
  have h : m * 2 ^ k ≠ 0 := by positivity
  rw [Nat.log2_eq_iff h]
  have h1 := Nat.log2_self_le (by omega : m ≠ 0)
  have h2 : m < 2 ^ (m.log2 + 1) := Nat.lt_log2_self
  constructor
  · rw [pow_add]; exact Nat.mul_le_mul_right _ h1
  · rw [show m.log2 + k + 1 = (m.log2 + 1) + k by ring, pow_add]; exact Nat.mul_lt_mul_of_pos_right h2 (by positivity)

theorem roundMag_shift (f : Fmt) (m k : Nat) (e : Int) (hm : 0 < m) (hlt : m < 2 ^ (f.fbits + 1)) (he : f.emin ≤ e) :
    f.roundMag (m * 2 ^ k) (e - k) = f.roundMag m e := by
  have hL := Nat.log2_lt (by omega : m ≠ 0) |>.mpr hlt
  unfold Fmt.roundMag
  rw [if_neg (by positivity), if_neg (by omega)]
  simp only [log2_shift m k hm]
  have hq : max (e - k + ((m.log2 + k : Nat) : Int) - (f.fbits : Nat)) f.emin = max (e + (m.log2 : Nat) - (f.fbits : Nat)) f.emin := by
    congr 1; push_cast; ring
  rw [hq]
  generalize hQ : max (e + (m.log2 : Nat) - (f.fbits : Nat)) f.emin = q
  have hqe : q ≤ e := by omega
  rw [if_pos hqe]
  congr 2
  by_cases h : q ≤ e - k
  · rw [if_pos h, Nat.mul_assoc, ← pow_add]
    congr 2; omega
  · rw [if_neg h]
    have : m * 2 ^ k = m * 2 ^ (e - q).toNat * 2 ^ (q - (e - k)).toNat := by
      rw [Nat.mul_assoc, ← pow_add]; congr 2; omega
    rw [this, roundShift_exact]

/-- A binary32 that is no NaN, taken apart and put together. -/
theorem unpack32_cases (u : B32) (h : isNan32 u = false) :
    (∃ neg, Fmt.b32.unpack u.toNat = .inf neg ∧ u.toNat = Fmt.b32.withSign neg Fmt.b32.infBits)
    ∨ (∃ neg m ex, Fmt.b32.unpack u.toNat = .fin neg m ex ∧ u.toNat = Fmt.b32.withSign neg (Fmt.b32.roundMag m ex)
        ∧ m < 2 ^ 24 ∧ -149 ≤ ex ∧ ex ≤ 104) := by
  have hu := u.isLt
  have h : ¬ (2139095040 < u.toNat % 2147483648) := by
    unfold isNan32 at h
    have e : Fmt.b32.infBits = 2139095040 := by decide
    rw [e] at h; simpa using h
  generalize u.toNat = x at *
  have eI : Fmt.b32.infBits = 2139095040 := by decide
  have eS : Fmt.b32.signBit = 2147483648 := by decide
  have eM : Fmt.b32.emin = -149 := by decide
  have hw : ∀ b : Bool, (x / 2147483648 % 2 == 1) = b → ∀ r, r < 2147483648 → r = x % 2147483648 → x = Fmt.b32.withSign b r := by
    intro b hb r hr hx
    cases b
    · simp [Fmt.withSign] at hb ⊢; omega
    · simp [Fmt.withSign, eS] at hb ⊢; omega
  generalize hb : (x / 2147483648 % 2 == 1) = b
  have hunp : Fmt.b32.unpack x = if x / 8388608 % 256 = 255 then (if x % 8388608 = 0 then .inf b else .nan)
      else if x / 8388608 % 256 = 0 then .fin b (x % 8388608) (-149)
      else .fin b (x % 8388608 + 8388608) (-149 + (x / 8388608 % 256 - 1 : Nat)) := by
    rw [← hb]; rfl
  rw [hunp]
  by_cases h1 : x / 8388608 % 256 = 255
  · left
    refine ⟨b, ?_, ?_⟩
    · rw [if_pos h1, if_pos (by omega)]
    · rw [eI]; exact hw b hb _ (by omega) (by omega)
  · right
    rw [if_neg h1]
    have ex : ∀ m e, 0 < m → m < 2 ^ 24 → -149 ≤ e → e ≤ 104 → (m < 2 ^ 23 → e = -149) →
        Fmt.b32.roundMag m e = (e + 149).toNat * 8388608 + m := by
      intro m e hm hlt he he2 hsub
      obtain ⟨k, j, h1, h2, h3, h4⟩ := roundMag_exact Fmt.b32 m e hm hlt (by rw [eM]; exact he)
      rw [eM] at h2
      have hk : k = 0 := by
        by_contra hk
        have : m * 2 ≤ m * 2 ^ k := Nat.mul_le_mul_left _ (by
          calc 2 = 2 ^ 1 := rfl
            _ ≤ 2 ^ k := Nat.pow_le_pow_right (by norm_num) (by omega))
        have h3' : m * 2 ^ k < 2 ^ 24 := h3
        have := hsub (by omega)
        omega
      subst hk
      rw [h1, eI, show Fmt.b32.fbits = 23 from rfl]
      have : j = (e + 149).toNat := by omega
      subst this
      simp only [pow_zero, mul_one]
      rw [min_eq_left] <;> omega
    by_cases h0 : x / 8388608 % 256 = 0
    · rw [if_pos h0]
      refine ⟨b, _, _, rfl, ?_, by omega, by norm_num, by norm_num⟩
      apply hw b hb
      · by_cases hz : x % 8388608 = 0
        · rw [hz]; decide
        · rw [ex _ _ (by omega) (by omega) (by norm_num) (by norm_num) (fun _ => rfl)]; simp; omega
      · by_cases hz : x % 8388608 = 0
        · rw [hz, show Fmt.b32.roundMag 0 (-149) = 0 from by decide]; omega
        · rw [ex _ _ (by omega) (by omega) (by norm_num) (by norm_num) (fun _ => rfl)]; simp; omega
    · rw [if_neg h0]
      have hr := ex (x % 8388608 + 8388608) (-149 + (x / 8388608 % 256 - 1 : Nat)) (by omega) (by omega) (by omega) (by omega) (by omega)
      refine ⟨b, _, _, rfl, ?_, by omega, by omega, by omega⟩
      apply hw b hb
      · rw [hr]; omega
      · rw [hr]; omega

theorem flush_notNan (e : FpEnv) (v : B32) (h : isNan32 v = false) : isNan32 (e.flush v) = false := by
  unfold FpEnv.flush flushSub
  split
  · split
    · have : (v &&& 0x80000000#32) = 0x80000000#32 ∨ (v &&& 0x80000000#32) = 0#32 := by
        by_cases hb : v.getLsbD 31
        · left; apply BitVec.eq_of_getLsbD_eq; intro i hi; simp; interval_cases i <;> simp_all
        · right; apply BitVec.eq_of_getLsbD_eq; intro i hi; simp; interval_cases i <;> simp_all
      rcases this with h | h <;> rw [h] <;> decide
    · exact h
  · exact h

theorem flush_idem (e : FpEnv) (v : B32) : e.flush (e.flush v) = e.flush v := by
  unfold FpEnv.flush
  split
  · unfold flushSub
    split
    · split
      · rw [BitVec.and_assoc]; simp
      · rfl
    · rfl
  · rfl

/-! ### The nearest pattern -/

theorem roundShift_near (m k : Nat) :
    2 * |((roundShift m k : Nat) : ℤ) * 2 ^ k - m| ≤ 2 ^ k ∧
      (2 * |((roundShift m k : Nat) : ℤ) * 2 ^ k - m| = 2 ^ k → 1 ≤ k → roundShift m k % 2 = 0) := by
  unfold roundShift
  have hP : 0 < 2 ^ k := Nat.two_pow_pos k
  have hd := Nat.div_add_mod m (2 ^ k)
  have hr := Nat.mod_lt m hP
  have hev : 1 ≤ k → 2 ^ k % 2 = 0 := by
    intro hk; obtain ⟨i, rfl⟩ : ∃ i, k = i + 1 := ⟨k - 1, by omega⟩; rw [pow_succ]; omega
  have hc : ((2 : ℤ) ^ k) = ((2 ^ k : Nat) : ℤ) := by push_cast; rfl
  rw [hc]
  generalize 2 ^ k = P at *
  generalize m / P = t at *
  generalize m % P = r at *
  simp only
  have hm : (m : ℤ) = P * t + r := by exact_mod_cast hd.symm
  rw [hm]
  by_cases h : 2 * r > P ∨ (2 * r = P ∧ t % 2 = 1)
  · have e1 : (decide (2 * r > P) || (2 * r == P && t % 2 == 1)) = true := by simpa using h
    rw [if_pos e1]
    have e2 : (((t + 1 : Nat) : ℤ) * P - (P * t + r)) = P - r := by push_cast; ring
    rw [e2, abs_of_nonneg (by omega)]
    constructor
    · omega
    · intro he hk; have := hev hk; omega
  · have e1 : ¬ (decide (2 * r > P) || (2 * r == P && t % 2 == 1)) = true := by simpa using h
    rw [if_neg e1]
    have e2 : ((t : ℤ) * P - (P * t + r)) = -r := by ring
    rw [e2, abs_neg, abs_of_nonneg (by omega)]
    constructor
    · omega
    · intro he hk; have := hev hk; omega

/-- `x` is what the significand m at exponent e stands for: that number exactly, or, where m has more than `b` bits and its
last one is a sticky bit, a number strictly between the neighbours with an even significand. -/
def Stands (b m : Nat) (e : Int) (x : ℝ) : Prop :=
  x = m * 2 ^ e ∨ (m % 2 = 1 ∧ 2 ^ b ≤ m ∧ ((m : ℝ) - 1) * 2 ^ e < x ∧ x < ((m : ℝ) + 1) * 2 ^ e)

/-- The significand of a rounding is the nearest multiple of 2^q to the number rounded, ties to even. -/
theorem sig_near (m : Nat) (e q : Int) (x : ℝ)
    (hx : x = m * 2 ^ e ∨ (e + 2 ≤ q ∧ m % 2 = 1 ∧ ((m : ℝ) - 1) * 2 ^ e < x ∧ x < ((m : ℝ) + 1) * 2 ^ e)) (N : ℤ) :
    let sig := if q ≤ e then m * 2 ^ (e - q).toNat else roundShift m (q - e).toNat
    |(sig : ℝ) * 2 ^ q - x| ≤ |(N : ℝ) * 2 ^ q - x| ∧
      2 * |(sig : ℝ) * 2 ^ q - x| ≤ 2 ^ q ∧
      (|(sig : ℝ) * 2 ^ q - x| = |(N : ℝ) * 2 ^ q - x| → N ≠ sig → sig % 2 = 0) := by
  intro sig
  have h2 : (0 : ℝ) < 2 ^ q := by positivity
  by_cases h : q ≤ e
  · have hx : x = m * 2 ^ e := by
      rcases hx with h' | h'
      · exact h'
      · exact absurd h'.1 (by omega)
    have hs : (sig : ℝ) * 2 ^ q = x := by
      rw [hx]
      simp only [sig, if_pos h]
      push_cast
      rw [mul_assoc, ← zpow_natCast, ← zpow_add₀ (by norm_num)]
      congr 2; omega
    rw [hs]; simp only [sub_self, abs_zero, mul_zero]
    refine ⟨abs_nonneg _, h2.le, ?_⟩
    intro h0 hN
    have h0' := (abs_eq_zero.mp h0.symm)
    have : (N : ℝ) * 2 ^ q = sig * 2 ^ q := by rw [hs]; linarith
    have := mul_right_cancel₀ h2.ne' this
    exact absurd (by exact_mod_cast this) hN
  · obtain ⟨k, hk, hk1⟩ : ∃ k : Nat, q = e + k ∧ 1 ≤ k := ⟨(q - e).toNat, by omega, by omega⟩
    have hsig : sig = roundShift m k := by
      simp only [sig, if_neg h]; congr 1; omega
    rw [hsig]
    obtain ⟨n1, n2⟩ := roundShift_near m k
    have hE : (0 : ℝ) < 2 ^ e := by positivity
    have hqk : (2 : ℝ) ^ q = 2 ^ k * 2 ^ e := by rw [hk, zpow_add₀ (by norm_num), zpow_natCast]; ring
    -- the distance is at most half a step, and half a step only at a tie that goes to the even one
    have half : 2 * |((roundShift m k : Nat) : ℝ) * 2 ^ q - x| ≤ 2 ^ q
        ∧ (2 * |((roundShift m k : Nat) : ℝ) * 2 ^ q - x| = 2 ^ q → roundShift m k % 2 = 0) := by
      generalize roundShift m k = t at *
      have cv : |(t : ℝ) * 2 ^ q - m * 2 ^ e| = ((|(t : ℤ) * 2 ^ k - m| : ℤ) : ℝ) * 2 ^ e := by
        have : (t : ℝ) * 2 ^ q - m * 2 ^ e = (((t : ℤ) * 2 ^ k - m : ℤ) : ℝ) * 2 ^ e := by
          rw [hqk]; push_cast; ring
        rw [this, abs_mul, abs_of_pos hE]; push_cast; rfl
      rcases hx with rfl | ⟨hq2, ho, hl, hr⟩
      · rw [cv, hqk]
        constructor
        · have : ((2 * |(t : ℤ) * 2 ^ k - m| : ℤ) : ℝ) ≤ ((2 ^ k : ℤ) : ℝ) := by exact_mod_cast n1
          push_cast at this ⊢
          nlinarith
        · intro he
          apply n2 _ hk1
          have : ((2 * |(t : ℤ) * 2 ^ k - m| : ℤ) : ℝ) = ((2 ^ k : ℤ) : ℝ) := by
            apply mul_right_cancel₀ hE.ne'
            push_cast at he ⊢; linarith
          exact_mod_cast this
      · obtain ⟨w, rfl⟩ : ∃ w, k = w + 2 := ⟨k - 2, by omega⟩
        have n1' : 2 * |(t : ℤ) * 2 ^ (w + 2) - m| + 2 ≤ 2 ^ (w + 2) := by
          have e4 : (2 : ℤ) ^ (w + 2) = 4 * 2 ^ w := by ring
          rw [e4] at n1 ⊢
          generalize (2 : ℤ) ^ w = Y at *
          have : (t : ℤ) * (4 * Y) - m = 4 * (t * Y) - m := by ring
          rw [this] at n1 ⊢
          generalize (t : ℤ) * Y = Z at *
          rcases abs_cases (4 * Z - (m : ℤ)) with ⟨h, _⟩ | ⟨h, _⟩ <;> rw [h] at n1 ⊢ <;> omega
        have lt : 2 * |(t : ℝ) * 2 ^ q - x| < 2 ^ q := by
          have tri : |(t : ℝ) * 2 ^ q - x| ≤ |(t : ℝ) * 2 ^ q - m * 2 ^ e| + |m * 2 ^ e - x| := abs_sub_le _ _ _
          have : |m * 2 ^ e - x| < 2 ^ e := by rw [abs_lt]; constructor <;> nlinarith
          rw [cv] at tri
          have : ((2 * |(t : ℤ) * 2 ^ (w + 2) - m| + 2 : ℤ) : ℝ) ≤ ((2 ^ (w + 2) : ℤ) : ℝ) := by exact_mod_cast n1'
          push_cast at this tri
          have := mul_le_mul_of_nonneg_right this hE.le
          rw [← hqk] at this
          linarith
        exact ⟨lt.le, fun he => absurd he lt.ne⟩
    generalize roundShift m k = t at *
    by_cases hN : N = t
    · subst hN; exact ⟨by simp, half.1, fun _ h => absurd rfl h⟩
    · have hdist : (2 : ℝ) ^ q ≤ |(N : ℝ) * 2 ^ q - t * 2 ^ q| := by
        rw [← sub_mul, abs_mul, abs_of_pos h2]
        have : 1 ≤ |N - (t : ℤ)| := Int.one_le_abs (sub_ne_zero.mpr hN)
        have : (1 : ℝ) ≤ |(N : ℝ) - t| := by exact_mod_cast this
        nlinarith
      have tri : |(N : ℝ) * 2 ^ q - t * 2 ^ q| ≤ |(N : ℝ) * 2 ^ q - x| + |(t : ℝ) * 2 ^ q - x| := by
        have := abs_sub_le ((N : ℝ) * 2 ^ q) x (t * 2 ^ q)
        rwa [abs_sub_comm x (t * 2 ^ q)] at this
      exact ⟨by linarith [half.1], half.1, fun he _ => half.2 (by linarith [half.1])⟩

/-- The parts a rounding is made of: the significand sig at the exponent q = emin + i. -/
structure Parts (f : Fmt) (x : ℝ) (B i sig : Nat) (q : Int) : Prop where
  exp : q = f.emin + i
  near : ∀ N : ℤ, |(sig : ℝ) * 2 ^ q - x| ≤ |(N : ℝ) * 2 ^ q - x| ∧ 2 * |(sig : ℝ) * 2 ^ q - x| ≤ 2 ^ q ∧
    (|(sig : ℝ) * 2 ^ q - x| = |(N : ℝ) * 2 ^ q - x| → N ≠ sig → sig % 2 = 0)
  pos : 0 < x
  upper : x < 2 * B * 2 ^ q
  lower : 0 < i → B * 2 ^ q ≤ x
  sig_le : sig ≤ 2 * B
  le_sig : 0 < i → B ≤ sig

/-- `Parts` of the rounding of x, which m at exponent e stands for. -/
theorem roundMag_parts (f : Fmt) (m : Nat) (hm : 0 < m) (e : Int) (x : ℝ) (hst : Stands (f.fbits + 2) m e x) :
    ∃ i sig q, Parts f x (2 ^ f.fbits) i sig q ∧ f.roundMag m e = min (i * 2 ^ f.fbits + sig) f.infBits := by
  have hself := Nat.log2_self_le (by omega : m ≠ 0)
  have hlt2 : m < 2 ^ (m.log2 + 1) := Nat.lt_log2_self
  obtain ⟨q, hq⟩ : ∃ q, q = max (e + (m.log2 : Nat) - (f.fbits : Nat)) f.emin := ⟨_, rfl⟩
  obtain ⟨sig, hsig⟩ : ∃ sig, sig = if q ≤ e then m * 2 ^ (e - q).toNat else roundShift m (q - e).toNat := ⟨_, rfl⟩
  obtain ⟨i, hi⟩ : ∃ i : Nat, q = f.emin + i := ⟨(q - f.emin).toNat, by omega⟩
  have near := sig_near m e q x (by
    rcases hst with h | ⟨h1, h2, h3⟩
    · exact .inl h
    · refine .inr ⟨?_, h1, h3⟩
      have := (Nat.le_log2 (by omega)).mpr h2
      omega)
  simp only [← hsig] at near
  have h2q : (0 : ℝ) < 2 ^ q := by positivity
  have he : (0 : ℝ) < 2 ^ e := by positivity
  have hxb : (2 : ℝ) ^ m.log2 * 2 ^ e ≤ x ∧ x < 2 ^ (m.log2 + 1) * 2 ^ e := by
    rcases hst with rfl | ⟨h1, h2, h3, h4⟩
    · exact ⟨mul_le_mul_of_nonneg_right (by exact_mod_cast hself) he.le, mul_lt_mul_of_pos_right (by exact_mod_cast hlt2) he⟩
    · have hL : f.fbits + 2 ≤ m.log2 := (Nat.le_log2 (by omega)).mpr h2
      obtain ⟨w, hw⟩ : ∃ w, m.log2 = w + 1 := ⟨m.log2 - 1, by omega⟩
      rw [hw] at hself hlt2 ⊢
      have l1 : 2 ^ (w + 1) + 1 ≤ m := by rw [pow_succ] at hself ⊢; omega
      have l2 : m + 1 ≤ 2 ^ (w + 1 + 1) := by rw [pow_succ] at hlt2 ⊢; omega
      have l1' : (2 : ℝ) ^ (w + 1) ≤ m - 1 := by have : (2 : ℝ) ^ (w + 1) + 1 ≤ m := by exact_mod_cast l1
                                                 linarith
      have l2' : (m : ℝ) + 1 ≤ 2 ^ (w + 1 + 1) := by exact_mod_cast l2
      exact ⟨(mul_le_mul_of_nonneg_right l1' he.le).trans h3.le, h4.trans_le (mul_le_mul_of_nonneg_right l2' he.le)⟩
  have hx0 : 0 < x := lt_of_lt_of_le (by positivity) hxb.1
  have hxu : x < 2 * ((2 ^ f.fbits : Nat) : ℝ) * 2 ^ q := by
    calc x < 2 ^ (m.log2 + 1) * 2 ^ e := hxb.2
      _ = 2 ^ ((m.log2 + 1 : Nat) + e : ℤ) := by rw [zpow_add₀ (by norm_num), zpow_natCast]
      _ ≤ 2 ^ ((f.fbits + 1 : Nat) + q : ℤ) := zpow_le_zpow_right₀ (by norm_num) (by push_cast; omega)
      _ = _ := by rw [zpow_add₀ (by norm_num), zpow_natCast, pow_succ]; push_cast; ring
  have hxl : 0 < i → ((2 ^ f.fbits : Nat) : ℝ) * 2 ^ q ≤ x := by
    intro h0
    calc ((2 ^ f.fbits : Nat) : ℝ) * 2 ^ q = 2 ^ ((f.fbits : Nat) + q : ℤ) := by
          rw [zpow_add₀ (by norm_num), zpow_natCast]; push_cast; rfl
      _ = 2 ^ ((m.log2 : Nat) + e : ℤ) := by congr 1; omega
      _ = 2 ^ m.log2 * 2 ^ e := by rw [zpow_add₀ (by norm_num), zpow_natCast]
      _ ≤ x := hxb.1
  have hR : f.roundMag m e = min (i * 2 ^ f.fbits + sig) f.infBits := by
    simp only [Fmt.roundMag]
    rw [if_neg (by omega), ← hq, ← hsig]
    congr 3; omega
  generalize 2 ^ f.fbits = B at *
  have hab := abs_le.mp (show |(sig : ℝ) * 2 ^ q - x| ≤ 2 ^ q / 2 by linarith [(near 0).2.1])
  refine ⟨i, sig, q, ⟨hi, near, hx0, hxu, hxl, ?_, fun h0 => ?_⟩, hR⟩
  · by_contra h
    have : (2 * B + 1 : ℝ) ≤ sig := by exact_mod_cast (by omega : 2 * B + 1 ≤ sig)
    have : (2 * B + 1 : ℝ) * 2 ^ q ≤ sig * 2 ^ q := mul_le_mul_of_nonneg_right this h2q.le
    linarith [hab.2]
  · by_contra h
    have : (sig : ℝ) + 1 ≤ B := by exact_mod_cast (by omega : sig + 1 ≤ B)
    have : ((sig : ℝ) + 1) * 2 ^ q ≤ B * 2 ^ q := mul_le_mul_of_nonneg_right this h2q.le
    linarith [hab.1, hxl h0]

/-- No number of the format is nearer than the rounded significand, and another as near only at a tie. -/
theorem Parts.nearest {f : Fmt} {x : ℝ} {B i sig : Nat} {q : Int} (h : Parts f x B i sig q) (hB0 : 0 < B) (j' s' : Nat)
    (hs' : s' < 2 * B) :
    |(sig : ℝ) * 2 ^ q - x| ≤ |(s' : ℝ) * 2 ^ (f.emin + j') - x| ∧
      (|(sig : ℝ) * 2 ^ q - x| = |(s' : ℝ) * 2 ^ (f.emin + j') - x| →
        (s' : ℝ) * 2 ^ (f.emin + j') ≠ sig * 2 ^ q → sig % 2 = 0) := by
  obtain ⟨hi, near, -, -, hxl, -, -⟩ := h
  have h2q : (0 : ℝ) < 2 ^ q := by positivity
  by_cases hj : i ≤ j'
  · have ht : (s' : ℝ) * 2 ^ (f.emin + j') = (((s' * 2 ^ (j' - i) : Nat) : ℤ) : ℝ) * 2 ^ q := by
      push_cast
      rw [mul_assoc, ← zpow_natCast, ← zpow_add₀ (by norm_num)]
      congr 2; omega
    rw [ht]
    obtain ⟨n1, _, n3⟩ := near ((s' * 2 ^ (j' - i) : Nat) : ℤ)
    refine ⟨n1, fun he hne => n3 he ?_⟩
    intro heq; apply hne; rw [heq]; push_cast; rfl
  · have h0 : 0 < i := by omega
    have hlow := hxl h0
    have htlt : (s' : ℝ) * 2 ^ (f.emin + j') < B * 2 ^ q := by
      have a1 : (s' : ℝ) < 2 * B := by exact_mod_cast hs'
      have a2 : (2 : ℝ) * 2 ^ (f.emin + j') ≤ 2 ^ q := by
        calc (2 : ℝ) * 2 ^ (f.emin + j') = 2 ^ (f.emin + j' + 1) := by rw [zpow_add_one₀ (by norm_num)]; ring
          _ ≤ _ := zpow_le_zpow_right₀ (by norm_num) (by omega)
      have a3 : (0 : ℝ) < 2 ^ (f.emin + j') := by positivity
      have a4 : (0 : ℝ) < B := by exact_mod_cast hB0
      nlinarith
    have nB := (near (B : ℤ)).1
    rw [Int.cast_natCast] at nB
    change |(sig : ℝ) * 2 ^ q - x| ≤ |(B : ℝ) * 2 ^ q - x| at nB
    rw [abs_of_nonpos (by linarith : (B : ℝ) * 2 ^ q - x ≤ 0)] at nB
    rw [abs_of_nonpos (by linarith : (s' : ℝ) * 2 ^ (f.emin + j') - x ≤ 0)]
    exact ⟨by linarith, fun he _ => by linarith⟩

/-- The rounded number is finite exactly below the overflow bound. -/
theorem Parts.finite_iff {f : Fmt} {x : ℝ} {B i sig : Nat} {q : Int} (h : Parts f x B i sig q) (hB0 : 0 < B)
    (hBe : B % 2 = 0) (E : Nat) (hE : 3 ≤ E) :
    i * B + sig < (E - 1) * B ↔ x < (2 * B - 1 / 2) * 2 ^ (f.emin + (E : Nat) - 3) := by
  obtain ⟨hi, near, -, hxu, hxl, hsu, hsl⟩ := h
  have h2q : (0 : ℝ) < 2 ^ q := by positivity
  have hab := abs_le.mp (show |(sig : ℝ) * 2 ^ q - x| ≤ 2 ^ q / 2 by linarith [(near 0).2.1])
  obtain ⟨E', rfl⟩ : ∃ E', E = E' + 3 := ⟨E - 3, by omega⟩
  have hQ : (f.emin + ((E' + 3 : Nat) : Int) - 3) = f.emin + E' := by push_cast; ring
  rw [hQ]
  have e1 : (E' + 3 - 1) * B = E' * B + 2 * B := by
    rw [show E' + 3 - 1 = E' + 2 by omega]; ring
  rw [e1]
  have hBpos : (0 : ℝ) < B := by exact_mod_cast hB0
  have hB2 : (2 : ℝ) ≤ B := by exact_mod_cast (by omega : 2 ≤ B)
  rcases lt_trichotomy i E' with h | h | h
  · constructor
    · intro _
      have : (2 : ℝ) * 2 ^ q ≤ 2 ^ (f.emin + (E' : ℤ)) := by
        calc (2 : ℝ) * 2 ^ q = 2 ^ (q + 1) := by rw [zpow_add_one₀ (by norm_num)]; ring
          _ ≤ _ := zpow_le_zpow_right₀ (by norm_num) (by omega)
      nlinarith
    · intro _
      have : (i + 1) * B ≤ E' * B := Nat.mul_le_mul_right _ h
      have : (i + 1) * B = i * B + B := by ring
      omega
  · subst h
    rw [← hi]
    constructor
    · intro hlt
      have hs : sig + 1 ≤ 2 * B := by omega
      have hsq : (sig : ℝ) + 1 ≤ 2 * B := by exact_mod_cast hs
      by_contra hge
      push Not at hge
      have hab1 := hab.1
      change _ ≤ (sig : ℝ) * 2 ^ q - x at hab1
      have hm1 : ((sig : ℝ) + 1) * 2 ^ q ≤ 2 * B * 2 ^ q := mul_le_mul_of_nonneg_right hsq h2q.le
      -- then sig = 2B - 1 and x is the tie
      have hxeq : x = (2 * B - 1 / 2) * 2 ^ q := by nlinarith
      have hse : (sig : ℝ) * 2 ^ q = (2 * B - 1) * 2 ^ q := by nlinarith
      have hse' := mul_right_cancel₀ h2q.ne' hse
      have hsn : sig = 2 * B - 1 := by
        have : ((sig + 1 : Nat) : ℝ) = ((2 * B : Nat) : ℝ) := by push_cast; linarith
        have := Nat.cast_injective (R := ℝ) this
        omega
      have n3 := (near ((2 * B : Nat) : ℤ)).2.2
      have : sig % 2 = 0 := by
        apply n3
        · change |(sig : ℝ) * 2 ^ q - x| = |_ - x|
          rw [hxeq, hse]; push_cast
          rw [show ((2 * (B : ℝ) - 1) * 2 ^ q - (2 * B - 1 / 2) * 2 ^ q) = -(1 / 2 * 2 ^ q) by ring,
            show (2 * (B : ℝ) * 2 ^ q - (2 * B - 1 / 2) * 2 ^ q) = (1 / 2 * 2 ^ q) by ring, abs_neg]
        · rw [hsn]; omega
      omega
    · intro hlt
      have hab2 := hab.2
      change (sig : ℝ) * 2 ^ q - x ≤ _ at hab2
      by_contra hge
      have hs : 2 * B ≤ sig := by omega
      have hsq : 2 * (B : ℝ) ≤ sig := by exact_mod_cast hs
      have : 2 * (B : ℝ) * 2 ^ q ≤ sig * 2 ^ q := mul_le_mul_of_nonneg_right hsq h2q.le
      nlinarith
  · constructor
    · intro hlt
      have : (E' + 1) * B ≤ i * B := Nat.mul_le_mul_right _ h
      have : (E' + 1) * B = E' * B + B := by ring
      have := hsl (by omega)
      omega
    · intro hlt
      have hlow := hxl (by omega)
      have : (2 : ℝ) * 2 ^ (f.emin + (E' : ℤ)) ≤ 2 ^ q := by
        calc (2 : ℝ) * 2 ^ (f.emin + (E' : ℤ)) = 2 ^ (f.emin + (E' : ℤ) + 1) := by rw [zpow_add_one₀ (by norm_num)]; ring
          _ ≤ _ := zpow_le_zpow_right₀ (by norm_num) (by omega)
      nlinarith

/-- Below the overflow bound the magnitude pattern is that of the nearest number of the format, ties to the even pattern. -/
theorem roundMag_near (f : Fmt) (hf : 1 ≤ f.fbits) (hE : 3 ≤ 2 ^ f.ebits) (m : Nat) (hm : 0 < m) (e : Int) (x : ℝ)
    (hst : Stands (f.fbits + 2) m e x) :
    let R := f.roundMag m e
    (R < f.infBits →
      ∃ j s : Nat, s < 2 ^ (f.fbits + 1) ∧ (0 < j → 2 ^ f.fbits ≤ s) ∧ R = j * 2 ^ f.fbits + s ∧
        ∀ j' s' : Nat, s' < 2 ^ (f.fbits + 1) →
          |(s : ℝ) * 2 ^ (f.emin + j) - x| ≤ |(s' : ℝ) * 2 ^ (f.emin + j') - x| ∧
          (|(s : ℝ) * 2 ^ (f.emin + j) - x| = |(s' : ℝ) * 2 ^ (f.emin + j') - x| →
            (s' : ℝ) * 2 ^ (f.emin + j') ≠ (s : ℝ) * 2 ^ (f.emin + j) → R % 2 = 0))
    ∧ (R < f.infBits ↔ x < (2 ^ (f.fbits + 1) - 1 / 2) * 2 ^ (f.emin + (2 ^ f.ebits : Nat) - 3)) ∧ R ≤ f.infBits := by
  intro R
  obtain ⟨i, sig, q, hp, hR⟩ := roundMag_parts f m hm e x hst
  have hI : f.infBits = (2 ^ f.ebits - 1) * 2 ^ f.fbits := rfl
  have hB0 : 0 < 2 ^ f.fbits := by positivity
  have hB1 : 2 ^ (f.fbits + 1) = 2 * 2 ^ f.fbits := by rw [pow_succ]; ring
  have hBq1 : (2 : ℝ) ^ (f.fbits + 1) = 2 * (2 ^ f.fbits : Nat) := by rw [pow_succ]; push_cast; ring
  have hBe : 2 ^ f.fbits % 2 = 0 := by
    obtain ⟨w, hw⟩ : ∃ w, f.fbits = w + 1 := ⟨f.fbits - 1, by omega⟩
    rw [hw, pow_succ]; omega
  rw [hBq1, hB1]
  change f.roundMag m e = _ at hR
  rw [← show R = f.roundMag m e from rfl] at hR
  clear_value R
  generalize 2 ^ f.fbits = B at *
  have claim := hp.nearest hB0
  have hpar : (i * B + sig) % 2 = sig % 2 := by
    have : i * B % 2 = 0 := by rw [Nat.mul_mod, hBe]; simp
    omega
  refine ⟨fun hlt => ?_, ?_, by omega⟩
  · have hRr : R = i * B + sig := by omega
    rcases Nat.lt_or_ge sig (2 * B) with hs | hs
    · refine ⟨i, sig, hs, hp.le_sig, hRr, ?_⟩
      rw [← hp.exp, hRr, hpar]
      exact claim
    · have hs2 : sig = 2 * B := by have := hp.sig_le; omega
      have hv : ((B : Nat) : ℝ) * 2 ^ (f.emin + (i + 1 : Nat)) = (sig : ℝ) * 2 ^ q := by
        rw [hs2, hp.exp]; push_cast
        rw [← add_assoc, zpow_add_one₀ (by norm_num)]; ring
      refine ⟨i + 1, B, by omega, fun _ => le_refl _, by rw [hRr, hs2]; ring, ?_⟩
      rw [hv, hRr, hpar]
      exact claim
  · rw [← hp.finite_iff hB0 hBe _ hE]
    omega

theorem unpack_form (f : Fmt) (x : Nat) (neg : Bool) (m : Nat) (ex : Int) (h : f.unpack x = .fin neg m ex) :
    ∃ j : Nat, ex = f.emin + j ∧ m < 2 ^ (f.fbits + 1) := by
  have hB : 0 < 2 ^ f.fbits := by positivity
  have hm := Nat.mod_lt x hB
  unfold Fmt.unpack at h
  simp only at h
  rw [pow_succ]
  split at h
  · split at h <;> cases h
  · split at h
    · simp only [Num.fin.injEq] at h
      exact ⟨0, by simp [← h.2.2], by omega⟩
    · simp only [Num.fin.injEq] at h
      exact ⟨_, h.2.2.symm, by omega⟩

/-- The sign of a number. -/
def sgn (neg : Bool) : ℚ := if neg then -1 else 1

theorem Fmt.infBits_lt (f : Fmt) : f.infBits < f.signBit := by
  unfold Fmt.infBits Fmt.signBit
  rw [pow_add]
  exact Nat.mul_lt_mul_of_pos_right (by have := Nat.two_pow_pos f.ebits; omega) (by positivity)

/-- The pattern of an infinity holds no finite number. -/
theorem unpack_infBits (f : Fmt) (b : Bool) :
    f.unpack (f.withSign b f.infBits) = .inf b ∨ f.unpack (f.withSign b f.infBits) = .inf (!b) ∨
    f.unpack (f.withSign b f.infBits) = .nan := by
  have hE := Nat.two_pow_pos f.ebits
  have hex : f.withSign b f.infBits / 2 ^ f.fbits % 2 ^ f.ebits = 2 ^ f.ebits - 1 := by
    unfold Fmt.withSign Fmt.infBits Fmt.signBit
    cases b
    · simp only [Bool.false_eq_true, if_false]
      rw [Nat.mul_div_cancel _ (by positivity), Nat.mod_eq_of_lt (by omega)]
    · simp only [if_true]
      rw [pow_add, ← Nat.add_mul, Nat.mul_div_cancel _ (by positivity), Nat.add_mod_left, Nat.mod_eq_of_lt (by omega)]
  unfold Fmt.unpack
  simp only [hex, if_true]
  split
  · generalize (f.withSign b f.infBits / f.signBit % 2 == 1) = c
    cases c <;> cases b <;> simp
  · simp

/-- Packing a number rounds every x it stands for. -/
theorem pack_rounds (f : Fmt) (hf : 1 ≤ f.fbits) (hE : 3 ≤ 2 ^ f.ebits) (neg : Bool) (m : Nat) (ex : Int) (x : ℝ)
    (hst : Stands (f.fbits + 2) m ex x) : RoundsTo f (f.pack (.fin neg m ex)) ((sgn neg : ℚ) * x) := by
  have hSI := f.infBits_lt
  have hSe : f.signBit % 2 = 0 := by
    unfold Fmt.signBit
    obtain ⟨w, hw⟩ : ∃ w, f.ebits + f.fbits = w + 1 := ⟨f.ebits + f.fbits - 1, by omega⟩
    rw [hw, pow_succ]; omega
  have hI0 : 0 < f.infBits := by
    unfold Fmt.infBits; exact Nat.mul_pos (by omega) (by positivity)
  have hlim : (0 : ℝ) < (2 ^ (f.fbits + 1) - 1 / 2) * 2 ^ (f.emin + (2 ^ f.ebits : Nat) - 3) := by
    have hB : (1 : ℝ) ≤ 2 ^ (f.fbits + 1) := one_le_pow₀ (by norm_num)
    exact mul_pos (by linarith) (by positivity)
  have hmod : ∀ R, R ≤ f.infBits → f.withSign neg R % f.signBit = R := by
    intro R hR; cases neg <;> simp [Fmt.withSign] <;> exact Nat.mod_eq_of_lt (by omega)
  have hlt : ∀ R, R ≤ f.infBits → f.withSign neg R < 2 * f.signBit := by
    intro R hR; cases neg <;> simp [Fmt.withSign] <;> omega
  show RoundsTo f (f.withSign neg (f.roundMag m ex)) _
  rcases Nat.eq_zero_or_pos m with rfl | hm
  · have h0 : f.roundMag 0 ex = 0 := by simp [Fmt.roundMag]
    have hx : x = 0 := by rcases hst with h | ⟨h, -⟩; exacts [by simpa using h, by omega]
    rw [h0, hx, mul_zero]
    have hu := unpack_mag f neg 0 0 (by positivity) (by simp) (by simpa using hI0)
    simp only [zero_mul, add_zero] at hu
    refine ⟨hlt 0 (by omega), by rw [hmod 0 (by omega)]; omega, by rw [hmod 0 (by omega)]; simpa [hI0] using hlim,
      fun h => absurd rfl h, ?_⟩
    intro v hv y t ht
    rw [hu] at hv
    simp [Num.toRat?] at hv
    subst hv
    refine ⟨by simp, fun h hne => ?_⟩
    simp at h
    have h0 := abs_eq_zero.mp h.symm
    exact absurd (by exact_mod_cast h0) hne
  · obtain ⟨n1, n2, n3⟩ := roundMag_near f hf hE m hm ex x hst
    obtain ⟨R, hR⟩ : ∃ R, R = f.roundMag m ex := ⟨_, rfl⟩
    simp only [← hR] at n1 n2 n3
    rw [← hR]
    have hx0 : (0 : ℝ) < x := by
      obtain ⟨_, _, _, hp, -⟩ := roundMag_parts f m hm ex x hst
      exact hp.pos
    have habs : |((sgn neg : ℚ) : ℝ) * x| = x := by
      cases neg <;> simp [sgn, abs_of_pos hx0]
    have hpar : f.withSign neg R % 2 = R % 2 := by
      cases neg <;> simp [Fmt.withSign]; omega
    refine ⟨hlt R n3, by rw [hmod R n3]; exact n3, by rw [hmod R n3, habs]; exact n2, fun _ => ?_, ?_⟩
    · cases neg
      · simp only [Fmt.withSign, sgn, Bool.false_eq_true, if_false, Rat.cast_one, one_mul]
        exact ⟨fun h => by omega, fun h => by linarith⟩
      · simp only [Fmt.withSign, sgn, if_true, Rat.cast_neg, Rat.cast_one]
        exact ⟨fun _ => by linarith, fun _ => by omega⟩
    · intro v hv y t ht
      rw [hpar]
      have hRlt : R < f.infBits := by
        by_contra hge
        have : R = f.infBits := by omega
        rw [this] at hv
        rcases unpack_infBits f neg with h | h | h <;> rw [h] at hv <;> simp [Num.toRat?] at hv
      obtain ⟨j, s, hs, hjs, hRe, hnear⟩ := n1 hRlt
      have hu := unpack_mag f neg j s hs hjs (by omega)
      rw [← hRe] at hu
      rw [hu] at hv
      simp only [Num.toRat?, Option.some.injEq] at hv
      cases hy : f.unpack y with
      | nan => rw [hy] at ht; simp [Num.toRat?] at ht
      | inf b => rw [hy] at ht; simp [Num.toRat?] at ht
      | fin ny s' ex' =>
        rw [hy] at ht
        simp only [Num.toRat?, Option.some.injEq] at ht
        obtain ⟨j', hj', hs'⟩ := unpack_form f y ny s' ex' hy
        subst hj'
        have hn := hnear j' s' hs'
        have hz := hnear 0 0 (by positivity)
        clear hnear n1 n2 hlim
        simp only [Nat.cast_zero, zero_mul, zero_sub, abs_neg, abs_of_pos hx0] at hz
        obtain ⟨V, hVd⟩ : ∃ V : ℝ, V = s * 2 ^ (f.emin + j) := ⟨_, rfl⟩
        obtain ⟨T, hTd⟩ : ∃ T : ℝ, T = s' * 2 ^ (f.emin + (j' : ℤ)) := ⟨_, rfl⟩
        have hT : 0 ≤ T := by rw [hTd]; positivity
        have hv' : (v : ℝ) = (sgn neg : ℚ) * V := by rw [← hv, hVd]; unfold sgn; push_cast; ring
        have ht' : (t : ℝ) = (sgn ny : ℚ) * T := by rw [← ht, hTd]; unfold sgn; push_cast; ring
        have hne' : t ≠ v → (t : ℝ) ≠ v := fun h hc => h (by exact_mod_cast hc)
        rw [← hVd] at hz
        rw [← hVd, ← hTd] at hn
        clear hVd hTd hv ht hu hy
        generalize (t : ℝ) = tr at *
        generalize (v : ℝ) = vr at *
        subst hv' ht'
        have hvx : |((sgn neg : ℚ) : ℝ) * V - (sgn neg : ℚ) * x| = |V - x| := by
          rw [← mul_sub, abs_mul]; cases neg <;> simp [sgn]
        rw [hvx]
        by_cases hsame : ny = neg
        · subst hsame
          have htx : |((sgn ny : ℚ) : ℝ) * T - (sgn ny : ℚ) * x| = |T - x| := by
            rw [← mul_sub, abs_mul]; cases ny <;> simp [sgn]
          rw [htx]
          refine ⟨hn.1, fun h hne => hn.2 h ?_⟩
          intro hc; exact hne' hne (by rw [hc])
        · have htx : |((sgn ny : ℚ) : ℝ) * T - (sgn neg : ℚ) * x| = T + x := by
            cases ny <;> cases neg
            · exact absurd rfl hsame
            · simp only [sgn, Bool.false_eq_true, if_true, if_false, Rat.cast_one, Rat.cast_neg]
              rw [abs_of_nonneg] <;> linarith
            · simp only [sgn, Bool.false_eq_true, if_true, if_false, Rat.cast_one, Rat.cast_neg]
              rw [abs_of_nonpos] <;> linarith
            · exact absurd rfl hsame
          rw [htx]
          refine ⟨by linarith [hz.1], fun h hne => ?_⟩
          have hT0 : T = 0 := by linarith [hz.1]
          apply hz.2 (by linarith)
          intro hc
          apply hne' hne
          rw [hT0, ← hc]; simp

/-! ### The exact operations -/

theorem Stands.exact (b m : Nat) (e : Int) : Stands b m e ((m : ℝ) * 2 ^ e) := .inl rfl

theorem Stands.mono {b c m : Nat} {e : Int} {x : ℝ} (h : Stands c m e x) (hbc : b ≤ c) : Stands b m e x := by
  rcases h with h | ⟨h1, h2, h3⟩
  · exact .inl h
  · exact .inr ⟨h1, (Nat.pow_le_pow_right (by norm_num) hbc).trans h2, h3⟩

/-- A finite number, with its sign. -/
theorem toRat?_fin {a : Num} {p : ℚ} (h : a.toRat? = some p) : ∃ s m e, a = .fin s m e ∧ p = sgn s * m * 2 ^ e := by
  cases a with
  | nan => simp [Num.toRat?] at h
  | inf _ => simp [Num.toRat?] at h
  | fin s m e => exact ⟨s, m, e, rfl, by simpa [Num.toRat?, sgn] using h.symm⟩

/-- The exact sum, and its sign when it is zero. -/
theorem num_add (s t : Bool) (m n : Nat) (e g : Int) :
    ∃ neg k x, (Num.fin s m e).add (.fin t n g) = .fin neg k x
      ∧ sgn neg * k * 2 ^ x = sgn s * m * 2 ^ e + sgn t * n * 2 ^ g
      ∧ (sgn s * m * 2 ^ e + sgn t * n * 2 ^ g = 0 → neg = (s && t)) := by
  obtain ⟨l, hl⟩ : ∃ l, l = min e g := ⟨_, rfl⟩
  have cv : ∀ (b : Bool) (k : Nat) (x : Int), l ≤ x →
      sgn b * k * 2 ^ x = (signedSig b (k * 2 ^ (x - l).toNat) : ℚ) * 2 ^ l := by
    intro b k x hx
    have : (2 : ℚ) ^ x = 2 ^ (x - l).toNat * 2 ^ l := by
      rw [← zpow_natCast, ← zpow_add₀ (by norm_num)]; congr 1; omega
    rw [this]; unfold signedSig sgn; cases b <;> push_cast <;> simp <;> ring
  rw [cv s m e (by omega), cv t n g (by omega)]
  simp only [Num.add, ← hl]
  generalize signedSig s (m * 2 ^ (e - l).toNat) = u at *
  generalize signedSig t (n * 2 ^ (g - l).toNat) = w at *
  rw [← add_mul, ← Int.cast_add]
  have h2 : (2 : ℚ) ^ l ≠ 0 := by positivity
  split
  · rename_i h0
    exact ⟨_, _, _, rfl, by rw [h0]; simp, fun _ => rfl⟩
  · rename_i h0
    refine ⟨_, _, _, rfl, ?_, fun h => ?_⟩
    · congr 1
      unfold sgn
      by_cases hneg : u + w < 0
      · rw [if_pos (by simpa using hneg), ← Int.cast_natCast, show ((u + w).natAbs : ℤ) = -(u + w) by omega]
        push_cast; ring
      · rw [if_neg (by simpa using hneg), ← Int.cast_natCast, show ((u + w).natAbs : ℤ) = u + w by omega]
        push_cast; ring
    · rcases mul_eq_zero.mp h with h | h
      · exact absurd (by exact_mod_cast h) h0
      · exact absurd h h2

theorem sgn_not (b : Bool) : sgn (!b) = -sgn b := by cases b <;> simp [sgn]

/-- The exact product. -/
theorem num_mul (s t : Bool) (m n : Nat) (e g : Int) :
    sgn (s != t) * (m * n : Nat) * 2 ^ (e + g) = sgn s * m * 2 ^ e * (sgn t * n * 2 ^ g) := by
  rw [zpow_add₀ (by norm_num)]
  unfold sgn; cases s <;> cases t <;> push_cast <;> simp <;> ring

/-- The quotient of two magnitudes, with its sticky bit, stands for the exact one. -/
theorem num_div (guard : Nat) (s t : Bool) (m n : Nat) (e g : Int) (hn : n ≠ 0) :
    ∃ k x y, Num.div guard (.fin s m e) (.fin t n g) = .fin (s != t) k x ∧ Stands (guard + 1) k x y
      ∧ y = (m * 2 ^ e) / (n * 2 ^ g) := by
  simp only [Num.div, if_neg hn]
  refine ⟨_, _, _, rfl, ?_, rfl⟩
  obtain ⟨k, hk⟩ : ∃ k, k = guard + Nat.log2 n + 1 := ⟨_, rfl⟩
  rw [← hk]
  have hd := Nat.div_add_mod (m * 2 ^ k) n
  have hr := Nat.mod_lt (m * 2 ^ k) (Nat.pos_of_ne_zero hn)
  have hq : m * 2 ^ k % n ≠ 0 → 2 ^ guard ≤ m * 2 ^ k / n := by
    intro h
    have hm : 1 ≤ m := by
      rcases Nat.eq_zero_or_pos m with rfl | h'
      · simp at h
      · exact h'
    rw [Nat.le_div_iff_mul_le (Nat.pos_of_ne_zero hn)]
    calc 2 ^ guard * n ≤ 2 ^ guard * 2 ^ (Nat.log2 n + 1) := Nat.mul_le_mul_left _ Nat.lt_log2_self.le
      _ = 1 * 2 ^ k := by rw [hk, ← pow_add]; simp [add_assoc]
      _ ≤ m * 2 ^ k := Nat.mul_le_mul_right _ hm
  generalize m * 2 ^ k / n = q at *
  have hdr : (n : ℝ) * q + ((m * 2 ^ k % n : Nat) : ℝ) = m * 2 ^ k := by exact_mod_cast hd
  generalize m * 2 ^ k % n = r at *
  have hn0 : (0 : ℝ) < n := by exact_mod_cast Nat.pos_of_ne_zero hn
  have hy : (m * 2 ^ e : ℝ) / (n * 2 ^ g) = (2 * q + 2 * r / n) * 2 ^ (e - g - (k : Nat) - 1) := by
    have : (2 : ℝ) ^ e = 2 ^ g * 2 ^ k * 2 * 2 ^ (e - g - (k : Nat) - 1) := by
      rw [← zpow_natCast, ← zpow_add₀ (by norm_num), ← zpow_add_one₀ (by norm_num), ← zpow_add₀ (by norm_num)]
      congr 1; omega
    rw [this]
    have hg : (2 : ℝ) ^ g ≠ 0 := by positivity
    field_simp
    rw [← hdr]
  rw [hy]
  have hp : (0 : ℝ) < 2 ^ (e - g - (k : Nat) - 1) := by positivity
  by_cases h : r = 0
  · rw [if_pos h, h]; left; push_cast; ring
  · rw [if_neg h]
    have hr0 : (0 : ℝ) < r := by exact_mod_cast Nat.pos_of_ne_zero h
    have hr1 : (r : ℝ) / n < 1 := by rw [div_lt_one hn0]; exact_mod_cast hr
    have hr2 : 0 < (r : ℝ) / n := by positivity
    refine .inr ⟨by omega, ?_, ?_, ?_⟩
    · have := hq h
      rw [pow_succ]; omega
    · apply mul_lt_mul_of_pos_right _ hp
      push_cast
      rw [mul_div_assoc]; linarith
    · apply mul_lt_mul_of_pos_right _ hp
      push_cast
      rw [mul_div_assoc]; linarith

/-- The bit by bit root is the integer square root. -/
theorem isqrtFrom_spec (n : Nat) : ∀ b r, r * r ≤ n → n < (r + 2 ^ b) * (r + 2 ^ b) →
    isqrtFrom n b r * isqrtFrom n b r ≤ n ∧ n < (isqrtFrom n b r + 1) * (isqrtFrom n b r + 1)
  | 0, r, h1, h2 => by simpa [isqrtFrom] using ⟨h1, h2⟩
  | b + 1, r, h1, h2 => by
    unfold isqrtFrom
    split
    · rename_i h
      refine isqrtFrom_spec n b _ h ?_
      rw [pow_succ] at h2
      rwa [show r + 2 ^ b + 2 ^ b = r + 2 ^ b * 2 by ring]
    · exact isqrtFrom_spec n b r h1 (by omega)

/-- The square root, with its sticky bit, stands for the exact one. -/
theorem num_sqrt (guard m : Nat) (e : Int) (hm : m ≠ 0) :
    ∃ k x y, Num.sqrt guard (.fin false m e) = .fin false k x ∧ Stands (guard + 1) k x y ∧ y = Real.sqrt (m * 2 ^ e) := by
  simp only [Num.sqrt, if_neg hm, Bool.false_eq_true, if_false]
  refine ⟨_, _, _, rfl, ?_, rfl⟩
  obtain ⟨k, hk⟩ : ∃ k, k = 2 * guard + (e % 2).toNat := ⟨_, rfl⟩
  rw [← hk]
  obtain ⟨n, hn⟩ : ∃ n, n = m * 2 ^ k := ⟨_, rfl⟩
  rw [← hn]
  have hroot := isqrtFrom_spec n (Nat.log2 n / 2 + 1) 0 (by omega) (by
    have h1 : n < 2 ^ (Nat.log2 n + 1) := Nat.lt_log2_self
    calc n < 2 ^ (Nat.log2 n + 1) := h1
      _ ≤ 2 ^ ((Nat.log2 n / 2 + 1) + (Nat.log2 n / 2 + 1)) := Nat.pow_le_pow_right (by norm_num) (by omega)
      _ = _ := by rw [pow_add, zero_add])
  obtain ⟨h, hh⟩ : ∃ h : Int, e - (k : Nat) = 2 * h := ⟨(e - (k : Nat)) / 2, by omega⟩
  have hhalf : (e - (k : Nat)) / 2 - 1 = h - 1 := by omega
  rw [hhalf]
  generalize isqrtFrom n (Nat.log2 n / 2 + 1) 0 = r at *
  have hval : Real.sqrt (m * 2 ^ e) = (2 * Real.sqrt n) * 2 ^ (h - 1) := by
    have h1 : (m * 2 ^ e : ℝ) = n * (2 ^ h) ^ 2 := by
      rw [hn]; push_cast
      rw [mul_assoc, ← zpow_natCast, ← zpow_natCast, ← zpow_mul, ← zpow_add₀ (by norm_num)]
      congr 2; push_cast; omega
    rw [h1, Real.sqrt_mul (by positivity), Real.sqrt_sq (by positivity), zpow_sub_one₀ (by norm_num)]
    ring
  rw [hval]
  have hp : (0 : ℝ) < 2 ^ (h - 1) := by positivity
  by_cases hx : r * r = n
  · rw [if_pos hx]
    have : Real.sqrt n = r := by
      rw [← hx]; push_cast; exact Real.sqrt_mul_self (by positivity)
    rw [this]; left; push_cast; ring
  · rw [if_neg hx]
    have l1 : (r : ℝ) < Real.sqrt n := by
      apply Real.lt_sqrt_of_sq_lt
      have : r ^ 2 < n := by rw [pow_two]; omega
      exact_mod_cast this
    have l2 : Real.sqrt n < r + 1 := by
      rw [Real.sqrt_lt' (by positivity)]
      have : n < (r + 1) ^ 2 := by rw [pow_two]; exact hroot.2
      exact_mod_cast this
    refine .inr ⟨by omega, ?_, ?_, ?_⟩
    · have : 2 ^ guard ≤ r := by
        by_contra hc
        have hc' : r + 1 ≤ 2 ^ guard := by omega
        have h3 : (r + 1) * (r + 1) ≤ 2 ^ guard * 2 ^ guard := Nat.mul_le_mul hc' hc'
        have h4 : 2 ^ guard * 2 ^ guard ≤ n := by
          rw [hn, ← pow_add]
          calc 2 ^ (guard + guard) ≤ 1 * 2 ^ k := by rw [one_mul]; exact Nat.pow_le_pow_right (by norm_num) (by omega)
            _ ≤ m * 2 ^ k := Nat.mul_le_mul_right _ (Nat.pos_of_ne_zero hm)
        omega
      rw [pow_succ]; omega
    · apply mul_lt_mul_of_pos_right _ hp
      push_cast; linarith
    · apply mul_lt_mul_of_pos_right _ hp
      push_cast; linarith

theorem fin_zero {s : Bool} {m : Nat} {e : Int} : sgn s * m * 2 ^ e = 0 ↔ m = 0 := by
  have h2 : (2 : ℚ) ^ e ≠ 0 := by positivity
  have hs : sgn s ≠ 0 := by cases s <;> simp [sgn]
  simp [h2, hs]

theorem sgn_ne (s t : Bool) : sgn (s != t) = sgn s * sgn t := by cases s <;> cases t <;> simp [sgn]
theorem sgn_inv (s : Bool) : sgn s * sgn s = 1 := by cases s <;> simp [sgn]

theorem div_val (s t : Bool) (m n : Nat) (e g : Int) (_hn : n ≠ 0) :
    (((sgn s * m * 2 ^ e) / (sgn t * n * 2 ^ g) : ℚ) : ℝ) = (sgn (s != t) : ℚ) * ((m * 2 ^ e : ℝ) / (n * 2 ^ g)) := by
  have : sgn t ≠ 0 := by cases t <;> simp [sgn]
  have h : (sgn s * m * 2 ^ e) / (sgn t * n * 2 ^ g) = sgn (s != t) * ((m * 2 ^ e) / (n * 2 ^ g)) := by
    rw [sgn_ne]
    have : sgn s / sgn t = sgn s * sgn t := by rw [div_eq_iff this, mul_assoc, sgn_inv, mul_one]
    rw [mul_assoc, mul_assoc, mul_div_mul_comm, this]
  rw [h]; push_cast; ring

/-! ### The operations on patterns -/

theorem withSign_msb32 (neg : Bool) (R : Nat) (hR : R ≤ Fmt.b32.infBits) :
    (BitVec.ofNat 32 (Fmt.b32.withSign neg R)).msb = neg := by
  have hI : Fmt.b32.infBits = 2139095040 := by decide
  have hS : Fmt.b32.signBit = 2147483648 := by decide
  rw [hI] at hR
  rw [BitVec.msb_eq_decide, BitVec.toNat_ofNat]
  cases neg <;> simp only [Fmt.withSign, Bool.false_eq_true, if_false, if_true, hS] <;> simp <;> omega

theorem withSign_msb64 (neg : Bool) (R : Nat) (hR : R ≤ Fmt.b64.infBits) :
    (BitVec.ofNat 64 (Fmt.b64.withSign neg R)).msb = neg := by
  have hI : Fmt.b64.infBits = 9218868437227405312 := by decide
  have hS : Fmt.b64.signBit = 9223372036854775808 := by decide
  rw [hI] at hR
  rw [BitVec.msb_eq_decide, BitVec.toNat_ofNat]
  cases neg <;> simp only [Fmt.withSign, Bool.false_eq_true, if_false, if_true, hS] <;> simp <;> omega

theorem roundMag_le (f : Fmt) (m : Nat) (e : Int) : f.roundMag m e ≤ f.infBits := by
  unfold Fmt.roundMag; split
  · exact Nat.zero_le _
  · exact min_le_right _ _

theorem flush_msb (e : FpEnv) (v : B32) : (e.flush v).msb = v.msb := by
  unfold FpEnv.flush flushSub
  split
  · split
    · rw [BitVec.msb_and, show (0x80000000#32).msb = true by decide, Bool.and_true]
    · rfl
  · rfl

/-- The sign of a finite operand is its sign bit. -/
theorem unpack_sign {f : Fmt} {w : Nat} (hw : f.ebits + f.fbits + 1 = w) (v : BitVec w) {s : Bool} {m : Nat} {x : Int}
    (h : f.unpack v.toNat = .fin s m x) : s = v.msb := by
  subst hw
  have key : (v.toNat / f.signBit % 2 == 1) = v.msb := by
    rw [BitVec.msb_eq_decide]
    have := v.isLt
    simp only [Nat.add_sub_cancel]
    unfold Fmt.signBit
    rw [pow_succ] at this
    generalize 2 ^ (f.ebits + f.fbits) = S at *
    have hS : 0 < S := by omega
    by_cases h : S ≤ v.toNat
    · have : v.toNat / S = 1 := by
        apply Nat.div_eq_of_lt_le <;> omega
      simp [this, h]
    · rw [Nat.div_eq_of_lt (by omega)]; simp [h]
  unfold Fmt.unpack at h
  simp only at h
  split at h
  · split at h <;> cases h
  · split at h <;> cases h <;> exact key

theorem num32_sign (e : FpEnv) (v : B32) {s : Bool} {m : Nat} {x : Int} (h : e.num32 v = .fin s m x) : s = v.msb := by
  rw [← flush_msb e v]; exact unpack_sign (f := .b32) (by rfl) _ h

theorem num64_sign (v : B64) {s : Bool} {m : Nat} {x : Int} (h : num64 v = .fin s m x) : s = v.msb :=
  unpack_sign (f := .b64) (by rfl) _ h

/-- A finite binary32 result is its exact value rounded, with the sign of the exact number. -/
theorem result32_rounds (e : FpEnv) (op : FpOp) (a b : U64) (neg : Bool) (m : Nat) (ex : Int) (x : ℝ)
    (h : Stands 25 m ex x) :
    Rounded32 e (e.result32 op a b (.fin neg m ex)) ((sgn neg : ℚ) * x) ∧ (e.result32 op a b (.fin neg m ex)).msb = neg := by
  have hp := pack_rounds Fmt.b32 (by decide) (by decide) neg m ex x h
  constructor
  · refine ⟨BitVec.ofNat 32 (Fmt.b32.pack (.fin neg m ex)), ?_, rfl⟩
    rw [BitVec.toNat_ofNat, Nat.mod_eq_of_lt]
    · exact hp
    · exact lt_of_lt_of_eq hp.1 (by decide)
  · simp only [FpEnv.result32, flush_msb]
    exact withSign_msb32 neg _ (roundMag_le _ _ _)

/-- The same of a binary64 result. -/
theorem result64_rounds (e : FpEnv) (op : FpOp) (a b : U64) (neg : Bool) (m : Nat) (ex : Int) (x : ℝ)
    (h : Stands 54 m ex x) :
    RoundsTo .b64 (e.result64 op a b (.fin neg m ex)).toNat ((sgn neg : ℚ) * x)
      ∧ (e.result64 op a b (.fin neg m ex)).msb = neg := by
  have hp := pack_rounds Fmt.b64 (by decide) (by decide) neg m ex x h
  constructor
  · simp only [FpEnv.result64]
    rw [BitVec.toNat_ofNat, Nat.mod_eq_of_lt]
    · exact hp
    · exact lt_of_lt_of_eq hp.1 (by decide)
  · exact withSign_msb64 neg _ (roundMag_le _ _ _)

/-- A drawn NaN is a NaN. -/
theorem isNan64_mkNan (d : U64) : isNan64 (mkNan64 d) = true := by
  have hI : Fmt.b64.infBits = 9218868437227405312 := by decide
  have := d.isLt
  simp only [isNan64, mkNan64, hI, BitVec.toNat_ofNat, decide_eq_true_eq]
  omega

/-! ### NYQ_RATIO -/

/-- The bound of R6, which `Config.wf` says of the pattern: 0 < NYQ_RATIO < 0.5. -/
theorem Config.wf_nyqRatio {c : Config} (h : c.wf = true) :
    ∃ r, (num64 c.nyqRatio).toRat? = some r ∧ 0 < r ∧ r < 1 / 2 := by
  simp only [Config.wf, Bool.and_eq_true, decide_eq_true_eq] at h
  obtain ⟨⟨⟨-, h0⟩, h1⟩, -⟩ := h
  generalize hx : c.nyqRatio.toNat = x at *
  have hm : Fmt.b64.emin = -1074 := by decide
  have hS : Fmt.b64.signBit = 2 ^ 63 := by decide
  have hneg : (x / 2 ^ 63 % 2 == 1) = false := by
    rw [Nat.div_eq_of_lt (by omega)]; rfl
  unfold num64 Fmt.unpack
  simp only [hx, hm, hS, hneg, show Fmt.b64.fbits = 52 from rfl, show Fmt.b64.ebits = 11 from rfl]
  have he : x / 2 ^ 52 % 2 ^ 11 < 1022 := by omega
  rw [if_neg (by omega)]
  by_cases hz : x / 2 ^ 52 % 2 ^ 11 = 0
  · rw [if_pos hz]
    refine ⟨_, rfl, ?_, ?_⟩
    · have : (0 : ℚ) < (x % 2 ^ 52 : Nat) := by exact_mod_cast (by omega : 0 < x % 2 ^ 52)
      simp only [Bool.false_eq_true, if_false, one_mul]
      positivity
    · have : ((x % 2 ^ 52 : Nat) : ℚ) < 2 ^ 53 := by exact_mod_cast (by omega : x % 2 ^ 52 < 2 ^ 53)
      simp only [Bool.false_eq_true, if_false, one_mul]
      calc _ < (2 : ℚ) ^ 53 * 2 ^ (-1074 : ℤ) := mul_lt_mul_of_pos_right this (by positivity)
        _ ≤ (2 : ℚ) ^ 53 * 2 ^ (-54 : ℤ) :=
          mul_le_mul_of_nonneg_left (zpow_le_zpow_right₀ (by norm_num) (by norm_num)) (by positivity)
        _ = _ := by norm_num
  · rw [if_neg hz]
    refine ⟨_, rfl, ?_, ?_⟩
    · simp only [Bool.false_eq_true, if_false, one_mul]
      positivity
    · have : ((x % 2 ^ 52 + 2 ^ 52 : Nat) : ℚ) < 2 ^ 53 := by exact_mod_cast (by omega : x % 2 ^ 52 + 2 ^ 52 < 2 ^ 53)
      simp only [Bool.false_eq_true, if_false, one_mul]
      calc _ < (2 : ℚ) ^ 53 * 2 ^ (-1074 + ((x / 2 ^ 52 % 2 ^ 11 - 1 : Nat) : ℤ)) := mul_lt_mul_of_pos_right this (by positivity)
        _ ≤ (2 : ℚ) ^ 53 * 2 ^ (-54 : ℤ) := by
          apply mul_le_mul_of_nonneg_left _ (by positivity)
          exact zpow_le_zpow_right₀ (by norm_num) (by omega)
        _ = _ := by norm_num

end Sys2Proof.Machine
end

