-- ==== Sys2Proof/Laws/Near.lean ====
section
/-! SUPPORT. The binary64 operations as real arithmetic: exact where the format holds the number, else near it. -/

namespace Sys2Proof.Machine

/-! ### Exact results -/

/-- A finite binary64, taken apart and put together. -/
theorem unpack64_fin (u : B64) {neg : Bool} {m : Nat} {x : Int} (h : num64 u = .fin neg m x) :
    u.toNat = Fmt.b64.withSign neg (Fmt.b64.roundMag m x) ∧ m < 2 ^ (Fmt.b64.fbits + 1) ∧ Fmt.b64.emin ≤ x := by
  have hu := u.isLt
  have hs := num64_sign u h
  rw [BitVec.msb_eq_decide] at hs
  unfold num64 Fmt.unpack at h
  generalize u.toNat = v at *
  have eM : Fmt.b64.emin = -1074 := by decide
  have eI : Fmt.b64.infBits = 2047 * 2 ^ 52 := by decide
  have eS : Fmt.b64.signBit = 2 ^ 63 := by decide
  simp only [eM, show Fmt.b64.fbits = 52 from rfl, show Fmt.b64.ebits = 11 from rfl] at h ⊢
  have ex : ∀ j k : Nat, j ≤ 2045 → k < 2 ^ 53 → (0 < j → 2 ^ 52 ≤ k) →
      Fmt.b64.roundMag k (-1074 + j) = j * 2 ^ 52 + k := by
    intro j k hj hk hjk
    by_cases hz : k = 0
    · subst hz
      obtain rfl : j = 0 := by by_contra hne; have := hjk (by omega); omega
      simp [Fmt.roundMag]
    · obtain ⟨a, b, h1, h2, h3, h4⟩ := roundMag_exact Fmt.b64 k (-1074 + j) (by omega) hk (by rw [eM]; omega)
      rw [eM] at h2
      have ha : a = 0 := by
        by_contra ha
        have : k * 2 ≤ k * 2 ^ a := Nat.mul_le_mul_left _ (by
          calc 2 = 2 ^ 1 := rfl
            _ ≤ 2 ^ a := Nat.pow_le_pow_right (by norm_num) (by omega))
        have h3' : k * 2 ^ a < 2 ^ 53 := h3
        have := hjk (by omega)
        omega
      subst ha
      obtain rfl : b = j := by omega
      rw [h1, eI, show Fmt.b64.fbits = 52 from rfl, pow_zero, mul_one, min_eq_left (by omega)]
  have fin : ∀ j k : Nat, j ≤ 2045 → k < 2 ^ 53 → (0 < j → 2 ^ 52 ≤ k) → v % 2 ^ 63 = j * 2 ^ 52 + k →
      v = Fmt.b64.withSign neg (Fmt.b64.roundMag k (-1074 + j)) := by
    intro j k hj hk hjk hv
    rw [ex j k hj hk hjk, hs]
    unfold Fmt.withSign
    rw [eS]
    split <;> simp_all <;> omega
  split at h
  · split at h <;> cases h
  · split at h
    · cases h
      exact ⟨fin 0 _ (by omega) (by omega) (by omega) (by omega), by omega, by omega⟩
    · cases h
      exact ⟨fin _ _ (by omega) (by omega) (by omega) (by omega), by omega, by omega⟩

/-- Packing a finite binary64's own number, at any scale, gives its pattern. -/
theorem pack64_shift (u : B64) {neg : Bool} {m : Nat} {x : Int} (h : num64 u = .fin neg m x) (k : Nat) :
    BitVec.ofNat 64 (Fmt.b64.pack (.fin neg (m * 2 ^ k) (x - k))) = u := by
  obtain ⟨h1, h2, h3⟩ := unpack64_fin u h
  have : Fmt.b64.roundMag (m * 2 ^ k) (x - k) = Fmt.b64.roundMag m x := by
    by_cases hm : m = 0
    · subst hm; simp [Fmt.roundMag]
    · exact roundMag_shift _ _ _ _ (by omega) h2 h3
  apply BitVec.eq_of_toNat_eq
  rw [BitVec.toNat_ofNat]
  simp only [Fmt.pack]
  rw [this, ← h1, Nat.mod_eq_of_lt u.isLt]

/-- A zero result has the sign of the exact zero. -/
theorem result64_zero (e : FpEnv) (op : FpOp) (a b : U64) (s : Bool) (x : Int) :
    e.result64 op a b (.fin s 0 x) = if s then 0x8000000000000000#64 else 0#64 := by
  cases s <;> simp [FpEnv.result64, Fmt.pack, Fmt.roundMag] <;> decide

theorem num64_mkNan (d : U64) : num64 (mkNan64 d) = .nan := by
  have hI : Fmt.b64.infBits = 9218868437227405312 := by decide
  have := d.isLt
  have h : (mkNan64 d).toNat / 2 ^ 52 % 2 ^ 11 = 2047 ∧ (mkNan64 d).toNat % 2 ^ 52 ≠ 0 := by
    simp only [mkNan64, hI, BitVec.toNat_ofNat]
    omega
  unfold num64 Fmt.unpack
  simp only [show Fmt.b64.fbits = 52 from rfl, show Fmt.b64.ebits = 11 from rfl]
  rw [if_pos (by omega), if_neg h.2]

theorem num64_inf (s : Bool) : num64 (BitVec.ofNat 64 (Fmt.b64.pack (.inf s))) = .inf s := by cases s <;> decide

/-- The pattern of an infinity, from its number. -/
theorem pack64_inf (u : B64) {s : Bool} (h : num64 u = .inf s) : BitVec.ofNat 64 (Fmt.b64.pack (.inf s)) = u := by
  have hu := u.isLt
  have eI : Fmt.b64.infBits = 2047 * 2 ^ 52 := by decide
  have eS : Fmt.b64.signBit = 2 ^ 63 := by decide
  apply BitVec.eq_of_toNat_eq
  rw [BitVec.toNat_ofNat]
  unfold num64 Fmt.unpack at h
  generalize u.toNat = v at *
  simp only [show Fmt.b64.fbits = 52 from rfl, show Fmt.b64.ebits = 11 from rfl, eS] at h
  split at h
  · split at h
    · cases h
      simp only [Fmt.pack, Fmt.withSign, eI, eS, beq_iff_eq]
      split <;> omega
    · cases h
  · split at h <;> cases h

/-- Multiplying and dividing by 1.0 keep every number bit for bit. -/
theorem mul64_one (e : FpEnv) (a : B64) (h : num64 a ≠ .nan) : mul64 e a c1 = a := by
  unfold mul64
  rw [show num64 c1 = .fin false (1 * 2 ^ 52) (0 - (52 : Nat)) from by decide]
  cases hn : num64 a with
  | nan => exact absurd hn h
  | inf s => simpa [Num.mul, FpEnv.result64] using pack64_inf a hn
  | fin s m x =>
    have := pack64_shift a hn 52
    simpa [Num.mul, FpEnv.result64, sub_eq_add_neg] using this

theorem div64_one (e : FpEnv) (a : B64) (h : num64 a ≠ .nan) : div64 e a c1 = a := by
  unfold div64
  rw [show num64 c1 = .fin false (2 ^ 52) (-52) from by decide]
  cases hn : num64 a with
  | nan => exact absurd hn h
  | inf s => simpa [Num.div, FpEnv.result64] using pack64_inf a hn
  | fin s m x =>
    have hl : Nat.log2 (2 ^ 52) = 52 := Nat.log2_two_pow
    have h1 : m * 2 ^ 110 / 2 ^ 52 = m * 2 ^ 58 := by
      rw [show (2 : Nat) ^ 110 = 2 ^ 58 * 2 ^ 52 by rfl, ← mul_assoc]; exact Nat.mul_div_cancel _ (by positivity)
    have h2 : m * 2 ^ 110 % 2 ^ 52 = 0 := by
      rw [show (2 : Nat) ^ 110 = 2 ^ 58 * 2 ^ 52 by rfl, ← mul_assoc]; exact Nat.mul_mod_left _ _
    have := pack64_shift a hn 59
    simp only [Num.div, hl, FpEnv.result64]
    rw [if_neg (by norm_num)]
    simp only [show 57 + 52 + 1 = 110 from rfl, h1, h2, if_true]
    rw [← this]
    congr 3
    · simp
    · omega
    · omega

/-- A number divided by itself is 1.0 exactly. -/
theorem div64_self (e : FpEnv) (a : B64) {s : Bool} {m : Nat} {x : Int} (hn : num64 a = .fin s m x) (hm : m ≠ 0) :
    div64 e a a = c1 := by
  unfold div64
  rw [hn]
  obtain ⟨k, hk⟩ : ∃ k, k = 57 + Nat.log2 m + 1 := ⟨_, rfl⟩
  have h1 : m * 2 ^ k / m = 2 ^ k := Nat.mul_div_cancel_left _ (by omega)
  have h2 : m * 2 ^ k % m = 0 := Nat.mul_mod_right _ _
  simp only [Num.div, if_neg hm, FpEnv.result64, ← hk, h1, h2, if_true, bne_self_eq_false]
  have := roundMag_shift Fmt.b64 1 (k + 1) 0 (by norm_num) (by decide) (by decide)
  have e1 : 2 * 2 ^ k + 0 = 1 * 2 ^ (k + 1) := by rw [pow_succ]; ring
  have e2 : x - x - (k : Int) - 1 = 0 - ((k + 1 : Nat) : Int) := by push_cast; ring
  rw [e1, e2]
  simp only [Fmt.pack, this]
  decide

/-! ### Near results -/

/-- The binary64 x stands for the real v. -/
def Val64 (x : B64) (v : ℝ) : Prop := ∃ q, (num64 x).toRat? = some q ∧ (q : ℝ) = v

/-- Half a unit of the binary64 subnormals. -/
noncomputable def halfSub : ℝ := 2⁻¹ ^ 1075

theorem halfSub_pos : 0 < halfSub := by unfold halfSub; positivity

theorem halfSub_eq : halfSub = 2 ^ (-1074 : ℤ) / 2 := by
  unfold halfSub
  rw [show (1075 : Nat) = 1074 + 1 from rfl, pow_succ, inv_pow, ← zpow_natCast, ← zpow_neg]; rfl

theorem halfSub_le : halfSub ≤ 1 / 2 ^ 50 := by
  unfold halfSub
  calc (2⁻¹ : ℝ) ^ 1075 ≤ 2⁻¹ ^ 50 := pow_le_pow_of_le_one (by norm_num) (by norm_num) (by norm_num)
    _ = _ := by norm_num

/-- v is X rounded once to binary64: near it, and on the same side of 0. -/
structure Near (v X : ℝ) : Prop where
  err : |v - X| ≤ 1 / 2 ^ 53 * |X| + halfSub
  nonneg : 0 ≤ X → 0 ≤ v
  nonpos : X ≤ 0 → v ≤ 0

theorem Near.zero : Near 0 0 := ⟨by simp [halfSub_pos.le], fun _ => le_refl _, fun _ => le_refl _⟩

theorem Near.neg {v X : ℝ} (h : Near v X) : Near (-v) (-X) := by
  refine ⟨?_, fun hX => ?_, fun hX => ?_⟩
  · rw [abs_neg, show -v - -X = -(v - X) by ring, abs_neg]; exact h.err
  · have := h.nonpos (by linarith); linarith
  · have := h.nonneg (by linarith); linarith

/-- The unit in the last place of a finite binary64 is the exponent of its number. -/
theorem ulp64_eq {y : B64} {s : Bool} {m : Nat} {x : Int} (h : num64 y = .fin s m x) : ulp64 y = 2 ^ x := by
  have eM : Fmt.b64.emin = -1074 := by decide
  unfold num64 Fmt.unpack at h
  unfold ulp64
  simp only [eM, show Fmt.b64.fbits = 52 from rfl, show Fmt.b64.ebits = 11 from rfl] at h ⊢
  generalize y.toNat / 2 ^ 52 % 2 ^ 11 = E at *
  split at h
  · split at h <;> cases h
  · split at h <;> cases h <;> congr 1 <;> omega

/-- A finite binary64 result below 2^1023, taken apart: the significand and exponent of its rounding, and its own. -/
theorem result64_parts (e : FpEnv) (op : FpOp) (a b : U64) (neg : Bool) (m : Nat) (ex : Int) (x : ℝ) (hm : m ≠ 0)
    (h : Stands 54 m ex x) (hx : x < 2 ^ 1023) :
    ∃ (i sig : Nat) (q : Int) (s : Nat) (j : Int), Parts Fmt.b64 x (2 ^ Fmt.b64.fbits) i sig q
      ∧ num64 (e.result64 op a b (.fin neg m ex)) = .fin neg s j ∧ (s : ℝ) * 2 ^ j = sig * 2 ^ q ∧ q ≤ j := by
  have eM : Fmt.b64.emin = -1074 := by decide
  have eI : Fmt.b64.infBits = 2047 * 2 ^ 52 := by decide
  have eS : Fmt.b64.signBit = 2 ^ 63 := by decide
  have small : ∀ r : Nat, r < Fmt.b64.infBits →
      (BitVec.ofNat 64 (Fmt.b64.withSign neg r)).toNat = Fmt.b64.withSign neg r := by
    intro r hr
    rw [BitVec.toNat_ofNat, Nat.mod_eq_of_lt]
    rw [eI] at hr
    unfold Fmt.withSign; split <;> omega
  obtain ⟨i, sig, q, hp, hR⟩ := roundMag_parts Fmt.b64 m (by omega) ex x h
  have hfin := (roundMag_near Fmt.b64 (by decide) (by decide) m (by omega) ex x h).2.1.mpr (by
    refine hx.trans_le ?_
    rw [eM, show Fmt.b64.fbits = 52 from rfl, show Fmt.b64.ebits = 11 from rfl,
      show ((-1074 : Int) + (2 ^ 11 : Nat) - 3) = ((971 : Nat) : Int) from by norm_num, zpow_natCast]
    rw [show (1023 : Nat) = 52 + 971 from rfl, pow_add]
    exact mul_le_mul_of_nonneg_right (by norm_num) (by positivity))
  have hlt : i * 2 ^ Fmt.b64.fbits + sig < Fmt.b64.infBits := by
    rw [hR] at hfin; exact (min_lt_iff.mp hfin).resolve_right (lt_irrefl _)
  rw [min_eq_left hlt.le] at hR
  have hnum : num64 (e.result64 op a b (.fin neg m ex)) = Fmt.b64.unpack (Fmt.b64.withSign neg (i * 2 ^ Fmt.b64.fbits + sig)) := by
    show Fmt.b64.unpack (BitVec.ofNat 64 (Fmt.b64.withSign neg (Fmt.b64.roundMag m ex))).toNat = _
    rw [hR, small _ hlt]
  rw [hnum]
  by_cases hs : sig < 2 ^ (Fmt.b64.fbits + 1)
  · exact ⟨i, sig, q, _, _, hp, unpack_mag Fmt.b64 neg i sig hs hp.le_sig hlt, by rw [hp.exp], by rw [hp.exp]⟩
  · have hs : sig = 2 * 2 ^ Fmt.b64.fbits := by
      have := hp.sig_le; rw [pow_succ] at hs; omega
    have e1 : i * 2 ^ Fmt.b64.fbits + sig = (i + 1) * 2 ^ Fmt.b64.fbits + 2 ^ Fmt.b64.fbits := by rw [hs]; ring
    rw [e1] at hlt ⊢
    refine ⟨i, sig, q, _, _, hp, unpack_mag Fmt.b64 neg (i + 1) _ (by rw [pow_succ]; have := Nat.two_pow_pos Fmt.b64.fbits; omega)
      (fun _ => le_refl _) hlt, ?_, by rw [hp.exp]; push_cast; omega⟩
    rw [hs, hp.exp]; push_cast
    rw [← add_assoc, zpow_add_one₀ (by norm_num)]; ring

/-- A finite binary64 result below 2^1023 stands for a number near the exact one. -/
theorem result64_near (e : FpEnv) (op : FpOp) (a b : U64) (neg : Bool) (m : Nat) (ex : Int) (x : ℝ)
    (h : Stands 54 m ex x) (hx : x < 2 ^ 1023) :
    ∃ v, Val64 (e.result64 op a b (.fin neg m ex)) v ∧ Near v ((sgn neg : ℚ) * x) := by
  by_cases hm : m = 0
  · subst hm
    have hx0 : x = 0 := by rcases h with h | h <;> simp_all
    subst hx0
    refine ⟨0, ⟨0, ?_, by simp⟩, by simpa using Near.zero⟩
    rw [result64_zero]
    cases neg
    · rw [show num64 (if false = true then _ else _) = .fin false 0 (-1074) from by decide]; simp [Num.toRat?]
    · rw [show num64 (if true = true then _ else _) = .fin true 0 (-1074) from by decide]; simp [Num.toRat?]
  · obtain ⟨i, sig, q, s, j, hp, hn, hv, -⟩ := result64_parts e op a b neg m ex x hm h hx
    refine ⟨(sgn neg : ℚ) * (sig * 2 ^ q), ⟨sgn neg * s * 2 ^ j, ?_, by push_cast; rw [← hv]; ring⟩, ?_⟩
    · rw [hn]; simp [Num.toRat?, sgn]
    · have hnear : Near (sig * 2 ^ q) x := by
        refine ⟨?_, fun _ => by positivity, fun h0 => absurd hp.pos (by linarith)⟩
        rw [abs_of_pos hp.pos]
        have herr := (hp.near 0).2.1
        by_cases hi : 0 < i
        · have := hp.lower hi
          have hB : (((2 ^ Fmt.b64.fbits : Nat)) : ℝ) = 2 ^ 52 := by norm_num [Fmt.b64]
          rw [hB] at this
          have := halfSub_pos
          linarith
        · have : q = -1074 := by rw [hp.exp, show Fmt.b64.emin = -1074 from by decide]; omega
          rw [this] at herr ⊢
          have e1 := halfSub_eq
          have : 0 ≤ 1 / 2 ^ 53 * x := mul_nonneg (by positivity) hp.pos.le
          rw [e1]; linarith
      cases neg
      · simpa [sgn] using hnear
      · have := hnear.neg
        simpa [sgn] using this

theorem abs_sgn (s : Bool) : |((sgn s : ℚ) : ℝ)| = 1 := by cases s <;> simp [sgn]

theorem abs_sgn_mul (s : Bool) {y : ℝ} (hy : 0 ≤ y) : |((sgn s : ℚ) : ℝ) * y| = y := by
  rw [abs_mul, abs_sgn, one_mul, abs_of_nonneg hy]

/-- A finite binary64 result is within one unit in the last place of the exact one. -/
theorem result64_withinUlp (e : FpEnv) (op : FpOp) (a b : U64) (neg : Bool) (m : Nat) (ex : Int) (x : ℝ) (hm : m ≠ 0)
    (h : Stands 54 m ex x) (hx : x < 2 ^ 1023) : WithinUlp (e.result64 op a b (.fin neg m ex)) ((sgn neg : ℚ) * x) := by
  obtain ⟨i, sig, q, s, j, hp, hn, hv, hqj⟩ := result64_parts e op a b neg m ex x hm h hx
  refine ⟨sgn neg * s * 2 ^ j, by rw [hn]; simp [Num.toRat?, sgn], ?_⟩
  rw [ulp64_eq hn]
  push_cast
  have e1 : ((sgn neg : ℚ) : ℝ) * s * 2 ^ j - (sgn neg : ℚ) * x = (sgn neg : ℚ) * (sig * 2 ^ q - x) := by rw [← hv]; ring
  rw [e1, abs_mul, abs_sgn, one_mul]
  have h1 := (hp.near 0).2.1
  have h2 : (2 : ℝ) ^ q ≤ 2 ^ j := zpow_le_zpow_right₀ (by norm_num) hqj
  have h3 : (0 : ℝ) < 2 ^ q := by positivity
  linarith

/-- Some binary64 is within one unit in the last place of any real below 2^1023. -/
theorem exists_withinUlp (r : ℝ) (hr : |r| < 2 ^ 1023) : ∃ y, WithinUlp y r := by
  by_cases h0 : r = 0
  · refine ⟨0#64, 0, by rw [show num64 0#64 = .fin false 0 (-1074) from by decide]; simp [Num.toRat?], ?_⟩
    subst h0
    simp only [Rat.cast_zero, sub_zero, abs_zero]
    unfold ulp64
    positivity
  · have hx0 : 0 < |r| := abs_pos.mpr h0
    obtain ⟨k, hk⟩ := pow_unbounded_of_one_lt (2 ^ 54 / |r|) (by norm_num : (1 : ℝ) < 2)
    rw [div_lt_iff₀ hx0] at hk
    obtain ⟨z, hz⟩ : ∃ z, z = 2 ^ k * |r| := ⟨_, rfl⟩
    have hzr : |r| = z * 2 ^ (-(k : Int)) := by rw [hz, zpow_neg, zpow_natCast]; field_simp
    have hf := Nat.floor_le (by rw [hz]; positivity : 0 ≤ z)
    have hf1 := Nat.lt_floor_add_one z
    have hfb : 2 ^ 54 ≤ ⌊z⌋₊ := Nat.le_floor (by rw [hz]; exact_mod_cast hk.le)
    have hst : ∃ m e, m ≠ 0 ∧ Stands 54 m e |r| := by
      have hp : (0 : ℝ) < 2 ^ (-(k : Int)) := by positivity
      by_cases he : (⌊z⌋₊ : ℝ) = z
      · exact ⟨⌊z⌋₊, -(k : Int), by omega, .inl (by rw [he, hzr])⟩
      · refine ⟨2 * ⌊z⌋₊ + 1, -(k : Int) - 1, by omega, .inr ⟨by omega, by omega, ?_, ?_⟩⟩
        · rw [hzr, zpow_sub_one₀ (by norm_num)]; push_cast
          have : (⌊z⌋₊ : ℝ) < z := lt_of_le_of_ne hf he
          have := mul_lt_mul_of_pos_right this hp
          linarith
        · rw [hzr, zpow_sub_one₀ (by norm_num)]; push_cast
          have := mul_lt_mul_of_pos_right hf1 hp
          linarith
    obtain ⟨m, e, hm, hst⟩ := hst
    have := result64_withinUlp ⟨false, 0⟩ .add 0 0 (decide (r < 0)) m e |r| hm hst hr
    have hs : ((sgn (decide (r < 0)) : ℚ) : ℝ) * |r| = r := by
      by_cases hn : r < 0
      · simp [hn, sgn, abs_of_neg hn]
      · simp [hn, sgn, abs_of_nonneg (not_lt.mp hn)]
    rw [hs] at this
    exact ⟨_, this⟩

/-- The binary32 x stands for the real v, under the flush of the environment. -/
def Val32 (e : FpEnv) (x : B32) (v : ℝ) : Prop := ∃ q, (e.num32 x).toRat? = some q ∧ (q : ℝ) = v

theorem Val64.form {x : B64} {v : ℝ} (h : Val64 x v) : ∃ s m k, num64 x = .fin s m k ∧ v = (sgn s : ℚ) * (m * 2 ^ k) := by
  obtain ⟨q, hq, rfl⟩ := h
  obtain ⟨s, m, k, hn, rfl⟩ := toRat?_fin hq
  exact ⟨s, m, k, hn, by push_cast; ring⟩

/-- The operators give a number near the exact result wherever that is below 2^1023 (00_scope.md R9, R13). -/
theorem add64_near (e : FpEnv) {a b : B64} {p q : ℝ} (ha : Val64 a p) (hb : Val64 b q) (h : |p + q| < 2 ^ 1023) :
    ∃ v, Val64 (add64 e a b) v ∧ Near v (p + q) := by
  obtain ⟨s, m, x, hm', rfl⟩ := ha.form
  obtain ⟨t, n, y, hn', rfl⟩ := hb.form
  obtain ⟨neg, k, z, h1, h2, -⟩ := num_add s t m n x y
  have hv : ((sgn s : ℚ) : ℝ) * (m * 2 ^ x) + ((sgn t : ℚ) : ℝ) * (n * 2 ^ y) = (sgn neg : ℚ) * ((k : ℝ) * 2 ^ z) := by
    have := congrArg (fun r : ℚ => (r : ℝ)) h2
    push_cast at this
    linarith [mul_assoc ((sgn neg : ℚ) : ℝ) (k : ℝ) (2 ^ z)]
  rw [hv, abs_sgn_mul _ (by positivity)] at h
  unfold add64
  rw [hm', hn', h1, hv]
  exact result64_near e .add a b neg k z _ (Stands.exact _ _ _) h

theorem sub64_near (e : FpEnv) {a b : B64} {p q : ℝ} (ha : Val64 a p) (hb : Val64 b q) (h : |p - q| < 2 ^ 1023) :
    ∃ v, Val64 (sub64 e a b) v ∧ Near v (p - q) := by
  obtain ⟨s, m, x, hm', rfl⟩ := ha.form
  obtain ⟨t, n, y, hn', rfl⟩ := hb.form
  obtain ⟨neg, k, z, h1, h2, -⟩ := num_add s (!t) m n x y
  have hv : ((sgn s : ℚ) : ℝ) * (m * 2 ^ x) - ((sgn t : ℚ) : ℝ) * (n * 2 ^ y) = (sgn neg : ℚ) * ((k : ℝ) * 2 ^ z) := by
    have := congrArg (fun r : ℚ => (r : ℝ)) h2
    rw [sgn_not] at this
    push_cast at this
    linarith [mul_assoc ((sgn neg : ℚ) : ℝ) (k : ℝ) (2 ^ z)]
  rw [hv, abs_sgn_mul _ (by positivity)] at h
  unfold sub64
  rw [hm', hn']
  simp only [Num.sub, Num.negate]
  rw [h1, hv]
  exact result64_near e .sub a b neg k z _ (Stands.exact _ _ _) h

theorem mul64_near (e : FpEnv) {a b : B64} {p q : ℝ} (ha : Val64 a p) (hb : Val64 b q) (h : |p * q| < 2 ^ 1023) :
    ∃ v, Val64 (mul64 e a b) v ∧ Near v (p * q) := by
  obtain ⟨s, m, x, hm', rfl⟩ := ha.form
  obtain ⟨t, n, y, hn', rfl⟩ := hb.form
  have hv : ((sgn s : ℚ) : ℝ) * (m * 2 ^ x) * (((sgn t : ℚ) : ℝ) * (n * 2 ^ y))
      = (sgn (s != t) : ℚ) * (((m * n : Nat) : ℝ) * 2 ^ (x + y)) := by
    have := congrArg (fun r : ℚ => (r : ℝ)) (num_mul s t m n x y)
    push_cast at this ⊢
    linarith
  rw [hv, abs_sgn_mul _ (by positivity)] at h
  unfold mul64
  rw [hm', hn', hv]
  exact result64_near e .mul a b _ _ _ _ (Stands.exact _ _ _) h

theorem div64_near (e : FpEnv) {a b : B64} {p q : ℝ} (ha : Val64 a p) (hb : Val64 b q) (hq : q ≠ 0)
    (h : |p / q| < 2 ^ 1023) : ∃ v, Val64 (div64 e a b) v ∧ Near v (p / q) := by
  obtain ⟨s, m, x, hm', rfl⟩ := ha.form
  obtain ⟨t, n, y, hn', rfl⟩ := hb.form
  have hn : n ≠ 0 := by rintro rfl; simp at hq
  obtain ⟨k, z, v, h1, h2, rfl⟩ := num_div 57 s t m n x y hn
  have hv : ((sgn s : ℚ) : ℝ) * (m * 2 ^ x) / (((sgn t : ℚ) : ℝ) * (n * 2 ^ y))
      = (sgn (s != t) : ℚ) * ((m * 2 ^ x : ℝ) / (n * 2 ^ y)) := by
    rw [← div_val s t m n x y hn]; push_cast; ring
  rw [hv, abs_sgn_mul _ (by positivity)] at h
  unfold div64
  rw [hm', hn', h1, hv]
  exact result64_near e .div a b _ k z _ (h2.mono (by norm_num)) h

theorem sqrt64_near (e : FpEnv) {a : B64} {p : ℝ} (ha : Val64 a p) (hp : 0 < p) (h : Real.sqrt p < 2 ^ 1023) :
    ∃ v, Val64 (sqrt64 e a) v ∧ Near v (Real.sqrt p) := by
  obtain ⟨s, m, x, hm', rfl⟩ := ha.form
  have hm : m ≠ 0 := by rintro rfl; simp at hp
  obtain rfl : s = false := by
    by_contra hs
    have hs : s = true := by simpa using hs
    subst hs
    have : (0 : ℝ) ≤ m * 2 ^ x := by positivity
    simp [sgn] at hp; linarith
  obtain ⟨k, z, v, h1, h2, rfl⟩ := num_sqrt 57 m x hm
  have := result64_near e .sqrt a 0#64 false k z _ (h2.mono (by norm_num)) (by simpa [sgn] using h)
  unfold sqrt64
  rw [hm', h1]
  simpa [sgn] using this

theorem toB64_near (e : FpEnv) {a : B32} {p : ℝ} (ha : Val32 e a p) (h : |p| < 2 ^ 1023) :
    ∃ v, Val64 (toB64 e a) v ∧ Near v p := by
  obtain ⟨q, hq, rfl⟩ := ha
  obtain ⟨s, m, x, hn, rfl⟩ := toRat?_fin hq
  have hv : (((sgn s * m * 2 ^ x : ℚ)) : ℝ) = (sgn s : ℚ) * ((m : ℝ) * 2 ^ x) := by push_cast; ring
  rw [hv, abs_sgn_mul _ (by positivity)] at h
  unfold toB64
  rw [hn, hv]
  exact result64_near e .toB64 _ _ s m x _ (Stands.exact _ _ _) h

/-- Rounding to binary32 keeps a number below 2^127 finite. -/
theorem toB32_finite (e : FpEnv) {a : B64} {p : ℝ} (ha : Val64 a p) (h : |p| < 2 ^ 127) : isFinite32 (toB32 e a) = true := by
  obtain ⟨s, m, x, hn, rfl⟩ := ha.form
  rw [abs_sgn_mul _ (by positivity)] at h
  unfold toB32
  rw [hn]
  simp only [FpEnv.result32]
  obtain ⟨r1, r2, r3, -⟩ := pack_rounds Fmt.b32 (by decide) (by decide) s m x _ (Stands.exact _ _ _)
  have hS : Fmt.b32.signBit = 2147483648 := by decide
  have hI : Fmt.b32.infBits = 2139095040 := by decide
  have eM : Fmt.b32.emin = -149 := by decide
  have hlt := r3.mpr (by
    rw [abs_sgn_mul _ (by positivity), eM, show Fmt.b32.fbits = 23 from rfl, show Fmt.b32.ebits = 8 from rfl]
    refine h.trans_le ?_
    rw [show ((-149 : Int) + (2 ^ 8 : Nat) - 3) = ((104 : Nat) : Int) from by norm_num, zpow_natCast]
    norm_num)
  rw [hS, hI] at hlt
  rw [hS] at r1
  rw [isFinite32_iff, flush_exp, BitVec.toNat_ofNat]
  generalize Fmt.b32.pack (.fin s m x) = R at *
  rw [show R % 2 ^ 32 = R from Nat.mod_eq_of_lt (by omega)]
  omega

/-- The comparison of two finite numbers is the order of their values. -/
theorem Num.lt_toRat {a b : Num} {p q : ℚ} (ha : a.toRat? = some p) (hb : b.toRat? = some q) : a.lt b = true ↔ p < q := by
  obtain ⟨s, m, x, rfl, rfl⟩ := toRat?_fin ha
  obtain ⟨t, n, y, rfl, rfl⟩ := toRat?_fin hb
  obtain ⟨l, hl⟩ : ∃ l, l = min x y := ⟨_, rfl⟩
  have cv : ∀ (b : Bool) (k : Nat) (z : Int), l ≤ z →
      sgn b * k * 2 ^ z = (signedSig b (k * 2 ^ (z - l).toNat) : ℚ) * 2 ^ l := by
    intro b k z hz
    have : (2 : ℚ) ^ z = 2 ^ (z - l).toNat * 2 ^ l := by
      rw [← zpow_natCast, ← zpow_add₀ (by norm_num)]; congr 1; omega
    rw [this]; unfold signedSig sgn; cases b <;> push_cast <;> simp <;> ring
  rw [cv s m x (by omega), cv t n y (by omega), mul_lt_mul_iff_left₀ (by positivity)]
  simp only [Num.lt, ← hl, decide_eq_true_eq, Int.cast_lt]

theorem lt64_val {a b : B64} {p q : ℝ} (ha : Val64 a p) (hb : Val64 b q) : lt64 a b = true ↔ p < q := by
  obtain ⟨p, ha, rfl⟩ := ha
  obtain ⟨q, hb, rfl⟩ := hb
  exact (Num.lt_toRat ha hb).trans Rat.cast_lt.symm

theorem lt32_val {e : FpEnv} {a b : B32} {p q : ℝ} (ha : Val32 e a p) (hb : Val32 e b q) : lt32 e a b = true ↔ p < q := by
  obtain ⟨p, ha, rfl⟩ := ha
  obtain ⟨q, hb, rfl⟩ := hb
  exact (Num.lt_toRat ha hb).trans Rat.cast_lt.symm

/-- A binary32 between two finite bounds stands for a real between them. -/
theorem val32_between {e : FpEnv} {lo hi v : B32} {a b : ℝ} (hlo : Val32 e lo a) (hhi : Val32 e hi b)
    (hn : isNan32 v = false) (h1 : lt32 e v lo = false) (h2 : lt32 e hi v = false) : ∃ x, Val32 e v x ∧ a ≤ x ∧ x ≤ b := by
  have hf : isNan32 (e.flush v) = false := flush_notNan e v hn
  obtain ⟨p, hp, -⟩ := id hlo
  obtain ⟨q, hq, -⟩ := id hhi
  obtain ⟨s, m, k, hpn, -⟩ := toRat?_fin hp
  obtain ⟨t, n, l, hqn, -⟩ := toRat?_fin hq
  have hfin : ∃ x, Val32 e v x := by
    cases hv : e.num32 v with
    | nan => rw [← unpack_isNan, show Fmt.b32.unpack (e.flush v).toNat = .nan from hv] at hf; cases hf
    | inf u =>
      unfold lt32 at h1 h2
      rw [hv, hpn] at h1
      rw [hv, hqn] at h2
      cases u <;> simp [Num.lt] at h1 h2
    | fin u j z => exact ⟨_, _, by rw [hv]; rfl, rfl⟩
  obtain ⟨x, hx⟩ := hfin
  refine ⟨x, hx, ?_, ?_⟩
  · by_contra h
    rw [(lt32_val hx hlo).mpr (not_le.mp h)] at h1; cases h1
  · by_contra h
    rw [(lt32_val hhi hx).mpr (not_le.mp h)] at h2; cases h2

/-- A finite binary64 is a subnormal, or its significand has all its bits. -/
theorem unpack64_norm {u : B64} {neg : Bool} {m : Nat} {x : Int} (h : num64 u = .fin neg m x) : x = -1074 ∨ 2 ^ 52 ≤ m := by
  have eM : Fmt.b64.emin = -1074 := by decide
  unfold num64 Fmt.unpack at h
  simp only [eM, show Fmt.b64.fbits = 52 from rfl, show Fmt.b64.ebits = 11 from rfl] at h
  split at h
  · split at h <;> cases h
  · split at h <;> cases h
    · exact .inl rfl
    · exact .inr (by omega)

/-- One unit in the last place, against the number. -/
theorem WithinUlp.near {y : B64} {r : ℝ} (h : WithinUlp y r) :
    ∃ v, Val64 y v ∧ |v - r| ≤ 1 / 2 ^ 52 * |v| + 2 * halfSub := by
  obtain ⟨q, hq, hr⟩ := h
  refine ⟨q, ⟨q, hq, rfl⟩, hr.trans ?_⟩
  obtain ⟨s, m, x, hn, rfl⟩ := toRat?_fin hq
  have hv : (((sgn s * m * 2 ^ x : ℚ)) : ℝ) = (sgn s : ℚ) * ((m : ℝ) * 2 ^ x) := by push_cast; ring
  rw [hv, abs_sgn_mul _ (by positivity)]
  rw [ulp64_eq hn]
  push_cast
  have h0 := halfSub_eq
  have hx := (unpack64_fin y hn).2.2
  rw [show Fmt.b64.emin = -1074 from by decide] at hx
  rcases unpack64_norm hn with h | h
  · rw [h]
    have : (0 : ℝ) ≤ 1 / 2 ^ 52 * (m * 2 ^ (-1074 : ℤ)) := by positivity
    linarith
  · have hZ : (0 : ℝ) < 2 ^ x := by positivity
    have : (2 : ℝ) ^ 52 * 2 ^ x ≤ m * 2 ^ x := mul_le_mul_of_nonneg_right (by exact_mod_cast h) hZ.le
    have := halfSub_pos
    linarith

/-- A rounding of a number that is not negative, within one part in 1000 and half a subnormal unit. -/
theorem Near.rel {v X : ℝ} (h : Near v X) (hX : 0 ≤ X) :
    0 ≤ v ∧ 0.999 * X - halfSub ≤ v ∧ v ≤ 1.001 * X + halfSub := by
  have := abs_le.mp h.err
  rw [abs_of_nonneg hX] at this
  exact ⟨h.nonneg hX, by linarith, by linarith⟩

/-- The magnitude of a rounding. -/
theorem Near.absBound {v X : ℝ} (h : Near v X) : |v| ≤ 1.001 * |X| + halfSub := by
  have h1 := abs_sub_abs_le_abs_sub v X
  have h2 := h.err
  have := abs_nonneg X
  linarith

/-- A rounding of a number of the ordinary size is within 10^-4. -/
theorem Near.close {v X : ℝ} (h : Near v X) {B : ℝ} (hX : |X| ≤ B) (hB : B ≤ 64) : X - 1 / 10000 ≤ v ∧ v ≤ X + 1 / 10000 := by
  have := abs_le.mp (h.err.trans (show _ ≤ (1 : ℝ) / 10000 by have := halfSub_le; linarith))
  exact ⟨by linarith, by linarith⟩

theorem small_lt {x B : ℝ} (h : |x| ≤ B) (hB : B ≤ 2 ^ 30 := by norm_num) : |x| < 2 ^ 1023 :=
  (h.trans hB).trans_lt (pow_lt_pow_right₀ (by norm_num) (by norm_num))

/-- No finite binary64 reaches 2^1024. -/
theorem Val64.lt {x : B64} {v : ℝ} (h : Val64 x v) : v < 2 ^ 1024 := by
  obtain ⟨s, m, k, hn, rfl⟩ := h.form
  have eM : Fmt.b64.emin = -1074 := by decide
  have hb : m < 2 ^ 53 ∧ k ≤ 971 := by
    unfold num64 Fmt.unpack at hn
    simp only [eM, show Fmt.b64.fbits = 52 from rfl, show Fmt.b64.ebits = 11 from rfl] at hn
    split at hn
    · split at hn <;> cases hn
    · split at hn <;> cases hn <;> omega
  calc ((sgn s : ℚ) : ℝ) * (m * 2 ^ k) ≤ |((sgn s : ℚ) : ℝ) * (m * 2 ^ k)| := le_abs_self _
    _ = m * 2 ^ k := abs_sgn_mul _ (by positivity)
    _ < 2 ^ 53 * 2 ^ k := mul_lt_mul_of_pos_right (by exact_mod_cast hb.1) (by positivity)
    _ ≤ 2 ^ 53 * 2 ^ (971 : ℤ) := mul_le_mul_of_nonneg_left (zpow_le_zpow_right₀ (by norm_num) hb.2) (by positivity)
    _ = 2 ^ 1024 := by rw [show (971 : ℤ) = ((971 : Nat) : ℤ) from rfl, zpow_natCast, ← pow_add]

end Sys2Proof.Machine
end

