-- ==== Sys2Proof/Laws/Coefficients.lean ====
section
/-! SUPPORT. The corner cases of the designs (41_coefficient_factory.md R117, R129): the gain 0.0, finiteness, and that the
functions R13 speaks of exist. -/

namespace Sys2Proof.Machine

/-! ### The gain 0.0 -/

/-- The gain 0.0, of either sign, gives G = 1.0 and A = 1.0 (41_coefficient_factory.md R117(a)). -/
theorem pow10_zero (e : FpEnv) {pg : B32} (h : pg = 0#32 ∨ pg = 0x80000000#32) :
    pow10 (div64 e (toB64 e pg) c20) = c1 ∧ sqrt64 e c1 = c1 := by
  have hs : sqrt64 e c1 = c1 := by obtain ⟨f, n⟩ := e; rfl
  refine ⟨?_, hs⟩
  have : div64 e (toB64 e pg) c20 = 0#64 ∨ div64 e (toB64 e pg) c20 = 0x8000000000000000#64 := by
    obtain ⟨s, hp⟩ : ∃ s : Bool, toB64 e pg = if s then 0x8000000000000000#64 else 0#64 := by
      obtain ⟨s, hn⟩ : ∃ s, e.num32 pg = .fin s 0 (-149) := by
        have hf : e.flush pg = pg := by
          unfold FpEnv.flush
          rcases h with rfl | rfl <;> simp [flushSub]
        unfold FpEnv.num32
        rw [hf]
        rcases h with rfl | rfl
        · exact ⟨false, by decide⟩
        · exact ⟨true, by decide⟩
      exact ⟨s, by unfold toB64; rw [hn, result64_zero]⟩
    obtain ⟨t, hq⟩ : ∃ t, num64 (toB64 e pg) = .fin t 0 (-1074) := by
      rw [hp]; cases s
      · exact ⟨false, by decide⟩
      · exact ⟨true, by decide⟩
    have hc : num64 c20 = .fin false (5 * 2 ^ 50) (-48) := by decide
    unfold div64
    rw [hq, hc]
    simp only [Num.div]
    rw [if_neg (by norm_num)]
    simp only [Nat.zero_mul, Nat.zero_div, Nat.zero_mod, Nat.mul_zero, if_true, Nat.add_zero, result64_zero]
    cases t <;> simp
  unfold pow10
  rw [if_pos this]

/-- R117(a): with the gain 0.0 the stored set has b0 = 1.0 exactly, b1 = a1 and b2 = a2, bit for bit, whenever it is not
degenerate. -/
theorem peakCoeffs_zeroGain (e : FpEnv) (c : Config) (fs : B64) (pf pq : B32) {pg : B32}
    (h : pg = 0#32 ∨ pg = 0x80000000#32) (hd : (peakCoeffs e c fs pf pg pq).degenerate = false) :
    (peakCoeffs e c fs pf pg pq).b0 = 0x3F800000#32
      ∧ (peakCoeffs e c fs pf pg pq).b1 = (peakCoeffs e c fs pf pg pq).a1
      ∧ (peakCoeffs e c fs pf pg pq).b2 = (peakCoeffs e c fs pf pg pq).a2 := by
  obtain ⟨h1, h2⟩ := pow10_zero e h
  have one : toB32 e c1 = 0x3F800000#32 := by obtain ⟨f, n⟩ := e; cases f <;> rfl
  have nan : ∀ op a b, num64 (e.result64 op a b .nan) = .nan := fun _ _ _ => num64_mkNan _
  have bad : ∀ x y : B64, (Num.div 57 (num64 x) (num64 y)) = .nan → isFinite32 (toB32 e (div64 e x y)) = false := by
    intro x y hx
    unfold toB32 div64
    rw [hx, nan]
    exact isFinite32_result32 _ _ _ _ rfl
  have key : ∀ x y : B64, isFinite32 (toB32 e (div64 e x y)) = true → Num.div 57 (num64 x) (num64 y) ≠ .nan := by
    intro x y hf hx
    rw [bad x y hx] at hf; cases hf
  simp only [peakCoeffs, h1, h2] at hd ⊢
  generalize div64 e (Config.SIN _) _ = alpha at *
  simp only [Coef.degenerate, Bool.not_eq_false', Bool.and_eq_true] at hd
  have hk := key _ _ hd.1.1.1.1
  by_cases hn : num64 alpha = .nan
  · exfalso
    apply hk
    have hq : num64 (div64 e alpha c1) = .nan := by
      unfold div64; rw [hn]; exact nan _ _ _
    have : num64 (add64 e c1 (div64 e alpha c1)) = .nan := by
      unfold add64; rw [hq, show num64 c1 = .fin false (2 ^ 52) (-52) from by decide]; exact nan _ _ _
    rw [this]
    cases num64 (add64 e c1 (mul64 e alpha c1)) <;> rfl
  · rw [mul64_one e alpha hn, div64_one e alpha hn] at *
    refine ⟨?_, by simp⟩
    cases hx : num64 (add64 e c1 alpha) with
    | nan => rw [hx] at hk; exact absurd rfl hk
    | inf s => rw [hx] at hk; exact absurd rfl hk
    | fin s m x =>
      have hm : m ≠ 0 := by
        rintro rfl
        rw [hx] at hk; exact hk (by simp [Num.div])
      rw [div64_self e _ hx hm, one]

/-! ### Finiteness -/

theorem val_c1 : Val64 c1 1 := ⟨1, by rw [show num64 c1 = .fin false (2 ^ 52) (-52) from by decide]; norm_num [Num.toRat?], by norm_num⟩
theorem val_c2 : Val64 c2 2 := ⟨2, by rw [show num64 c2 = .fin false (2 ^ 52) (-51) from by decide]; norm_num [Num.toRat?], by norm_num⟩
theorem val_cNeg2 : Val64 cNeg2 (-2) :=
  ⟨-2, by rw [show num64 cNeg2 = .fin true (2 ^ 52) (-51) from by decide]; norm_num [Num.toRat?], by norm_num⟩
theorem val_c20 : Val64 c20 20 :=
  ⟨20, by rw [show num64 c20 = .fin false (5 * 2 ^ 50) (-48) from by decide]; norm_num [Num.toRat?], by norm_num⟩

/-- TWO_PI is a number just below 2*pi. -/
theorem val_cTwoPi : ∃ t, Val64 cTwoPi t ∧ 6 < t ∧ t < 6.2831854 := by
  refine ⟨7074237752028440 / 2 ^ 50, ⟨7074237752028440 / 2 ^ 50, ?_, by norm_num⟩, by norm_num, by norm_num⟩
  rw [show num64 cTwoPi = .fin false 7074237752028440 (-50) from by decide]
  norm_num [Num.toRat?]

/-- Half a subnormal unit, against a rate of at least 2^-1060. -/
theorem halfSub_rate {S : ℝ} (h : 2⁻¹ ^ 1060 ≤ S) : halfSub ≤ S / 2 ^ 15 := by
  unfold halfSub
  rw [show (1075 : Nat) = 1060 + 15 from rfl, pow_add, show (2⁻¹ : ℝ) ^ 15 = 1 / 2 ^ 15 by norm_num, ← div_eq_mul_one_div]
  exact div_le_div_of_nonneg_right h (by positivity)

/-- The Nyquist clamp (41_coefficient_factory.md R112): a frequency that is not negative, nor above the clamp value. -/
theorem fclamp_near (e : FpEnv) {c : Config} (hc : c.wf = true) {fs : B64} {S : ℝ} (hS : Val64 fs S) (hS0 : 2⁻¹ ^ 1060 ≤ S)
    {f : B32} {F : ℝ} (hF : Val32 e f F) (hF0 : 0 ≤ F) (hF1 : F ≤ 2 ^ 19) :
    ∃ v, Val64 (fclamp e c fs f) v ∧ 0 ≤ v ∧ v ≤ 2 ^ 20 ∧ v ≤ S * (1 / 2 + 1 / 2 ^ 14) := by
  have hη := halfSub_rate hS0
  have hη0 := halfSub_pos
  have hη1 := halfSub_le
  have hSp : 0 < S := lt_of_lt_of_le (by positivity) hS0
  have hSu := hS.lt
  obtain ⟨r, hr, hr0, hr1⟩ := Config.wf_nyqRatio hc
  have hr0 : (0 : ℝ) < r := by exact_mod_cast hr0
  have hr1 : (r : ℝ) < 1 / 2 := by have : (r : ℝ) < ((1 / 2 : ℚ) : ℝ) := by exact_mod_cast hr1
                                   simpa using this
  have hp : 0 < (r : ℝ) * S := mul_pos hr0 hSp
  have hlim : (r : ℝ) * S ≤ S / 2 := by nlinarith
  obtain ⟨L, hL, nL⟩ := mul64_near e (a := c.nyqRatio) ⟨r, hr, rfl⟩ hS (by
    rw [abs_of_pos hp]
    calc (r : ℝ) * S ≤ S / 2 := hlim
      _ < 2 ^ 1024 / 2 := by linarith
      _ = 2 ^ 1023 := by rw [pow_succ]; ring)
  obtain ⟨E, hE, nE⟩ := toB64_near e hF (small_lt (B := 2 ^ 19) (by rwa [abs_of_nonneg hF0]))
  have hL0 := nL.nonneg hp.le
  have hE0 := nE.nonneg hF0
  have hLu := abs_le.mp nL.err
  have hEu := abs_le.mp nE.err
  rw [abs_of_pos hp] at hLu
  rw [abs_of_nonneg hF0] at hEu
  have h1 : L ≤ S * (1 / 2 + 1 / 2 ^ 14) := by linarith
  have h2 : E ≤ 2 ^ 20 := by linarith
  unfold fclamp
  have hlt := lt64_val hL hE
  by_cases h : L < E
  · simp only [hlt.mpr h, if_true]
    exact ⟨L, hL, hL0, h.le.trans h2, h1⟩
  · have : lt64 (mul64 e c.nyqRatio fs) (toB64 e f) = false := by
      by_contra hc
      exact h (hlt.mp (by simpa using hc))
    simp only [this, Bool.false_eq_true, if_false]
    exact ⟨E, hE, hE0, h2, (not_lt.mp h).trans h1⟩

/-- The angle of the peak section (R114): from 0 to just past pi. -/
theorem peakAngle_near (e : FpEnv) {c : Config} (hc : c.wf = true) {fs : B64} {S : ℝ} (hS : Val64 fs S)
    (hS0 : 2⁻¹ ^ 1060 ≤ S) {f : B32} {F : ℝ} (hF : Val32 e f F) (hF0 : 0 ≤ F) (hF1 : F ≤ 2 ^ 19) :
    ∃ w, Val64 (div64 e (mul64 e cTwoPi (fclamp e c fs f)) fs) w ∧ 0 ≤ w ∧ w ≤ 3.143 := by
  have hη := halfSub_rate hS0
  have hη0 := halfSub_pos
  have hη1 := halfSub_le
  have hSp : 0 < S := lt_of_lt_of_le (by positivity) hS0
  obtain ⟨v, hv, hv0, hv1, hv2⟩ := fclamp_near e hc hS hS0 hF hF0 hF1
  obtain ⟨t, ht, ht0, ht1⟩ := val_cTwoPi
  have hX0 : 0 ≤ t * v := by positivity
  have hX1 : t * v ≤ 6.2831854 * v := mul_le_mul_of_nonneg_right ht1.le hv0
  obtain ⟨y, hy, ny⟩ := mul64_near e ht hv (small_lt (B := 2 ^ 23) (by rw [abs_of_nonneg hX0]; linarith))
  have hy0 := ny.nonneg hX0
  have hyu := abs_le.mp ny.err
  rw [abs_of_nonneg hX0] at hyu
  have hyS : y ≤ S * 3.1422 := by linarith
  have hq0 : 0 ≤ y / S := by positivity
  have hq1 : y / S ≤ 3.1422 := by rw [div_le_iff₀ hSp]; linarith
  obtain ⟨w, hw, nw⟩ := div64_near e hy hS hSp.ne' (small_lt (B := 4) (by rw [abs_of_nonneg hq0]; linarith))
  have := nw.close (B := 4) (by rw [abs_of_nonneg hq0]; linarith) (by norm_num)
  exact ⟨w, hw, nw.nonneg hq0, by linarith⟩

/-- The amplitude A of the peak section for a gain within 24.2 dB (R113). -/
theorem peakGain_near (hM : MathContract) (e : FpEnv) {pg : B32} {G : ℝ} (hG : Val32 e pg G) (hG1 : |G| ≤ 24) :
    ∃ a, Val64 (sqrt64 e (pow10 (div64 e (toB64 e pg) c20))) a ∧ 0.22 ≤ a ∧ a ≤ 4.5 := by
  obtain ⟨g, hg, ng⟩ := toB64_near e hG (small_lt hG1)
  have hg1 := ng.close hG1 (by norm_num)
  have hGb := abs_le.mp hG1
  have hgb : |g / 20| ≤ 1.201 := by rw [abs_le]; constructor <;> linarith
  obtain ⟨p, hp, np⟩ := div64_near e hg val_c20 (by norm_num) (small_lt hgb)
  have hp1 := np.close hgb (by norm_num)
  have hgb' := abs_le.mp hgb
  obtain ⟨q, hq, rfl⟩ := hp
  obtain ⟨z, hz, nz⟩ := (hM.pow10 _ q hq (by rw [abs_le]; constructor <;> linarith)).near
  have hlo : (1 : ℝ) / 20 ≤ 10 ^ (q : ℝ) := by
    have h1 : (10 : ℝ) ^ (-(5 / 4 : ℝ)) ≤ 10 ^ (q : ℝ) :=
      Real.rpow_le_rpow_of_exponent_le (by norm_num) (by linarith)
    refine le_trans ?_ h1
    rw [Real.rpow_neg (by norm_num), one_div]
    apply inv_anti₀ (by positivity)
    have : ((10 : ℝ) ^ (5 / 4 : ℝ)) ^ 4 ≤ 20 ^ 4 := by
      rw [← Real.rpow_natCast, ← Real.rpow_mul (by norm_num)]; norm_num
    exact le_of_pow_le_pow_left₀ (by norm_num) (by norm_num) this
  have hhi : (10 : ℝ) ^ (q : ℝ) ≤ 20 := by
    have h1 : (10 : ℝ) ^ (q : ℝ) ≤ 10 ^ (5 / 4 : ℝ) :=
      Real.rpow_le_rpow_of_exponent_le (by norm_num) (by linarith)
    refine h1.trans ?_
    have : ((10 : ℝ) ^ (5 / 4 : ℝ)) ^ 4 ≤ 20 ^ 4 := by
      rw [← Real.rpow_natCast, ← Real.rpow_mul (by norm_num)]; norm_num
    exact le_of_pow_le_pow_left₀ (by norm_num) (by norm_num) this
  have hη1 := halfSub_le
  have hnz := abs_le.mp nz
  have hz0 : 0 < z := by
    by_contra h
    rw [abs_of_nonpos (not_lt.mp h)] at hnz
    linarith
  rw [abs_of_pos hz0] at hnz
  have hz1 : 0.0495 ≤ z := by linarith
  have hz2 : z ≤ 20.2 := by linarith
  have hs1 : 0.222 ≤ Real.sqrt z := Real.le_sqrt_of_sq_le (by linarith)
  have hs2 : Real.sqrt z ≤ 4.499 := Real.sqrt_le_iff.mpr ⟨by norm_num, by linarith⟩
  have hsb : |Real.sqrt z| ≤ 5 := by rw [abs_of_nonneg (Real.sqrt_nonneg _)]; linarith
  obtain ⟨a, ha, na⟩ := sqrt64_near e hz hz0 (by have := small_lt hsb; rwa [abs_of_nonneg (Real.sqrt_nonneg _)] at this)
  have := na.close hsb (by norm_num)
  exact ⟨a, ha, by linarith, by linarith⟩

/-- A sum and a difference with 1.0 of a number within 25. -/
theorem one_add_sub (e : FpEnv) {x : B64} {v : ℝ} (hx : Val64 x v) (hv : |v| ≤ 25) :
    (∃ y, Val64 (add64 e c1 x) y ∧ |y| ≤ 27 ∧ v + 0.9 ≤ y) ∧ ∃ y, Val64 (sub64 e c1 x) y ∧ |y| ≤ 27 := by
  have hv' := abs_le.mp hv
  have b1 : |1 + v| ≤ 26 := abs_le.mpr ⟨by linarith, by linarith⟩
  have b2 : |1 - v| ≤ 26 := abs_le.mpr ⟨by linarith, by linarith⟩
  obtain ⟨y, hy, ny⟩ := add64_near e val_c1 hx (small_lt b1)
  obtain ⟨z, hz, nz⟩ := sub64_near e val_c1 hx (small_lt b2)
  have cy := ny.close b1 (by norm_num)
  have cz := nz.close b2 (by norm_num)
  exact ⟨⟨y, hy, abs_le.mpr ⟨by linarith, by linarith⟩, by linarith⟩, z, hz, abs_le.mpr ⟨by linarith, by linarith⟩⟩

/-- The normalised coefficients of the peak section (R115, R116) are finite where alpha, A and the cosine are in range. -/
theorem peakSet_finite (e : FpEnv) {al am cs : B64} {l a k : ℝ} (hl : Val64 al l) (ha : Val64 am a) (hk : Val64 cs k)
    (hl0 : -0.017 ≤ l) (hl1 : l ≤ 5.2) (ha0 : 0.22 ≤ a) (ha1 : a ≤ 4.5) (hkv : |k| ≤ 1.01) :
    let fin (x : B64) := isFinite32 (toB32 e (div64 e x (add64 e c1 (div64 e al am)))) = true
    fin (add64 e c1 (mul64 e al am)) ∧ fin (mul64 e cNeg2 cs) ∧ fin (sub64 e c1 (mul64 e al am))
      ∧ fin (sub64 e c1 (div64 e al am)) := by
  have hlb : |l| ≤ 5.2 := abs_le.mpr ⟨by linarith, hl1⟩
  have hla : |l * a| ≤ 24 := by
    rw [abs_mul, abs_of_pos (by linarith : 0 < a)]
    calc |l| * a ≤ 5.2 * 4.5 := mul_le_mul hlb ha1 (by linarith) (by norm_num)
      _ ≤ 24 := by norm_num
  have hoa : -0.1 ≤ l / a ∧ l / a ≤ 24 := by
    constructor
    · rw [le_div_iff₀ (by linarith)]; linarith
    · rw [div_le_iff₀ (by linarith)]; linarith
  have hoab : |l / a| ≤ 24 := abs_le.mpr ⟨by linarith, hoa.2⟩
  have hlab := abs_le.mp hla
  obtain ⟨aA, haA, naA⟩ := mul64_near e hl ha (small_lt hla)
  obtain ⟨oA, hoA, noA⟩ := div64_near e hl ha (by linarith) (small_lt hoab)
  have haAv := naA.close hla (by norm_num)
  have hoAv := noA.close hoab (by norm_num)
  obtain ⟨⟨b0, hb0, bb0, -⟩, b2, hb2, bb2⟩ := one_add_sub e haA (abs_le.mpr ⟨by linarith, by linarith⟩)
  obtain ⟨⟨a0, ha0', ba0, la0⟩, a2, ha2, ba2⟩ := one_add_sub e hoA (abs_le.mpr ⟨by linarith, by linarith⟩)
  have hk' := abs_le.mp hkv
  have hkb : |-2 * k| ≤ 3 := abs_le.mpr ⟨by linarith, by linarith⟩
  obtain ⟨b1, hb1, nb1⟩ := mul64_near e val_cNeg2 hk (small_lt hkb)
  have bb1 : |b1| ≤ 27 := by
    have := nb1.close hkb (by norm_num)
    have := abs_le.mp hkb
    exact abs_le.mpr ⟨by linarith, by linarith⟩
  have ha0p : 0.7 ≤ a0 := by linarith
  have fin : ∀ {x : B64} {v : ℝ}, Val64 x v → |v| ≤ 27 →
      isFinite32 (toB32 e (div64 e x (add64 e c1 (div64 e al am)))) = true := by
    intro x v hx hv
    have hd : |v / a0| ≤ 40 := by
      rw [abs_div, abs_of_pos (by linarith : 0 < a0), div_le_iff₀ (by linarith)]; linarith
    obtain ⟨y, hy, ny⟩ := div64_near e hx ha0' (by linarith) (small_lt hd)
    have hd' := abs_le.mp hd
    have := ny.close hd (by norm_num)
    have hy' : |y| ≤ 41 := abs_le.mpr ⟨by linarith, by linarith⟩
    exact toB32_finite e hy (hy'.trans_lt (by norm_num))
  exact ⟨fin hb0 bb0, fin hb1 bb1, fin hb2 bb2, fin ha2 ba2⟩

/-- R117(d) and R129: every peak coefficient is finite, for a clamped snapshot at every rate of at least 2^-1060. -/
theorem peakCoeffs_finite (hM : MathContract) (e : FpEnv) {c : Config} (hc : c.wf = true) {fs : B64} {S : ℝ}
    (hS : Val64 fs S) (hS0 : 2⁻¹ ^ 1060 ≤ S) {pf pg pq : B32} {F G Q : ℝ} (hF : Val32 e pf F) (hG : Val32 e pg G)
    (hQ : Val32 e pq Q) (hF1 : 20 ≤ F ∧ F ≤ 20000) (hG1 : -24 ≤ G ∧ G ≤ 24) (hQ1 : 0.1 ≤ Q ∧ Q ≤ 10) :
    (peakCoeffs e c fs pf pg pq).degenerate = false := by
  obtain ⟨w, hw, hw0, hw1⟩ := peakAngle_near e hc hS hS0 hF (by linarith) (by linarith)
  obtain ⟨a, ha, ha0, ha1⟩ := peakGain_near hM e hG (abs_le.mpr hG1)
  have hη1 := halfSub_le
  obtain ⟨wq, hwq, rfl⟩ := hw
  obtain ⟨s, hs, ns⟩ := (hM.sin _ wq hwq hw0 (by linarith)).near
  obtain ⟨k, hk, nk⟩ := (hM.cos _ wq hwq hw0 (by have := Real.pi_gt_three; linarith)).near
  have hsin1 := Real.sin_le_one (wq : ℝ)
  have hsin0 : -0.002 ≤ Real.sin wq := by
    by_cases h : (wq : ℝ) ≤ Real.pi
    · have := Real.sin_nonneg_of_nonneg_of_le_pi hw0 h; linarith
    · have h1 : Real.sin wq = -Real.sin (wq - Real.pi) := by rw [Real.sin_sub_pi]; ring
      have h2 := Real.sin_le (x := wq - Real.pi) (by linarith)
      have := Real.pi_gt_d4
      rw [h1]; linarith
  have hcos := abs_le.mp (Real.abs_cos_le_one (wq : ℝ))
  have hsv : -0.003 ≤ s ∧ s ≤ 1.01 := by
    have h := abs_le.mp ns
    rcases abs_cases s with ⟨h', _⟩ | ⟨h', _⟩ <;> rw [h'] at h <;> constructor <;> linarith
  have hkv : |k| ≤ 1.01 := by
    have h := abs_le.mp nk
    rcases abs_cases k with ⟨h', _⟩ | ⟨h', _⟩ <;> rw [h'] at h <;> rw [h'] <;> linarith
  obtain ⟨q, hq, nq⟩ := toB64_near e hQ (small_lt (B := 10) (by rw [abs_of_pos (by linarith)]; exact hQ1.2))
  have hqv := nq.close (B := 10) (by rw [abs_of_pos (by linarith)]; exact hQ1.2) (by norm_num)
  obtain ⟨q2, hq2, nq2⟩ := mul64_near e val_c2 hq (small_lt (B := 21) (by rw [abs_le]; constructor <;> linarith))
  have hq2v := nq2.close (B := 21) (by rw [abs_le]; constructor <;> linarith) (by norm_num)
  have hq20 : 0.199 ≤ q2 := by linarith
  have hal : -0.016 ≤ s / q2 ∧ s / q2 ≤ 5.1 := by
    constructor
    · rw [le_div_iff₀ (by linarith)]; linarith
    · rw [div_le_iff₀ (by linarith)]; linarith
  have halb : |s / q2| ≤ 5.1 := abs_le.mpr ⟨by linarith, hal.2⟩
  obtain ⟨l, hl, nl⟩ := div64_near e hs hq2 (by linarith) (small_lt halb)
  have hlv := nl.close halb (by norm_num)
  have hl1 : -0.017 ≤ l ∧ l ≤ 5.2 := by constructor <;> linarith
  have hlb : |l| ≤ 5.2 := abs_le.mpr ⟨by linarith, hl1.2⟩
  obtain ⟨f0, f1, f2, f3⟩ := peakSet_finite e hl ha hk hl1.1 hl1.2 ha0 ha1 hkv
  simp only [peakCoeffs, Coef.degenerate]
  rw [f0, f1, f2, f3]
  rfl

/-! ### Finiteness of the cut sections -/

/-- The parts of a cut section (R120, R121) from n and 1/Q: every value before its rounding to binary32 is small. -/
theorem cutSet_finite (e : FpEnv) {nB iqB : B64} {n q : ℝ} (hn : Val64 nB n) (hq : Val64 iqB q) (hn0 : 0 ≤ n)
    (hn1 : n ≤ 2 ^ 340) (hq0 : 0 ≤ q) (hq1 : q ≤ 4) :
    let fin (x : B64) := isFinite32 (toB32 e x) = true
    let k := sectionScale e nB iqB
    fin k ∧ fin (mul64 e cNeg2 k) ∧ fin (mul64 e c2 k) ∧ fin (mul64 e (mul64 e c2 k) (sub64 e (mul64 e nB nB) c1))
      ∧ fin (mul64 e (mul64 e c2 k) (sub64 e c1 (mul64 e nB nB))) ∧ fin (sectionA2 e nB iqB) := by
  obtain ⟨M, hMn, hM1, hMlt, hMh⟩ : ∃ M : ℝ, n * n ≤ M ∧ (1000 ≤ M ∧ 4 * n ≤ M) ∧ (∀ x : ℝ, |x| ≤ 1000 * M → |x| < 2 ^ 1023)
      ∧ halfSub * M ≤ 1 / 10000 := by
    refine ⟨2 ^ 680, ?_, ⟨?_, ?_⟩, fun x hx => ?_, ?_⟩
    · calc n * n ≤ 2 ^ 340 * 2 ^ 340 := mul_le_mul hn1 hn1 hn0 (by positivity)
        _ = 2 ^ 680 := by rw [← pow_add]
    · calc (1000 : ℝ) ≤ 2 ^ 10 := by norm_num
        _ ≤ 2 ^ 680 := pow_le_pow_right₀ (by norm_num) (by norm_num)
    · calc 4 * n ≤ 2 ^ 2 * 2 ^ 340 := by linarith
        _ = 2 ^ 342 := by rw [← pow_add]
        _ ≤ 2 ^ 680 := pow_le_pow_right₀ (by norm_num) (by norm_num)
    · calc |x| ≤ 1000 * 2 ^ 680 := hx
        _ ≤ 2 ^ 10 * 2 ^ 680 := mul_le_mul_of_nonneg_right (by norm_num) (by positivity)
        _ = 2 ^ 690 := by rw [← pow_add]
        _ < 2 ^ 1023 := pow_lt_pow_right₀ (by norm_num) (by norm_num)
    · unfold halfSub
      calc (2⁻¹ : ℝ) ^ 1075 * 2 ^ 680 = 2⁻¹ ^ 395 := by
            rw [show (1075 : Nat) = 395 + 680 from rfl, pow_add, mul_assoc, ← mul_pow]; norm_num
        _ ≤ 2⁻¹ ^ 20 := pow_le_pow_of_le_one (by norm_num) (by norm_num) (by norm_num)
        _ ≤ 1 / 10000 := by norm_num
  clear hn1
  have h0 := halfSub_pos
  have h1 := halfSub_le
  have hqn0 : 0 ≤ q * n := mul_nonneg hq0 hn0
  have hqn : q * n ≤ M := (mul_le_mul_of_nonneg_right hq1 hn0).trans hM1.2
  have hnn0 : 0 ≤ n * n := mul_nonneg hn0 hn0
  obtain ⟨p, hp, np⟩ := mul64_near e hq hn (hMlt _ (by rw [abs_of_nonneg hqn0]; linarith))
  obtain ⟨N, hN, nN⟩ := mul64_near e hn hn (hMlt _ (by rw [abs_of_nonneg hnn0]; linarith))
  obtain ⟨p0, pl, pu⟩ := np.rel hqn0
  obtain ⟨N0, Nl, Nu⟩ := nN.rel hnn0
  obtain ⟨s, hs, ns⟩ := add64_near e val_c1 hp (hMlt _ (by rw [abs_of_nonneg (by linarith)]; linarith))
  obtain ⟨s0, sl, su⟩ := ns.rel (by linarith)
  obtain ⟨D, hD, nD⟩ := add64_near e hs hN (hMlt _ (by rw [abs_of_nonneg (by linarith)]; linarith))
  obtain ⟨D0, Dl, Du⟩ := nD.rel (by linarith)
  have hD1 : 0.99 * (1 + p + N) ≤ D := by linarith
  have hDM : D ≤ 3 * M := by linarith
  have hDp : 0 < D := by linarith
  have hr0 : 0 ≤ 1 / D := by positivity
  have hr1 : 1 / D ≤ 2 := by rw [div_le_iff₀ hDp]; linarith
  obtain ⟨v, hv, nv⟩ := div64_near e val_c1 hD hDp.ne' (small_lt (B := 2) (by rwa [abs_of_nonneg hr0]))
  obtain ⟨v0, -, vu⟩ := nv.rel hr0
  have hvD : v * D ≤ 1.01 := by
    have h2 : v * D ≤ (1.001 * (1 / D) + halfSub) * D := mul_le_mul_of_nonneg_right vu D0
    have h3 : (1.001 * (1 / D) + halfSub) * D = 1.001 + halfSub * D := by field_simp
    have h4 : halfSub * D ≤ halfSub * (3 * M) := mul_le_mul_of_nonneg_left hDM h0.le
    linarith
  obtain ⟨Y, hY⟩ : ∃ Y, Y = 1 + p + N := ⟨_, rfl⟩
  have hvY : v * Y ≤ 1.03 := by
    have := mul_le_mul_of_nonneg_left hD1 v0
    rw [← hY] at this
    linarith
  have hvY0 : 0 ≤ v * Y := mul_nonneg v0 (by linarith)
  have hv1 : v ≤ 1.03 := by
    have : v * 1 ≤ v * Y := mul_le_mul_of_nonneg_left (by linarith) v0
    linarith
  have hYM : Y ≤ 3 * M := by linarith
  have hhY : halfSub * Y ≤ 0.01 := by
    have := mul_le_mul_of_nonneg_left hYM h0.le
    linarith
  have ordinary : ∀ {x : B64} {z : ℝ}, Val64 x z → |z| ≤ 10 → isFinite32 (toB32 e x) = true := fun hx hz =>
    toB32_finite e hx (hz.trans_lt (by norm_num))
  obtain ⟨u, hu, nu⟩ := mul64_near e val_c2 hv (small_lt (B := 3) (by rw [abs_of_nonneg (by linarith)]; linarith))
  obtain ⟨u0, -, uu⟩ := nu.rel (by linarith)
  obtain ⟨b, hb, nb⟩ := mul64_near e val_cNeg2 hv (small_lt (B := 3) (by rw [abs_of_nonpos (by linarith)]; linarith))
  have bb := nb.absBound
  rw [abs_of_nonpos (by linarith : -2 * v ≤ 0)] at bb
  have big : ∀ {x : B64} {w : ℝ}, Val64 x w → |w| ≤ 1.02 * Y → isFinite32 (toB32 e (mul64 e (mul64 e c2 (sectionScale e nB iqB)) x)) = true := by
    intro x w hx hw
    have h2 : |u * w| ≤ 5 := by
      rw [abs_mul, abs_of_nonneg u0]
      calc u * |w| ≤ (1.001 * (2 * v) + halfSub) * (1.02 * Y) := mul_le_mul uu hw (abs_nonneg _) (by linarith)
        _ = 2.04204 * (v * Y) + 1.02 * (halfSub * Y) := by ring
        _ ≤ 5 := by linarith
    obtain ⟨z, hz, nz⟩ := mul64_near e hu hx (small_lt h2)
    exact ordinary hz (nz.absBound.trans (by linarith))
  have hN1 : |N - 1| ≤ N + 1 := abs_le.mpr ⟨by linarith, by linarith⟩
  have hN2 : |1 - N| ≤ N + 1 := abs_le.mpr ⟨by linarith, by linarith⟩
  have hp1 : |1 - p| ≤ p + 1 := abs_le.mpr ⟨by linarith, by linarith⟩
  obtain ⟨w, hw, nw⟩ := sub64_near e hN val_c1 (hMlt _ (by linarith))
  obtain ⟨w', hw', nw'⟩ := sub64_near e val_c1 hN (hMlt _ (by linarith))
  obtain ⟨t, ht, nt⟩ := sub64_near e val_c1 hp (hMlt _ (by linarith))
  have wb := nw.absBound
  have wb' := nw'.absBound
  have tb := nt.absBound
  have htN : |t + N| ≤ |t| + N := (abs_add_le t N).trans (by rw [abs_of_nonneg N0])
  obtain ⟨g, hg, ng⟩ := add64_near e ht hN (hMlt _ (by linarith))
  have gb := ng.absBound
  have hvg : |v * g| ≤ 2 := by
    rw [abs_mul, abs_of_nonneg v0]
    calc v * |g| ≤ v * (1.01 * Y) := mul_le_mul_of_nonneg_left (by linarith) v0
      _ = 1.01 * (v * Y) := by ring
      _ ≤ 2 := by linarith
  obtain ⟨z, hz, nz⟩ := mul64_near e hv hg (small_lt hvg)
  refine ⟨ordinary hv (by rw [abs_of_nonneg v0]; linarith), ordinary hb (by linarith),
    ordinary hu (by rw [abs_of_nonneg u0]; linarith), big hw (by linarith), big hw' (by linarith),
    ordinary hz (nz.absBound.trans (by linarith))⟩

theorem val_cPi : ∃ t, Val64 cPi t ∧ 3.1415926 < t ∧ t < 3.1415927 := by
  refine ⟨7074237752028440 / 2 ^ 51, ⟨7074237752028440 / 2 ^ 51, ?_, by norm_num⟩, by norm_num, by norm_num⟩
  rw [show num64 cPi = .fin false 7074237752028440 (-51) from by decide]
  norm_num [Num.toRat?]

/-- f64 of a small natural number is the number. -/
theorem natB64_val {m : Nat} (h0 : 0 < m) (h1 : m ≤ 16) : Val64 (natB64 m) m := by
  have key : ∀ m : Fin 17, 0 < m.val → (num64 (natB64 m.val)).toRat? = some (m.val : ℚ) := by
    intro m hm
    obtain ⟨m, h⟩ := m
    simp only at hm ⊢
    interval_cases m
    · rw [show num64 (natB64 1) = .fin false (1 * 2 ^ 52) (-52) from by decide]; norm_num [Num.toRat?]
    · rw [show num64 (natB64 2) = .fin false (1 * 2 ^ 52) (-51) from by decide]; norm_num [Num.toRat?]
    · rw [show num64 (natB64 3) = .fin false (3 * 2 ^ 51) (-51) from by decide]; norm_num [Num.toRat?]
    · rw [show num64 (natB64 4) = .fin false (1 * 2 ^ 52) (-50) from by decide]; norm_num [Num.toRat?]
    · rw [show num64 (natB64 5) = .fin false (5 * 2 ^ 50) (-50) from by decide]; norm_num [Num.toRat?]
    · rw [show num64 (natB64 6) = .fin false (6 * 2 ^ 50) (-50) from by decide]; norm_num [Num.toRat?]
    · rw [show num64 (natB64 7) = .fin false (7 * 2 ^ 50) (-50) from by decide]; norm_num [Num.toRat?]
    · rw [show num64 (natB64 8) = .fin false (1 * 2 ^ 52) (-49) from by decide]; norm_num [Num.toRat?]
    · rw [show num64 (natB64 9) = .fin false (9 * 2 ^ 49) (-49) from by decide]; norm_num [Num.toRat?]
    · rw [show num64 (natB64 10) = .fin false (10 * 2 ^ 49) (-49) from by decide]; norm_num [Num.toRat?]
    · rw [show num64 (natB64 11) = .fin false (11 * 2 ^ 49) (-49) from by decide]; norm_num [Num.toRat?]
    · rw [show num64 (natB64 12) = .fin false (12 * 2 ^ 49) (-49) from by decide]; norm_num [Num.toRat?]
    · rw [show num64 (natB64 13) = .fin false (13 * 2 ^ 49) (-49) from by decide]; norm_num [Num.toRat?]
    · rw [show num64 (natB64 14) = .fin false (14 * 2 ^ 49) (-49) from by decide]; norm_num [Num.toRat?]
    · rw [show num64 (natB64 15) = .fin false (15 * 2 ^ 49) (-49) from by decide]; norm_num [Num.toRat?]
    · rw [show num64 (natB64 16) = .fin false (1 * 2 ^ 52) (-48) from by decide]; norm_num [Num.toRat?]
  exact ⟨m, key ⟨m, by omega⟩ h0, by norm_num⟩

/-- 1/Q of a Butterworth section (R119). -/
theorem bwq_near (hM : MathContract) (e : FpEnv) {k i : Nat} (hk : k ≤ 4) (hi : i < k) :
    ∃ q, Val64 (div64 e c1 (bwq e (2 * k) i)) q ∧ 0 ≤ q ∧ q ≤ 4 := by
  obtain ⟨t, ht, ht0, ht1⟩ := val_cPi
  have hN := natB64_val (m := 2 * (2 * k)) (by omega) (by omega)
  have hI := natB64_val (m := 2 * i + 1) (by omega) (by omega)
  have hkr : (1 : ℝ) ≤ k := by exact_mod_cast (by omega : 1 ≤ k)
  have hk4 : (k : ℝ) ≤ 4 := by exact_mod_cast hk
  have hir : (i : ℝ) + 1 ≤ k := by exact_mod_cast hi
  have hi0 : (0 : ℝ) ≤ i := by positivity
  push_cast at hN hI
  have hx0 : 0 ≤ (2 * (i : ℝ) + 1) * t := by positivity
  have hx1 : (2 * (i : ℝ) + 1) * t ≤ (2 * k - 1) * 3.1415927 := mul_le_mul (by linarith) ht1.le (by linarith) (by linarith)
  have hxb : |(2 * (i : ℝ) + 1) * t| ≤ 25 := by rw [abs_of_nonneg hx0]; linarith
  obtain ⟨x, hx, nx⟩ := mul64_near e hI ht (small_lt hxb)
  have cx := nx.close hxb (by norm_num)
  have x0 := nx.nonneg hx0
  have hkp : (0 : ℝ) < 2 * (2 * k) := by linarith
  have hy0 : 0 ≤ x / (2 * (2 * k)) := by positivity
  have hy1 : x / (2 * (2 * k)) ≤ 1.375 := by rw [div_le_iff₀ hkp]; linarith
  have hyb : |x / (2 * (2 * (k : ℝ)))| ≤ 1.375 := by rwa [abs_of_nonneg hy0]
  obtain ⟨y, hy, ny⟩ := div64_near e hx hN hkp.ne' (small_lt hyb)
  have cy := ny.close hyb (by norm_num)
  have y0 := ny.nonneg hy0
  obtain ⟨yq, hyq, rfl⟩ := hy
  obtain ⟨c, hc, nc⟩ := (hM.cos _ yq hyq y0 (by have := Real.pi_gt_three; linarith)).near
  have hcos0 : 0.05 ≤ Real.cos yq := by
    have := Real.one_sub_sq_div_two_le_cos (x := (yq : ℝ))
    have h2 : (yq : ℝ) ^ 2 ≤ 1.3752 ^ 2 := pow_le_pow_left₀ y0 (by linarith) 2
    norm_num at h2
    linarith
  have hcos1 := Real.cos_le_one (yq : ℝ)
  have h1 := halfSub_le
  have hc0 : 0.049 ≤ c ∧ c ≤ 1.01 := by
    have h := abs_le.mp nc
    rcases abs_cases c with ⟨h', _⟩ | ⟨h', _⟩ <;> rw [h'] at h <;> constructor <;> linarith
  have hd : |2 * c| ≤ 2.02 := by rw [abs_of_nonneg (by linarith)]; linarith
  obtain ⟨d, hd', nd⟩ := mul64_near e val_c2 hc (small_lt hd)
  have cd := nd.close hd (by norm_num)
  have hdp : 0 < d := by linarith
  have hb : |1 / d| ≤ 11 := by rw [abs_of_pos (by positivity), div_le_iff₀ hdp]; linarith
  obtain ⟨b, hb', nb⟩ := div64_near e val_c1 hd' hdp.ne' (small_lt hb)
  have cb := nb.close hb (by norm_num)
  have hblo : 0.49 ≤ 1 / d := by rw [le_div_iff₀ hdp]; linarith
  have hbp : 0 < b := by linarith
  have hq : |1 / b| ≤ 3 := by rw [abs_of_pos (by positivity), div_le_iff₀ hbp]; linarith
  obtain ⟨q, hq', nq⟩ := div64_near e val_c1 hb' hbp.ne' (small_lt hq)
  have cq := nq.close hq (by norm_num)
  have hq3 := abs_le.mp hq
  exact ⟨q, hq', nq.nonneg (by positivity), by linarith⟩

/-- The default NYQ_RATIO of R6. -/
def nyqDefault : B64 := 0x3FDF5C28F5C28F5C#64

theorem val_nyqDefault : ∃ r, Val64 nyqDefault r ∧ 0.4899999 < r ∧ r < 0.4900001 := by
  refine ⟨8827055269646172 / 2 ^ 54, ⟨8827055269646172 / 2 ^ 54, ?_, by norm_num⟩, by norm_num, by norm_num⟩
  rw [show num64 nyqDefault = .fin false 8827055269646172 (-54) from by decide]
  norm_num [Num.toRat?]

/-- The pre-warped frequency (R120, R121) at a rate from 1.0 to 2^333 under the default clamp: K is above 0 and at most 33. -/
theorem prewarp_near (hM : MathContract) (e : FpEnv) {c : Config} (hc : c.nyqRatio = nyqDefault) {fs : B64} {S : ℝ}
    (hS : Val64 fs S) (hS0 : 1 ≤ S) (hS1 : S ≤ 2 ^ 333) {f : B32} {F : ℝ} (hF : Val32 e f F) (hF0 : 20 ≤ F) (hF1 : F ≤ 20000) :
    ∃ K, Val64 (prewarp e c fs f) K ∧ 2⁻¹ ^ 332 ≤ K ∧ K ≤ 33 := by
  obtain ⟨M, hM1, hSM, hMlt, hMh, hMi⟩ : ∃ M : ℝ, 1 ≤ M ∧ S ≤ M ∧ (∀ x : ℝ, |x| ≤ 1000 * M → |x| < 2 ^ 1023)
      ∧ halfSub * M ≤ 1 / 10000 ∧ (2⁻¹ : ℝ) ^ 332 * M = 2 := by
    refine ⟨2 ^ 333, one_le_pow₀ (by norm_num), hS1, fun x hx => ?_, ?_, ?_⟩
    · calc |x| ≤ 1000 * 2 ^ 333 := hx
        _ ≤ 2 ^ 10 * 2 ^ 333 := mul_le_mul_of_nonneg_right (by norm_num) (by positivity)
        _ = 2 ^ 343 := by rw [← pow_add]
        _ < 2 ^ 1023 := pow_lt_pow_right₀ (by norm_num) (by norm_num)
    · unfold halfSub
      calc (2⁻¹ : ℝ) ^ 1075 * 2 ^ 333 = 2⁻¹ ^ 742 := by
            rw [show (1075 : Nat) = 742 + 333 from rfl, pow_add, mul_assoc, ← mul_pow]; norm_num
        _ ≤ 2⁻¹ ^ 20 := pow_le_pow_of_le_one (by norm_num) (by norm_num) (by norm_num)
        _ ≤ 1 / 10000 := by norm_num
    · rw [show (2 : ℝ) ^ 333 = 2 ^ 332 * 2 from pow_succ _ _, ← mul_assoc, ← mul_pow]; norm_num
  clear hS1
  obtain ⟨Z, hZ⟩ : ∃ Z : ℝ, Z = 2⁻¹ ^ 332 := ⟨_, rfl⟩
  have hZ0 : 0 < Z := by rw [hZ]; positivity
  have hZ1 : Z ≤ 1 / 1000000 := by
    rw [hZ]
    calc (2⁻¹ : ℝ) ^ 332 ≤ 2⁻¹ ^ 20 := pow_le_pow_of_le_one (by norm_num) (by norm_num) (by norm_num)
      _ ≤ 1 / 1000000 := by norm_num
  rw [← hZ] at hMi ⊢
  clear hZ
  have h0 := halfSub_pos
  have h1 := halfSub_le
  obtain ⟨r, hr, hr0, hr1⟩ := val_nyqDefault
  have hp0 : 0 ≤ r * S := by nlinarith
  have hplo : 0.4899999 * S ≤ r * S := mul_le_mul_of_nonneg_right hr0.le (by linarith)
  have hphi : r * S ≤ 0.4900001 * S := mul_le_mul_of_nonneg_right hr1.le (by linarith)
  obtain ⟨L, hL, nL⟩ := mul64_near e (a := c.nyqRatio) (by rw [hc]; exact hr) hS (hMlt _ (by rw [abs_of_nonneg hp0]; linarith))
  have Lu := abs_le.mp nL.err
  rw [abs_of_nonneg hp0] at Lu
  have hFb : |F| ≤ 20000 := by rw [abs_of_nonneg (by linarith)]; exact hF1
  obtain ⟨E, hE, nE⟩ := toB64_near e hF (small_lt hFb)
  have Eu := abs_le.mp nE.err
  rw [abs_of_nonneg (by linarith : 0 ≤ F)] at Eu
  have hv : ∃ v, Val64 (fclamp e c fs f) v ∧ v ≤ 0.4900002 * S ∧ (0.48 * S ≤ v ∨ 19 ≤ v) ∧ v ≤ 20001 := by
    unfold fclamp
    have hlt := lt64_val hL hE
    by_cases h : L < E
    · simp only [hlt.mpr h, if_true]
      exact ⟨L, hL, by linarith, .inl (by linarith), by linarith⟩
    · have : lt64 (mul64 e c.nyqRatio fs) (toB64 e f) = false := by
        by_contra hc
        exact h (hlt.mp (by simpa using hc))
      simp only [this, Bool.false_eq_true, if_false]
      exact ⟨E, hE, by linarith, .inr (by linarith), by linarith⟩
  obtain ⟨v, hv, hvS, hvl, hvb⟩ := hv
  have v0 : 0 < v := by rcases hvl with h | h <;> linarith
  obtain ⟨t, ht, ht0, ht1⟩ := val_cPi
  have hy0 : 0 ≤ t * v := by positivity
  have hyl : 3.1415926 * v ≤ t * v := mul_le_mul_of_nonneg_right ht0.le v0.le
  have hyu : t * v ≤ 3.1415927 * v := mul_le_mul_of_nonneg_right ht1.le v0.le
  have hyb : |t * v| ≤ 100000 := by rw [abs_of_nonneg hy0]; linarith
  obtain ⟨y, hy, ny⟩ := mul64_near e ht hv (small_lt hyb)
  have yu := abs_le.mp ny.err
  rw [abs_of_nonneg hy0] at yu
  have y0 := ny.nonneg hy0
  have hSp : 0 < S := by linarith
  have hx0 : 0 ≤ y / S := by positivity
  have hxu : y / S ≤ 1.53939 := by rw [div_le_iff₀ hSp]; linarith
  have hxb : |y / S| ≤ 1.53939 := by rwa [abs_of_nonneg hx0]
  have hxl : 3 * Z ≤ y / S := by
    rw [le_div_iff₀ hSp]
    have h2 : Z * S ≤ Z * M := mul_le_mul_of_nonneg_left hSM hZ0.le
    rw [hMi] at h2
    have h3 : Z * S ≤ 1 / 1000000 * S := mul_le_mul_of_nonneg_right hZ1 hSp.le
    rcases hvl with h | h <;> linarith
  obtain ⟨x, hx, nx⟩ := div64_near e hy hS hSp.ne' (small_lt hxb)
  have xu := abs_le.mp nx.err
  rw [abs_of_nonneg hx0] at xu
  have hhZ : halfSub ≤ Z / 1000 := by
    have h2 : halfSub * M ≤ Z / 1000 * M := by linarith
    exact le_of_mul_le_mul_right h2 (by linarith)
  have hx1 : 2 * Z ≤ x := by linarith
  have hx2 : x ≤ 1.5394 := by linarith
  obtain ⟨xq, hxq, rfl⟩ := hx
  have hpi := Real.pi_gt_d6
  obtain ⟨K, hK, nK⟩ := (hM.tan _ xq hxq (by linarith) (by linarith)).near
  have htl : (xq : ℝ) < Real.tan xq := Real.lt_tan (by linarith) (by linarith)
  have htu : Real.tan xq ≤ 32.5 := by
    have h2 := Real.lt_tan (x := Real.pi / 2 - xq) (by linarith) (by linarith)
    rw [Real.tan_pi_div_two_sub] at h2
    have ht : 0 < Real.tan xq := by linarith
    rw [inv_eq_one_div, lt_div_iff₀ ht] at h2
    have : 0.03139 * Real.tan xq ≤ (Real.pi / 2 - xq) * Real.tan xq := mul_le_mul_of_nonneg_right (by linarith) ht.le
    linarith
  refine ⟨K, hK, ?_, ?_⟩
  · have h := abs_le.mp nK
    rcases abs_cases K with ⟨h', _⟩ | ⟨h', _⟩ <;> rw [h'] at h <;> linarith
  · have h := abs_le.mp nK
    rcases abs_cases K with ⟨h', _⟩ | ⟨h', _⟩ <;> rw [h'] at h <;> linarith

/-- R129: every cut section is finite, for a clamped cutoff at a rate from 1.0 to 2^333 under the default clamp. -/
theorem cutSections_finite (hM : MathContract) (e : FpEnv) {c : Config} (hc : c.nyqRatio = nyqDefault) {fs : B64} {S : ℝ}
    (hS : Val64 fs S) (hS0 : 1 ≤ S) (hS1 : S ≤ 2 ^ 333) {f : B32} {F : ℝ} (hF : Val32 e f F) (hF0 : 20 ≤ F) (hF1 : F ≤ 20000)
    {k i : Nat} (hk : k ≤ 4) (hi : i < k) :
    (hpSection e c fs f (bwq e (2 * k) i)).degenerate = false ∧ (lpSection e c fs f (bwq e (2 * k) i)).degenerate = false := by
  obtain ⟨K, hK, hK0, hK1⟩ := prewarp_near hM e hc hS hS0 hS1 hF hF0 hF1
  obtain ⟨q, hq, hq0, hq1⟩ := bwq_near hM e hk hi
  have hKp : 0 < K := lt_of_lt_of_le (by positivity) hK0
  have hr0 : 0 ≤ 1 / K := by positivity
  have hr1 : 1 / K ≤ 2 ^ 332 := by
    rw [div_le_iff₀ hKp]
    calc (1 : ℝ) = 2 ^ 332 * 2⁻¹ ^ 332 := by rw [← mul_pow]; norm_num
      _ ≤ 2 ^ 332 * K := mul_le_mul_of_nonneg_left hK0 (by positivity)
  obtain ⟨n, hn, nn⟩ := div64_near e val_c1 hK hKp.ne' (by
    rw [abs_of_nonneg hr0]; exact hr1.trans_lt (pow_lt_pow_right₀ (by norm_num) (by norm_num)))
  obtain ⟨n0, -, nu⟩ := nn.rel hr0
  have hn1 : n ≤ 2 ^ 340 := by
    have h1 := halfSub_le
    have h2 : (1 : ℝ) ≤ 2 ^ 332 := one_le_pow₀ (by norm_num)
    have h3 : (2 : ℝ) ^ 340 = 256 * 2 ^ 332 := by rw [show (340 : Nat) = 332 + 8 from rfl, pow_add, mul_comm]; congr 1; norm_num
    rw [h3]
    clear h3
    generalize (2 : ℝ) ^ 332 = T at *
    linarith
  have big : (33 : ℝ) ≤ 2 ^ 340 := by
    calc (33 : ℝ) ≤ 2 ^ 6 := by norm_num
      _ ≤ 2 ^ 340 := pow_le_pow_right₀ (by norm_num) (by norm_num)
  obtain ⟨a1, a2, a3, a4, a5, a6⟩ := cutSet_finite e hK hq hKp.le (hK1.trans big) hq0 hq1
  obtain ⟨b1, b2, b3, b4, b5, b6⟩ := cutSet_finite e hn hq n0 hn1 hq0 hq1
  constructor
  · simp only [hpSection, Coef.degenerate]
    rw [a1, a2, a4, a6]
    rfl
  · simp only [lpSection, Coef.degenerate]
    rw [b1, b3, b5, b6]
    rfl

/-! ### The contract of the configuration functions -/

/-- No binary64 is so near pi/2 that its tangent is large. -/
theorem tan_bound {x : B64} {q : ℚ} (hx : (num64 x).toRat? = some q) (h0 : 0 ≤ (q : ℝ)) (h1 : (q : ℝ) ≤ 13 / 8) :
    |Real.tan q| < 2 ^ 1023 := by
  obtain ⟨s, m, k, hn, hq⟩ := toRat?_fin hx
  have hm := (unpack64_fin x hn).2.1
  have hpg := Real.pi_gt_d20
  have hpl := Real.pi_lt_d20
  have hd : 1 / 2 ^ 60 ≤ |Real.pi / 2 - q| := by
    by_cases hq1 : (q : ℝ) < 1
    · rw [abs_of_pos (by linarith)]; norm_num; linarith
    · -- q is a multiple of 2^-52
      have hq1 : (1 : ℝ) ≤ q := not_lt.mp hq1
      obtain ⟨N, hN⟩ : ∃ N : Int, (q : ℝ) = N / 2 ^ 52 := by
        have hs : s = false := by
          by_contra hc
          have hc : s = true := by simpa using hc
          have : (0 : ℚ) ≤ m * 2 ^ k := by positivity
          have h2 : (q : ℝ) = -(m * 2 ^ k : ℚ) := by rw [hq, hc]; simp [sgn]
          have : (0 : ℝ) ≤ (m * 2 ^ k : ℚ) := by exact_mod_cast this
          linarith
        have hqv : (q : ℝ) = m * 2 ^ k := by rw [hq, hs]; simp [sgn]
        have hk : -52 ≤ k := by
          by_contra hc
          have hk : k ≤ -53 := by omega
          have hm' : (m : ℝ) < 2 ^ 53 := by exact_mod_cast hm
          have : (m : ℝ) * 2 ^ k < 1 := by
            calc (m : ℝ) * 2 ^ k ≤ m * 2 ^ (-53 : ℤ) := mul_le_mul_of_nonneg_left (zpow_le_zpow_right₀ (by norm_num) hk) (by positivity)
              _ < 2 ^ 53 * 2 ^ (-53 : ℤ) := mul_lt_mul_of_pos_right hm' (by positivity)
              _ = 1 := by norm_num
          linarith
        refine ⟨m * 2 ^ (k + 52).toNat, ?_⟩
        rw [hqv]
        have : (2 : ℝ) ^ k = 2 ^ (k + 52).toNat / 2 ^ 52 := by
          rw [eq_div_iff (by positivity), ← zpow_natCast (2 : ℝ) 52, ← zpow_natCast, ← zpow_add₀ (by norm_num)]
          congr 1; push_cast; omega
        rw [this]; push_cast; ring
      have hint : N ≤ 7074237752028440 ∨ 7074237752028441 ≤ N := by omega
      rw [hN]
      rcases hint with h | h
      · have h' : (N : ℝ) ≤ 7074237752028440 := by exact_mod_cast h
        have : 1 / 2 ^ 60 ≤ Real.pi / 2 - N / 2 ^ 52 := by norm_num; linarith
        exact this.trans (le_abs_self _)
      · have h' : (7074237752028441 : ℝ) ≤ N := by exact_mod_cast h
        have : 1 / 2 ^ 60 ≤ -(Real.pi / 2 - N / 2 ^ 52) := by norm_num; linarith
        exact this.trans (neg_le_abs _)
  have hcos : 1 / 2 ^ 61 ≤ |Real.cos q| := by
    have e1 : |Real.cos q| = Real.sin |Real.pi / 2 - q| := by
      rw [← Real.sin_pi_div_two_sub]
      rcases abs_cases (Real.pi / 2 - (q : ℝ)) with ⟨h, h'⟩ | ⟨h, h'⟩
      · rw [h, abs_of_nonneg (Real.sin_nonneg_of_nonneg_of_le_pi h' (by linarith))]
      · rw [h, Real.sin_neg, abs_of_nonpos]
        have := Real.sin_nonneg_of_nonneg_of_le_pi (x := -(Real.pi / 2 - q)) (by linarith) (by linarith)
        rw [Real.sin_neg] at this; linarith
    rw [e1]
    have hle : |Real.pi / 2 - (q : ℝ)| ≤ Real.pi / 2 := abs_le.mpr ⟨by linarith, by linarith⟩
    have h2 := Real.mul_le_sin (abs_nonneg (Real.pi / 2 - (q : ℝ))) hle
    have h3 : 1 / 2 ≤ 2 / Real.pi := by rw [le_div_iff₀ (by linarith)]; linarith
    calc (1 : ℝ) / 2 ^ 61 = 1 / 2 * (1 / 2 ^ 60) := by norm_num
      _ ≤ 2 / Real.pi * |Real.pi / 2 - q| := mul_le_mul h3 hd (by positivity) (by positivity)
      _ ≤ _ := h2
  rw [Real.tan_eq_sin_div_cos, abs_div]
  have hc0 : 0 < |Real.cos q| := lt_of_lt_of_le (by positivity) hcos
  rw [div_lt_iff₀ hc0]
  calc |Real.sin q| ≤ 1 := Real.abs_sin_le_one _
    _ < 2 ^ 62 * (1 / 2 ^ 61) := by norm_num
    _ ≤ 2 ^ 1023 * |Real.cos q| := mul_le_mul (pow_le_pow_right₀ (by norm_num) (by norm_num)) hcos (by positivity) (by positivity)

/-- Functions that keep R13's contract exist, with POW10 of a zero 1.0 (R117(a)): the contract is no empty premise. -/
theorem mathContractOf_satisfiable : ∃ sin cos tan pow log, MathContractOf sin cos tan pow log
    ∧ pow 0#64 = c1 ∧ pow 0x8000000000000000#64 = c1 := by
  -- a function that rounds a real function wherever that is below 2^1023
  have pick : ∀ g : ℝ → ℝ, ∃ f : B64 → B64, ∀ x q, (num64 x).toRat? = some q → |g q| < 2 ^ 1023 → WithinUlp (f x) (g q) := by
    intro g
    have : ∀ x : B64, ∃ y, ∀ q, (num64 x).toRat? = some q → |g q| < 2 ^ 1023 → WithinUlp y (g q) := by
      intro x
      cases hx : (num64 x).toRat? with
      | none => exact ⟨0, fun q h => by cases h⟩
      | some q =>
        by_cases h : |g q| < 2 ^ 1023
        · obtain ⟨y, hy⟩ := exists_withinUlp _ h
          exact ⟨y, fun p hp _ => by cases hp; exact hy⟩
        · exact ⟨0, fun p hp hb => by cases hp; exact absurd hb h⟩
    exact ⟨fun x => (this x).choose, fun x => (this x).choose_spec⟩
  obtain ⟨sin, hsin⟩ := pick Real.sin
  obtain ⟨cos, hcos⟩ := pick Real.cos
  obtain ⟨tan, htan⟩ := pick Real.tan
  obtain ⟨pow, hpow⟩ := pick fun x => (10 : ℝ) ^ x
  obtain ⟨log, hlog⟩ := pick fun x => Real.log x / Real.log 10
  refine ⟨sin, cos, tan, fun x => if x = 0#64 ∨ x = 0x8000000000000000#64 then c1 else pow x, log, ⟨?_, ?_, ?_, ?_, ?_⟩,
    by simp, by simp⟩
  · exact fun x q hx _ _ => hsin x q hx (small_lt (B := 1) (Real.abs_sin_le_one _))
  · exact fun x q hx _ _ => hcos x q hx (small_lt (B := 1) (Real.abs_cos_le_one _))
  · exact fun x q hx h0 h1 => htan x q hx (tan_bound hx h0 h1)
  · intro x q hx hq
    by_cases hz : x = 0#64 ∨ x = 0x8000000000000000#64
    · have hq0 : q = 0 := by
        rcases hz with rfl | rfl
        · rw [show num64 0#64 = .fin false 0 (-1074) from by decide] at hx; simpa [Num.toRat?] using hx.symm
        · rw [show num64 0x8000000000000000#64 = .fin true 0 (-1074) from by decide] at hx; simpa [Num.toRat?] using hx.symm
      simp only [hz, if_true, hq0]
      obtain ⟨q1, h1, h2⟩ := val_c1
      refine ⟨q1, h1, ?_⟩
      rw [h2]; simp only [Rat.cast_zero, Real.rpow_zero, sub_self, abs_zero]
      unfold ulp64; positivity
    · simp only [hz, if_false]
      refine hpow x q hx (small_lt (B := 100) ?_)
      rw [abs_of_pos (by positivity)]
      calc (10 : ℝ) ^ (q : ℝ) ≤ 10 ^ (2 : ℝ) := Real.rpow_le_rpow_of_exponent_le (by norm_num) (abs_le.mp hq).2
        _ = 100 := by norm_num
  · intro x q hx hq
    refine hlog x q hx (small_lt (B := 2000) ?_)
    have hu := Val64.lt ⟨q, hx, rfl⟩
    have hl : (2 : ℝ) ^ (-1074 : ℤ) ≤ q := by
      obtain ⟨s, m, k, hn, hv⟩ := Val64.form ⟨q, hx, rfl⟩
      have hk := (unpack64_fin x hn).2.2
      rw [show Fmt.b64.emin = -1074 from by decide] at hk
      have hm : m ≠ 0 := by rintro rfl; rw [hv] at hq; simp at hq
      have hm1 : (1 : ℝ) ≤ m := by exact_mod_cast (by omega : 1 ≤ m)
      have := abs_sgn_mul s (y := m * 2 ^ k) (by positivity)
      rw [← hv, abs_of_pos hq] at this
      rw [this]
      calc (2 : ℝ) ^ (-1074 : ℤ) ≤ 2 ^ k := zpow_le_zpow_right₀ (by norm_num) hk
        _ = 1 * 2 ^ k := (one_mul _).symm
        _ ≤ m * 2 ^ k := mul_le_mul_of_nonneg_right hm1 (by positivity)
    have l1 := Real.log_lt_log hq hu
    have l2 := Real.log_le_log (by positivity) hl
    rw [Real.log_pow] at l1
    rw [Real.log_zpow] at l2
    have h2 : 0 < Real.log 2 := Real.log_pos (by norm_num)
    have h10 : Real.log 2 < Real.log 10 := Real.log_lt_log (by norm_num) (by norm_num)
    push_cast at l1 l2
    rw [abs_div, abs_of_pos (by linarith : 0 < Real.log 10), div_le_iff₀ (by linarith)]
    exact abs_le.mpr ⟨by linarith, by linarith⟩

end Sys2Proof.Machine
end

