-- ==== Sys2Proof/Laws/Decode.lean ====
section
/-! SUPPORT. The fields of a packed command word (30_encoding.md R80), and what a word with given fields decodes to. -/

namespace Sys2Proof

@[simp] theorem opcField_packWord (opc : BitVec 8) (ch : BitVec 2) (pid imm : BitVec 8) :
    opcField (packWord opc ch pid imm) = opc := by
  ext i hi
  simp only [opcField, packWord, BitVec.getElem_extractLsb', BitVec.getLsbD_append]
  simp [show ¬ 24 + i < 8 by omega, show ¬ 24 + i - 8 < 8 by omega, show ¬ 24 + i - 8 - 8 < 6 by omega,
    show ¬ 24 + i - 8 - 8 - 6 < 2 by omega, show 24 + i - 8 - 8 - 6 - 2 = i by omega, BitVec.getLsbD_eq_getElem hi]

@[simp] theorem chField_packWord (opc : BitVec 8) (ch : BitVec 2) (pid imm : BitVec 8) :
    chField (packWord opc ch pid imm) = ch := by
  ext i hi
  simp only [chField, packWord, BitVec.getElem_extractLsb', BitVec.getLsbD_append]
  simp [show ¬ 22 + i < 8 by omega, show ¬ 22 + i - 8 < 8 by omega, show ¬ 22 + i - 8 - 8 < 6 by omega,
    show 22 + i - 8 - 8 - 6 = i by omega, BitVec.getLsbD_eq_getElem hi]
  omega

@[simp] theorem rsvField_packWord (opc : BitVec 8) (ch : BitVec 2) (pid imm : BitVec 8) :
    rsvField (packWord opc ch pid imm) = 0#6 := by
  ext i hi
  simp only [rsvField, packWord, BitVec.getElem_extractLsb', BitVec.getLsbD_append]
  simp [show ¬ 16 + i < 8 by omega, show ¬ 16 + i - 8 < 8 by omega, show 16 + i - 8 - 8 < 6 by omega]

@[simp] theorem pidField_packWord (opc : BitVec 8) (ch : BitVec 2) (pid imm : BitVec 8) :
    pidField (packWord opc ch pid imm) = pid := by
  ext i hi
  simp only [pidField, packWord, BitVec.getElem_extractLsb', BitVec.getLsbD_append]
  simp [show ¬ 8 + i < 8 by omega, show 8 + i - 8 = i by omega, BitVec.getLsbD_eq_getElem hi]
  omega

@[simp] theorem immField_packWord (opc : BitVec 8) (ch : BitVec 2) (pid imm : BitVec 8) :
    immField (packWord opc ch pid imm) = imm := by
  ext i hi
  simp only [immField, packWord, BitVec.getElem_extractLsb', BitVec.getLsbD_append]
  simp [hi]

/-- A word is packed from its fields when its reserved field is zero. -/
theorem packWord_fields (w : U32) (h : rsvField w = 0#6) :
    packWord (opcField w) (chField w) (pidField w) (immField w) = w := by
  have hr : ∀ k, k < 6 → w.getLsbD (16 + k) = false := by
    intro k hk
    have := congrArg (fun b => b.getLsbD k) h
    simpa [rsvField, BitVec.getLsbD_extractLsb', hk] using this
  apply BitVec.eq_of_getLsbD_eq
  intro i hi
  simp only [packWord, opcField, chField, pidField, immField, BitVec.getLsbD_append, BitVec.getLsbD_extractLsb']
  by_cases h1 : i < 8
  · simp [h1]
  · by_cases h2 : i - 8 < 8
    · simp [h1, h2, show 8 + (i - 8) = i by omega]
    · by_cases h3 : i - 8 - 8 < 6
      · have := hr (i - 16) (by omega)
        rw [show 16 + (i - 16) = i by omega] at this
        simp [h1, h2, h3, this]
      · by_cases h4 : i - 8 - 8 - 6 < 2
        · simp [h1, h2, h3, h4, show 22 + (i - 8 - 8 - 6) = i by omega]
        · simp [h1, h2, h3, h4, show i - 8 - 8 - 6 - 2 < 8 by omega, show 24 + (i - 8 - 8 - 6 - 2) = i by omega]

@[simp] theorem Opcode.ofByte?_byte (o : Opcode) : Opcode.ofByte? o.byte = some o := by cases o <;> decide

theorem Opcode.byte_of_ofByte? {b : BitVec 8} {o : Opcode} (h : Opcode.ofByte? b = some o) : o.byte = b := by
  have := List.find?_some h
  simpa using this

@[simp] theorem ChanSel.ofBits?_bits (c : ChanSel) : ChanSel.ofBits? c.bits = some c := by cases c <;> decide
@[simp] theorem Chan.ofBits?_bits (c : Chan) : Chan.ofBits? c.bits = some c := by cases c <;> decide
@[simp] theorem MetaSel.ofByte?_byte (m : MetaSel) : MetaSel.ofByte? m.byte = some m := by cases m <;> decide
@[simp] theorem OccSel.ofByte?_byte (m : OccSel) : OccSel.ofByte? m.byte = some m := by cases m <;> decide

theorem ChanSel.bits_of_ofBits? {b : BitVec 2} {c : ChanSel} (h : ChanSel.ofBits? b = some c) : c.bits = b := by
  unfold ChanSel.ofBits? at h; split_ifs at h <;> simp_all <;> subst h <;> rfl
theorem Chan.bits_of_ofBits? {b : BitVec 2} {c : Chan} (h : Chan.ofBits? b = some c) : c.bits = b := by
  unfold Chan.ofBits? at h; split_ifs at h <;> simp_all <;> subst h <;> rfl
theorem MetaSel.byte_of_ofByte? {b : BitVec 8} {c : MetaSel} (h : MetaSel.ofByte? b = some c) : c.byte = b := by
  unfold MetaSel.ofByte? at h; split_ifs at h <;> simp_all <;> subst h <;> rfl
theorem OccSel.byte_of_ofByte? {b : BitVec 8} {c : OccSel} (h : OccSel.ofByte? b = some c) : c.byte = b := by
  unfold OccSel.ofByte? at h; split_ifs at h <;> simp_all <;> subst h <;> rfl

/-- The fields of a word decide its decoding (R88): a word decodes exactly when its five fields are accepted. -/
theorem decode_ok_iff (w : U32) (p : Port) (i : Instr) :
    decode w p = .ok i ↔ ∃ o, Opcode.ofByte? (opcField w) = some o ∧ o.admits p = true ∧ rsvField w = 0#6
      ∧ o.acceptsCh (chField w) = true ∧ (o.takesPid = true ∨ pidField w = 0#8) ∧ o.acceptsImm (immField w) = true
      ∧ o.build p (chField w) (pidField w) (immField w) = i := by
  unfold decode
  cases h : Opcode.ofByte? (opcField w) with
  | none => simp
  | some o =>
    simp only [Option.some.injEq, exists_eq_left']
    cases h1 : o.admits p <;> cases h2 : o.acceptsCh (chField w) <;> cases h3 : o.takesPid <;>
      cases h4 : o.acceptsImm (immField w) <;> by_cases h5 : rsvField w = 0#6 <;> by_cases h6 : pidField w = 0#8 <;>
      simp_all

/-- A word is its five fields (R80). -/
theorem fields_append (w : U32) :
    opcField w ++ chField w ++ rsvField w ++ pidField w ++ immField w = w := by
  apply BitVec.eq_of_getLsbD_eq
  intro i hi
  simp only [opcField, chField, pidField, immField, rsvField, BitVec.getLsbD_append, BitVec.getLsbD_extractLsb']
  by_cases h1 : i < 8
  · simp [h1]
  · by_cases h2 : i - 8 < 8
    · simp [h1, h2, show 8 + (i - 8) = i by omega]
    · by_cases h3 : i - 8 - 8 < 6
      · simp [h1, h2, h3, show 16 + (i - 8 - 8) = i by omega]
      · by_cases h4 : i - 8 - 8 - 6 < 2
        · simp [h1, h2, h3, h4, show 22 + (i - 8 - 8 - 6) = i by omega]
        · simp [h1, h2, h3, h4, show i - 8 - 8 - 6 - 2 < 8 by omega, show 24 + (i - 8 - 8 - 6 - 2) = i by omega]

theorem append_inj {n m : Nat} {a c : BitVec n} {b d : BitVec m} : a ++ b = c ++ d ↔ a = c ∧ b = d := by
  constructor
  · intro h
    constructor
    · apply BitVec.eq_of_getLsbD_eq
      intro i hi
      have := congrArg (fun x => x.getLsbD (m + i)) h
      simpa [BitVec.getLsbD_append] using this
    · apply BitVec.eq_of_getLsbD_eq
      intro i hi
      have := congrArg (fun x => x.getLsbD i) h
      simpa [BitVec.getLsbD_append, hi] using this
  · rintro ⟨rfl, rfl⟩; rfl

/-- A mask and a pattern, field by field (R87). -/
theorem and_fields_eq (w : U32) (a a' : BitVec 8) (b b' : BitVec 2) (c c' : BitVec 6) (d d' e e' : BitVec 8) :
    w &&& (a ++ b ++ c ++ d ++ e) = a' ++ b' ++ c' ++ d' ++ e' ↔
      opcField w &&& a = a' ∧ chField w &&& b = b' ∧ rsvField w &&& c = c' ∧ pidField w &&& d = d'
        ∧ immField w &&& e = e' := by
  conv_lhs => rw [← fields_append w]
  have h (n m : Nat) (x y : BitVec n) (u v : BitVec m) : (x ++ u) &&& (y ++ v) = (x &&& y) ++ (u &&& v) := by
    apply BitVec.eq_of_getLsbD_eq
    intro i hi
    simp only [BitVec.getLsbD_and, BitVec.getLsbD_append]
    split <;> rfl
  rw [h, h, h, h, append_inj, append_inj, append_inj, append_inj]
  simp only [and_assoc]

/-- Accepted fields decode. -/
theorem decode_packWord {o : Opcode} {c : BitVec 2} {pid imm : BitVec 8} {p : Port} {i : Instr}
    (h1 : o.admits p = true) (h2 : o.acceptsCh c = true) (h3 : o.takesPid = true ∨ pid = 0#8)
    (h4 : o.acceptsImm imm = true) (h5 : o.build p c pid imm = i) : decode (packWord o.byte c pid imm) p = .ok i := by
  rw [decode_ok_iff]; exact ⟨o, by simp, h1, by simp, by simpa, by simpa, by simpa, by simpa⟩

end Sys2Proof
end

