-- ==== Sys2Proof/Laws/State.lean ====
section
/-! SUPPORT. What each named update of State leaves alone, one lemma per field, and what it writes. No later proof unfolds
a record update. -/

namespace Sys2Proof.Machine


/-! ### Ports -/

@[simp] theorem setPort_cfg (s : State) (p : Port) (r : PortRegs) : (s.setPort p r).cfg = s.cfg := by cases p <;> rfl
@[simp] theorem setPort_sr (s : State) (p : Port) (r : PortRegs) : (s.setPort p r).sr = s.sr := by cases p <;> rfl
@[simp] theorem setPort_gen (s : State) (p : Port) (r : PortRegs) : (s.setPort p r).gen = s.gen := by cases p <;> rfl
@[simp] theorem setPort_prepared (s : State) (p : Port) (r : PortRegs) : (s.setPort p r).prepared = s.prepared := by cases p <;> rfl
@[simp] theorem setPort_halted (s : State) (p : Port) (r : PortRegs) : (s.setPort p r).halted = s.halted := by cases p <;> rfl
@[simp] theorem setPort_fs (s : State) (p : Port) (r : PortRegs) : (s.setPort p r).fs = s.fs := by cases p <;> rfl
@[simp] theorem setPort_maxblk (s : State) (p : Port) (r : PortRegs) : (s.setPort p r).maxblk = s.maxblk := by cases p <;> rfl
@[simp] theorem setPort_snap (s : State) (p : Port) (r : PortRegs) : (s.setPort p r).snap = s.snap := by cases p <;> rfl
@[simp] theorem setPort_bank (s : State) (p : Port) (r : PortRegs) : (s.setPort p r).bank = s.bank := by cases p <;> rfl
@[simp] theorem setPort_hist (s : State) (p : Port) (r : PortRegs) : (s.setPort p r).hist = s.hist := by cases p <;> rfl
@[simp] theorem setPort_buf (s : State) (p : Port) (r : PortRegs) : (s.setPort p r).buf = s.buf := by cases p <;> rfl
@[simp] theorem setPort_relay (s : State) (p : Port) (r : PortRegs) : (s.setPort p r).relay = s.relay := by cases p <;> rfl
@[simp] theorem setPort_spec (s : State) (p : Port) (r : PortRegs) : (s.setPort p r).spec = s.spec := by cases p <;> rfl
@[simp] theorem setPort_fstat (s : State) (p : Port) (r : PortRegs) : (s.setPort p r).fstat = s.fstat := by cases p <;> rfl
@[simp] theorem setPort_first (s : State) (p : Port) (r : PortRegs) : (s.setPort p r).first = s.first := by cases p <;> rfl
@[simp] theorem setPort_draws (s : State) (p : Port) (r : PortRegs) : (s.setPort p r).draws = s.draws := by cases p <;> rfl
@[simp] theorem setPort_sched (s : State) (p : Port) (r : PortRegs) : (s.setPort p r).sched = s.sched := by cases p <;> rfl
@[simp] theorem portRegs_setPort_self (s : State) (p : Port) (r : PortRegs) : (s.setPort p r).portRegs p = r := by
  cases p <;> rfl
theorem portRegs_setPort_ne (s : State) {p q : Port} (r : PortRegs) (h : q ≠ p) :
    (s.setPort p r).portRegs q = s.portRegs q := by
  cases p <;> cases q <;> first | rfl | exact absurd rfl h
@[simp] theorem setPort_setPort (s : State) (p : Port) (r r' : PortRegs) :
    (s.setPort p r).setPort p r' = s.setPort p r' := by cases p <;> rfl
@[simp] theorem setPort_portRegs (s : State) (p : Port) : s.setPort p (s.portRegs p) = s := by cases p <;> rfl

@[simp] theorem complete_cfg (p : Port) (s : State) : (complete p s).cfg = s.cfg := setPort_cfg _ _ _
@[simp] theorem complete_sr (p : Port) (s : State) : (complete p s).sr = s.sr := setPort_sr _ _ _
@[simp] theorem complete_gen (p : Port) (s : State) : (complete p s).gen = s.gen := setPort_gen _ _ _
@[simp] theorem complete_prepared (p : Port) (s : State) : (complete p s).prepared = s.prepared := setPort_prepared _ _ _
@[simp] theorem complete_halted (p : Port) (s : State) : (complete p s).halted = s.halted := setPort_halted _ _ _
@[simp] theorem complete_fs (p : Port) (s : State) : (complete p s).fs = s.fs := setPort_fs _ _ _
@[simp] theorem complete_maxblk (p : Port) (s : State) : (complete p s).maxblk = s.maxblk := setPort_maxblk _ _ _
@[simp] theorem complete_snap (p : Port) (s : State) : (complete p s).snap = s.snap := setPort_snap _ _ _
@[simp] theorem complete_bank (p : Port) (s : State) : (complete p s).bank = s.bank := setPort_bank _ _ _
@[simp] theorem complete_hist (p : Port) (s : State) : (complete p s).hist = s.hist := setPort_hist _ _ _
@[simp] theorem complete_buf (p : Port) (s : State) : (complete p s).buf = s.buf := setPort_buf _ _ _
@[simp] theorem complete_relay (p : Port) (s : State) : (complete p s).relay = s.relay := setPort_relay _ _ _
@[simp] theorem complete_spec (p : Port) (s : State) : (complete p s).spec = s.spec := setPort_spec _ _ _
@[simp] theorem complete_fstat (p : Port) (s : State) : (complete p s).fstat = s.fstat := setPort_fstat _ _ _
@[simp] theorem complete_first (p : Port) (s : State) : (complete p s).first = s.first := setPort_first _ _ _
@[simp] theorem complete_draws (p : Port) (s : State) : (complete p s).draws = s.draws := setPort_draws _ _ _
@[simp] theorem complete_sched (p : Port) (s : State) : (complete p s).sched = s.sched := setPort_sched _ _ _
@[simp] theorem completeWith_cfg (p : Port) (v : U64) (s : State) : (completeWith p v s).cfg = s.cfg := setPort_cfg _ _ _
@[simp] theorem completeWith_sr (p : Port) (v : U64) (s : State) : (completeWith p v s).sr = s.sr := setPort_sr _ _ _
@[simp] theorem completeWith_gen (p : Port) (v : U64) (s : State) : (completeWith p v s).gen = s.gen := setPort_gen _ _ _
@[simp] theorem completeWith_prepared (p : Port) (v : U64) (s : State) : (completeWith p v s).prepared = s.prepared := setPort_prepared _ _ _
@[simp] theorem completeWith_halted (p : Port) (v : U64) (s : State) : (completeWith p v s).halted = s.halted := setPort_halted _ _ _
@[simp] theorem completeWith_fs (p : Port) (v : U64) (s : State) : (completeWith p v s).fs = s.fs := setPort_fs _ _ _
@[simp] theorem completeWith_maxblk (p : Port) (v : U64) (s : State) : (completeWith p v s).maxblk = s.maxblk := setPort_maxblk _ _ _
@[simp] theorem completeWith_snap (p : Port) (v : U64) (s : State) : (completeWith p v s).snap = s.snap := setPort_snap _ _ _
@[simp] theorem completeWith_bank (p : Port) (v : U64) (s : State) : (completeWith p v s).bank = s.bank := setPort_bank _ _ _
@[simp] theorem completeWith_hist (p : Port) (v : U64) (s : State) : (completeWith p v s).hist = s.hist := setPort_hist _ _ _
@[simp] theorem completeWith_buf (p : Port) (v : U64) (s : State) : (completeWith p v s).buf = s.buf := setPort_buf _ _ _
@[simp] theorem completeWith_relay (p : Port) (v : U64) (s : State) : (completeWith p v s).relay = s.relay := setPort_relay _ _ _
@[simp] theorem completeWith_spec (p : Port) (v : U64) (s : State) : (completeWith p v s).spec = s.spec := setPort_spec _ _ _
@[simp] theorem completeWith_fstat (p : Port) (v : U64) (s : State) : (completeWith p v s).fstat = s.fstat := setPort_fstat _ _ _
@[simp] theorem completeWith_first (p : Port) (v : U64) (s : State) : (completeWith p v s).first = s.first := setPort_first _ _ _
@[simp] theorem completeWith_draws (p : Port) (v : U64) (s : State) : (completeWith p v s).draws = s.draws := setPort_draws _ _ _
@[simp] theorem completeWith_sched (p : Port) (v : U64) (s : State) : (completeWith p v s).sched = s.sched := setPort_sched _ _ _
@[simp] theorem setPos_cfg (p : Port) (pos : Pos) (s : State) : (setPos p pos s).cfg = s.cfg := setPort_cfg _ _ _
@[simp] theorem setPos_sr (p : Port) (pos : Pos) (s : State) : (setPos p pos s).sr = s.sr := setPort_sr _ _ _
@[simp] theorem setPos_gen (p : Port) (pos : Pos) (s : State) : (setPos p pos s).gen = s.gen := setPort_gen _ _ _
@[simp] theorem setPos_prepared (p : Port) (pos : Pos) (s : State) : (setPos p pos s).prepared = s.prepared := setPort_prepared _ _ _
@[simp] theorem setPos_halted (p : Port) (pos : Pos) (s : State) : (setPos p pos s).halted = s.halted := setPort_halted _ _ _
@[simp] theorem setPos_fs (p : Port) (pos : Pos) (s : State) : (setPos p pos s).fs = s.fs := setPort_fs _ _ _
@[simp] theorem setPos_maxblk (p : Port) (pos : Pos) (s : State) : (setPos p pos s).maxblk = s.maxblk := setPort_maxblk _ _ _
@[simp] theorem setPos_snap (p : Port) (pos : Pos) (s : State) : (setPos p pos s).snap = s.snap := setPort_snap _ _ _
@[simp] theorem setPos_bank (p : Port) (pos : Pos) (s : State) : (setPos p pos s).bank = s.bank := setPort_bank _ _ _
@[simp] theorem setPos_hist (p : Port) (pos : Pos) (s : State) : (setPos p pos s).hist = s.hist := setPort_hist _ _ _
@[simp] theorem setPos_buf (p : Port) (pos : Pos) (s : State) : (setPos p pos s).buf = s.buf := setPort_buf _ _ _
@[simp] theorem setPos_relay (p : Port) (pos : Pos) (s : State) : (setPos p pos s).relay = s.relay := setPort_relay _ _ _
@[simp] theorem setPos_spec (p : Port) (pos : Pos) (s : State) : (setPos p pos s).spec = s.spec := setPort_spec _ _ _
@[simp] theorem setPos_fstat (p : Port) (pos : Pos) (s : State) : (setPos p pos s).fstat = s.fstat := setPort_fstat _ _ _
@[simp] theorem setPos_first (p : Port) (pos : Pos) (s : State) : (setPos p pos s).first = s.first := setPort_first _ _ _
@[simp] theorem setPos_draws (p : Port) (pos : Pos) (s : State) : (setPos p pos s).draws = s.draws := setPort_draws _ _ _
@[simp] theorem setPos_sched (p : Port) (pos : Pos) (s : State) : (setPos p pos s).sched = s.sched := setPort_sched _ _ _
@[simp] theorem complete_portRegs_self (p : Port) (s : State) :
    (complete p s).portRegs p = { s.portRegs p with busy := false, pos := .start } := portRegs_setPort_self _ _ _
theorem complete_portRegs_ne {p q : Port} (s : State) (h : q ≠ p) : (complete p s).portRegs q = s.portRegs q :=
  portRegs_setPort_ne _ _ h
@[simp] theorem completeWith_portRegs_self (p : Port) (v : U64) (s : State) :
    (completeWith p v s).portRegs p = { s.portRegs p with res := v, busy := false, pos := .start } :=
  portRegs_setPort_self _ _ _
theorem completeWith_portRegs_ne {p q : Port} (v : U64) (s : State) (h : q ≠ p) :
    (completeWith p v s).portRegs q = s.portRegs q := portRegs_setPort_ne _ _ h
@[simp] theorem setPos_portRegs_self (p : Port) (pos : Pos) (s : State) :
    (setPos p pos s).portRegs p = { s.portRegs p with pos := pos } := portRegs_setPort_self _ _ _
theorem setPos_portRegs_ne {p q : Port} (pos : Pos) (s : State) (h : q ≠ p) :
    (setPos p pos s).portRegs q = s.portRegs q := portRegs_setPort_ne _ _ h


/-! ### The fault record -/

@[simp] theorem raise_cfg (c : Cause) (p : Port) (s : State) : (raise c p s).cfg = s.cfg := by cases p <;> rfl
@[simp] theorem raise_sr (c : Cause) (p : Port) (s : State) : (raise c p s).sr = s.sr := by cases p <;> rfl
@[simp] theorem raise_gen (c : Cause) (p : Port) (s : State) : (raise c p s).gen = s.gen := by cases p <;> rfl
@[simp] theorem raise_prepared (c : Cause) (p : Port) (s : State) : (raise c p s).prepared = s.prepared := by cases p <;> rfl
@[simp] theorem raise_fs (c : Cause) (p : Port) (s : State) : (raise c p s).fs = s.fs := by cases p <;> rfl
@[simp] theorem raise_maxblk (c : Cause) (p : Port) (s : State) : (raise c p s).maxblk = s.maxblk := by cases p <;> rfl
@[simp] theorem raise_snap (c : Cause) (p : Port) (s : State) : (raise c p s).snap = s.snap := by cases p <;> rfl
@[simp] theorem raise_bank (c : Cause) (p : Port) (s : State) : (raise c p s).bank = s.bank := by cases p <;> rfl
@[simp] theorem raise_hist (c : Cause) (p : Port) (s : State) : (raise c p s).hist = s.hist := by cases p <;> rfl
@[simp] theorem raise_buf (c : Cause) (p : Port) (s : State) : (raise c p s).buf = s.buf := by cases p <;> rfl
@[simp] theorem raise_relay (c : Cause) (p : Port) (s : State) : (raise c p s).relay = s.relay := by cases p <;> rfl
@[simp] theorem raise_spec (c : Cause) (p : Port) (s : State) : (raise c p s).spec = s.spec := by cases p <;> rfl
@[simp] theorem raise_draws (c : Cause) (p : Port) (s : State) : (raise c p s).draws = s.draws := by cases p <;> rfl
@[simp] theorem raise_sched (c : Cause) (p : Port) (s : State) : (raise c p s).sched = s.sched := by cases p <;> rfl
@[simp] theorem raise_fstat (c : Cause) (p : Port) (s : State) :
    (raise c p s).fstat = s.fstat ||| (1#32 <<< c.code) := by cases p <;> rfl
@[simp] theorem raise_first (c : Cause) (p : Port) (s : State) :
    (raise c p s).first = if s.first = 0#32 then BitVec.ofNat 32 c.code else s.first := by cases p <;> rfl
@[simp] theorem raise_halted (c : Cause) (p : Port) (s : State) :
    (raise c p s).halted = (s.halted || decide (c = .degenerateCoeff)) := by cases p <;> rfl
@[simp] theorem raise_portRegs_self (c : Cause) (p : Port) (s : State) :
    (raise c p s).portRegs p = { s.portRegs p with busy := false, pos := .start } := by cases p <;> rfl
theorem raise_portRegs_ne (c : Cause) {p q : Port} (s : State) (h : q ≠ p) :
    (raise c p s).portRegs q = s.portRegs q := by
  cases p <;> cases q <;> first | rfl | exact absurd rfl h


/-! ### The steps of PREPARE and PROCESS -/

@[simp] theorem takeSnapshot_cfg (s : State) : (takeSnapshot s).cfg = s.cfg := rfl
@[simp] theorem takeSnapshot_sr (s : State) : (takeSnapshot s).sr = s.sr := rfl
@[simp] theorem takeSnapshot_gen (s : State) : (takeSnapshot s).gen = s.gen := rfl
@[simp] theorem takeSnapshot_prepared (s : State) : (takeSnapshot s).prepared = s.prepared := rfl
@[simp] theorem takeSnapshot_halted (s : State) : (takeSnapshot s).halted = s.halted := rfl
@[simp] theorem takeSnapshot_fs (s : State) : (takeSnapshot s).fs = s.fs := rfl
@[simp] theorem takeSnapshot_maxblk (s : State) : (takeSnapshot s).maxblk = s.maxblk := rfl
@[simp] theorem takeSnapshot_bank (s : State) : (takeSnapshot s).bank = s.bank := rfl
@[simp] theorem takeSnapshot_hist (s : State) : (takeSnapshot s).hist = s.hist := rfl
@[simp] theorem takeSnapshot_buf (s : State) : (takeSnapshot s).buf = s.buf := rfl
@[simp] theorem takeSnapshot_relay (s : State) : (takeSnapshot s).relay = s.relay := rfl
@[simp] theorem takeSnapshot_spec (s : State) : (takeSnapshot s).spec = s.spec := rfl
@[simp] theorem takeSnapshot_fstat (s : State) : (takeSnapshot s).fstat = s.fstat := rfl
@[simp] theorem takeSnapshot_first (s : State) : (takeSnapshot s).first = s.first := rfl
@[simp] theorem takeSnapshot_draws (s : State) : (takeSnapshot s).draws = s.draws := rfl
@[simp] theorem takeSnapshot_sched (s : State) : (takeSnapshot s).sched = s.sched := rfl
@[simp] theorem takeSnapshot_aud (s : State) : (takeSnapshot s).aud = s.aud := rfl
@[simp] theorem takeSnapshot_ctl (s : State) : (takeSnapshot s).ctl = s.ctl := rfl
@[simp] theorem takeSnapshot_rnd (s : State) : (takeSnapshot s).rnd = s.rnd := rfl
@[simp] theorem takeField_cfg (pid : Pid) (s : State) : (takeField pid s).cfg = s.cfg := rfl
@[simp] theorem takeField_sr (pid : Pid) (s : State) : (takeField pid s).sr = s.sr := rfl
@[simp] theorem takeField_gen (pid : Pid) (s : State) : (takeField pid s).gen = s.gen := rfl
@[simp] theorem takeField_prepared (pid : Pid) (s : State) : (takeField pid s).prepared = s.prepared := rfl
@[simp] theorem takeField_halted (pid : Pid) (s : State) : (takeField pid s).halted = s.halted := rfl
@[simp] theorem takeField_fs (pid : Pid) (s : State) : (takeField pid s).fs = s.fs := rfl
@[simp] theorem takeField_maxblk (pid : Pid) (s : State) : (takeField pid s).maxblk = s.maxblk := rfl
@[simp] theorem takeField_bank (pid : Pid) (s : State) : (takeField pid s).bank = s.bank := rfl
@[simp] theorem takeField_hist (pid : Pid) (s : State) : (takeField pid s).hist = s.hist := rfl
@[simp] theorem takeField_buf (pid : Pid) (s : State) : (takeField pid s).buf = s.buf := rfl
@[simp] theorem takeField_relay (pid : Pid) (s : State) : (takeField pid s).relay = s.relay := rfl
@[simp] theorem takeField_spec (pid : Pid) (s : State) : (takeField pid s).spec = s.spec := rfl
@[simp] theorem takeField_fstat (pid : Pid) (s : State) : (takeField pid s).fstat = s.fstat := rfl
@[simp] theorem takeField_first (pid : Pid) (s : State) : (takeField pid s).first = s.first := rfl
@[simp] theorem takeField_draws (pid : Pid) (s : State) : (takeField pid s).draws = s.draws := rfl
@[simp] theorem takeField_sched (pid : Pid) (s : State) : (takeField pid s).sched = s.sched := rfl
@[simp] theorem takeField_aud (pid : Pid) (s : State) : (takeField pid s).aud = s.aud := rfl
@[simp] theorem takeField_ctl (pid : Pid) (s : State) : (takeField pid s).ctl = s.ctl := rfl
@[simp] theorem takeField_rnd (pid : Pid) (s : State) : (takeField pid s).rnd = s.rnd := rfl
@[simp] theorem coefStep_cfg (fs : B64) (s : State) : (coefStep fs s).cfg = s.cfg := rfl
@[simp] theorem coefStep_sr (fs : B64) (s : State) : (coefStep fs s).sr = s.sr := rfl
@[simp] theorem coefStep_gen (fs : B64) (s : State) : (coefStep fs s).gen = s.gen := rfl
@[simp] theorem coefStep_prepared (fs : B64) (s : State) : (coefStep fs s).prepared = s.prepared := rfl
@[simp] theorem coefStep_halted (fs : B64) (s : State) : (coefStep fs s).halted = s.halted := rfl
@[simp] theorem coefStep_fs (fs : B64) (s : State) : (coefStep fs s).fs = s.fs := rfl
@[simp] theorem coefStep_maxblk (fs : B64) (s : State) : (coefStep fs s).maxblk = s.maxblk := rfl
@[simp] theorem coefStep_snap (fs : B64) (s : State) : (coefStep fs s).snap = s.snap := rfl
@[simp] theorem coefStep_hist (fs : B64) (s : State) : (coefStep fs s).hist = s.hist := rfl
@[simp] theorem coefStep_buf (fs : B64) (s : State) : (coefStep fs s).buf = s.buf := rfl
@[simp] theorem coefStep_relay (fs : B64) (s : State) : (coefStep fs s).relay = s.relay := rfl
@[simp] theorem coefStep_spec (fs : B64) (s : State) : (coefStep fs s).spec = s.spec := rfl
@[simp] theorem coefStep_fstat (fs : B64) (s : State) : (coefStep fs s).fstat = s.fstat := rfl
@[simp] theorem coefStep_first (fs : B64) (s : State) : (coefStep fs s).first = s.first := rfl
@[simp] theorem coefStep_draws (fs : B64) (s : State) : (coefStep fs s).draws = s.draws := rfl
@[simp] theorem coefStep_sched (fs : B64) (s : State) : (coefStep fs s).sched = s.sched := rfl
@[simp] theorem coefStep_aud (fs : B64) (s : State) : (coefStep fs s).aud = s.aud := rfl
@[simp] theorem coefStep_ctl (fs : B64) (s : State) : (coefStep fs s).ctl = s.ctl := rfl
@[simp] theorem coefStep_rnd (fs : B64) (s : State) : (coefStep fs s).rnd = s.rnd := rfl
@[simp] theorem filtChan_cfg (n : Nat) (ch : Chan) (s : State) : (filtChan n ch s).cfg = s.cfg := rfl
@[simp] theorem filtChan_sr (n : Nat) (ch : Chan) (s : State) : (filtChan n ch s).sr = s.sr := rfl
@[simp] theorem filtChan_gen (n : Nat) (ch : Chan) (s : State) : (filtChan n ch s).gen = s.gen := rfl
@[simp] theorem filtChan_prepared (n : Nat) (ch : Chan) (s : State) : (filtChan n ch s).prepared = s.prepared := rfl
@[simp] theorem filtChan_halted (n : Nat) (ch : Chan) (s : State) : (filtChan n ch s).halted = s.halted := rfl
@[simp] theorem filtChan_fs (n : Nat) (ch : Chan) (s : State) : (filtChan n ch s).fs = s.fs := rfl
@[simp] theorem filtChan_maxblk (n : Nat) (ch : Chan) (s : State) : (filtChan n ch s).maxblk = s.maxblk := rfl
@[simp] theorem filtChan_snap (n : Nat) (ch : Chan) (s : State) : (filtChan n ch s).snap = s.snap := rfl
@[simp] theorem filtChan_bank (n : Nat) (ch : Chan) (s : State) : (filtChan n ch s).bank = s.bank := rfl
@[simp] theorem filtChan_relay (n : Nat) (ch : Chan) (s : State) : (filtChan n ch s).relay = s.relay := rfl
@[simp] theorem filtChan_spec (n : Nat) (ch : Chan) (s : State) : (filtChan n ch s).spec = s.spec := rfl
@[simp] theorem filtChan_fstat (n : Nat) (ch : Chan) (s : State) : (filtChan n ch s).fstat = s.fstat := rfl
@[simp] theorem filtChan_first (n : Nat) (ch : Chan) (s : State) : (filtChan n ch s).first = s.first := rfl
@[simp] theorem filtChan_draws (n : Nat) (ch : Chan) (s : State) : (filtChan n ch s).draws = s.draws := rfl
@[simp] theorem filtChan_sched (n : Nat) (ch : Chan) (s : State) : (filtChan n ch s).sched = s.sched := rfl
@[simp] theorem filtChan_aud (n : Nat) (ch : Chan) (s : State) : (filtChan n ch s).aud = s.aud := rfl
@[simp] theorem filtChan_ctl (n : Nat) (ch : Chan) (s : State) : (filtChan n ch s).ctl = s.ctl := rfl
@[simp] theorem filtChan_rnd (n : Nat) (ch : Chan) (s : State) : (filtChan n ch s).rnd = s.rnd := rfl
@[simp] theorem filtStep_cfg (n : Nat) (s : State) : (filtStep n s).cfg = s.cfg := rfl
@[simp] theorem filtStep_sr (n : Nat) (s : State) : (filtStep n s).sr = s.sr := rfl
@[simp] theorem filtStep_gen (n : Nat) (s : State) : (filtStep n s).gen = s.gen := rfl
@[simp] theorem filtStep_prepared (n : Nat) (s : State) : (filtStep n s).prepared = s.prepared := rfl
@[simp] theorem filtStep_halted (n : Nat) (s : State) : (filtStep n s).halted = s.halted := rfl
@[simp] theorem filtStep_fs (n : Nat) (s : State) : (filtStep n s).fs = s.fs := rfl
@[simp] theorem filtStep_maxblk (n : Nat) (s : State) : (filtStep n s).maxblk = s.maxblk := rfl
@[simp] theorem filtStep_snap (n : Nat) (s : State) : (filtStep n s).snap = s.snap := rfl
@[simp] theorem filtStep_bank (n : Nat) (s : State) : (filtStep n s).bank = s.bank := rfl
@[simp] theorem filtStep_relay (n : Nat) (s : State) : (filtStep n s).relay = s.relay := rfl
@[simp] theorem filtStep_spec (n : Nat) (s : State) : (filtStep n s).spec = s.spec := rfl
@[simp] theorem filtStep_fstat (n : Nat) (s : State) : (filtStep n s).fstat = s.fstat := rfl
@[simp] theorem filtStep_first (n : Nat) (s : State) : (filtStep n s).first = s.first := rfl
@[simp] theorem filtStep_sched (n : Nat) (s : State) : (filtStep n s).sched = s.sched := rfl
@[simp] theorem filtStep_aud (n : Nat) (s : State) : (filtStep n s).aud = s.aud := rfl
@[simp] theorem filtStep_ctl (n : Nat) (s : State) : (filtStep n s).ctl = s.ctl := rfl
@[simp] theorem filtStep_rnd (n : Nat) (s : State) : (filtStep n s).rnd = s.rnd := rfl
@[simp] theorem relayChan_cfg (n : Nat) (ch : Chan) (s : State) : (relayChan n ch s).cfg = s.cfg := rfl
@[simp] theorem relayChan_sr (n : Nat) (ch : Chan) (s : State) : (relayChan n ch s).sr = s.sr := rfl
@[simp] theorem relayChan_gen (n : Nat) (ch : Chan) (s : State) : (relayChan n ch s).gen = s.gen := rfl
@[simp] theorem relayChan_prepared (n : Nat) (ch : Chan) (s : State) : (relayChan n ch s).prepared = s.prepared := rfl
@[simp] theorem relayChan_halted (n : Nat) (ch : Chan) (s : State) : (relayChan n ch s).halted = s.halted := rfl
@[simp] theorem relayChan_fs (n : Nat) (ch : Chan) (s : State) : (relayChan n ch s).fs = s.fs := rfl
@[simp] theorem relayChan_maxblk (n : Nat) (ch : Chan) (s : State) : (relayChan n ch s).maxblk = s.maxblk := rfl
@[simp] theorem relayChan_snap (n : Nat) (ch : Chan) (s : State) : (relayChan n ch s).snap = s.snap := rfl
@[simp] theorem relayChan_bank (n : Nat) (ch : Chan) (s : State) : (relayChan n ch s).bank = s.bank := rfl
@[simp] theorem relayChan_hist (n : Nat) (ch : Chan) (s : State) : (relayChan n ch s).hist = s.hist := rfl
@[simp] theorem relayChan_buf (n : Nat) (ch : Chan) (s : State) : (relayChan n ch s).buf = s.buf := rfl
@[simp] theorem relayChan_spec (n : Nat) (ch : Chan) (s : State) : (relayChan n ch s).spec = s.spec := rfl
@[simp] theorem relayChan_fstat (n : Nat) (ch : Chan) (s : State) : (relayChan n ch s).fstat = s.fstat := rfl
@[simp] theorem relayChan_first (n : Nat) (ch : Chan) (s : State) : (relayChan n ch s).first = s.first := rfl
@[simp] theorem relayChan_draws (n : Nat) (ch : Chan) (s : State) : (relayChan n ch s).draws = s.draws := rfl
@[simp] theorem relayChan_sched (n : Nat) (ch : Chan) (s : State) : (relayChan n ch s).sched = s.sched := rfl
@[simp] theorem relayChan_aud (n : Nat) (ch : Chan) (s : State) : (relayChan n ch s).aud = s.aud := rfl
@[simp] theorem relayChan_ctl (n : Nat) (ch : Chan) (s : State) : (relayChan n ch s).ctl = s.ctl := rfl
@[simp] theorem relayChan_rnd (n : Nat) (ch : Chan) (s : State) : (relayChan n ch s).rnd = s.rnd := rfl
@[simp] theorem processBody_cfg (n : Nat) (s : State) : (processBody n s).cfg = s.cfg := rfl
@[simp] theorem processBody_sr (n : Nat) (s : State) : (processBody n s).sr = s.sr := rfl
@[simp] theorem processBody_gen (n : Nat) (s : State) : (processBody n s).gen = s.gen := rfl
@[simp] theorem processBody_prepared (n : Nat) (s : State) : (processBody n s).prepared = s.prepared := rfl
@[simp] theorem processBody_halted (n : Nat) (s : State) : (processBody n s).halted = s.halted := rfl
@[simp] theorem processBody_fs (n : Nat) (s : State) : (processBody n s).fs = s.fs := rfl
@[simp] theorem processBody_maxblk (n : Nat) (s : State) : (processBody n s).maxblk = s.maxblk := rfl
@[simp] theorem processBody_snap (n : Nat) (s : State) : (processBody n s).snap = s.snap := rfl
@[simp] theorem processBody_bank (n : Nat) (s : State) : (processBody n s).bank = s.bank := rfl
@[simp] theorem processBody_spec (n : Nat) (s : State) : (processBody n s).spec = s.spec := rfl
@[simp] theorem processBody_fstat (n : Nat) (s : State) : (processBody n s).fstat = s.fstat := rfl
@[simp] theorem processBody_first (n : Nat) (s : State) : (processBody n s).first = s.first := rfl
@[simp] theorem processBody_sched (n : Nat) (s : State) : (processBody n s).sched = s.sched := rfl
@[simp] theorem processBody_aud (n : Nat) (s : State) : (processBody n s).aud = s.aud := rfl
@[simp] theorem processBody_ctl (n : Nat) (s : State) : (processBody n s).ctl = s.ctl := rfl
@[simp] theorem processBody_rnd (n : Nat) (s : State) : (processBody n s).rnd = s.rnd := rfl
@[simp] theorem prepareWrites_cfg (fs : B64) (m : Nat) (s : State) : (prepareWrites fs m s).cfg = s.cfg := rfl
@[simp] theorem prepareWrites_sr (fs : B64) (m : Nat) (s : State) : (prepareWrites fs m s).sr = s.sr := rfl
@[simp] theorem prepareWrites_gen (fs : B64) (m : Nat) (s : State) : (prepareWrites fs m s).gen = s.gen := rfl
@[simp] theorem prepareWrites_halted (fs : B64) (m : Nat) (s : State) : (prepareWrites fs m s).halted = s.halted := rfl
@[simp] theorem prepareWrites_snap (fs : B64) (m : Nat) (s : State) : (prepareWrites fs m s).snap = s.snap := rfl
@[simp] theorem prepareWrites_bank (fs : B64) (m : Nat) (s : State) : (prepareWrites fs m s).bank = s.bank := rfl
@[simp] theorem prepareWrites_buf (fs : B64) (m : Nat) (s : State) : (prepareWrites fs m s).buf = s.buf := rfl
@[simp] theorem prepareWrites_fstat (fs : B64) (m : Nat) (s : State) : (prepareWrites fs m s).fstat = s.fstat := rfl
@[simp] theorem prepareWrites_first (fs : B64) (m : Nat) (s : State) : (prepareWrites fs m s).first = s.first := rfl
@[simp] theorem prepareWrites_draws (fs : B64) (m : Nat) (s : State) : (prepareWrites fs m s).draws = s.draws := rfl
@[simp] theorem prepareWrites_sched (fs : B64) (m : Nat) (s : State) : (prepareWrites fs m s).sched = s.sched := rfl
@[simp] theorem prepareWrites_aud (fs : B64) (m : Nat) (s : State) : (prepareWrites fs m s).aud = s.aud := rfl
@[simp] theorem prepareWrites_ctl (fs : B64) (m : Nat) (s : State) : (prepareWrites fs m s).ctl = s.ctl := rfl
@[simp] theorem prepareWrites_rnd (fs : B64) (m : Nat) (s : State) : (prepareWrites fs m s).rnd = s.rnd := rfl

/-! ### The steps of RPOLL and SDRAIN -/

@[simp] theorem pollBlock_cfg (se : Bool) (ch : Chan) (s : State) : (pollBlock se ch s).cfg = s.cfg := by
  unfold pollBlock; split; · rfl
  · split <;> rfl
@[simp] theorem pollBlock_sr (se : Bool) (ch : Chan) (s : State) : (pollBlock se ch s).sr = s.sr := by
  unfold pollBlock; split; · rfl
  · split <;> rfl
@[simp] theorem pollBlock_gen (se : Bool) (ch : Chan) (s : State) : (pollBlock se ch s).gen = s.gen := by
  unfold pollBlock; split; · rfl
  · split <;> rfl
@[simp] theorem pollBlock_prepared (se : Bool) (ch : Chan) (s : State) : (pollBlock se ch s).prepared = s.prepared := by
  unfold pollBlock; split; · rfl
  · split <;> rfl
@[simp] theorem pollBlock_halted (se : Bool) (ch : Chan) (s : State) : (pollBlock se ch s).halted = s.halted := by
  unfold pollBlock; split; · rfl
  · split <;> rfl
@[simp] theorem pollBlock_fs (se : Bool) (ch : Chan) (s : State) : (pollBlock se ch s).fs = s.fs := by
  unfold pollBlock; split; · rfl
  · split <;> rfl
@[simp] theorem pollBlock_maxblk (se : Bool) (ch : Chan) (s : State) : (pollBlock se ch s).maxblk = s.maxblk := by
  unfold pollBlock; split; · rfl
  · split <;> rfl
@[simp] theorem pollBlock_snap (se : Bool) (ch : Chan) (s : State) : (pollBlock se ch s).snap = s.snap := by
  unfold pollBlock; split; · rfl
  · split <;> rfl
@[simp] theorem pollBlock_bank (se : Bool) (ch : Chan) (s : State) : (pollBlock se ch s).bank = s.bank := by
  unfold pollBlock; split; · rfl
  · split <;> rfl
@[simp] theorem pollBlock_hist (se : Bool) (ch : Chan) (s : State) : (pollBlock se ch s).hist = s.hist := by
  unfold pollBlock; split; · rfl
  · split <;> rfl
@[simp] theorem pollBlock_buf (se : Bool) (ch : Chan) (s : State) : (pollBlock se ch s).buf = s.buf := by
  unfold pollBlock; split; · rfl
  · split <;> rfl
@[simp] theorem pollBlock_fstat (se : Bool) (ch : Chan) (s : State) : (pollBlock se ch s).fstat = s.fstat := by
  unfold pollBlock; split; · rfl
  · split <;> rfl
@[simp] theorem pollBlock_first (se : Bool) (ch : Chan) (s : State) : (pollBlock se ch s).first = s.first := by
  unfold pollBlock; split; · rfl
  · split <;> rfl
@[simp] theorem pollBlock_sched (se : Bool) (ch : Chan) (s : State) : (pollBlock se ch s).sched = s.sched := by
  unfold pollBlock; split; · rfl
  · split <;> rfl
@[simp] theorem pollBlock_aud (se : Bool) (ch : Chan) (s : State) : (pollBlock se ch s).aud = s.aud := by
  unfold pollBlock; split; · rfl
  · split <;> rfl
@[simp] theorem pollBlock_ctl (se : Bool) (ch : Chan) (s : State) : (pollBlock se ch s).ctl = s.ctl := by
  unfold pollBlock; split; · rfl
  · split <;> rfl
@[simp] theorem pollBlock_rnd (se : Bool) (ch : Chan) (s : State) : (pollBlock se ch s).rnd = s.rnd := by
  unfold pollBlock; split; · rfl
  · split <;> rfl
@[simp] theorem drainOne_cfg (last : Bool) (ch : Chan) (s : State) : (drainOne last ch s).cfg = s.cfg := by
  unfold drainOne; split <;> rfl
@[simp] theorem drainOne_sr (last : Bool) (ch : Chan) (s : State) : (drainOne last ch s).sr = s.sr := by
  unfold drainOne; split <;> rfl
@[simp] theorem drainOne_gen (last : Bool) (ch : Chan) (s : State) : (drainOne last ch s).gen = s.gen := by
  unfold drainOne; split <;> rfl
@[simp] theorem drainOne_prepared (last : Bool) (ch : Chan) (s : State) : (drainOne last ch s).prepared = s.prepared := by
  unfold drainOne; split <;> rfl
@[simp] theorem drainOne_halted (last : Bool) (ch : Chan) (s : State) : (drainOne last ch s).halted = s.halted := by
  unfold drainOne; split <;> rfl
@[simp] theorem drainOne_fs (last : Bool) (ch : Chan) (s : State) : (drainOne last ch s).fs = s.fs := by
  unfold drainOne; split <;> rfl
@[simp] theorem drainOne_maxblk (last : Bool) (ch : Chan) (s : State) : (drainOne last ch s).maxblk = s.maxblk := by
  unfold drainOne; split <;> rfl
@[simp] theorem drainOne_snap (last : Bool) (ch : Chan) (s : State) : (drainOne last ch s).snap = s.snap := by
  unfold drainOne; split <;> rfl
@[simp] theorem drainOne_bank (last : Bool) (ch : Chan) (s : State) : (drainOne last ch s).bank = s.bank := by
  unfold drainOne; split <;> rfl
@[simp] theorem drainOne_hist (last : Bool) (ch : Chan) (s : State) : (drainOne last ch s).hist = s.hist := by
  unfold drainOne; split <;> rfl
@[simp] theorem drainOne_buf (last : Bool) (ch : Chan) (s : State) : (drainOne last ch s).buf = s.buf := by
  unfold drainOne; split <;> rfl
@[simp] theorem drainOne_relay (last : Bool) (ch : Chan) (s : State) : (drainOne last ch s).relay = s.relay := by
  unfold drainOne; split <;> rfl
@[simp] theorem drainOne_fstat (last : Bool) (ch : Chan) (s : State) : (drainOne last ch s).fstat = s.fstat := by
  unfold drainOne; split <;> rfl
@[simp] theorem drainOne_first (last : Bool) (ch : Chan) (s : State) : (drainOne last ch s).first = s.first := by
  unfold drainOne; split <;> rfl
@[simp] theorem drainOne_draws (last : Bool) (ch : Chan) (s : State) : (drainOne last ch s).draws = s.draws := by
  unfold drainOne; split <;> rfl
@[simp] theorem drainOne_sched (last : Bool) (ch : Chan) (s : State) : (drainOne last ch s).sched = s.sched := by
  unfold drainOne; split <;> rfl
@[simp] theorem drainOne_aud (last : Bool) (ch : Chan) (s : State) : (drainOne last ch s).aud = s.aud := by
  unfold drainOne; split <;> rfl
@[simp] theorem drainOne_ctl (last : Bool) (ch : Chan) (s : State) : (drainOne last ch s).ctl = s.ctl := by
  unfold drainOne; split <;> rfl
@[simp] theorem drainOne_rnd (last : Bool) (ch : Chan) (s : State) : (drainOne last ch s).rnd = s.rnd := by
  unfold drainOne; split <;> rfl
@[simp] theorem pollBlocks_cfg (se : Bool) (ch : Chan) (m : Nat) (s : State) : (pollBlocks se ch m s).cfg = s.cfg := by
  induction m generalizing s with
  | zero => rfl
  | succ m ih => rw [pollBlocks, ih, pollBlock_cfg]
@[simp] theorem pollBlocks_sr (se : Bool) (ch : Chan) (m : Nat) (s : State) : (pollBlocks se ch m s).sr = s.sr := by
  induction m generalizing s with
  | zero => rfl
  | succ m ih => rw [pollBlocks, ih, pollBlock_sr]
@[simp] theorem pollBlocks_gen (se : Bool) (ch : Chan) (m : Nat) (s : State) : (pollBlocks se ch m s).gen = s.gen := by
  induction m generalizing s with
  | zero => rfl
  | succ m ih => rw [pollBlocks, ih, pollBlock_gen]
@[simp] theorem pollBlocks_prepared (se : Bool) (ch : Chan) (m : Nat) (s : State) : (pollBlocks se ch m s).prepared = s.prepared := by
  induction m generalizing s with
  | zero => rfl
  | succ m ih => rw [pollBlocks, ih, pollBlock_prepared]
@[simp] theorem pollBlocks_halted (se : Bool) (ch : Chan) (m : Nat) (s : State) : (pollBlocks se ch m s).halted = s.halted := by
  induction m generalizing s with
  | zero => rfl
  | succ m ih => rw [pollBlocks, ih, pollBlock_halted]
@[simp] theorem pollBlocks_fs (se : Bool) (ch : Chan) (m : Nat) (s : State) : (pollBlocks se ch m s).fs = s.fs := by
  induction m generalizing s with
  | zero => rfl
  | succ m ih => rw [pollBlocks, ih, pollBlock_fs]
@[simp] theorem pollBlocks_maxblk (se : Bool) (ch : Chan) (m : Nat) (s : State) : (pollBlocks se ch m s).maxblk = s.maxblk := by
  induction m generalizing s with
  | zero => rfl
  | succ m ih => rw [pollBlocks, ih, pollBlock_maxblk]
@[simp] theorem pollBlocks_snap (se : Bool) (ch : Chan) (m : Nat) (s : State) : (pollBlocks se ch m s).snap = s.snap := by
  induction m generalizing s with
  | zero => rfl
  | succ m ih => rw [pollBlocks, ih, pollBlock_snap]
@[simp] theorem pollBlocks_bank (se : Bool) (ch : Chan) (m : Nat) (s : State) : (pollBlocks se ch m s).bank = s.bank := by
  induction m generalizing s with
  | zero => rfl
  | succ m ih => rw [pollBlocks, ih, pollBlock_bank]
@[simp] theorem pollBlocks_hist (se : Bool) (ch : Chan) (m : Nat) (s : State) : (pollBlocks se ch m s).hist = s.hist := by
  induction m generalizing s with
  | zero => rfl
  | succ m ih => rw [pollBlocks, ih, pollBlock_hist]
@[simp] theorem pollBlocks_buf (se : Bool) (ch : Chan) (m : Nat) (s : State) : (pollBlocks se ch m s).buf = s.buf := by
  induction m generalizing s with
  | zero => rfl
  | succ m ih => rw [pollBlocks, ih, pollBlock_buf]
@[simp] theorem pollBlocks_fstat (se : Bool) (ch : Chan) (m : Nat) (s : State) : (pollBlocks se ch m s).fstat = s.fstat := by
  induction m generalizing s with
  | zero => rfl
  | succ m ih => rw [pollBlocks, ih, pollBlock_fstat]
@[simp] theorem pollBlocks_first (se : Bool) (ch : Chan) (m : Nat) (s : State) : (pollBlocks se ch m s).first = s.first := by
  induction m generalizing s with
  | zero => rfl
  | succ m ih => rw [pollBlocks, ih, pollBlock_first]
@[simp] theorem pollBlocks_sched (se : Bool) (ch : Chan) (m : Nat) (s : State) : (pollBlocks se ch m s).sched = s.sched := by
  induction m generalizing s with
  | zero => rfl
  | succ m ih => rw [pollBlocks, ih, pollBlock_sched]
@[simp] theorem pollBlocks_aud (se : Bool) (ch : Chan) (m : Nat) (s : State) : (pollBlocks se ch m s).aud = s.aud := by
  induction m generalizing s with
  | zero => rfl
  | succ m ih => rw [pollBlocks, ih, pollBlock_aud]
@[simp] theorem pollBlocks_ctl (se : Bool) (ch : Chan) (m : Nat) (s : State) : (pollBlocks se ch m s).ctl = s.ctl := by
  induction m generalizing s with
  | zero => rfl
  | succ m ih => rw [pollBlocks, ih, pollBlock_ctl]
@[simp] theorem pollBlocks_rnd (se : Bool) (ch : Chan) (m : Nat) (s : State) : (pollBlocks se ch m s).rnd = s.rnd := by
  induction m generalizing s with
  | zero => rfl
  | succ m ih => rw [pollBlocks, ih, pollBlock_rnd]
@[simp] theorem drainMany_cfg (ch : Chan) (m : Nat) (s : State) : (drainMany ch m s).cfg = s.cfg := by
  induction m generalizing s with
  | zero => rfl
  | succ m ih => rw [drainMany, ih, drainOne_cfg]
@[simp] theorem drainMany_sr (ch : Chan) (m : Nat) (s : State) : (drainMany ch m s).sr = s.sr := by
  induction m generalizing s with
  | zero => rfl
  | succ m ih => rw [drainMany, ih, drainOne_sr]
@[simp] theorem drainMany_gen (ch : Chan) (m : Nat) (s : State) : (drainMany ch m s).gen = s.gen := by
  induction m generalizing s with
  | zero => rfl
  | succ m ih => rw [drainMany, ih, drainOne_gen]
@[simp] theorem drainMany_prepared (ch : Chan) (m : Nat) (s : State) : (drainMany ch m s).prepared = s.prepared := by
  induction m generalizing s with
  | zero => rfl
  | succ m ih => rw [drainMany, ih, drainOne_prepared]
@[simp] theorem drainMany_halted (ch : Chan) (m : Nat) (s : State) : (drainMany ch m s).halted = s.halted := by
  induction m generalizing s with
  | zero => rfl
  | succ m ih => rw [drainMany, ih, drainOne_halted]
@[simp] theorem drainMany_fs (ch : Chan) (m : Nat) (s : State) : (drainMany ch m s).fs = s.fs := by
  induction m generalizing s with
  | zero => rfl
  | succ m ih => rw [drainMany, ih, drainOne_fs]
@[simp] theorem drainMany_maxblk (ch : Chan) (m : Nat) (s : State) : (drainMany ch m s).maxblk = s.maxblk := by
  induction m generalizing s with
  | zero => rfl
  | succ m ih => rw [drainMany, ih, drainOne_maxblk]
@[simp] theorem drainMany_snap (ch : Chan) (m : Nat) (s : State) : (drainMany ch m s).snap = s.snap := by
  induction m generalizing s with
  | zero => rfl
  | succ m ih => rw [drainMany, ih, drainOne_snap]
@[simp] theorem drainMany_bank (ch : Chan) (m : Nat) (s : State) : (drainMany ch m s).bank = s.bank := by
  induction m generalizing s with
  | zero => rfl
  | succ m ih => rw [drainMany, ih, drainOne_bank]
@[simp] theorem drainMany_hist (ch : Chan) (m : Nat) (s : State) : (drainMany ch m s).hist = s.hist := by
  induction m generalizing s with
  | zero => rfl
  | succ m ih => rw [drainMany, ih, drainOne_hist]
@[simp] theorem drainMany_buf (ch : Chan) (m : Nat) (s : State) : (drainMany ch m s).buf = s.buf := by
  induction m generalizing s with
  | zero => rfl
  | succ m ih => rw [drainMany, ih, drainOne_buf]
@[simp] theorem drainMany_relay (ch : Chan) (m : Nat) (s : State) : (drainMany ch m s).relay = s.relay := by
  induction m generalizing s with
  | zero => rfl
  | succ m ih => rw [drainMany, ih, drainOne_relay]
@[simp] theorem drainMany_fstat (ch : Chan) (m : Nat) (s : State) : (drainMany ch m s).fstat = s.fstat := by
  induction m generalizing s with
  | zero => rfl
  | succ m ih => rw [drainMany, ih, drainOne_fstat]
@[simp] theorem drainMany_first (ch : Chan) (m : Nat) (s : State) : (drainMany ch m s).first = s.first := by
  induction m generalizing s with
  | zero => rfl
  | succ m ih => rw [drainMany, ih, drainOne_first]
@[simp] theorem drainMany_draws (ch : Chan) (m : Nat) (s : State) : (drainMany ch m s).draws = s.draws := by
  induction m generalizing s with
  | zero => rfl
  | succ m ih => rw [drainMany, ih, drainOne_draws]
@[simp] theorem drainMany_sched (ch : Chan) (m : Nat) (s : State) : (drainMany ch m s).sched = s.sched := by
  induction m generalizing s with
  | zero => rfl
  | succ m ih => rw [drainMany, ih, drainOne_sched]
@[simp] theorem drainMany_aud (ch : Chan) (m : Nat) (s : State) : (drainMany ch m s).aud = s.aud := by
  induction m generalizing s with
  | zero => rfl
  | succ m ih => rw [drainMany, ih, drainOne_aud]
@[simp] theorem drainMany_ctl (ch : Chan) (m : Nat) (s : State) : (drainMany ch m s).ctl = s.ctl := by
  induction m generalizing s with
  | zero => rfl
  | succ m ih => rw [drainMany, ih, drainOne_ctl]
@[simp] theorem drainMany_rnd (ch : Chan) (m : Nat) (s : State) : (drainMany ch m s).rnd = s.rnd := by
  induction m generalizing s with
  | zero => rfl
  | succ m ih => rw [drainMany, ih, drainOne_rnd]
@[simp] theorem pollChan_cfg (se : Bool) (s : State) (ch : Chan) : (pollChan se s ch).cfg = s.cfg := pollBlocks_cfg _ _ _ _
@[simp] theorem pollChan_sr (se : Bool) (s : State) (ch : Chan) : (pollChan se s ch).sr = s.sr := pollBlocks_sr _ _ _ _
@[simp] theorem pollChan_gen (se : Bool) (s : State) (ch : Chan) : (pollChan se s ch).gen = s.gen := pollBlocks_gen _ _ _ _
@[simp] theorem pollChan_prepared (se : Bool) (s : State) (ch : Chan) : (pollChan se s ch).prepared = s.prepared := pollBlocks_prepared _ _ _ _
@[simp] theorem pollChan_halted (se : Bool) (s : State) (ch : Chan) : (pollChan se s ch).halted = s.halted := pollBlocks_halted _ _ _ _
@[simp] theorem pollChan_fs (se : Bool) (s : State) (ch : Chan) : (pollChan se s ch).fs = s.fs := pollBlocks_fs _ _ _ _
@[simp] theorem pollChan_maxblk (se : Bool) (s : State) (ch : Chan) : (pollChan se s ch).maxblk = s.maxblk := pollBlocks_maxblk _ _ _ _
@[simp] theorem pollChan_snap (se : Bool) (s : State) (ch : Chan) : (pollChan se s ch).snap = s.snap := pollBlocks_snap _ _ _ _
@[simp] theorem pollChan_bank (se : Bool) (s : State) (ch : Chan) : (pollChan se s ch).bank = s.bank := pollBlocks_bank _ _ _ _
@[simp] theorem pollChan_hist (se : Bool) (s : State) (ch : Chan) : (pollChan se s ch).hist = s.hist := pollBlocks_hist _ _ _ _
@[simp] theorem pollChan_buf (se : Bool) (s : State) (ch : Chan) : (pollChan se s ch).buf = s.buf := pollBlocks_buf _ _ _ _
@[simp] theorem pollChan_fstat (se : Bool) (s : State) (ch : Chan) : (pollChan se s ch).fstat = s.fstat := pollBlocks_fstat _ _ _ _
@[simp] theorem pollChan_first (se : Bool) (s : State) (ch : Chan) : (pollChan se s ch).first = s.first := pollBlocks_first _ _ _ _
@[simp] theorem pollChan_sched (se : Bool) (s : State) (ch : Chan) : (pollChan se s ch).sched = s.sched := pollBlocks_sched _ _ _ _
@[simp] theorem pollChan_aud (se : Bool) (s : State) (ch : Chan) : (pollChan se s ch).aud = s.aud := pollBlocks_aud _ _ _ _
@[simp] theorem pollChan_ctl (se : Bool) (s : State) (ch : Chan) : (pollChan se s ch).ctl = s.ctl := pollBlocks_ctl _ _ _ _
@[simp] theorem pollChan_rnd (se : Bool) (s : State) (ch : Chan) : (pollChan se s ch).rnd = s.rnd := pollBlocks_rnd _ _ _ _
@[simp] theorem drainChan_cfg (s : State) (ch : Chan) : (drainChan s ch).cfg = s.cfg := drainMany_cfg _ _ _
@[simp] theorem drainChan_sr (s : State) (ch : Chan) : (drainChan s ch).sr = s.sr := drainMany_sr _ _ _
@[simp] theorem drainChan_gen (s : State) (ch : Chan) : (drainChan s ch).gen = s.gen := drainMany_gen _ _ _
@[simp] theorem drainChan_prepared (s : State) (ch : Chan) : (drainChan s ch).prepared = s.prepared := drainMany_prepared _ _ _
@[simp] theorem drainChan_halted (s : State) (ch : Chan) : (drainChan s ch).halted = s.halted := drainMany_halted _ _ _
@[simp] theorem drainChan_fs (s : State) (ch : Chan) : (drainChan s ch).fs = s.fs := drainMany_fs _ _ _
@[simp] theorem drainChan_maxblk (s : State) (ch : Chan) : (drainChan s ch).maxblk = s.maxblk := drainMany_maxblk _ _ _
@[simp] theorem drainChan_snap (s : State) (ch : Chan) : (drainChan s ch).snap = s.snap := drainMany_snap _ _ _
@[simp] theorem drainChan_bank (s : State) (ch : Chan) : (drainChan s ch).bank = s.bank := drainMany_bank _ _ _
@[simp] theorem drainChan_hist (s : State) (ch : Chan) : (drainChan s ch).hist = s.hist := drainMany_hist _ _ _
@[simp] theorem drainChan_buf (s : State) (ch : Chan) : (drainChan s ch).buf = s.buf := drainMany_buf _ _ _
@[simp] theorem drainChan_relay (s : State) (ch : Chan) : (drainChan s ch).relay = s.relay := drainMany_relay _ _ _
@[simp] theorem drainChan_fstat (s : State) (ch : Chan) : (drainChan s ch).fstat = s.fstat := drainMany_fstat _ _ _
@[simp] theorem drainChan_first (s : State) (ch : Chan) : (drainChan s ch).first = s.first := drainMany_first _ _ _
@[simp] theorem drainChan_draws (s : State) (ch : Chan) : (drainChan s ch).draws = s.draws := drainMany_draws _ _ _
@[simp] theorem drainChan_sched (s : State) (ch : Chan) : (drainChan s ch).sched = s.sched := drainMany_sched _ _ _
@[simp] theorem drainChan_aud (s : State) (ch : Chan) : (drainChan s ch).aud = s.aud := drainMany_aud _ _ _
@[simp] theorem drainChan_ctl (s : State) (ch : Chan) : (drainChan s ch).ctl = s.ctl := drainMany_ctl _ _ _
@[simp] theorem drainChan_rnd (s : State) (ch : Chan) : (drainChan s ch).rnd = s.rnd := drainMany_rnd _ _ _

/-! ### Channels and sections -/

@[simp] theorem Stereo.get_set_self (q : Stereo α) (ch : Chan) (v : α) : (q.set ch v).get ch = v := by cases ch <;> rfl
theorem Stereo.get_set_ne (q : Stereo α) {ch ch' : Chan} (v : α) (h : ch' ≠ ch) : (q.set ch v).get ch' = q.get ch' := by
  cases ch <;> cases ch' <;> first | rfl | exact absurd rfl h
theorem Stereo.get_set (q : Stereo α) (ch ch' : Chan) (v : α) :
    (q.set ch v).get ch' = if ch' = ch then v else q.get ch' := by cases ch <;> cases ch' <;> rfl
theorem Stereo.ext_get {q r : Stereo α} (h : ∀ ch, q.get ch = r.get ch) : q = r := by
  cases q; cases r; have := h .left; have := h .right; simp_all [Stereo.get]
theorem Quad.get_set (q : Quad α) (i j : Fin 4) (v : α) : (q.set i v).get j = if j = i then v else q.get j := by
  fin_cases i <;> fin_cases j <;> rfl
@[simp] theorem Quad.get_tab (f : Fin 4 → α) (i : Fin 4) : (Quad.tab f).get i = f i := by fin_cases i <;> rfl
theorem Quad.ext_get {q r : Quad α} (h : ∀ i, q.get i = r.get i) : q = r := by
  cases q; cases r; have h0 := h 0; have h1 := h 1; have h2 := h 2; have h3 := h 3
  simp only [Quad.get] at h0 h1 h2 h3; subst h0 h1 h2 h3; rfl
theorem Settings.get_set (r : Settings) (p q : Pid) (v : U32) : (r.set p v).get q = if q = p then v else r.get q := by
  cases p <;> cases q <;> rfl
@[simp] theorem Pid.ofByte_byte (p : Pid) : Pid.ofByte? p.byte = some p := by cases p <;> rfl


end Sys2Proof.Machine
end

