-- ==== Sys2Proof/Laws/Ops.lean ====
section
/-! SUPPORT. What the shared operations over storage do: element arrays keep their canonical form and read back what was
written, and a FIFO keeps its form. -/

namespace Sys2Proof.Machine

/-! ### Element arrays -/

@[simp] theorem Cells.read_write_self (c : Cells α) (j : Nat) (v : α) : (Cells.write c j v).read j = some v := by
  induction c with
  | nil => simp [Cells.write, Cells.read]
  | cons p c ih =>
    obtain ⟨i, w⟩ := p
    simp only [Cells.write]
    split
    · simp [Cells.read]
    · split
      · simp [Cells.read]
      · rename_i h; simp [Cells.read, h, ih]

theorem Cells.read_write_ne (c : Cells α) {j k : Nat} (v : α) (h : k ≠ j) :
    (Cells.write c j v).read k = Cells.read c k := by
  induction c with
  | nil => simp [Cells.write, Cells.read, Ne.symm h]
  | cons p c ih =>
    obtain ⟨i, w⟩ := p
    simp only [Cells.write]
    split
    · simp [Cells.read, Ne.symm h]
    · split
      · rename_i hi; subst hi; simp [Cells.read, Ne.symm h]
      · simp only [Cells.read]; split <;> [rfl; exact ih]

theorem Cells.read_write (c : Cells α) (j k : Nat) (v : α) :
    (Cells.write c j v).read k = if k = j then some v else Cells.read c k := by
  split
  · rename_i h; subst h; exact Cells.read_write_self c k v
  · rename_i h; exact Cells.read_write_ne c v h

/-- The canonical form, as a statement about the list. -/
theorem Cells.wf_cons {i : Nat} {v : α} {c : Cells α} :
    Cells.wf ((i, v) :: c) = true ↔ (∀ p ∈ c.head?, i < p.1) ∧ Cells.wf c = true := by
  cases c with
  | nil => simp [Cells.wf]
  | cons p c => obtain ⟨j, w⟩ := p; simp [Cells.wf]

theorem Cells.head_write (c : Cells α) (j : Nat) (v : α) {i : Nat} (hj : i < j) (hc : ∀ p ∈ c.head?, i < p.1) :
    ∀ p ∈ (Cells.write c j v).head?, i < p.1 := by
  cases c with
  | nil => simpa [Cells.write] using hj
  | cons p c =>
    obtain ⟨k, w⟩ := p
    have hk : i < k := by simpa using hc
    simp only [Cells.write]
    split
    · simpa using hj
    · split
      · simpa using hj
      · simpa using hk

/-- A write keeps the canonical form. -/
theorem Cells.wf_write (c : Cells α) (j : Nat) (v : α) (h : Cells.wf c = true) :
    Cells.wf (Cells.write c j v) = true := by
  induction c with
  | nil => rfl
  | cons p c ih =>
    obtain ⟨i, w⟩ := p
    have hc := Cells.wf_cons.mp h
    simp only [Cells.write]
    split
    · rename_i hji; exact Cells.wf_cons.mpr ⟨by simpa using hji, h⟩
    · split
      · rename_i hij; subst hij; exact Cells.wf_cons.mpr hc
      · exact Cells.wf_cons.mpr ⟨Cells.head_write c j v (by omega) hc.1, ih hc.2⟩

theorem Cells.below_write (c : Cells α) (j : Nat) (v : α) {n : Nat} (h : Cells.below c n = true) (hj : j < n) :
    Cells.below (Cells.write c j v) n = true := by
  induction c with
  | nil => simpa [Cells.write, Cells.below] using hj
  | cons p c ih =>
    obtain ⟨i, w⟩ := p
    simp only [Cells.below, List.all_cons, Bool.and_eq_true, decide_eq_true_eq] at h ih ⊢
    simp only [Cells.write]
    split
    · simp only [List.all_cons, Bool.and_eq_true, decide_eq_true_eq]; exact ⟨hj, h⟩
    · split
      · simp only [List.all_cons, Bool.and_eq_true, decide_eq_true_eq]; exact ⟨hj, h.2⟩
      · simp only [List.all_cons, Bool.and_eq_true, decide_eq_true_eq]; exact ⟨h.1, ih h.2⟩

/-- Every memory operation keeps the canonical form. -/
theorem Memory.wf_memWrite (cap : Nat) (m : Memory) (j : Nat) (v : B32) (h : Memory.wf cap m = true) (hj : j < cap) :
    Memory.wf cap (memWrite m j v) = true := by
  simp only [Memory.wf, Bool.and_eq_true] at h ⊢
  exact ⟨Cells.wf_write m j v h.1, Cells.below_write m j v h.2 hj⟩

theorem Memory.wf_nil (cap : Nat) : Memory.wf cap [] = true := rfl

/-- A stored value is some value written or listed before. -/
theorem Cells.mem_write {c : Cells α} {j : Nat} {v : α} {p : Nat × α} (h : p ∈ Cells.write c j v) :
    p = (j, v) ∨ p ∈ c := by
  induction c with
  | nil => simpa [Cells.write] using h
  | cons q c ih =>
    obtain ⟨i, w⟩ := q
    simp only [Cells.write] at h
    split at h
    · simp only [List.mem_cons] at h ⊢; tauto
    · split at h
      · simp only [List.mem_cons] at h ⊢; tauto
      · simp only [List.mem_cons] at h ⊢
        rcases h with h | h
        · exact Or.inr (Or.inl h)
        · rcases ih h with h | h <;> tauto

theorem Cells.mem_of_read {c : Cells α} {j : Nat} {v : α} (h : Cells.read c j = some v) : (j, v) ∈ c := by
  induction c with
  | nil => simp [Cells.read] at h
  | cons q c ih =>
    obtain ⟨i, w⟩ := q
    simp only [Cells.read] at h
    split at h
    · simp_all
    · exact List.mem_cons_of_mem _ (ih h)

@[simp] theorem memRead_memWrite_self (seq : Nat) (ch : Chan) (m : Memory) (j : Nat) (v : B32) :
    memRead seq ch (memWrite m j v) j = v := by simp [memRead, memWrite]

theorem memRead_of_read {seq : Nat} {ch : Chan} {m : Memory} {j : Nat} {v : B32} (h : m.read j = some v) :
    memRead seq ch m j = v := by simp [memRead, h]

/-! ### FIFOs -/

@[simp] theorem Fifo.count_clear (c : Nat) (q : Fifo α) : Fifo.count c q.clear = 0 := by
  simp [Fifo.count, Fifo.clear]

theorem Fifo.count_eq {c : Nat} {q : Fifo α} (hw : q.wr < 2 * c) (hr : q.rd < 2 * c) :
    Fifo.count c q = if q.rd ≤ q.wr then q.wr - q.rd else q.wr + 2 * c - q.rd := by
  unfold Fifo.count
  split
  · rename_i h
    rw [show q.wr + 2 * c - q.rd = (q.wr - q.rd) + 2 * c by omega, Nat.add_mod_right, Nat.mod_eq_of_lt (by omega)]
  · exact Nat.mod_eq_of_lt (by omega)

/-- The successor of an index (43_relay_fifo.md R192, R193). -/
theorem Fifo.succ_mod {c i : Nat} (h : i < 2 * c) : (i + 1) % (2 * c) = if i + 1 = 2 * c then 0 else i + 1 := by
  split
  · rename_i e; rw [e, Nat.mod_self]
  · exact Nat.mod_eq_of_lt (by omega)

theorem Fifo.count_push {c : Nat} {q : Fifo α} {b : α} (hw : q.wr < 2 * c) (hr : q.rd < 2 * c)
    (hc : Fifo.count c q < c) : Fifo.count c (Fifo.push c q b) = Fifo.count c q + 1 := by
  rw [Fifo.push, if_neg (by omega)]
  have hw' : (q.wr + 1) % (2 * c) < 2 * c := Nat.mod_lt _ (by omega)
  rw [Fifo.count_eq hw hr] at hc ⊢
  rw [Fifo.count_eq (q := ⟨q.slots.write (q.wr % c) b, (q.wr + 1) % (2 * c), q.rd⟩) hw' hr]
  show (if q.rd ≤ (q.wr + 1) % (2 * c) then (q.wr + 1) % (2 * c) - q.rd
    else (q.wr + 1) % (2 * c) + 2 * c - q.rd) = _
  rw [Fifo.succ_mod hw]
  split_ifs at hc ⊢ <;> omega

theorem Fifo.count_pop {c : Nat} {q : Fifo α} (hw : q.wr < 2 * c) (hr : q.rd < 2 * c) (h0 : Fifo.count c q ≠ 0) :
    Fifo.count c { q with rd := (q.rd + 1) % (2 * c) } = Fifo.count c q - 1 := by
  have hr' : (q.rd + 1) % (2 * c) < 2 * c := Nat.mod_lt _ (by omega)
  rw [Fifo.count_eq hw hr] at h0 ⊢
  rw [Fifo.count_eq (q := ⟨q.slots, q.wr, (q.rd + 1) % (2 * c)⟩) hw hr']
  show (if (q.rd + 1) % (2 * c) ≤ q.wr then q.wr - (q.rd + 1) % (2 * c)
    else q.wr + 2 * c - (q.rd + 1) % (2 * c)) = _
  rw [Fifo.succ_mod hr]
  split_ifs at h0 ⊢ <;> omega

/-- The write index names the slot after the last occupied one. -/
theorem Fifo.wr_slot {c : Nat} {q : Fifo α} (hw : q.wr < 2 * c) (hr : q.rd < 2 * c) :
    q.wr % c = (q.rd + Fifo.count c q) % c := by
  rw [Fifo.count_eq hw hr]
  split
  · congr 1; omega
  · rw [show q.rd + (q.wr + 2 * c - q.rd) = q.wr + 2 * c by omega, Nat.add_mul_mod_self_right]

/-- Distinct offsets below the capacity name distinct slots. -/
theorem Fifo.slot_inj {c r k l : Nat} (hk : k < c) (hl : l < c) (h : (r + k) % c = (r + l) % c) : k = l := by
  have h1 := Nat.ModEq.add_left_cancel' r h
  have := Nat.mod_eq_of_lt hk
  have := Nat.mod_eq_of_lt hl
  unfold Nat.ModEq at h1
  omega

/-- A push keeps the form. -/
theorem Fifo.wf_push {c : Nat} {ok : α → Prop} {q : Fifo α} {b : α} (hc : 1 ≤ c) (h : Fifo.wf c ok q) (hb : ok b) :
    Fifo.wf c ok (Fifo.push c q b) := by
  obtain ⟨hw, hr, hn, hs, hbl, hok⟩ := h
  by_cases hfull : Fifo.count c q = c
  · rw [Fifo.push, if_pos hfull]; exact ⟨hw, hr, hn, hs, hbl, hok⟩
  · have hlt : Fifo.count c q < c := by omega
    have hcnt := Fifo.count_push (b := b) hw hr hlt
    refine ⟨?_, ?_, by omega, ?_, ?_, ?_⟩
    · rw [Fifo.push, if_neg hfull]; exact Nat.mod_lt _ (by omega)
    · rw [Fifo.push, if_neg hfull]; exact hr
    · rw [Fifo.push, if_neg hfull]; exact Cells.wf_write _ _ _ hs
    · rw [Fifo.push, if_neg hfull]; exact Cells.below_write _ _ _ hbl (Nat.mod_lt _ (by omega))
    · intro k hk
      rw [hcnt] at hk
      have hpush : Fifo.push c q b = { slots := q.slots.write (q.wr % c) b, wr := (q.wr + 1) % (2 * c), rd := q.rd } := by
        rw [Fifo.push, if_neg hfull]
      rw [hpush]
      simp only [Cells.read_write, Fifo.wr_slot hw hr]
      by_cases hkc : k = Fifo.count c q
      · subst hkc; exact ⟨b, by simp, hb⟩
      · obtain ⟨x, hx, hokx⟩ := hok k (by omega)
        refine ⟨x, ?_, hokx⟩
        rw [if_neg (fun e => hkc (Fifo.slot_inj (by omega) hlt e)), hx]

/-- A pop takes the block under the read index and keeps the form. -/
theorem Fifo.pop_some {c : Nat} {ok : α → Prop} {q : Fifo α} {d x : α} {q' : Fifo α} (h : Fifo.wf c ok q)
    (hp : Fifo.pop c q d = some (x, q')) :
    q.slots.read (q.rd % c) = some x ∧ ok x ∧ Fifo.wf c ok q' ∧ Fifo.count c q' + 1 = Fifo.count c q
      ∧ q' = { q with rd := (q.rd + 1) % (2 * c) } := by
  obtain ⟨hw, hr, hn, hs, hbl, hok⟩ := h
  rw [Fifo.pop] at hp
  split at hp
  · simp at hp
  · rename_i h0
    obtain ⟨b, hb, hokb⟩ := hok 0 (by omega)
    rw [Nat.add_zero] at hb
    simp only [Option.some.injEq, Prod.mk.injEq, hb, Option.getD_some] at hp
    obtain ⟨rfl, rfl⟩ := hp
    have hcnt := Fifo.count_pop hw hr h0
    refine ⟨hb, hokb, ⟨hw, Nat.mod_lt _ (by omega), by omega, hs, hbl, ?_⟩, by omega, rfl⟩
    intro k hk
    obtain ⟨y, hy, hoky⟩ := hok (k + 1) (by omega)
    refine ⟨y, ?_, hoky⟩
    rw [← hy]
    show Cells.read q.slots (((q.rd + 1) % (2 * c) + k) % c) = _
    congr 1
    rw [show q.rd + (k + 1) = q.rd + 1 + k by omega, Nat.add_mod ((q.rd + 1) % (2 * c)), Nat.mod_mul_left_mod,
      ← Nat.add_mod]

theorem Fifo.pop_none {c : Nat} {q : Fifo α} {d : α} : Fifo.pop c q d = none ↔ Fifo.count c q = 0 := by
  rw [Fifo.pop]; split <;> simp_all

theorem Fifo.wf_clear {c : Nat} {ok ok' : α → Prop} {q : Fifo α} (hc : 1 ≤ c) (h : Fifo.wf c ok q) :
    Fifo.wf c ok' q.clear := by
  obtain ⟨hw, hr, hn, hs, hbl, hok⟩ := h
  exact ⟨by simp [Fifo.clear]; omega, by simp [Fifo.clear]; omega, by simp, hs, hbl, by simp⟩

end Sys2Proof.Machine
end

