-- ==== Sys2Proof/Laws/Spectrum.lean ====
section
/-! SUPPORT. What one block of RPOLL and one snapshot of SDRAIN do, and the FIFOs as queues. -/

namespace Sys2Proof.Machine

theorem Config.wf_hop {c : Config} (h : c.wf = true) : 1 ≤ c.hop := by
  simp only [Config.wf, Bool.and_eq_true, decide_eq_true_eq] at h; omega

theorem Config.wf_relay {c : Config} (h : c.wf = true) : 1 ≤ c.cRelay := by
  simp only [Config.wf, Bool.and_eq_true, decide_eq_true_eq] at h; omega

theorem Config.wf_spec {c : Config} (h : c.wf = true) : 1 ≤ c.cSpec := by
  simp only [Config.wf, Bool.and_eq_true, decide_eq_true_eq] at h; omega

theorem Config.wf_cap {c : Config} (h : c.wf = true) : 1 ≤ c.maxBlkCap := by
  simp only [Config.wf, Bool.and_eq_true, decide_eq_true_eq] at h; omega

theorem shiftIn_length (l : Nat) (w b : List B32) (h : w.length = l) : (shiftIn l w b).length = l := by
  simp [shiftIn]; omega

/-- The oldest block, and the rest. -/
theorem Fifo.contents_cons {α} (c : Nat) (q : Fifo α) (h : Fifo.count c q ≠ 0) (hw : q.wr < 2 * c) (hr : q.rd < 2 * c) :
    Fifo.contents c q = q.slots.read (q.rd % c) :: Fifo.contents c { q with rd := (q.rd + 1) % (2 * c) } := by
  unfold Fifo.contents
  rw [Fifo.count_pop hw hr h]
  obtain ⟨n, hn⟩ : ∃ n, Fifo.count c q = n + 1 := ⟨Fifo.count c q - 1, by omega⟩
  rw [hn, List.range_succ_eq_map, List.map_cons, List.map_map, Nat.add_sub_cancel, Nat.add_zero]
  congr 1
  apply List.map_congr_left
  intro k _
  show q.slots.read _ = q.slots.read _
  congr 1
  rw [Nat.add_mod ((q.rd + 1) % (2 * c)), Nat.mod_mul_left_mod, ← Nat.add_mod]; congr 1; omega

/-- A push on a FIFO that is not full adds its block last. -/
theorem Fifo.contents_push {α} (c : Nat) (q : Fifo α) (b : α) (h : Fifo.count c q < c) (hw : q.wr < 2 * c) (hr : q.rd < 2 * c) :
    Fifo.contents c (Fifo.push c q b) = Fifo.contents c q ++ [some b] := by
  have hp : Fifo.push c q b = { slots := q.slots.write (q.wr % c) b, wr := (q.wr + 1) % (2 * c), rd := q.rd } := by
    rw [Fifo.push, if_neg (by omega)]
  have hn := Fifo.count_push (b := b) hw hr h
  unfold Fifo.contents
  rw [hn, List.range_succ, List.map_append, List.map_singleton, hp]
  simp only [Fifo.wr_slot hw hr]
  congr 1
  · apply List.map_congr_left
    intro k hk
    rw [List.mem_range] at hk
    rw [Cells.read_write_ne]
    intro e; have := Fifo.slot_inj (r := q.rd) (by omega) h e; omega
  · simp

theorem Fifo.wf_empty (c : Nat) {α} (ok : α → Prop) (hc : 1 ≤ c) : Fifo.wf c ok (⟨[], 0, 0⟩ : Fifo α) :=
  ⟨by simp only; omega, by simp only; omega, by simp [Fifo.count], rfl, rfl, by simp [Fifo.count]⟩

/-- The FIFOs of both channels are legal. -/
def FifosOk (s : State) : Prop := ∀ ch, Fifo.wf s.cfg.cRelay (fun b => b.length = s.maxblk) (s.relay.get ch).fifo
      ∧ Fifo.wf s.cfg.cSpec (fun b => b.db.length = s.cfg.nbins) (s.spec.get ch).fifo

/-- Staging a sample keeps the relay legal and loses no block. -/
theorem relaySample_wf (c seq ch n r v) (hc : 1 ≤ c.cRelay) (h : Fifo.wf c.cRelay (fun b : List B32 => b.length = n) r.fifo) :
    Fifo.wf c.cRelay (fun b => b.length = n) (relaySample c seq ch n r v).fifo ∧ Fifo.count c.cRelay r.fifo ≤ Fifo.count c.cRelay (relaySample c seq ch n r v).fifo := by
  unfold relaySample
  split
  · refine ⟨Fifo.wf_push hc h (by simp [stagedBlock]), ?_⟩
    by_cases hf : Fifo.count c.cRelay r.fifo < c.cRelay
    · simp only [Fifo.count_push h.1 h.2.1 hf]; omega
    · have : Fifo.count c.cRelay r.fifo = c.cRelay := by have := h.2.2.1; omega
      simp [Fifo.push, this]
  · exact ⟨h, le_refl _⟩

theorem relayLoop_wf (c seq ch n m k j r) (hc : 1 ≤ c.cRelay) (h : Fifo.wf c.cRelay (fun b : List B32 => b.length = n) r.fifo) :
    Fifo.wf c.cRelay (fun b => b.length = n) (relayLoop c seq ch n m k j r).fifo ∧ Fifo.count c.cRelay r.fifo ≤ Fifo.count c.cRelay (relayLoop c seq ch n m k j r).fifo := by
  induction k generalizing j r with
  | zero => exact ⟨h, le_refl _⟩
  | succ k ih =>
    rw [relayLoop]
    have a := relaySample_wf c seq ch n r (memRead seq ch m j) hc h
    have b := ih (j + 1) _ a.1
    exact ⟨b.1, a.2.trans b.2⟩

theorem pollBlock_relay (se ch s c) : (pollBlock se ch s).relay.get c = if c = ch then (match Fifo.pop s.cfg.cRelay (s.relay.get ch).fifo (relaySlotDraw s.draws ch s.maxblk) with
    | none => s.relay.get ch | some (_, q) => { s.relay.get ch with fifo := q }) else s.relay.get c := by
  unfold pollBlock
  split
  · split <;> simp_all
  · rename_i hq; split <;> simp only [Stereo.get_set, hq]

/-- A pop step of RPOLL moves the read index only. -/
theorem pollBlock_fifo (se ch s) (c : Chan) : ((pollBlock se ch s).relay.get c).fifo.wr = (s.relay.get c).fifo.wr
        ∧ ((pollBlock se ch s).relay.get c).fifo.slots = (s.relay.get c).fifo.slots ∧ ((pollBlock se ch s).relay.get c).stg = (s.relay.get c).stg
        ∧ ((pollBlock se ch s).relay.get c).idx = (s.relay.get c).idx := by
  unfold pollBlock
  split
  · exact ⟨rfl, rfl, rfl, rfl⟩
  · rename_i x q hp
    have hq : q.wr = (s.relay.get ch).fifo.wr ∧ q.slots = (s.relay.get ch).fifo.slots := by
      simp only [Fifo.pop] at hp; split at hp
      · cases hp
      · cases hp; exact ⟨rfl, rfl⟩
    split <;> (simp only [Stereo.get_set]; split <;> simp_all)

theorem relayLoop_rd (c seq ch n m k j r) : (relayLoop c seq ch n m k j r).fifo.rd = r.fifo.rd := by
  induction k generalizing j r with
  | zero => rfl
  | succ k ih =>
    rw [relayLoop, ih]; unfold relaySample; split
    · simp only [Fifo.push]; split <;> rfl
    · rfl

theorem pollBlock_other (se ch s c) (h : c ≠ ch) : (pollBlock se ch s).relay.get c = s.relay.get c ∧ (pollBlock se ch s).spec.get c = s.spec.get c := by
  unfold pollBlock; split
  · exact ⟨rfl, rfl⟩
  · split <;> simp [Stereo.get_set, h]

theorem pollBlock_frame (se ch s) : pollBlock se ch s = { s with relay := (pollBlock se ch s).relay, spec := (pollBlock se ch s).spec, draws := (pollBlock se ch s).draws } := by
  unfold pollBlock; split
  · rfl
  · split <;> rfl

theorem drainOne_other (last ch s c) (h : c ≠ ch) : (drainOne last ch s).spec.get c = s.spec.get c := by
  unfold drainOne; split
  · rfl
  · simp only [Stereo.get_set, if_neg h]

theorem drainMany_other (ch m s c) (h : c ≠ ch) : (drainMany ch m s).spec.get c = s.spec.get c := by
  induction m generalizing s with
  | zero => rfl
  | succ m ih => rw [drainMany, ih, drainOne_other _ _ _ _ h]

theorem drainOne_frame (last ch s) : drainOne last ch s = { s with spec := (drainOne last ch s).spec } := by
  unfold drainOne; split <;> rfl

theorem drainMany_frame (ch m s) : drainMany ch m s = { s with spec := (drainMany ch m s).spec } := by
  induction m generalizing s with
  | zero => rfl
  | succ m ih =>
    rw [drainMany, ih]
    simp

/-- A pop step takes one block. -/
theorem pollBlock_count (se ch) (s : State) (h : FifosOk s) : relayCount (pollBlock se ch s) ch = relayCount s ch - 1 := by
  have := pollBlock_relay se ch s ch
  unfold relayCount
  rw [this, if_pos rfl, pollBlock_cfg]
  split
  · rename_i hp; have := Fifo.pop_none.mp hp; omega
  · rename_i hp; have := (Fifo.pop_some (h ch).1 hp).2.2.2.1; simp only; omega

theorem drainOne_count (last ch) (s : State) (h : FifosOk s) : specCount (drainOne last ch s) ch = specCount s ch - 1 := by
  unfold specCount
  rw [drainOne_cfg]
  unfold drainOne
  split
  · rename_i hp; have := Fifo.pop_none.mp hp; omega
  · rename_i hp; have := (Fifo.pop_some (h ch).2 hp).2.2.2.1; simp only [Stereo.get_set, if_true]; omega

theorem relayChan_count (n ch s) (hc : s.cfg.wf = true) (h : FifosOk s) (c) : relayCount s c ≤ relayCount (relayChan n ch s) c := by
  simp only [relayCount, relayChan, Stereo.get_set]
  split
  · rename_i e; subst e; exact (relayLoop_wf _ _ _ _ _ _ _ _ (Config.wf_relay hc) (h c).1).2
  · exact le_refl _

theorem drop_lem (w b F : List B32) : ((w ++ b).drop b.length ++ F).drop F.length = (w ++ (b ++ F)).drop (b ++ F).length := by
  rw [List.length_append, ← List.append_assoc, ← List.drop_drop, List.drop_append_of_le_length (l₁ := w ++ b) (by simp)]

theorem shiftIn_drop (l : Nat) (w b : List B32) (h : w.length = l) : shiftIn l w b = (w ++ b).drop b.length := by
  unfold shiftIn; congr 1; omega

end Sys2Proof.Machine
end

