-- ==== Sys2Proof/Laws/Step.lean ====
section
/-! SUPPORT. What a step can do, said once: `Moved m s t` lists every way a step goes on, and `moved_of_step` says there
is no other. The lemmas about the invariants take it apart instead of unfolding the step. -/

namespace Sys2Proof.Machine

/-- Every way a step answers a next state, once its move `m` (if any) is taken off the list. -/
inductive Moved (m : Option Move) (s t : State) : Prop
  /-- Nothing happens: an idle machine or port, a read of BUF by HOST, or a read of RES. -/
  | idle (h : t = s)
  /-- An agent writes its port's argument registers, or CMD while HALTED; the port is idle before and after. -/
  | regs (p : Port) (r : PortRegs) (hb : (s.portRegs p).busy = false) (hr : r.busy = false)
      (hp : r.pos = (s.portRegs p).pos) (h : t = s.setPort p r)
  /-- An agent issues a command. -/
  | issue (p : Port) (w : U32) (hb : (s.portRegs p).busy = false)
      (h : t = s.setPort p { s.portRegs p with cmd := w, busy := true, pos := .start })
  /-- HOST writes an element of BUF. -/
  | host (ch : Chan) (j : Nat) (v : B32) (hb : s.aud.busy = false) (hj : j < s.cfg.maxBlkCap)
      (h : t = { s with buf := s.buf.set ch (memWrite (s.buf.get ch) j v) })
  /-- Hardware reset. -/
  | reset (hm : m = some .hwReset) (h : t = hwReset s)
  /-- A command runs whole. -/
  | whole (p : Port) (i : Instr) (hb : (s.portRegs p).busy = true) (hp : (s.portRegs p).pos = .start)
      (hd : decode (s.portRegs p).cmd p = .ok i) (h : exec i s = .next t)
  /-- A command takes its first atomic step. -/
  | first (p : Port) (i : Instr) (hb : (s.portRegs p).busy = true) (hp : (s.portRegs p).pos = .start)
      (hd : decode (s.portRegs p).cmd p = .ok i) (h : firstStep i s = .next t)
  /-- A word that does not decode is recorded. -/
  | illegal (p : Port) (r : Reject) (hb : (s.portRegs p).busy = true) (hp : (s.portRegs p).pos = .start)
      (hd : decode (s.portRegs p).cmd p = .error r) (h : t = raise .illegalCmd p s)
  /-- The later atomic steps. -/
  | held (p : Port) (hb : (s.portRegs p).busy = true) (hp : (s.portRegs p).pos = .prepHold) (h : t = prepareHeld s)
  | snap (p : Port) (pid : Pid) (hb : (s.portRegs p).busy = true) (hp : (s.portRegs p).pos = .procSnap pid)
      (h : t = processSnap pid s)
  | coef (p : Port) (hb : (s.portRegs p).busy = true) (hp : (s.portRegs p).pos = .procCoef) (h : t = processCoef s)
  | filt (p : Port) (hb : (s.portRegs p).busy = true) (hp : (s.portRegs p).pos = .procFilt) (h : t = processFilt s)
  | relay (p : Port) (ch : Chan) (hb : (s.portRegs p).busy = true) (hp : (s.portRegs p).pos = .procRelay ch)
      (h : t = processRelay ch s)
  | pollCount (p : Port) (se : Bool) (ch : Chan) (rest : List Chan) (hb : (s.portRegs p).busy = true)
      (hp : (s.portRegs p).pos = .rpollCount se ch rest) (h : t = pollCountStep se ch rest s)
  | pollPop (p : Port) (se : Bool) (ch : Chan) (more : Nat) (rest : List Chan) (hb : (s.portRegs p).busy = true)
      (hp : (s.portRegs p).pos = .rpollPop se ch more rest) (h : t = pollPopStep se ch more rest s)
  | drainCount (p : Port) (ch : Chan) (rest : List Chan) (hb : (s.portRegs p).busy = true)
      (hp : (s.portRegs p).pos = .sdrainCount ch rest) (h : t = drainCountStep ch rest s)
  | drainPop (p : Port) (ch : Chan) (more : Nat) (rest : List Chan) (hb : (s.portRegs p).busy = true)
      (hp : (s.portRegs p).pos = .sdrainPop ch more rest) (h : t = drainPopStep ch more rest s)

theorem moved_of_advancePort {m : Option Move} {p : Port} {s t : State} (h : advancePort p s = .next t) : Moved m s t := by
  unfold advancePort at h
  split at h
  · rename_i hb
    split at h <;> rename_i hp
    · split at h <;> rename_i hd
      · cases h; exact .illegal p _ hb hp hd rfl
      · exact .first p _ hb hp hd h
    · cases h; exact .held p hb hp rfl
    · cases h; exact .snap p _ hb hp rfl
    · cases h; exact .coef p hb hp rfl
    · cases h; exact .filt p hb hp rfl
    · cases h; exact .relay p _ hb hp rfl
    · cases h; exact .pollCount p _ _ _ hb hp rfl
    · cases h; exact .pollPop p _ _ _ _ hb hp rfl
    · cases h; exact .drainCount p _ _ hb hp rfl
    · cases h; exact .drainPop p _ _ _ hb hp rfl
  · cases h; exact .idle rfl

theorem moved_of_runPort {m : Option Move} {p : Port} {s t : State} (h : runPort p s = .next t) : Moved m s t := by
  unfold runPort at h
  split at h
  · rename_i hc
    simp only [Bool.and_eq_true, beq_iff_eq] at hc
    split at h <;> rename_i hd
    · cases h; exact .illegal p _ hc.1 hc.2 hd rfl
    · exact .whole p _ hc.1 hc.2 hd h
  · exact moved_of_advancePort h

theorem moved_of_applyMove {m : Move} {s t : State} (h : applyMove m s = .next t) : Moved (some m) s t := by
  cases m with
  | writeArg0 p v =>
    simp only [applyMove, writeArg0] at h
    split at h
    · cases h
    · rename_i hb; cases h; exact .regs p { s.portRegs p with arg0 := v } (by simpa using hb) (by simpa using hb) rfl rfl
  | writeArg1 p v =>
    simp only [applyMove, writeArg1] at h
    split at h
    · cases h
    · rename_i hb; cases h; exact .regs p { s.portRegs p with arg1 := v } (by simpa using hb) (by simpa using hb) rfl rfl
  | writeCmd p w =>
    simp only [applyMove, writeCmd] at h
    split at h
    · cases h
    · rename_i hb
      split at h
      · cases h; exact .regs p { s.portRegs p with cmd := w } (by simpa using hb) (by simpa using hb) rfl rfl
      · cases h; exact .issue p w (by simpa using hb) rfl
  | run p => exact moved_of_runPort h
  | advance p => exact moved_of_advancePort h
  | hostWrite ch j v =>
    simp only [applyMove, hostWrite] at h
    split at h
    · cases h
    · rename_i hb
      split at h
      · cases h
      · rename_i hj; cases h; exact .host ch j v (by simpa using hb) (by omega) rfl
  | hostRead ch j =>
    simp only [applyMove, hostRead] at h
    split at h
    · cases h
    · split at h
      · cases h
      · cases h; exact .idle rfl
  | readRes p =>
    simp only [applyMove, readRes] at h
    split at h
    · cases h
    · cases h; exact .idle rfl
  | hwReset => cases h; exact .reset rfl rfl

/-- A step takes the next move off the list, if there is one, and then moves in one of the ways of `Moved`. -/
theorem moved_of_step {s t : State} (h : step s = .next t) :
    (s.sched = [] ∧ Moved none s t)
      ∨ (∃ m rest, s.sched = m :: rest ∧ Moved (some m) { s with sched := rest } t) := by
  unfold step takeStep at h
  split at h
  · rename_i m rest hs; exact .inr ⟨m, rest, hs, moved_of_applyMove h⟩
  · rename_i hs
    refine .inl ⟨hs, ?_⟩
    split at h
    · exact moved_of_runPort h
    · cases h; exact .idle rfl

/-- A property that does not look at the moves still to come is kept by a step if every way of moving keeps it. -/
theorem step_keeps {P : State → Prop} (hs : ∀ s r, P s → P { s with sched := r }) (hm : ∀ m s t, P s → Moved m s t → P t)
    {s t : State} (hp : P s) (h : step s = .next t) : P t := by
  rcases moved_of_step h with ⟨-, h⟩ | ⟨m, rest, -, h⟩
  · exact hm _ _ _ hp h
  · exact hm _ _ _ (hs _ _ hp) h

/-! ### Properties that do not look at the ports

Everything a command does to the rest of the state is made of the updates below, so a property each of them keeps is kept
by every step. `ok N n` is what such a property needs of the block of a PROCESS: N is MAXBLK and n the block's length. `okp` is what it
needs of the rate and block size a PREPARE installs. -/

structure Closed (P : State → Prop) (ok : Nat → Nat → Prop) (okp : Config → B64 → Nat → Prop) : Prop where
  port : ∀ s p r, P s → P (s.setPort p r)
  fault : ∀ s c p, P s → (c = .degenerateCoeff → s.cfg.degenPolicy = .fault) → P (raise c p s)
  snap : ∀ s x, P s → P { s with snap := x }
  coef : ∀ s fs, P s → P (coefStep fs s)
  set : ∀ s a b, P s → P { s with sr := a, gen := b }
  filt : ∀ s n, P s → ok s.maxblk n → P (filtStep n s)
  relay : ∀ s n ch, P s → ok s.maxblk n → P (relayChan n ch s)
  prep : ∀ s fs m, P s → okp s.cfg fs m →
    P (prepareWrites fs m (coefStep fs (takeSnapshot s)))
  poll : ∀ s se ch, P s → P (pollBlock se ch s)
  drain : ∀ s last ch, P s → P (drainOne last ch s)
  host : ∀ s ch j v, P s → j < s.cfg.maxBlkCap → P { s with buf := s.buf.set ch (memWrite (s.buf.get ch) j v) }

namespace Closed

variable {P : State → Prop} {ok : Nat → Nat → Prop} {okp : Config → B64 → Nat → Prop}

theorem complete (c : Closed P ok okp) {s : State} (p : Port) (h : P s) : P (Machine.complete p s) := c.port _ _ _ h

theorem completeWith (c : Closed P ok okp) {s : State} (p : Port) (v : U64) (h : P s) : P (Machine.completeWith p v s) :=
  c.port _ _ _ h

theorem setPos (c : Closed P ok okp) {s : State} (p : Port) (pos : Pos) (h : P s) : P (Machine.setPos p pos s) :=
  c.port _ _ _ h

theorem pollBlocks (c : Closed P ok okp) (se : Bool) (ch : Chan) (m : Nat) {s : State} (h : P s) :
    P (Machine.pollBlocks se ch m s) := by
  induction m generalizing s with
  | zero => exact h
  | succ m ih => exact ih (c.poll _ _ _ h)

theorem drainMany (c : Closed P ok okp) (ch : Chan) (m : Nat) {s : State} (h : P s) : P (Machine.drainMany ch m s) := by
  induction m generalizing s with
  | zero => exact h
  | succ m ih => exact ih (c.drain _ _ _ h)

theorem pollChans (c : Closed P ok okp) (se : Bool) (l : List Chan) {s : State} (h : P s) : P (l.foldl (pollChan se) s) := by
  induction l generalizing s with
  | nil => exact h
  | cons ch l ih => exact ih (c.pollBlocks _ _ _ h)

theorem drainChans (c : Closed P ok okp) (l : List Chan) {s : State} (h : P s) : P (l.foldl drainChan s) := by
  induction l generalizing s with
  | nil => exact h
  | cons ch l ih => exact ih (c.drainMany _ _ h)

theorem prepareGlobal (c : Closed P ok okp) {s : State} (h : P s) (hc : okp s.cfg (rateArg s) (maxBlockArg s)) :
    P (Machine.prepareGlobal s) := by
  unfold Machine.prepareGlobal
  split
  · rename_i hf
    refine c.fault _ _ _ h fun _ => ?_
    simp only [coefFaults, Bool.and_eq_true, decide_eq_true_eq] at hf
    exact hf.1
  · exact c.complete _ (c.prep _ _ _ h hc)

theorem pollNext (c : Closed P ok okp) (se : Bool) (rest : List Chan) {s : State} (h : P s) : P (Machine.pollNext se rest s) := by
  cases rest with
  | nil => exact c.complete _ h
  | cons ch more => exact c.setPos _ _ h

theorem drainNext (c : Closed P ok okp) (rest : List Chan) {s : State} (h : P s) : P (Machine.drainNext rest s) := by
  cases rest with
  | nil => exact c.complete _ h
  | cons ch more => exact c.setPos _ _ h

theorem pollCountStep (c : Closed P ok okp) (se : Bool) (ch : Chan) (rest : List Chan) {s : State} (h : P s) :
    P (Machine.pollCountStep se ch rest s) := by
  unfold Machine.pollCountStep; split
  · exact c.pollNext _ _ h
  · exact c.setPos _ _ h

theorem pollPopStep (c : Closed P ok okp) (se : Bool) (ch : Chan) (more : Nat) (rest : List Chan) {s : State} (h : P s) :
    P (Machine.pollPopStep se ch more rest s) := by
  unfold Machine.pollPopStep; split
  · exact c.pollNext _ _ (c.poll _ _ _ h)
  · exact c.setPos _ _ (c.poll _ _ _ h)

theorem drainCountStep (c : Closed P ok okp) (ch : Chan) (rest : List Chan) {s : State} (h : P s) :
    P (Machine.drainCountStep ch rest s) := by
  unfold Machine.drainCountStep; split
  · exact c.drainNext _ h
  · exact c.setPos _ _ h

theorem drainPopStep (c : Closed P ok okp) (ch : Chan) (more : Nat) (rest : List Chan) {s : State} (h : P s) :
    P (Machine.drainPopStep ch more rest s) := by
  unfold Machine.drainPopStep; split
  · exact c.drainNext _ (c.drain _ _ _ h)
  · exact c.setPos _ _ (c.drain _ _ _ h)

/-- A fault raised by a check is not the degenerate coefficient. -/
theorem checks {s : State} {c : Cause} (h : prepareCheck s = some c ∨ processCheck s = some c) : c ≠ .degenerateCoeff := by
  rcases h with h | h
  · unfold prepareCheck at h
    split at h
    · cases h; decide
    · split at h <;> cases h; decide
  · unfold processCheck at h
    split at h
    · cases h; decide
    · split at h <;> cases h; decide

/-- Every command keeps the property. -/
theorem exec (c : Closed P ok okp) {i : Instr} {s t : State} (hp : P s)
    (hok : i = .process → processCheck s = none → ok s.maxblk (blockArg s))
    (hprep : i = .prepare → prepareCheck s = none → okp s.cfg (rateArg s) (maxBlockArg s)) (h : Machine.exec i s = .next t) : P t := by
  cases i with
  | nop p => cases h; exact c.complete _ hp
  | prepare =>
    simp only [Machine.exec, execPrepare] at h
    split at h
    · rename_i hc; cases h; exact c.fault _ _ _ hp fun e => absurd e (checks (.inl hc))
    · rename_i hc
      split at h
      · cases h; exact c.setPos _ _ hp
      · cases h; exact c.prepareGlobal hp (hprep rfl hc)
  | process =>
    simp only [Machine.exec, execProcess] at h
    split at h
    · rename_i hc; cases h; exact c.fault _ _ _ hp fun e => absurd e (checks (.inr hc))
    · rename_i hc
      have hk := hok rfl hc
      have hs : P (takeSnapshot s) := c.snap _ _ hp
      split at h
      · rename_i hf
        cases h
        refine c.fault _ _ _ hs fun _ => ?_
        simp only [coefFaults, Bool.and_eq_true, decide_eq_true_eq] at hf
        exact hf.1
      · cases h
        refine c.complete _ ?_
        unfold processBody
        refine c.relay _ _ _ (c.relay _ _ _ (c.filt _ _ (c.coef _ _ hs) ?_) ?_) ?_ <;> simpa using hk
  | setp pid =>
    simp only [Machine.exec, execSetp] at h
    split at h
    · cases h; exact c.fault _ _ _ hp fun e => by cases e
    · cases h; exact c.complete _ (c.set _ _ _ hp)
  | rdp pid =>
    simp only [Machine.exec, execRdp] at h
    split at h
    · cases h; exact c.fault _ _ _ hp fun e => by cases e
    · cases h; exact c.completeWith _ _ hp
  | rpoll cs => cases h; exact c.complete _ (c.pollChans _ _ hp)
  | sdrain cs => cases h; exact c.complete _ (c.drainChans _ hp)
  | rdbin cs =>
    simp only [Machine.exec, execRdbin] at h
    split at h
    · cases h; exact c.fault _ _ _ hp fun e => by cases e
    · cases h; exact c.completeWith _ _ hp
  | rdmeta cs sel => cases h; exact c.completeWith _ _ hp
  | rdgen p => cases h; exact c.completeWith _ _ hp
  | rdocc cs sel => cases h; exact c.completeWith _ _ hp
  | rdstat p => cases h; exact c.completeWith _ _ hp

/-- Every way of moving keeps the property. -/
theorem moved (c : Closed P ok okp) {m : Option Move} {s t : State} (hp : P s)
    (hok : (processCheck s = none ∨ ∃ p pos, (s.portRegs p).pos = pos ∧ (pos = .procFilt ∨ ∃ ch, pos = .procRelay ch)) →
      ok s.maxblk (blockArg s))
    (hprep : (prepareCheck s = none ∨ ∃ p, (s.portRegs p).pos = .prepHold) → okp s.cfg (rateArg s) (maxBlockArg s))
    (hreset : m = some .hwReset → P (hwReset s)) (h : Moved m s t) : P t := by
  cases h with
  | idle h => rw [h]; exact hp
  | regs p r _ _ _ h => rw [h]; exact c.port _ _ _ hp
  | issue p w _ h => rw [h]; exact c.port _ _ _ hp
  | host ch j v _ hj h => rw [h]; exact c.host _ _ _ _ hp hj
  | reset hm h => rw [h]; exact hreset hm
  | whole p i _ _ _ h => exact c.exec hp (fun _ hc => hok (.inl hc)) (fun _ hc => hprep (.inl hc)) h
  | first p i _ _ _ h =>
    cases i with
    | prepare =>
      simp only [firstStep] at h
      cases h
      unfold prepareFirst
      split
      · rename_i hc; exact c.fault _ _ _ hp fun e => absurd e (checks (.inl hc))
      · exact c.setPos _ _ hp
    | process =>
      simp only [firstStep] at h
      cases h
      unfold processFirst
      split
      · rename_i hc; exact c.fault _ _ _ hp fun e => absurd e (checks (.inr hc))
      · exact c.setPos _ _ hp
    | rpoll cs => cases h; exact c.setPos _ _ hp
    | sdrain cs => cases h; exact c.drainCountStep _ _ hp
    | nop p => exact c.exec (i := .nop p) hp (fun e => by cases e) (fun e => by cases e) h
    | setp pid => exact c.exec (i := .setp pid) hp (fun e => by cases e) (fun e => by cases e) h
    | rdp pid => exact c.exec (i := .rdp pid) hp (fun e => by cases e) (fun e => by cases e) h
    | rdbin cs => exact c.exec (i := .rdbin cs) hp (fun e => by cases e) (fun e => by cases e) h
    | rdmeta cs sel => exact c.exec (i := .rdmeta cs sel) hp (fun e => by cases e) (fun e => by cases e) h
    | rdgen p => exact c.exec (i := .rdgen p) hp (fun e => by cases e) (fun e => by cases e) h
    | rdocc cs sel => exact c.exec (i := .rdocc cs sel) hp (fun e => by cases e) (fun e => by cases e) h
    | rdstat p => exact c.exec (i := .rdstat p) hp (fun e => by cases e) (fun e => by cases e) h
  | illegal p r _ _ _ h => rw [h]; exact c.fault _ _ _ hp fun e => by cases e
  | held p _ hpos h =>
    rw [h]; unfold prepareHeld; split
    · exact hp
    · exact c.prepareGlobal hp (hprep (.inr ⟨p, hpos⟩))
  | snap p pid _ _ h => rw [h]; exact c.setPos _ _ (c.snap _ _ hp)
  | coef p _ _ h =>
    rw [h]; unfold processCoef; split
    · rename_i hf
      refine c.fault _ _ _ hp fun _ => ?_
      simp only [coefFaults, Bool.and_eq_true, decide_eq_true_eq] at hf
      exact hf.1
    · exact c.setPos _ _ (c.coef _ _ hp)
  | filt p _ hpos h => rw [h]; exact c.setPos _ _ (c.filt _ _ hp (hok (.inr ⟨p, _, hpos, .inl rfl⟩)))
  | relay p ch _ hpos h =>
    have hk := hok (.inr ⟨p, _, hpos, .inr ⟨ch, rfl⟩⟩)
    rw [h]; cases ch
    · exact c.setPos _ _ (c.relay _ _ _ hp hk)
    · exact c.complete _ (c.relay _ _ _ hp hk)
  | pollCount p se ch rest _ _ h => rw [h]; exact c.pollCountStep _ _ _ hp
  | pollPop p se ch more rest _ _ h => rw [h]; exact c.pollPopStep _ _ _ _ hp
  | drainCount p ch rest _ _ h => rw [h]; exact c.drainCountStep _ _ hp
  | drainPop p ch more rest _ _ h => rw [h]; exact c.drainPopStep _ _ _ hp

end Closed

end Sys2Proof.Machine
end

