-- ==== Sys2Proof/Laws/Commands.lean ====
section
/-! SUPPORT. What a command leaves of the ports when it is done, and what its checks have established. -/

namespace Sys2Proof.Machine

/-- An issued command that runs whole. -/
theorem runPort_start {p : Port} {s : State} {i : Instr} (hb : (s.portRegs p).busy = true) (hp : (s.portRegs p).pos = .start)
    (hd : decode (s.portRegs p).cmd p = .ok i) : runPort p s = exec i s := by
  simp [runPort, hb, hp, fetch, hd]

theorem valueArg_eq (s : State) : valueArg s = s.ctl.arg0.truncate 32 := by
  apply BitVec.eq_of_getLsbD_eq; intro i hi; simp [valueArg, hi]

/-- PIDs up to 0x0A name a register (10_state.md R23). -/
theorem Pid.ofByte_some {b : BitVec 8} (h : b.toNat ≤ 10) : ∃ r, Pid.ofByte? b = some r ∧ 
   (∀ (sr : Settings) v, srList (sr.set r v) = (srList sr).set b.toNat v) ∧ ∀ sr : Settings, (srList sr)[b.toNat]? = some (sr.get r) := by
  unfold Pid.ofByte?
  generalize b.toNat = n at *
  have : n = 0 ∨ n = 1 ∨ n = 2 ∨ n = 3 ∨ n = 4 ∨ n = 5 ∨ n = 6 ∨ n = 7 ∨ n = 8 ∨ n = 9 ∨ n = 10 := by omega
  rcases this with h | h | h | h | h | h | h | h | h | h | h <;> subst h <;> exact ⟨_, rfl, fun _ _ => rfl, fun _ => rfl⟩

theorem Pid.ofByte_none {b : BitVec 8} (h : 10 < b.toNat) : Pid.ofByte? b = none := by
  unfold Pid.ofByte?
  generalize b.toNat = n at *
  split <;> first | omega | rfl

/-- Every port but p is as it was. -/
def Keep (p : Port) (s t : State) : Prop := ∀ q, q ≠ p → t.portRegs q = s.portRegs q

theorem same_ports {s t : State} (h1 : t.aud = s.aud) (h2 : t.ctl = s.ctl) (h3 : t.rnd = s.rnd) (q : Port) : t.portRegs q = s.portRegs q := by
  cases q
  · exact h1
  · exact h2
  · exact h3

theorem ports_pollBlocks (se ch m s) (q) : (pollBlocks se ch m s).portRegs q = s.portRegs q := same_ports (by simp) (by simp) (by simp) q

theorem ports_foldPoll (se) (l : List Chan) (s) (q) : (l.foldl (pollChan se) s).portRegs q = s.portRegs q := by
  induction l generalizing s with
  | nil => rfl
  | cons c l ih => rw [List.foldl_cons, ih, pollChan, ports_pollBlocks]

theorem ports_foldDrain (l : List Chan) (s) (q) : (l.foldl drainChan s).portRegs q = s.portRegs q := by
  induction l generalizing s with
  | nil => rfl
  | cons c l ih => rw [List.foldl_cons, ih, drainChan]; exact same_ports (by simp) (by simp) (by simp) q

theorem ports_processBody (n s q) : (processBody n s).portRegs q = s.portRegs q := same_ports (by simp) (by simp) (by simp) q

/-- Port p has completed its command. -/
def Done (p : Port) (s t : State) : Prop := Keep p s t ∧ (t.portRegs p).busy = false ∧ (t.portRegs p).pos = .start ∧ (t.portRegs p).cmd = (s.portRegs p).cmd ∧ (t.portRegs p).arg0 = (s.portRegs p).arg0 ∧ (t.portRegs p).arg1 = (s.portRegs p).arg1

theorem done_complete (p : Port) (s u : State) (h : ∀ q, u.portRegs q = s.portRegs q) : Done p s (complete p u) :=
  ⟨fun q e => by rw [complete_portRegs_ne _ e, h], by simp, by simp, by simp [h], by simp [h], by simp [h]⟩

theorem done_completeWith (p : Port) (v) (s u : State) (h : ∀ q, u.portRegs q = s.portRegs q) : Done p s (completeWith p v u) :=
  ⟨fun q e => by rw [completeWith_portRegs_ne _ _ e, h], by simp, by simp, by simp [h], by simp [h], by simp [h]⟩

theorem done_raise (c) (p : Port) (s u : State) (h : ∀ q, u.portRegs q = s.portRegs q) : Done p s (raise c p u) :=
  ⟨fun q e => by rw [raise_portRegs_ne _ _ e, h], by simp, by simp, by simp [h], by simp [h], by simp [h]⟩

theorem done_prepareGlobal (s : State) : Done .aud s (prepareGlobal s) := by
  unfold prepareGlobal; split
  · exact done_raise _ _ _ _ fun _ => rfl
  · exact done_complete _ _ _ fun q => by cases q <;> rfl

/-- A command completes on its own port, or is a PREPARE that holds. -/
theorem exec_done {i : Instr} {s t : State} (h : exec i s = .next t) :
    Done i.port s t ∨ (i = .prepare ∧ prepareCheck s = none ∧ t = setPos .aud .prepHold s) := by
  cases i with
  | nop p => cases h; exact .inl (done_complete _ _ _ fun _ => rfl)
  | prepare =>
    simp only [exec, execPrepare] at h
    split at h
    · cases h; exact .inl (done_raise _ _ _ _ fun _ => rfl)
    · rename_i hc
      split at h
      · cases h; exact .inr ⟨rfl, hc, rfl⟩
      · cases h; exact .inl (done_prepareGlobal s)
  | process =>
    simp only [exec, execProcess] at h
    split at h
    · cases h; exact .inl (done_raise _ _ _ _ fun _ => rfl)
    · split at h
      · cases h; exact .inl (done_raise _ _ _ _ fun q => by cases q <;> rfl)
      · cases h; exact .inl (done_complete _ _ _ fun q => by rw [ports_processBody]; cases q <;> rfl)
  | setp pid =>
    simp only [exec, execSetp] at h
    split at h
    · cases h; exact .inl (done_raise _ _ _ _ fun _ => rfl)
    · cases h; exact .inl (done_complete _ _ _ fun q => by cases q <;> rfl)
  | rdp pid =>
    simp only [exec, execRdp] at h
    split at h
    · cases h; exact .inl (done_raise _ _ _ _ fun _ => rfl)
    · cases h; exact .inl (done_completeWith _ _ _ _ fun _ => rfl)
  | rpoll cs => cases h; exact .inl (done_complete _ _ _ fun q => ports_foldPoll _ _ _ _)
  | sdrain cs => cases h; exact .inl (done_complete _ _ _ fun q => ports_foldDrain _ _ _)
  | rdbin cs =>
    simp only [exec, execRdbin] at h
    split at h
    · cases h; exact .inl (done_raise _ _ _ _ fun _ => rfl)
    · cases h; exact .inl (done_completeWith _ _ _ _ fun _ => rfl)
  | rdmeta cs sel => cases h; exact .inl (done_completeWith _ _ _ _ fun _ => rfl)
  | rdgen p => cases h; exact .inl (done_completeWith _ _ _ _ fun _ => rfl)
  | rdocc cs sel => cases h; exact .inl (done_completeWith _ _ _ _ fun _ => rfl)
  | rdstat p => cases h; exact .inl (done_completeWith _ _ _ _ fun _ => rfl)

/-- A command decodes on its own port only. -/
theorem decode_port {w : U32} {p : Port} {i : Instr} (h : decode w p = .ok i) : i.port = p := by
  unfold decode at h
  split at h
  · cases h
  · rename_i o _
    split at h
    · cases h
    · rename_i ha
      split at h; · cases h
      split at h; · cases h
      split at h; · cases h
      split at h; · cases h
      cases h
      cases o <;> cases p <;> simp_all [Opcode.admits, Opcode.build, Instr.port]

theorem prepareCheck_args {s : State} (h : prepareCheck s = none) : badRate (rateArg s) = false ∧ badMaxBlock s.cfg (maxBlockArg s) = false := by
  unfold prepareCheck at h
  split at h
  · cases h
  · split at h
    · cases h
    · simp_all

theorem processCheck_args {s : State} (h : processCheck s = none) : s.prepared = true ∧ blockArg s ≤ s.maxblk := by
  unfold processCheck at h
  split at h
  · cases h
  · split at h
    · cases h
    · simp_all

theorem exec_cfg {i : Instr} {s t : State} (h : exec i s = .next t) : t.cfg = s.cfg := by
  have c : Closed (fun u => u.cfg = s.cfg) (fun _ _ => True) (fun _ _ _ => True) := by
    constructor <;> intros <;> simp_all
  exact c.exec rfl (fun _ _ => trivial) (fun _ _ => trivial) h

end Sys2Proof.Machine
end

