-- ==== Sys2Proof/Laws/Filter.lean ====
section
/-! SUPPORT. What the filter, the staging and the coefficient step do, one lemma per loop. -/

namespace Sys2Proof.Machine

/-- Raising a fault and taking a snapshot commute. -/
theorem takeSnapshot_raise (c : Cause) (p : Port) (s : State) : takeSnapshot (raise c p s) = raise c p (takeSnapshot s) := by
  cases p <;> rfl

/-- Installing the same candidates twice is installing them once. -/
theorem installBank_idem (e : FpEnv) (c : Config) (fs : B64) (sn : Snap) (b : Bank) :
    installBank e c fs sn (installBank e c fs sn b) = installBank e c fs sn b := by
  have h1 : ∀ (o : Coef) c, installSet (installSet o c) c = installSet o c := by
    intro o c; cases c with
    | none => rfl
    | some c => simp only [installSet]; split <;> simp_all
  have h2 : ∀ (o : Bool) c, installFlag (installFlag o c) c = installFlag o c := by
    intro o c; cases c <;> rfl
  have h3 : ∀ (o : Quad Coef) c, installSets (installSets o c) c = installSets o c := by
    intro o c; apply Quad.ext_get; intro i; simp only [installSets, Quad.get_tab, h1]
  have h4 : ∀ (o : Quad Bool) c, installFlags (installFlags o c) c = installFlags o c := by
    intro o c; apply Quad.ext_get; intro i; simp only [installFlags, Quad.get_tab, h2]
  simp only [installBank, h1, h2, h3, h4]

/-- A section with a candidate that is not flagged holds a finite set. -/
theorem installSet_finite (old : Coef) (c : Option Coef) (fl : Bool) (hc : c.isSome = true) (h : installFlag fl c = false) : (installSet old c).degenerate = false := by
  cases c with
  | none => cases hc
  | some co =>
    simp only [installFlag] at h
    simp [installSet, h]

/-- The bank after a coefficient step, whatever it was before (41_coefficient_factory.md R124, R126). -/
theorem coefStep_bank (fs : B64) (s : State) :
  let b := (coefStep fs s).bank
  (1 ≤ b.actHp ∧ b.actHp ≤ 4) ∧ (1 ≤ b.actLp ∧ b.actLp ≤ 4) ∧ (b.dgpk = false → b.cpk.degenerate = false)
        ∧ (∀ i : Fin 4, i.val < b.actHp → b.dghp.get i = false → (b.chp.get i).degenerate = false)
        ∧ (∀ i : Fin 4, i.val < b.actLp → b.dglp.get i = false → (b.clp.get i).degenerate = false) := by
  refine ⟨?_, ?_, ?_, ?_, ?_⟩
  · simp only [coefStep, installBank, activeCount]; omega
  · simp only [coefStep, installBank, activeCount]; omega
  · exact fun h => installSet_finite _ _ s.bank.dgpk rfl h
  · intro i hi h
    simp only [coefStep, installBank, installSets, installFlags, Quad.get_tab] at hi h ⊢
    refine installSet_finite _ _ _ ?_ h
    simp [hpCands, Quad.get_tab, hi]
  · intro i hi h
    simp only [coefStep, installBank, installSets, installFlags, Quad.get_tab] at hi h ⊢
    refine installSet_finite _ _ _ ?_ h
    simp [lpCands, Quad.get_tab, hi]

theorem range_map_succ {α} (f : Nat → α) (n : Nat) : (List.range (n + 1)).map f = f 0 :: (List.range n).map (fun i => f (i + 1)) := by
  rw [List.range_succ_eq_map]; simp [Function.comp_def]

theorem chainRun_length (e : FpEnv) (b : Bank) (j : Nat) (xs : List B32) (h : ChanHist) : (chainRun e b j xs h).1.length = xs.length := by
  induction xs generalizing j h with
  | nil => rfl
  | cons x xs ih => simp [chainRun, ih]

/-- The FILT loop is the chain run over the block it reads. -/
theorem filtLoop_spec (e : FpEnv) (b : Bank) (ch : Chan) (n j : Nat) (m : Memory) (h : ChanHist) :
    let xs := (List.range n).map fun i => memRead (e.seq + (j + i)) ch m (j + i)
    (filtLoop e b ch n j (m, h)).2 = (chainRun e b j xs h).2
    ∧ ∀ k, (filtLoop e b ch n j (m, h)).1.read k =
        if j ≤ k ∧ k < j + n then (chainRun e b j xs h).1[k - j]? else m.read k := by
  induction n generalizing j m h with
  | zero =>
    refine ⟨rfl, fun k => ?_⟩
    rw [if_neg (by omega)]; rfl
  | succ n ih =>
    intro xs
    have hxs : xs = memRead (e.seq + j) ch m j :: (List.range n).map (fun i => memRead (e.seq + (j + 1 + i)) ch m (j + 1 + i)) := by
      simp only [xs]; rw [range_map_succ]; simp only [Nat.add_zero, List.cons.injEq, true_and]
      apply List.map_congr_left; intro i _; congr 1 <;> omega
    have step : filtLoop e b ch (n + 1) j (m, h) = filtLoop e b ch n (j + 1)
       (memWrite m j (chain { e with seq := e.seq + j } b h (memRead (e.seq + j) ch m j)).1, (chain { e with seq := e.seq + j } b h (memRead (e.seq + j) ch m j)).2) := rfl
    have := ih (j + 1) (memWrite m j (chain { e with seq := e.seq + j } b h (memRead (e.seq + j) ch m j)).1) (chain { e with seq := e.seq + j } b h (memRead (e.seq + j) ch m j)).2
    have hin : (List.range n).map (fun i => memRead (e.seq + (j + 1 + i)) ch (memWrite m j (chain { e with seq := e.seq + j } b h (memRead (e.seq + j) ch m j)).1) (j + 1 + i)) = (List.range n).map (fun i => memRead (e.seq + (j + 1 + i)) ch m (j + 1 + i)) := by
      apply List.map_congr_left; intro i _
      simp only [memRead, memWrite]; rw [Cells.read_write_ne _ _ (by omega)]
    simp only [hin] at this
    rw [step, hxs]
    obtain ⟨t1, t2⟩ := this
    refine ⟨by rw [t1]; rfl, fun k => ?_⟩
    rw [t2]
    simp only [chainRun]
    by_cases hk : k = j
    · subst hk
      rw [if_neg (by omega), if_pos (by omega)]; simp [memWrite]
    · by_cases hk2 : j + 1 ≤ k ∧ k < j + 1 + n
      · rw [if_pos hk2, if_pos (by omega)]
        rw [show k - j = (k - (j + 1)) + 1 by omega, List.getElem?_cons_succ]
      · rw [if_neg hk2, if_neg (by omega)]; simp only [memWrite]; rw [Cells.read_write_ne _ _ hk]

/-- The RELAY loop stages the samples it reads, in order. -/
theorem relayLoop_fold (c : Config) (seq : Nat) (ch : Chan) (n : Nat) (m : Memory) (k j : Nat) (r : RelayCh) (vs : List B32) (hl : vs.length = k)
    (hv : ∀ i, i < k → m.read (j + i) = vs[i]?) :
    relayLoop c seq ch n m k j r = vs.foldl (relaySample c seq ch n) r := by
  induction k generalizing j r vs with
  | zero => rw [List.length_eq_zero_iff.mp hl]; rfl
  | succ k ih =>
    cases vs with
    | nil => simp at hl
    | cons v vs =>
      simp only [relayLoop, List.foldl_cons]
      have h0 := hv 0 (by omega)
      simp only [Nat.add_zero, List.getElem?_cons_zero] at h0
      rw [memRead_of_read h0]
      apply ih
      · simpa using hl
      · intro i hi
        have := hv (i + 1) (by omega)
        rw [List.getElem?_cons_succ] at this
        rw [← this]; congr 1; omega

theorem filtStep_buf (n : Nat) (s : State) (ch : Chan) : (filtStep n s).buf.get ch = (filtLoop s.env s.bank ch n 0 (s.buf.get ch, s.hist.get ch)).1 := by
  cases ch <;> rfl

theorem filtStep_hist (n : Nat) (s : State) (ch : Chan) : (filtStep n s).hist.get ch = (filtLoop s.env s.bank ch n 0 (s.buf.get ch, s.hist.get ch)).2 := by
  cases ch <;> rfl

theorem processCheck_none {s : State} (h1 : s.prepared = true) (h2 : s.aud.arg0.toNat ≤ s.maxblk) : processCheck s = none := by
  have : ¬ s.maxblk < s.aud.arg0.toNat := by omega
  simp [processCheck, h1, blockArg, this]

theorem coefFaults_iff (fs : B64) (s : State) : coefFaults fs s = true ↔ (s.cfg.degenPolicy = .fault ∧ someDegenerate (designEnv s.cfg) s.cfg fs s.snap = true) := by
  rw [coefFaults, Bool.and_eq_true, decide_eq_true_eq]

/-- What S3 and S4 of PROCESS leave alone. -/
theorem process_frame (n : Nat) (V s : State) (hV : V = { s with snap := V.snap, bank := V.bank }) :
    complete .aud (processBody n V) = { s with snap := V.snap, bank := V.bank, hist := (processBody n V).hist, buf := (processBody n V).buf, relay := (processBody n V).relay, draws := s.draws + n, aud := { s.aud with busy := false, pos := .start } } := by
  generalize V.snap = a at hV; generalize hb : V.bank = b at hV
  subst hV
  rfl

/-- What S3 and S4 of PROCESS write, channel by channel. -/
theorem processBody_parts (n : Nat) (V : State) (ch : Chan) :
   (processBody n V).buf.get ch = (filtLoop V.env V.bank ch n 0 (V.buf.get ch, V.hist.get ch)).1
   ∧ (processBody n V).hist.get ch = (filtLoop V.env V.bank ch n 0 (V.buf.get ch, V.hist.get ch)).2
   ∧ (processBody n V).relay.get ch = relayLoop V.cfg (V.draws + n) ch V.maxblk (filtLoop V.env V.bank ch n 0 (V.buf.get ch, V.hist.get ch)).1 n 0 (V.relay.get ch) := by
  have h1 : (processBody n V).buf = (filtStep n V).buf := rfl
  have h2 : (processBody n V).hist = (filtStep n V).hist := rfl
  refine ⟨by rw [h1, filtStep_buf], by rw [h2, filtStep_hist], ?_⟩
  rw [← filtStep_buf]
  generalize hW : filtStep n V = W
  have e1 : W.draws = V.draws + n := by rw [← hW]; rfl
  have e2 : W.cfg = V.cfg := by rw [← hW]; rfl
  have e3 : W.maxblk = V.maxblk := by rw [← hW]; rfl
  have e4 : W.relay = V.relay := by rw [← hW]; rfl
  unfold processBody
  rw [hW, ← e1, ← e2, ← e3, ← e4]
  cases ch <;> rfl

/-- A bypassed chain. -/
theorem chain_bypass (e : FpEnv) (b : Bank) (h : ChanHist) (x : B32) (h1 : b.bypHp = true) (h2 : b.bypPk = true) (h3 : b.bypLp = true) :
    chain e b h x = (x, h) := by
  simp [chain, cutStage, pkStage, h1, h2, h3]

theorem filtLoop_bypass (e : FpEnv) (b : Bank) (ch : Chan) (n j : Nat) (m : Memory) (h : ChanHist) (h1 : b.bypHp = true) (h2 : b.bypPk = true) (h3 : b.bypLp = true) :
    (filtLoop e b ch n j (m, h)).2 = h ∧ ∀ k v, m.read k = some v → (filtLoop e b ch n j (m, h)).1.read k = some v := by
  induction n generalizing j m with
  | zero => exact ⟨rfl, fun _ _ h => h⟩
  | succ n ih =>
    have step : filtLoop e b ch (n + 1) j (m, h) = filtLoop e b ch n (j + 1) (memWrite m j (memRead (e.seq + j) ch m j), h) := by
      simp only [filtLoop, chain_bypass _ b h _ h1 h2 h3]
    rw [step]
    refine ⟨(ih _ _).1, fun k v hk => (ih _ _).2 k v ?_⟩
    by_cases hkj : k = j
    · subst hkj; rw [memRead_of_read hk]; simp [memWrite]
    · simp only [memWrite]; rw [Cells.read_write_ne _ _ hkj]; exact hk

theorem sectionStep_nan (e : FpEnv) (co : Coef) (h : Hist) (x : B32) (hn : h.hasNan = true ∨ isNan32 x = true) : isNan32 (sectionStep e co h x) = true := by
  simp only [Hist.hasNan, Bool.or_eq_true] at hn
  simp only [sectionStep]
  rcases hn with (((h | h) | h) | h) | h
  · exact isNan32_sub32 _ (.inl (isNan32_sub32 _ (.inl (isNan32_add32 _ (.inl (isNan32_add32 _ (.inr (isNan32_mul32 _ (.inr h)))))))))
  · exact isNan32_sub32 _ (.inl (isNan32_sub32 _ (.inl (isNan32_add32 _ (.inr (isNan32_mul32 _ (.inr h)))))))
  · exact isNan32_sub32 _ (.inl (isNan32_sub32 _ (.inr (isNan32_mul32 _ (.inr h)))))
  · exact isNan32_sub32 _ (.inr (isNan32_mul32 _ (.inr h)))
  · exact isNan32_sub32 _ (.inl (isNan32_sub32 _ (.inl (isNan32_add32 _ (.inl (isNan32_add32 _ (.inl (isNan32_mul32 _ (.inr h)))))))))

theorem sectionStep_finite (e : FpEnv) (co : Coef) (h : Hist) (x : B32) (hn : h.allFinite = false ∨ isFinite32 x = false) : isFinite32 (sectionStep e co h x) = false := by
  simp only [Hist.allFinite, Bool.and_eq_false_iff] at hn
  simp only [sectionStep]
  rcases hn with (((h | h) | h) | h) | h
  · exact isFinite32_sub32 _ (.inl (isFinite32_sub32 _ (.inl (isFinite32_add32 _ (.inl (isFinite32_add32 _ (.inr (isFinite32_mul32 _ (.inr h)))))))))
  · exact isFinite32_sub32 _ (.inl (isFinite32_sub32 _ (.inl (isFinite32_add32 _ (.inr (isFinite32_mul32 _ (.inr h)))))))
  · exact isFinite32_sub32 _ (.inl (isFinite32_sub32 _ (.inr (isFinite32_mul32 _ (.inr h)))))
  · exact isFinite32_sub32 _ (.inr (isFinite32_mul32 _ (.inr h)))
  · exact isFinite32_sub32 _ (.inl (isFinite32_sub32 _ (.inl (isFinite32_add32 _ (.inl (isFinite32_add32 _ (.inl (isFinite32_mul32 _ (.inr h)))))))))

/-- What section k of a cut stage that is not bypassed is given; at 4, the stage's output. -/
def cutIn (e : FpEnv) (act : Nat) (dg : Quad Bool) (co : Quad Coef) (h : Quad Hist) (x : B32) : Nat → B32
  | 0 => x
  | k + 1 =>
    if hk : k < 4 then
      if decide (k < act) && !dg.get ⟨k, hk⟩ then sectionStep e (co.get ⟨k, hk⟩) (h.get ⟨k, hk⟩) (cutIn e act dg co h x k)
      else cutIn e act dg co h x k
    else cutIn e act dg co h x k

/-- The sections of a cut stage as a cascade. -/
theorem cutSections_cascade (e : FpEnv) (act : Nat) (dg : Quad Bool) (co : Quad Coef) (h : Quad Hist) (x : B32) :
    cutSections e act dg co [0, 1, 2, 3] (x, h) =
      (cutIn e act dg co h x 4, Quad.tab fun i => if decide (i.val < act) && !dg.get i then
        (h.get i).shift (cutIn e act dg co h x i.val) (cutIn e act dg co h x (i.val + 1)) else h.get i) := by
  obtain ⟨h0, h1, h2, h3⟩ := h
  obtain ⟨d0, d1, d2, d3⟩ := dg
  simp only [cutSections, cutIn, Quad.tab, Quad.get, Quad.set, runSection, Fin.isValue, Fin.val_zero, Fin.val_one, Fin.val_two,
    show ((3 : Fin 4).val) = 3 from rfl]
  rcases Bool.eq_false_or_eq_true (decide (0 < act) && !d0) with hp0 | hp0 <;>
  rcases Bool.eq_false_or_eq_true (decide (1 < act) && !d1) with hp1 | hp1 <;>
  rcases Bool.eq_false_or_eq_true (decide (2 < act) && !d2) with hp2 | hp2 <;>
  rcases Bool.eq_false_or_eq_true (decide (3 < act) && !d3) with hp3 | hp3 <;>
    (simp only [hp0, hp1, hp2, hp3, if_true, if_false, Bool.false_eq_true]; rfl)

/-- Everything a cut stage does to a sample and to its histories, bypassed or not (42_filter_chain.md R153, R154). -/
theorem cutStage_cascade (e : FpEnv) (byp : Bool) (act : Nat) (dg : Quad Bool) (co : Quad Coef) (h : Quad Hist) (x : B32) :
    ∃ v : Nat → B32, v 0 = x ∧ (cutStage e byp act dg co h x).1 = v 4 ∧ ∀ i : Fin 4,
      ((!byp && decide (i.val < act) && !dg.get i) = true →
          v (i.val + 1) = sectionStep e (co.get i) (h.get i) (v i.val)
          ∧ (cutStage e byp act dg co h x).2.get i = { x1 := v i.val, x2 := (h.get i).x1, y1 := v (i.val + 1), y2 := (h.get i).y1 })
        ∧ ((!byp && decide (i.val < act) && !dg.get i) = false → v (i.val + 1) = v i.val ∧ (cutStage e byp act dg co h x).2.get i = h.get i) := by
  cases byp
  · refine ⟨cutIn e act dg co h x, rfl, ?_, ?_⟩
    · simp only [cutStage, Bool.false_eq_true, if_false, cutSections_cascade]
    · intro i
      simp only [cutStage, Bool.false_eq_true, if_false, cutSections_cascade, Bool.not_false, Bool.true_and]
      have ht : ∀ f : Fin 4 → Hist, (Quad.tab f).get i = f i := by intro f; fin_cases i <;> rfl
      rw [ht]
      constructor
      · intro hc
        rw [if_pos hc]
        have : cutIn e act dg co h x (i.val + 1) = sectionStep e (co.get i) (h.get i) (cutIn e act dg co h x i.val) := by
          rw [cutIn, dif_pos i.isLt, if_pos hc]
        exact ⟨this, rfl⟩
      · intro hc
        rw [if_neg (by simp [hc])]
        refine ⟨?_, rfl⟩
        rw [cutIn, dif_pos i.isLt, if_neg (by simp [hc])]
  · exact ⟨fun _ => x, rfl, by simp [cutStage], fun i => ⟨by simp, fun _ => ⟨rfl, by simp [cutStage]⟩⟩⟩

/-- The sets of sections that are not processed do not matter. -/
theorem cutSections_coef (e : FpEnv) (act : Nat) (dg : Quad Bool) (co co' : Quad Coef) (l : List (Fin 4)) (vh : B32 × Quad Hist)
    (hc : ∀ k : Fin 4, k.val < act → dg.get k = false → co'.get k = co.get k) :
    cutSections e act dg co' l vh = cutSections e act dg co l vh := by
  induction l generalizing vh with
  | nil => rfl
  | cons k l ih =>
    obtain ⟨v, h⟩ := vh
    simp only [cutSections]
    split
    · rename_i hk
      simp at hk
      rw [hc k hk.1 hk.2, ih]
    · exact ih _

/-- The FILT loop keeps the canonical form. -/
theorem filtLoop_wf {cap : Nat} (e b ch) (n j : Nat) (m : Memory) (h : ChanHist) (hm : Memory.wf cap m = true) (hj : j + n ≤ cap) :
    Memory.wf cap (filtLoop e b ch n j (m, h)).1 = true := by
  induction n generalizing j m h with
  | zero => exact hm
  | succ n ih => rw [filtLoop]; exact ih _ _ _ (Memory.wf_memWrite _ _ _ _ hm (by omega)) (by omega)

/-- The RELAY loop keeps the canonical form and the bound of the staging index. -/
theorem relayLoop_stg {cap : Nat} (c : Config) (seq ch) (n : Nat) (m : Memory) (k j : Nat) (r : RelayCh) (hn : n ≤ cap) (hk : k ≤ n)
    (hw : Memory.wf cap r.stg = true) (hi : r.idx < max 1 n) :
    Memory.wf cap (relayLoop c seq ch n m k j r).stg = true ∧ (relayLoop c seq ch n m k j r).idx < max 1 n := by
  induction k generalizing j r with
  | zero => exact ⟨hw, hi⟩
  | succ k ih =>
    rw [relayLoop]
    apply ih _ _ (by omega)
    · unfold relaySample
      have : Memory.wf cap (r.stg.write r.idx (memRead seq ch m j)) = true := Memory.wf_memWrite _ _ _ _ hw (by omega)
      split <;> exact this
    · unfold relaySample; split
      · simp
      · simp; omega

/-- Everything staging does while it does not fill the block (43_relay_fifo.md R198). -/
theorem relaySample_run (c seq ch n) (vs : List B32) (r : RelayCh) (h : r.idx + vs.length < n) :
    (vs.foldl (relaySample c seq ch n) r).fifo = r.fifo ∧ (vs.foldl (relaySample c seq ch n) r).idx = r.idx + vs.length
      ∧ ∀ j, (vs.foldl (relaySample c seq ch n) r).stg.read j
          = if r.idx ≤ j ∧ j < r.idx + vs.length then vs[j - r.idx]? else r.stg.read j := by
  induction vs generalizing r with
  | nil => exact ⟨rfl, rfl, fun j => by rw [if_neg (by simp)]; rfl⟩
  | cons v vs ih =>
    rw [List.foldl_cons]
    simp only [List.length_cons] at h ⊢
    have hr : relaySample c seq ch n r v = { r with stg := r.stg.write r.idx v, idx := r.idx + 1 } := by
      unfold relaySample; rw [if_neg (by omega)]
    rw [hr]
    obtain ⟨a, b, d⟩ := ih { r with stg := r.stg.write r.idx v, idx := r.idx + 1 } (by simp only; omega)
    refine ⟨a, by rw [b]; simp; omega, fun j => ?_⟩
    rw [d j]
    simp only
    by_cases e1 : j = r.idx
    · subst e1
      rw [if_neg (by omega), if_pos (by omega), Cells.read_write_self]; simp
    · rw [Cells.read_write_ne _ _ e1]
      by_cases e2 : r.idx + 1 ≤ j ∧ j < r.idx + 1 + vs.length
      · rw [if_pos e2, if_pos (by omega), show j - r.idx = (j - (r.idx + 1)) + 1 by omega]; simp
      · rw [if_neg e2, if_neg (by omega)]

end Sys2Proof.Machine
end

