-- ==== Sys2Proof/Laws/PerInstr.lean ====
section
/-! SUPPORT. Families of facts that hold of every command, one lemma per constructor of Instr. -/

namespace Sys2Proof.Laws.Encoding

/-- The word of a command has a zero reserved field, the operation code of an operation of the table, and channel, PID and
selector fields that operation accepts; a well-formed command names a port that admits it (30_encoding.md R82 to R87). -/
def Statement (i : Instr) : Prop :=
  ∃ o : Opcode, opcField (encode i) = o.byte ∧ rsvField (encode i) = 0#6 ∧ o.acceptsCh (chField (encode i)) = true
    ∧ (o.takesPid = true ∨ pidField (encode i) = 0#8) ∧ o.acceptsImm (immField (encode i)) = true
    ∧ (i.wf = true → o.admits i.port = true)

theorem nop (p : Port) : Statement (.nop p) := ⟨.nop, by simp [encode, Opcode.byte, Opcode.acceptsCh, Opcode.acceptsImm, Opcode.admits]⟩
theorem prepare : Statement .prepare := ⟨.prepare, by decide⟩
theorem process : Statement .process := ⟨.process, by decide⟩
theorem setp (pid : BitVec 8) : Statement (.setp pid) :=
  ⟨.setp, by simp [encode, Opcode.byte, Opcode.acceptsCh, Opcode.acceptsImm, Opcode.takesPid, Opcode.admits, Instr.port]⟩
theorem rdp (pid : BitVec 8) : Statement (.rdp pid) :=
  ⟨.rdp, by simp [encode, Opcode.byte, Opcode.acceptsCh, Opcode.acceptsImm, Opcode.takesPid, Opcode.admits, Instr.port]⟩
theorem rpoll (c : ChanSel) : Statement (.rpoll c) := ⟨.rpoll, by cases c <;> decide⟩
theorem sdrain (c : ChanSel) : Statement (.sdrain c) := ⟨.sdrain, by cases c <;> decide⟩
theorem rdbin (c : Chan) : Statement (.rdbin c) := ⟨.rdbin, by cases c <;> decide⟩
theorem rdmeta (c : Chan) (sel : MetaSel) : Statement (.rdmeta c sel) := ⟨.rdmeta, by cases c <;> cases sel <;> decide⟩
theorem rdgen (p : Port) : Statement (.rdgen p) := ⟨.rdgen, by cases p <;> decide⟩
theorem rdocc (c : Chan) (sel : OccSel) : Statement (.rdocc c sel) := ⟨.rdocc, by cases c <;> cases sel <;> decide⟩
theorem rdstat (p : Port) : Statement (.rdstat p) := ⟨.rdstat, by cases p <;> decide⟩

end Sys2Proof.Laws.Encoding
end

