-- ==== Sys2Proof/Laws/Run.lean ====
section
/-! SUPPORT. Running the atomic steps of one port with no other agent between them. -/

namespace Sys2Proof.Machine

theorem run_succ (M : Host.Core) (k : Nat) (s t : M.State) (h : M.step s = .next t) : M.run (k + 1) s = M.run k t := by
  rw [Host.Core.run, h]

theorem run_adv {k : Nat} {s : State} {p : Port} {r : List Move} {t : State} (hs : s.sched = .advance p :: r)
    (h : advancePort p { s with sched := r } = .next t) : Sys2Proof.core.run (k + 1) s = Sys2Proof.core.run k t := by
  have : step s = .next t := by rw [step, takeStep, hs]; exact h
  exact run_succ _ _ _ _ this

@[simp] theorem portRegs_sched (s : State) (r : List Move) (p : Port) : ({ s with sched := r } : State).portRegs p = s.portRegs p := by cases p <;> rfl

/-- An idle port takes no step. -/
theorem run_idle (k : Nat) (p : Port) (s : State) (r : List Move) (hs : s.sched = List.replicate k (.advance p) ++ r)
    (hb : (s.portRegs p).busy = false) : Sys2Proof.core.run k s = .next { s with sched := r } := by
  induction k generalizing s with
  | zero => simp only [List.replicate_zero, List.nil_append] at hs; rw [← hs]; rfl
  | succ k ih =>
    rw [List.replicate_succ, List.cons_append] at hs
    rw [run_adv hs (t := { s with sched := List.replicate k (.advance p) ++ r })]
    · rw [ih _ rfl (by simpa using hb)]
    · simp [advancePort, hb]

/-- State X with port p at position pos and k of its steps to come. -/
def atPos (p : Port) (rest : List Move) (X : State) (pos : Pos) (k : Nat) : State := setPos p pos { X with sched := List.replicate k (Move.advance p) ++ rest }

theorem atPos_step {p : Port} {rest : List Move} {X Y : State} {pos : Pos} {k : Nat} (h : advancePort p (atPos p rest X pos k) = .next Y) :
    Sys2Proof.core.run (k + 1) (atPos p rest X pos (k + 1)) = Sys2Proof.core.run k Y :=
  run_adv (p := p) (r := List.replicate k (Move.advance p) ++ rest) (by unfold atPos; rw [setPos_sched]; rfl) (by rw [← h]; unfold atPos; cases p <;> rfl)

theorem atPos_busy {p : Port} {rest X pos k} (hb : (X.portRegs p).busy = true) : ((atPos p rest X pos k).portRegs p).busy = true := by
  unfold atPos; rw [setPos_portRegs_self]; cases p <;> exact hb

theorem atPos_pos {p : Port} {rest X pos k} : ((atPos p rest X pos k).portRegs p).pos = pos := by
  unfold atPos; rw [setPos_portRegs_self]

/-- A port that has completed idles to the end. -/
theorem run_done {p : Port} {rest} {X : State} {k} : Sys2Proof.core.run k (complete p { X with sched := List.replicate k (Move.advance p) ++ rest }) = .next (complete p { X with sched := rest }) := by
  rw [run_idle k p _ rest (by simp) (by simp)]
  cases p <;> rfl

theorem pollBlock_atPos (se ch rest X pos k) : pollBlock se ch (atPos .rnd rest X pos k) = atPos .rnd rest (pollBlock se ch X) pos k := by
  unfold pollBlock
  have : Fifo.pop (atPos .rnd rest X pos k).cfg.cRelay ((atPos .rnd rest X pos k).relay.get ch).fifo (relaySlotDraw (atPos .rnd rest X pos k).draws ch (atPos .rnd rest X pos k).maxblk)
    = Fifo.pop X.cfg.cRelay (X.relay.get ch).fifo (relaySlotDraw X.draws ch X.maxblk) := rfl
  rw [this]
  split
  · rfl
  · cases se <;> rfl

theorem drainOne_atPos (last ch rest X pos k) : drainOne last ch (atPos .rnd rest X pos k) = atPos .rnd rest (drainOne last ch X) pos k := by
  unfold drainOne
  have : Fifo.pop (atPos .rnd rest X pos k).cfg.cSpec ((atPos .rnd rest X pos k).spec.get ch).fifo (specSlotDraw (atPos .rnd rest X pos k).cfg (atPos .rnd rest X pos k).draws ch)
    = Fifo.pop X.cfg.cSpec (X.spec.get ch).fifo (specSlotDraw X.cfg X.draws ch) := rfl
  rw [this]
  split <;> rfl

theorem poll_pops (se ch more rest) (m k : Nat) (X : State) (hb : X.rnd.busy = true) :
    Sys2Proof.core.run (m + 1 + k) (atPos .rnd rest X (.rpollPop se ch m more) (m + 1 + k))
      = Sys2Proof.core.run k (pollNext se more (atPos .rnd rest (pollBlocks se ch (m + 1) X) .start k)) := by
  induction m generalizing X with
  | zero =>
    have : advancePort .rnd (atPos .rnd rest X (.rpollPop se ch 0 more) k) = .next (pollPopStep se ch 0 more (atPos .rnd rest X (.rpollPop se ch 0 more) k)) := by
      unfold advancePort; rw [atPos_busy (p := .rnd) hb, atPos_pos]; rfl
    rw [show 0 + 1 + k = k + 1 by omega, atPos_step this]
    congr 1
    show pollNext se more (pollBlock se ch _) = _
    rw [pollBlock_atPos]
    cases more <;> rfl
  | succ m ih =>
    have : advancePort .rnd (atPos .rnd rest X (.rpollPop se ch (m + 1) more) (m + 1 + k)) = .next (pollPopStep se ch (m + 1) more (atPos .rnd rest X (.rpollPop se ch (m + 1) more) (m + 1 + k))) := by
      unfold advancePort; rw [atPos_busy (p := .rnd) hb, atPos_pos]; rfl
    rw [show m + 1 + 1 + k = (m + 1 + k) + 1 by omega, atPos_step this]
    have e : pollPopStep se ch (m + 1) more (atPos .rnd rest X (.rpollPop se ch (m + 1) more) (m + 1 + k)) = atPos .rnd rest (pollBlock se ch X) (.rpollPop se ch m more) (m + 1 + k) := by
      show setPos .rnd _ (pollBlock se ch _) = _
      rw [pollBlock_atPos]; rfl
    rw [e, ih (pollBlock se ch X) (by rw [pollBlock_rnd]; exact hb)]
    rfl

/-- The count and the pops of one channel of RPOLL. -/
theorem poll_chan (se ch more rest) (k : Nat) (X : State) (hb : X.rnd.busy = true) :
    Sys2Proof.core.run (1 + relayCount X ch + k) (atPos .rnd rest X (.rpollCount se ch more) (1 + relayCount X ch + k))
      = Sys2Proof.core.run k (pollNext se more (atPos .rnd rest (pollChan se X ch) .start k)) := by
  have : ∀ n, advancePort .rnd (atPos .rnd rest X (.rpollCount se ch more) n) = .next (pollCountStep se ch more (atPos .rnd rest X (.rpollCount se ch more) n)) := by
    intro n; unfold advancePort; rw [atPos_busy (p := .rnd) hb, atPos_pos]; rfl
  unfold pollChan
  have hc : ∀ n, relayCount (atPos .rnd rest X (.rpollCount se ch more) n) ch = relayCount X ch := fun n => rfl
  rw [show 1 + relayCount X ch + k = (relayCount X ch + k) + 1 by omega, atPos_step (this _)]
  unfold pollCountStep
  rw [hc]
  cases hm : relayCount X ch with
  | zero => rw [Nat.zero_add]; cases more <;> rfl
  | succ m => exact poll_pops se ch more rest m k X hb

theorem drain_pops (ch more rest) (m k : Nat) (X : State) (hb : X.rnd.busy = true) :
    Sys2Proof.core.run (m + 1 + k) (atPos .rnd rest X (.sdrainPop ch m more) (m + 1 + k))
      = Sys2Proof.core.run k (drainNext more (atPos .rnd rest (drainMany ch (m + 1) X) .start k)) := by
  induction m generalizing X with
  | zero =>
    have : advancePort .rnd (atPos .rnd rest X (.sdrainPop ch 0 more) k) = .next (drainPopStep ch 0 more (atPos .rnd rest X (.sdrainPop ch 0 more) k)) := by
      unfold advancePort; rw [atPos_busy (p := .rnd) hb, atPos_pos]; rfl
    rw [show 0 + 1 + k = k + 1 by omega, atPos_step this]
    congr 1
    show drainNext more (drainOne true ch _) = _
    rw [drainOne_atPos]
    cases more <;> rfl
  | succ m ih =>
    have : advancePort .rnd (atPos .rnd rest X (.sdrainPop ch (m + 1) more) (m + 1 + k)) = .next (drainPopStep ch (m + 1) more (atPos .rnd rest X (.sdrainPop ch (m + 1) more) (m + 1 + k))) := by
      unfold advancePort; rw [atPos_busy (p := .rnd) hb, atPos_pos]; rfl
    rw [show m + 1 + 1 + k = (m + 1 + k) + 1 by omega, atPos_step this]
    have e : drainPopStep ch (m + 1) more (atPos .rnd rest X (.sdrainPop ch (m + 1) more) (m + 1 + k)) = atPos .rnd rest (drainOne false ch X) (.sdrainPop ch m more) (m + 1 + k) := by
      show setPos .rnd _ (drainOne false ch _) = _
      rw [drainOne_atPos]; rfl
    rw [e, ih (drainOne false ch X) (by rw [drainOne_rnd]; exact hb)]
    rfl

theorem drain_countStep (ch more rest) (k : Nat) (X : State) (hb : X.rnd.busy = true) (pos : Pos) :
    Sys2Proof.core.run (specCount X ch + k) (drainCountStep ch more (atPos .rnd rest X pos (specCount X ch + k)))
      = Sys2Proof.core.run k (drainNext more (atPos .rnd rest (drainChan X ch) .start k)) := by
  unfold drainChan
  have hc : ∀ n, specCount (atPos .rnd rest X pos n) ch = specCount X ch := fun n => rfl
  unfold drainCountStep
  rw [hc]
  cases hm : specCount X ch with
  | zero => rw [Nat.zero_add]; cases more <;> rfl
  | succ m => exact drain_pops ch more rest m k X hb

/-- The count and the pops of one channel of SDRAIN. -/
theorem drain_chan (ch more rest) (k : Nat) (X : State) (hb : X.rnd.busy = true) :
    Sys2Proof.core.run (1 + specCount X ch + k) (atPos .rnd rest X (.sdrainCount ch more) (1 + specCount X ch + k))
      = Sys2Proof.core.run k (drainNext more (atPos .rnd rest (drainChan X ch) .start k)) := by
  have : ∀ n, advancePort .rnd (atPos .rnd rest X (.sdrainCount ch more) n) = .next (drainCountStep ch more (atPos .rnd rest X (.sdrainCount ch more) n)) := by
    intro n; unfold advancePort; rw [atPos_busy (p := .rnd) hb, atPos_pos]; rfl
  rw [show 1 + specCount X ch + k = (specCount X ch + k) + 1 by omega, atPos_step (this _)]
  exact drain_countStep ch more rest k X hb _

theorem atPos_snap {rest : List Move} {X : State} {pid : Pid} {k : Nat} (hb : X.aud.busy = true) :
    Sys2Proof.core.run (k + 1) (atPos .aud rest X (.procSnap pid) (k + 1)) = Sys2Proof.core.run k (atPos .aud rest (takeField pid X) (match pid.next? with | some q => .procSnap q | none => .procCoef) k) := by
  apply atPos_step
  unfold advancePort; rw [atPos_busy (p := .aud) hb, atPos_pos]; rfl

theorem takeFields (l : List Pid) (X : State) : l.foldl (fun X p => takeField p X) X = { X with snap := l.foldl (Snap.readField X.env X.sr) X.snap } := by
  induction l generalizing X with
  | nil => rfl
  | cons p l ih => rw [List.foldl_cons, ih, List.foldl_cons]; rfl

/-- FILT and the two relay steps of PROCESS. -/
theorem atPos_filt {rest : List Move} {X : State} (hb : X.aud.busy = true) :
    Sys2Proof.core.run 3 (atPos .aud rest X .procFilt 3) = .next (complete .aud (processBody (blockArg X) { X with sched := rest })) := by
  have s1 : Sys2Proof.core.run 3 (atPos .aud rest X .procFilt 3) = Sys2Proof.core.run 2 (atPos .aud rest (filtStep (blockArg X) X) (.procRelay .left) 2) := by
    apply atPos_step (k := 2)
    unfold advancePort; rw [atPos_busy (p := .aud) hb, atPos_pos]; rfl
  have s2 : ∀ W : State, W.aud.busy = true → Sys2Proof.core.run 2 (atPos .aud rest W (.procRelay .left) 2) = Sys2Proof.core.run 1 (atPos .aud rest (relayChan (blockArg W) .left W) (.procRelay .right) 1) := by
    intro W hb
    apply atPos_step (k := 1)
    unfold advancePort; rw [atPos_busy (p := .aud) hb, atPos_pos]; rfl
  have s3 : ∀ U : State, U.aud.busy = true → Sys2Proof.core.run 1 (atPos .aud rest U (.procRelay .right) 1) = .next (complete .aud (relayChan (blockArg U) .right { U with sched := rest })) := by
    intro U hb
    rw [atPos_step (k := 0) (Y := processRelay .right (atPos .aud rest U (.procRelay .right) 0)) (by unfold advancePort; rw [atPos_busy (p := .aud) hb, atPos_pos]; rfl)]
    rfl
  rw [s1, s2 _ (by rw [filtStep_aud]; exact hb), s3 _ (by rw [relayChan_aud, filtStep_aud]; exact hb)]
  have b1 : blockArg (filtStep (blockArg X) X) = blockArg X := rfl
  have b2 : ∀ n W, blockArg (relayChan n .left W) = blockArg W := fun _ _ => rfl
  rw [b2, b1]
  unfold processBody
  have f : filtStep (blockArg X) { X with sched := rest } = { filtStep (blockArg X) X with sched := rest } := rfl
  rw [f]
  rfl

end Sys2Proof.Machine
end

