-- ==== Sys2Proof/Tests/Slice0.lean ====
section
/-! SUPPORT. Tests of the model. Every expected value is the spec's: a test names the vector of spec/95_test_vectors.md,
or the rule, it takes it from. The last part gives, for each statement of Certificates/Slice0/Obligations.lean that has
hypotheses, a concrete state and operands that meet them (`witness_…`). -/

namespace Sys2Proof.Machine

-- One theorem at a time: `decide +kernel` waits for the theorems before it, and each waiting one holds a thread.
set_option Elab.async false

/-! ### Well-formedness -/

theorem test_wf_rdgen_aud_refused : (Instr.rdgen .aud).wf = false := by decide
theorem test_wf_rdgen_ctl : (Instr.rdgen .ctl).wf = true := by decide

/-- NYQ_RATIO (00_scope.md R6): 0 < r < 0.5, at both ends, negative, and a NaN. -/
theorem test_wf_nyqRatio :
    ({ nyqRatio := 1#64 } : Config).wf = true ∧ ({ nyqRatio := 0x3FDFFFFFFFFFFFFF#64 } : Config).wf = true
      ∧ ({ nyqRatio := 0#64 } : Config).wf = false ∧ ({ nyqRatio := 0x3FE0000000000000#64 } : Config).wf = false
      ∧ ({ nyqRatio := 0xBFDF5C28F5C28F5C#64 } : Config).wf = false
      ∧ ({ nyqRatio := 0x7FF8000000000000#64 } : Config).wf = false := by decide

/-! ### Decoding: the words of V-ENC-1, one or more for each constructor -/

theorem test_decode_nop : ∀ p, decode 0x00000000#32 p = .ok (.nop p) := by intro p; cases p <;> decide
theorem test_decode_prepare : decode 0x01000000#32 .aud = .ok .prepare := by decide
theorem test_decode_process : decode 0x02000000#32 .aud = .ok .process := by decide
theorem test_decode_setp : decode 0x10000100#32 .ctl = .ok (.setp 0x01#8) := by decide
theorem test_decode_setp_bad_pid : decode 0x10000B00#32 .ctl = .ok (.setp 0x0B#8) := by decide
theorem test_decode_rdp : decode 0x11000A00#32 .ctl = .ok (.rdp 0x0A#8) := by decide
theorem test_decode_rpoll :
    decode 0x20000000#32 .rnd = .ok (.rpoll .left) ∧ decode 0x20400000#32 .rnd = .ok (.rpoll .right)
      ∧ decode 0x20800000#32 .rnd = .ok (.rpoll .both) := by decide
theorem test_decode_sdrain : decode 0x21400000#32 .rnd = .ok (.sdrain .right) := by decide
theorem test_decode_rdbin : decode 0x22400000#32 .rnd = .ok (.rdbin .right) := by decide
theorem test_decode_rdmeta : decode 0x23400002#32 .rnd = .ok (.rdmeta .right .binw) := by decide
theorem test_decode_rdgen :
    decode 0x24000000#32 .ctl = .ok (.rdgen .ctl) ∧ decode 0x24000000#32 .rnd = .ok (.rdgen .rnd)
      ∧ decode 0x24000000#32 .aud = .error .wrongPort := by decide
theorem test_decode_rdocc : decode 0x25400001#32 .rnd = .ok (.rdocc .right .spec) := by decide
theorem test_decode_rdstat : ∀ p, decode 0x30000000#32 p = .ok (.rdstat p) := by intro p; cases p <;> decide

/-- The illegal words of V-ENC-1. -/
theorem test_decode_illegal :
    decode 0x01000000#32 .ctl = .error .wrongPort ∧ decode 0x02400000#32 .aud = .error .channel
      ∧ decode 0x03000000#32 .aud = .error .opcode ∧ decode 0x10010100#32 .ctl = .error .reservedBits
      ∧ decode 0x10000101#32 .ctl = .error .imm8 ∧ decode 0x20C00000#32 .rnd = .error .channel
      ∧ decode 0x22800000#32 .rnd = .error .channel ∧ decode 0x23000003#32 .rnd = .error .imm8
      ∧ decode 0x25000002#32 .rnd = .error .imm8 ∧ decode 0x30000001#32 .ctl = .error .imm8
      ∧ decode 0xF0000000#32 .rnd = .error .opcode := by decide

/-- The words of 30_encoding.md R102's examples. -/
theorem test_encode_examples :
    encode (.rpoll .both) = 0x20800000#32 ∧ encode (.rdmeta .right .binw) = 0x23400002#32
      ∧ encode (.setp 0x01#8) = 0x10000100#32 := by decide

/-- The opcode table's rows as the host reads them. -/
theorem test_table_words :
    decodeTableWord 32 0x02000000 = some .process ∧ decodeTableWord 32 0x24000000 = some (.rdgen .ctl)
      ∧ decodeTableWord 32 0x25000001 = some (.rdocc .left .spec) ∧ decodeTableWord 32 0xF0000000 = none := by decide

/-! ### The assembler: V-ENC-2 -/

theorem test_asm_prepare :
    asmLine "aud: PREPARE 48000.0, 512".toList
      = some [⟨.aud, 0x01000000#32, 0x40E7700000000000#64, 0x200#64⟩] := by decide +kernel
theorem test_asm_prepare_44100 :
    asmLine "aud: PREPARE 44100.0, 4".toList = some [⟨.aud, 0x01000000#32, 0x40E5888000000000#64, 4#64⟩] := by
  decide +kernel
theorem test_asm_setp :
    asmLine "ctl: SETP PEAK_GAIN, 6.0 ; comment".toList
      = some [⟨.ctl, 0x10000100#32, 0x40C00000#64, 0#64⟩] := by decide +kernel
theorem test_asm_hpslope : asmLine "HPSLOPE 48".toList = some [⟨.ctl, 0x10000500#32, 3#64, 0#64⟩] := by decide +kernel
theorem test_asm_poll :
    asmLine "POLL".toList = some [⟨.rnd, 0x20800000#32, 0#64, 0#64⟩, ⟨.rnd, 0x21800000#32, 0#64, 0#64⟩] := by
  decide +kernel
/-- Hexadecimal integers (R100) in the pseudo-instructions. -/
theorem test_asm_pseudo_hex :
    asmLine "HPSLOPE 0x30".toList = asmLine "ctl: SETP HP_SLOPE, 3".toList
      ∧ asmLine "SPECEN 0x1".toList = asmLine "ctl: SETP SPEC_EN, 1".toList
      ∧ (asmLine "ctl: SETP HP_SLOPE, 3".toList).isSome ∧ (asmLine "ctl: SETP SPEC_EN, 1".toList).isSome
      ∧ asmLine "HPSLOPE 0x31".toList = none := by decide +kernel
/-- The b of BYPASS, for which R105 states no range, and LR for RDBIN: the word of V-ENC-1 that decodes as illegal. -/
theorem test_asm_bypass_two : asmLine "BYPASS HP, 2".toList = some [⟨.ctl, 0x10000700#32, 2#64, 0#64⟩] := by decide +kernel
theorem test_asm_rdbin_both :
    asmLine "rnd: RDBIN LR, 1".toList = some [⟨.rnd, 0x22800000#32, 1#64, 0#64⟩]
      ∧ asmLine "rnd: RDMETA R, BINW".toList = some [⟨.rnd, 0x23400002#32, 0#64, 0#64⟩]
      ∧ decodeTableWord 32 0x22800000 = none := by decide +kernel
/-- Spellings R100 does not list (95_test_vectors.md P4 and P6). -/
theorem test_asm_prepare_nan :
    asmLine "aud: PREPARE NaN, 4".toList = some [⟨.aud, 0x01000000#32, 0x7FF8000000000000#64, 4#64⟩] := by decide +kernel
theorem test_asm_prepare_exponent :
    asmLine "aud: PREPARE 1e200, 4".toList = some [⟨.aud, 0x01000000#32, 0x6974E718D7D7625A#64, 4#64⟩] := by
  decide +kernel
theorem test_asm_rdbin : asmLine "rnd: RDBIN L, 100".toList = some [⟨.rnd, 0x22000000#32, 0x64#64, 0#64⟩] := by
  decide +kernel

/-! ### Arithmetic and constants -/

/-- R117(a) and V-CF-2: POW10 of a zero of either sign is 1.0. -/
theorem test_pow10_zero : pow10 0#64 = c1 ∧ pow10 0x8000000000000000#64 = c1 := ⟨if_pos (.inl rfl), if_pos (.inr rfl)⟩

/-- The environment of the vectors: FTZ = false. -/
def plainFp : FpEnv := { ftz := false, seq := 0 }

/-- 00_scope.md R15: the constants are the nearest binary64 and binary32 of their decimals. -/
theorem test_constants :
    dec64 false 35875 5 = 0x3FD6F5C28F5C28F6#64 ∧ dec64 false 48829 5 = 0x3FDF4024B33DAF8E#64
      ∧ dec64 false 14128 5 = 0x3FC2157689CA18BD#64 ∧ dec64 false 1168 5 = 0x3F87EBAF102363B2#64
      ∧ dec64 false 49 2 = ({} : Config).nyqRatio ∧ dec32 false 1 1 = qLo ∧ dec32 false 20000 0 = freqHi
      ∧ dec32 true 24 0 = gainLo := by decide +kernel

/-- V-CF-5 and R112: the Nyquist clamp. -/
theorem test_fclamp :
    fclamp plainFp {} (natB64 32000) 0x469C4000#32 = natB64 15680
      ∧ fclamp plainFp {} (natB64 48000) 0x469C4000#32 = natB64 20000 := by decide +kernel

/-- RDMETA BINW of V-SP-7: 48000 / 8192 and 48000 / 8. -/
theorem test_binw :
    div64 plainFp (natB64 48000) (natB64 8192) = 0x4017700000000000#64
      ∧ div64 plainFp (natB64 48000) (natB64 8) = 0x40B7700000000000#64 := by decide +kernel

/-- Square roots: an exact one and a rounded one (the binary64 nearest the root of 2). -/
theorem test_sqrt : sqrt64 plainFp (natB64 9) = natB64 3 ∧ sqrt64 plainFp c2 = 0x3FF6A09E667F3BCD#64 := by decide +kernel

/-! ### Sections: V-BQ -/

/-- The sets pk6, pk0 and hp1 of V-CF-2 and V-CF-3. -/
def pk6 : Coef := ⟨0x3F85A041#32, 0xBFF299DF#32, 0x3F5E230C#32, 0xBFF299DF#32, 0x3F69638F#32⟩
def pk0 : Coef := ⟨0x3F800000#32, 0xBFEE42A2#32, 0x3F60A1E8#32, 0xBFEE42A2#32, 0x3F60A1E8#32⟩
def hp1 : Coef := ⟨0x3F695DBE#32, 0xBFE95DBE#32, 0x3F695DBE#32, 0xBFE85D19#32, 0x3F54BCC8#32⟩

theorem test_bq1 :
    sectionRun plainFp pk6 [0x3F800000#32, 0, 0, 0, 0, 0] .zero
      = [0x3F85A041#32, 0x3DAA9BE0#32, 0x3D974700#32, 0x3D832DDE#32, 0x3D5D6BEA#32, 0x3D347AAE#32] := by decide +kernel
theorem test_bq3 :
    sectionRun plainFp pk0 [0x3E99999A#32, 0xBF333333#32, 0x3DCCCCCD#32, 0x3F666666#32, 0xBE4CCCCD#32, 0x3EE66666#32] .zero
      = [0x3E99999A#32, 0xBF333334#32, 0x3DCCCCC0#32, 0x3F666664#32, 0xBE4CCCD7#32, 0x3EE66662#32] := by decide +kernel
theorem test_bq4a :
    sectionRun plainFp hp1 (List.replicate 6 0x3F800000#32) .zero
      = [0x3F695DBE#32, 0x3F3E45E6#32, 0x3F177B5B#32, 0x3EE9BF20#32, 0x3EAC90B3#32, 0x3E6E0A46#32] := by decide +kernel
/-- V-BQ-5a and V-BQ-6: a processed section loses the sign of zero. -/
theorem test_bq5a_bq6 :
    sectionRun plainFp pk6 [0x80000000#32] .zero = [0#32]
      ∧ sectionRun plainFp ⟨0x3F800000#32, 0, 0, 0, 0⟩ [0x80000000#32] .zero = [0#32] := by decide +kernel
/-- V-BQ-5d: the smallest subnormal, without and with FTZ. -/
theorem test_bq5d :
    sectionRun plainFp pk6 [1#32, 0] .zero = [1#32, 0]
      ∧ sectionRun { ftz := true, seq := 0 } pk6 [1#32, 0] .zero = [0#32, 0] := by decide +kernel
/-- V-BQ-5c: an infinite input. -/
theorem test_bq5c : (sectionRun plainFp pk6 [0x7F800000#32] .zero) = [0x7F800000#32] := by decide +kernel

/-- V-CF-6: the degeneracy of the candidates at FS = 1e200, with a NaN where the table says NaN. -/
theorem test_degenerate :
    Coef.degenerate ⟨0, 0, 0, 0x7FC00000#32, 0x7FC00000#32⟩ = true
      ∧ Coef.degenerate ⟨0x3F800000#32, 0xC0000000#32, 0x3F800000#32, 0xC0000000#32, 0x3F800000#32⟩ = false := by
  decide +kernel

/-! ### FIFOs, staging and the window: V-RL, V-SP -/

/-- V-RL-1 up to step 6, with capacity 2 and the blocks 1, 2, 3, 4 for A, B, C, D. -/
theorem test_fifo :
    let q : Fifo Nat := ⟨[], 0, 0⟩
    let q3 := Fifo.push 2 (Fifo.push 2 (Fifo.push 2 q 1) 2) 3
    (q3.wr, q3.rd, Fifo.count 2 q3) = (2, 0, 2)
      ∧ (Fifo.pop 2 q3 0).map (fun r => (r.1, (Fifo.push 2 r.2 4).wr, (Fifo.push 2 r.2 4).slots)) = some (1, 3, [(0, 4), (1, 2)]) := by
  decide

/-- V-RL-1 steps 7 and 8: the write index wraps to 0 and the count is (0 - 3) mod 4. -/
theorem test_fifo_wrap :
    let q := Fifo.push 2 (⟨[(0, 4), (1, 2)], 3, 3⟩ : Fifo Nat) 5
    (q.wr, Fifo.count 2 q) = (0, 1) ∧ Fifo.pop 2 q 0 = some (5, ⟨[(0, 4), (1, 5)], 0, 0⟩) := by decide

/-- V-RL-2: six samples staged into blocks of four. -/
theorem test_staging :
    let r := [1#32, 2, 3, 11, 12, 13].foldl (relaySample {} 0 .left 4) .reset
    r.idx = 2 ∧ r.fifo.slots = [(0, [1#32, 2, 3, 11])] ∧ r.fifo.wr = 1 := by decide

/-- V-SP-4: shift-in with L = 8. -/
theorem test_shift_in :
    shiftIn 8 (List.replicate 8 0#32) [1, 1, 1, 1] = [0, 0, 0, 0, 1, 1, 1, 1]
      ∧ shiftIn 8 [0, 0, 0, 0, 1, 1, 1, 1] [2, 2, 2, 2] = [1, 1, 1, 1, 2, 2, 2, 2]
      ∧ shiftIn 8 (List.replicate 8 0#32) [0, 1, 2, 3, 4, 5, 6, 7, 8, 9, 10, 11, 12, 13, 14, 15]
          = [8, 9, 10, 11, 12, 13, 14, 15] := by decide

/-- V-SP-5 with HOP = 6 and N = 4: the second block triggers. -/
theorem test_trigger :
    let c : Config := { fftOrder := 3, hop := 6 }
    let sp := SpecCh.reset c 0 0
    (feedBlock plainFp c 0 4 sp [1, 1, 1, 1]).newcnt = 4
      ∧ (feedBlock plainFp c 0 4 { sp with newcnt := 4 } [1, 1, 1, 1]).newcnt = 0
      ∧ (feedBlock plainFp c 0 4 { sp with newcnt := 4 } [1, 1, 1, 1]).fifo.wr = 1 := by decide +kernel

/-- V-SP-2: db(0.0) is the floor. -/
theorem test_db_zero : decibel plainFp {} 0x00000000#32 = 0xC2400000#32 := by decide +kernel

/-! ### Settings, snapshot and faults: V-CT and section 9 -/

/-- Reset with the command registers of a port as a command finds them. -/
def issued (p : Port) (a0 a1 : U64) (s : State) : State :=
  s.setPort p { s.portRegs p with arg0 := a0, arg1 := a1, busy := true }

/-- A field of the next state of an outcome. -/
def after (f : State → α) : Host.Outcome State Fault Refusal → Option α
  | .next s => some (f s)
  | .fault _ => none
  | .refused _ => none

/-- The RDSTAT word after a command (section 9). -/
def statAfter (i : Instr) (s : State) : Option U64 :=
  (after id (exec i s)).bind fun t => after (fun u => u.ctl.res) (exec (.rdstat .ctl) t)

/-- V-CT-2: the snapshot of out-of-range registers. -/
theorem test_clamp :
    let s := { State.reset with
      sr := { Settings.reset with peakFreq := 0x7FC00000#32, peakQ := 0#32, peakGain := 0x42000000#32, hpFreq := 0xFF800000#32,
                                  lpFreq := 0x7F800000#32, hpSlope := 7#32, hpByp := 2#32 } }
    let t := (takeSnapshot s).snap
    t.pf = 0x41A00000#32 ∧ t.pq = 0x3DCCCCCD#32 ∧ t.pg = 0x41C00000#32 ∧ t.hf = 0x41A00000#32 ∧ t.lf = 0x469C4000#32
      ∧ t.hs = 3 ∧ t.hb = false := by decide +kernel

/-- V-CT-1: SETP PEAK_GAIN, 6.0 from reset, and the wrap of GEN. -/
theorem test_setp :
    after (fun t => (t.sr.peakGain, t.gen)) (exec (.setp 0x01#8) (issued .ctl 0x40C00000#64 0 State.reset))
        = some (0x40C00000#32, 1#32)
      ∧ after (fun t => t.gen) (exec (.setp 0x01#8) { State.reset with gen := 0xFFFFFFFF#32 }) = some 0#32 := by decide +kernel

/-- V-CT-1: RDP PEAK_FREQ from reset. -/
theorem test_rdp : after (fun t => t.ctl.res) (exec (.rdp 0x00#8) State.reset) = some 0x447A0000#64 := by decide +kernel

/-- Section 9: one fault each. -/
theorem test_fault_not_prepared : statAfter .process (issued .aud 4 0 State.reset) = some 0x30008#64 := by decide +kernel
theorem test_fault_bad_rate :
    statAfter .prepare (issued .aud 0x7FF8000000000000#64 4 State.reset) = some 0x40010#64
      ∧ statAfter .prepare (issued .aud 0x8000000000000000#64 4 State.reset) = some 0x40010#64 := by decide +kernel
theorem test_fault_bad_maxblock :
    statAfter .prepare (issued .aud 0x40E7700000000000#64 0 State.reset) = some 0x50020#64
      ∧ statAfter .prepare (issued .aud 0x40E7700000000000#64 8193 State.reset) = some 0x50020#64 := by decide +kernel
theorem test_fault_bad_pid : statAfter (.setp 0x0B#8) State.reset = some 0x20004#64 := by decide +kernel
theorem test_fault_illegal :
    after (fun t => t.fstat) (step (placeCommand .ctl 0x01000000#32 State.reset)) = some 2#32 := by decide +kernel

/-- V-SP-7: reads before any snapshot. -/
theorem test_reads_before :
    after (fun t => t.rnd.res) (exec (.rdbin .left) State.reset) = some 0xC2400000#64
      ∧ after (fun t => t.rnd.res) (exec (.rdmeta .left .bins) State.reset) = some 0#64 := by decide +kernel

/-- V-SP-7: RDBIN with k = NBINS. -/
theorem test_fault_bin : after (fun t => t.fstat) (exec (.rdbin .left) (issued .rnd 4096 0 State.reset)) = some 0x100#32 := by
  decide +kernel

/-! ### A prepared machine and PROCESS -/

/-- A small configuration. -/
def tiny : Config := { maxBlkCap := 4, cRelay := 2, cSpec := 2, fftOrder := 1, window := some [0x3F800000#32, 0x3F800000#32] }

/-- A bank of finite sets. -/
def tinyBank : Bank := { Bank.reset 0 with cpk := pk6, chp := Quad.tab fun _ => hp1, clp := Quad.tab fun _ => hp1 }

/-- `tiny` after a PREPARE of blocks of two samples, BUF written. -/
def ready : State :=
  { State.resetWith tiny 0 with
    prepared := true, fs := 0x40E7700000000000#64, maxblk := 2, bank := tinyBank,
    buf := ⟨[(0, 0x80000000#32), (1, 0x7FC00001#32)], [(0, 0x3F800000#32), (1, 0x80800000#32)]⟩ }

/-- `ready` with every stage bypassed. -/
def readyBypassed : State := { ready with sr := { Settings.reset with hpByp := 1#32, pkByp := 1#32, lpByp := 1#32 } }

/-- P1: full bypass is bit-exact, and the relay of each channel holds the block. -/
theorem test_bypass :
    after (fun t => (t.buf, relayCount t .left, t.hist)) (exec .process (issued .aud 2 0 readyBypassed))
      = some (ready.buf, 1, ⟨.zero, .zero⟩) := by decide +kernel

/-- The worked example of R164 on its two first samples, from the installed bank: FILT with only the peak stage. -/
theorem test_filt_peak :
    let s := { ready with bank := { tinyBank with bypHp := true, bypLp := true }, buf := ⟨[(0, 0x3F800000#32), (1, 0)], [(0, 0), (1, 0)]⟩ }
    (filtStep 2 s).buf = ⟨[(0, 0x3F85A041#32), (1, 0x3DAA9BE0#32)], [(0, 0), (1, 0)]⟩ := by decide +kernel

/-- V-BQ-7: hp1 then pk6. -/
theorem test_chain_order :
    (chainRun plainFp { tinyBank with bypLp := true } 0 [0x3F800000#32, 0, 0, 0] .zero).1
      = [0x3F739F93#32, 0xBDCC5F70#32, 0xBDD6C920#32, 0xBDDCC5EE#32] := by decide +kernel

/-- Section 9 and V-CT-3: PREPARE 48000.0, 4 and what RDSTAT says after it, and after a PROCESS 5. -/
theorem test_prepare :
    let s := (after id (exec .prepare (issued .aud 0x40E7700000000000#64 4 State.reset))).getD State.reset
    (s.fs, s.maxblk, s.bank.actHp, s.bank.actLp) = (0x40E7700000000000#64, 4, 1, 1)
      ∧ after (fun t => t.ctl.res) (exec (.rdstat .ctl) s) = some 0x40000000#64
      ∧ statAfter .process (issued .aud 5 0 s) = some 0x40060040#64 := by decide +kernel

/-! ### A machine with blocks waiting -/

/-- Two spectrum snapshots of one bin. -/
def snapA : Spectrum := { db := [0xC0C0A8C1#32], binw := 0x40D7700000000000#64 }
def snapB : Spectrum := { db := [0x40C0A8C1#32], binw := 0x40D7700000000000#64 }

/-- `ready` with one block in the left relay and two snapshots in the left spectrum FIFO. -/
def loaded : State :=
  { ready with
    relay := ⟨{ RelayCh.reset with fifo := { slots := [(0, [0x3F800000#32, 0x40000000#32])], wr := 1, rd := 0 } }, .reset⟩,
    spec := ⟨{ SpecCh.reset tiny 0 0 with fifo := { slots := [(0, snapA), (1, snapB)], wr := 2, rd := 0 } }, .reset tiny 0 1⟩ }

/-- P3's shape: RDOCC before and after RPOLL, and the window after it. -/
theorem test_rpoll :
    let s := (after id (exec (.rpoll .both) loaded)).getD loaded
    after (fun t => t.rnd.res) (exec (.rdocc .left .relay) loaded) = some 1#64
      ∧ after (fun t => t.rnd.res) (exec (.rdocc .left .relay) s) = some 0#64
      ∧ (s.spec.left.win, s.spec.left.newcnt) = ([0x3F800000#32, 0x40000000#32], 0) := by decide +kernel

/-- V-SP-8: with SPEC_EN = 0 RPOLL only empties the relay. -/
theorem test_rpoll_disabled :
    let s := (after id (exec (.rpoll .left) { loaded with sr := { Settings.reset with specEn := 0#32 } })).getD loaded
    relayCount s .left = 0 ∧ s.spec.left.win = [0, 0] ∧ s.spec.left.fifo = loaded.spec.left.fifo := by decide +kernel

/-- P3's shape: SDRAIN keeps the last of the two snapshots, and the reads show it. -/
theorem test_sdrain :
    let s := (after id (exec (.sdrain .left) loaded)).getD loaded
    after (fun t => t.rnd.res) (exec (.rdbin .left) s) = some 0x40C0A8C1#64
      ∧ after (fun t => t.rnd.res) (exec (.rdmeta .left .binw) s) = some 0x40D7700000000000#64
      ∧ after (fun t => t.rnd.res) (exec (.rdmeta .right .valid) s) = some 0#64 ∧ specCount s .left = 0 := by decide +kernel

/-- V-CT-1: RDGEN on both its ports. -/
theorem test_rdgen :
    after (fun t => (t.ctl.res, t.rnd.res)) (exec (.rdgen .ctl) { State.reset with gen := 2#32 }) = some (2#64, 0#64)
      ∧ after (fun t => (t.ctl.res, t.rnd.res)) (exec (.rdgen .rnd) { State.reset with gen := 2#32 }) = some (0#64, 2#64) := by
  decide +kernel

/-- R296: while HALTED, PROCESS completes undecoded at its issue and NOP is issued. -/
theorem test_halted :
    let s := { State.reset with halted := true }
    after (fun t => t.aud.busy) (writeCmd .aud 0x02000000#32 s) = some false
      ∧ after (fun t => t.aud.busy) (writeCmd .aud 0x00000000#32 s) = some true := by decide +kernel

/-- R271: a PREPARE held while RND is busy takes its global step once RND is idle. -/
theorem test_prepare_hold :
    let s := issued .rnd 0 0 (issued .aud 0x40E7700000000000#64 4 State.reset)
    after (fun t => (t.aud.busy, t.aud.pos, t.prepared)) (exec .prepare s) = some (true, .prepHold, false)
      ∧ after (fun t => (t.aud.busy, t.prepared)) (step { s with aud := { s.aud with pos := .prepHold }, rnd := .idle })
          = some (false, true) := by decide +kernel

/-- The host's placing of a word: the very next step runs it, from reset. -/
theorem test_with_fetch_word :
    after (fun t => t.ctl.res) (step (State.reset.withFetchWord 32 0x11000000)) = some 0x447A0000#64
      ∧ after (fun t => t.fstat) (step (State.reset.withFetchWord 32 0x02000000)) = some 8#32 := by decide +kernel

/-! ### Witnesses: concrete states and operands that meet the hypotheses of the statements -/

/-- Port p has just been issued word w on state s. -/
def just (p : Port) (w : U32) (a0 a1 : U64) (s : State) : State :=
  s.setPort p { s.portRegs p with cmd := w, arg0 := a0, arg1 := a1, busy := true, pos := .start }

theorem witness_DecodeOfEncode : (Instr.rdmeta .right .binw).wf = true := by decide

theorem witness_DecodedWordIsItsEncoding : decode 0x25400001#32 .rnd = .ok (.rdocc .right .spec) := by decide

/-- Both clauses: a listed move, and the default port. -/
theorem witness_StepRunsTheDecodedCommand :
    let s := just .ctl 0x10000A00#32 1 0 State.reset
    (s.portRegs .ctl).busy = true ∧ (s.portRegs .ctl).pos = .start ∧ decode (s.portRegs .ctl).cmd .ctl = .ok (.setp 0x0A#8)
      ∧ s.sched = [] ∧ defaultPort s = some .ctl ∧ ({ s with sched := [.run .ctl] } : State).sched = .run .ctl :: [] := by
  decide

theorem witness_PlacedWordRunsNext : decodeTableWord 32 0x23400002 = some (.rdmeta .right .binw) := by decide

theorem witness_IllegalWordIsOnlyRecorded :
    ∀ m ∈ [Move.run .ctl, Move.advance .ctl],
      let s := { just .ctl 0x10010100#32 0 0 State.reset with sched := [m] }
      (s.portRegs .ctl).busy = true ∧ (s.portRegs .ctl).pos = .start
        ∧ decode (s.portRegs .ctl).cmd .ctl = .error .reservedBits ∧ (m = .run .ctl ∨ m = .advance .ctl) ∧ s.sched = m :: [] := by
  decide

/-- The three cases of the busy clause: not HALTED, HALTED with RDSTAT, HALTED with another word. -/
theorem witness_IssueSetsBusyUnlessHalted :
    ∀ (h : Bool) (w : U32), ((h, w) = (false, 0x02000000#32) ∨ (h, w) = (true, 0x30000000#32) ∨ (h, w) = (true, 0x02000000#32)) →
      let s := { State.reset with halted := h, sched := [.writeCmd .aud w] }
      s.halted = h ∧ s.sched = .writeCmd .aud w :: [] ∧ (s.portRegs .aud).busy = false := fun _ _ _ => ⟨rfl, rfl, rfl⟩

theorem witness_IssueProtocolRunsCommand :
    let s := { State.reset with sched := (assemble .process 4 0).moves ++ [] }
    Instr.process.wf = true ∧ (s.portRegs Instr.process.port).busy = false ∧ s.halted = false
      ∧ s.sched = (assemble .process 4 0).moves ++ [] := by decide

/-- A slope that is one, and the ones on either side of the range. -/
theorem witness_PseudoInstructionsExpand :
    (Pseudo.lpSlope 48).expand = some [⟨.ctl, 0x10000600#32, 3#64, 0#64⟩] ∧ (Pseudo.lpSlope 0).expand = none
      ∧ (Pseudo.lpSlope 60).expand = none := by decide

/-- Each clause: a busy and an idle port, and HOST at the last element, past it, and while AUD is busy. -/
theorem witness_AgentAccessRules :
    (State.reset.portRegs .ctl).busy = false ∧ ((issued .ctl 0 0 State.reset).portRegs .ctl).busy = true
      ∧ ({ State.reset with sched := [.writeArg0 .ctl 1] } : State).sched = .writeArg0 .ctl 1 :: []
      ∧ ({ State.reset with sched := [.writeArg1 .ctl 1] } : State).sched = .writeArg1 .ctl 1 :: []
      ∧ ({ State.reset with sched := [.hostWrite .left 8191 1] } : State).sched = .hostWrite .left 8191 1 :: []
      ∧ ({ State.reset with sched := [.hostRead .right 8192] } : State).sched = .hostRead .right 8192 :: []
      ∧ ({ State.reset with sched := [.writeCmd .ctl 1] } : State).sched = .writeCmd .ctl 1 :: []
      ∧ ({ State.reset with sched := [.readRes .ctl] } : State).sched = .readRes .ctl :: []
      ∧ State.reset.aud.busy = false ∧ (issued .aud 0 0 State.reset).aud.busy = true
      ∧ 8191 < State.reset.cfg.maxBlkCap ∧ State.reset.cfg.maxBlkCap ≤ 8192 := by decide

/-- SETP and RDP: the last PID that names a register, and the first that names none. -/
theorem witness_SetpWritesRegisterAndCounts : (0x0A#8).toNat ≤ 10 ∧ 10 < (0x0B#8).toNat := by decide
theorem witness_RdpReturnsStoredValue : (0x00#8).toNat ≤ 10 ∧ 10 < (0xFF#8).toNat := by decide

/-- A read, and a next state of it with the same fault record. -/
theorem witness_ReadsAreIdempotent :
    isRead (.rdbin .left) = true
      ∧ after (fun t => (t.fstat, t.first)) (exec (.rdbin .left) loaded) = some (loaded.fstat, loaded.first) := by
  decide +kernel

/-- A step that changes the settings, and one that does not. -/
theorem witness_OnlySetpChangesSettings :
    (let s := just .ctl 0x10000100#32 0x40C00000 0 State.reset
     ∃ t, step s = .next t ∧ t.gen ≠ s.gen ∧ ∀ rest, s.sched ≠ .hwReset :: rest)
    ∧ (∃ t, step State.reset = .next t ∧ t.gen = State.reset.gen ∧ ∀ rest, State.reset.sched ≠ .hwReset :: rest) :=
  ⟨⟨_, rfl, by decide, fun _ h => by cases h⟩, ⟨_, rfl, rfl, fun _ h => by cases h⟩⟩

/-- The first and the last field read. -/
theorem witness_SnapshotReadsOneFieldPerStep :
    ∀ pid ∈ [Pid.peakFreq, Pid.specEn],
      let s := { ready with aud := { PortRegs.idle with busy := true, pos := .procSnap pid }, sched := [.advance .aud] }
      s.sched = .advance .aud :: [] ∧ s.aud.busy = true ∧ s.aud.pos = .procSnap pid := by decide

/-- A section at the active count's edge on either side. -/
theorem witness_CoefStepInstallsDesigns :
    let s := { ready with snap := { Snap.reset with hs := 1, ls := 2 } }
    (1 : Fin 4).val ≤ s.snap.hs.val ∧ s.snap.hs.val < (2 : Fin 4).val ∧ (2 : Fin 4).val ≤ s.snap.ls.val
      ∧ s.snap.ls.val < (3 : Fin 4).val := by decide

/-- A frequency above the limit of R112 and one below it. -/
theorem witness_CoefStepInstallsDesigns_clamp :
    let lim := mul64 plainFp 0x3FDF5C28F5C28F5C#64 0x40E7700000000000#64
    lt64 lim (toB64 plainFp 0x469C4000#32) = false ∧ lt64 lim (toB64 plainFp 0x47C35000#32) = true := by decide +kernel

/-- R117(a): at the gain 0.0 a peak design exists; whether it is degenerate rests on the configuration functions, and under
the contract of R13 it is not (the next three). -/
theorem witness_CoefStepInstallsDesigns_peak (fs : B64) (pf pg pq : B32) :
    PeakDesign plainFp {} fs pf pg pq (peakCoeffs plainFp {} fs pf pg pq) :=
  ⟨_, _, _, _, _, _, _, _, rfl, rfl, rfl, rfl, rfl, rfl, rfl, rfl, rfl⟩

/-- R129: every bound of a snapshot's ranges meets them, and so do the rates 1.0 and 1e100 and section 3 of order 8. -/
theorem witness_CoefStepInstallsDesigns_ranges :
    (InRange plainFp 0x41A00000#32 0x469C4000#32 0x41A00000#32 ∧ InRange plainFp 0x41A00000#32 0x469C4000#32 0x469C4000#32)
      ∧ (InRange plainFp 0xC1C00000#32 0x41C00000#32 0xC1C00000#32 ∧ InRange plainFp 0xC1C00000#32 0x41C00000#32 0x80000000#32)
      ∧ (InRange plainFp 0x3DCCCCCD#32 0x41200000#32 0x3DCCCCCD#32 ∧ InRange plainFp 0x3DCCCCCD#32 0x41200000#32 0x41200000#32)
      ∧ (isFinite64 0x3FF0000000000000#64 = true ∧ lt64 0x3FF0000000000000#64 0x3FF0000000000000#64 = false
          ∧ lt64 0x54B249AD2594C37D#64 0x3FF0000000000000#64 = false)
      ∧ (isFinite64 0x54B249AD2594C37D#64 = true ∧ lt64 0x54B249AD2594C37D#64 0x3FF0000000000000#64 = false
          ∧ lt64 0x54B249AD2594C37D#64 0x54B249AD2594C37D#64 = false)
      ∧ ({} : Config).nyqRatio = 0x3FDF5C28F5C28F5C#64 ∧ 4 ≤ 4 ∧ 3 < 4 := by
  simp only [InRange]; decide +kernel

/-- The contract is not empty: some five functions meet it. -/
theorem witness_CoefStepInstallsDesigns_contract : ∃ sin cos tan pow log, MathContractOf sin cos tan pow log :=
  let ⟨sin, cos, tan, pow, log, h, _⟩ := mathContractOf_satisfiable
  ⟨sin, cos, tan, pow, log, h⟩

/-- The largest block size. -/
theorem witness_PrepareTakesItsGlobalStep :
    let s := issued .aud 0x40E7700000000000#64 8192 State.reset
    isFinite64 s.aud.arg0 = true ∧ lt64 0#64 s.aud.arg0 = true ∧ 1 ≤ s.aud.arg1.toNat
      ∧ s.aud.arg1.toNat ≤ s.cfg.maxBlkCap ∧ s.rnd.busy = false := by decide +kernel

/-- An infinite rate, -0.0, and the block sizes on either side of the range. -/
theorem witness_PrepareRejectsBadArguments :
    isFinite64 (issued .aud 0x7FF0000000000000#64 4 State.reset).aud.arg0 = false
      ∧ lt64 0#64 (issued .aud 0x8000000000000000#64 4 State.reset).aud.arg0 = false
      ∧ isFinite64 0x40E7700000000000#64 = true ∧ lt64 0#64 0x40E7700000000000#64 = true := by decide +kernel
theorem witness_PrepareRejectsBadArguments_size :
    (let s := issued .aud 0x40E7700000000000#64 0 State.reset
     s.aud.arg0 = 0x40E7700000000000#64 ∧ s.aud.arg1 = 0#64)
    ∧ (let s := issued .aud 0x40E7700000000000#64 8193 State.reset
       s.aud.arg0 = 0x40E7700000000000#64 ∧ s.cfg.maxBlkCap < s.aud.arg1.toNat) :=
  ⟨⟨rfl, rfl⟩, rfl, by decide⟩

theorem witness_PrepareHoldsForRnd_issued :
    let s := { issued .aud 0x40E7700000000000#64 8192 State.reset with rnd := { PortRegs.idle with busy := true } }
    isFinite64 s.aud.arg0 = true ∧ lt64 0#64 s.aud.arg0 = true ∧ 1 ≤ s.aud.arg1.toNat
      ∧ s.aud.arg1.toNat ≤ s.cfg.maxBlkCap ∧ s.rnd.busy = true := by decide +kernel
theorem witness_PrepareHoldsForRnd :
    ∀ b ∈ [true, false],
      let s := { State.reset with
        aud := { PortRegs.idle with arg0 := 0x40E7700000000000#64, arg1 := 4, busy := true, pos := .prepHold },
        rnd := { PortRegs.idle with busy := b }, sched := [.advance .aud] }
      s.aud.busy = true ∧ s.aud.pos = .prepHold ∧ s.sched = .advance .aud :: [] ∧ s.rnd.busy = b ∧ prepareCheck s = none := by
  decide +kernel

/-- PREPARE completes on a state whose RND is idle. -/
theorem witness_PrepareTwiceIsOnce :
    ∃ t, exec .prepare (issued .aud 0x40E7700000000000#64 4 State.reset) = .next t ∧ t.prepared = true := by
  have h : (after (fun t => t.prepared) (exec .prepare (issued .aud 0x40E7700000000000#64 4 State.reset))) = some true := by
    decide +kernel
  revert h
  cases exec .prepare (issued .aud 0x40E7700000000000#64 4 State.reset) with
  | next t => intro h; exact ⟨t, rfl, by simpa [after] using h⟩
  | fault _ => intro h; cases h
  | refused _ => intro h; cases h

/-- A block of MAXBLK samples, and one sample more. -/
theorem witness_ProcessFiltersInPlace : ready.prepared = true ∧ (issued .aud 2 0 ready).aud.arg0.toNat ≤ ready.maxblk := by decide
theorem witness_ProcessChecksFirst :
    State.reset.prepared = false ∧ ready.prepared = true ∧ ready.maxblk < (issued .aud 3 0 ready).aud.arg0.toNat := by decide
theorem witness_ProcessZeroInstallsOnly :
    ready.prepared = true ∧ ready.aud.arg0 = 0#64
      ∧ ¬ (ready.cfg.degenPolicy = .fault
            ∧ someDegenerate (designEnv ready.cfg) ready.cfg ready.fs (takeSnapshot ready).snap = true) :=
  ⟨rfl, rfl, fun h => by have h1 := h.1; revert h1; decide⟩
theorem witness_NopOnlyCompletes :
    let s := { State.reset with halted := true, sched := [.writeCmd .rnd 0x00000000#32] }
    (s.portRegs .rnd).busy = false ∧ s.sched = .writeCmd .rnd 0x00000000#32 :: [] := by decide
theorem witness_RdgenReturnsGeneration : Port.ctl ≠ .aud ∧ Port.rnd ≠ .aud := by decide

theorem witness_FullBypassIsIdentity :
    readyBypassed.sr.hpByp.getLsbD 0 = true ∧ readyBypassed.sr.pkByp.getLsbD 0 = true ∧ readyBypassed.sr.lpByp.getLsbD 0 = true
      ∧ (readyBypassed.buf.get .left).read 1 = some 0x7FC00001#32 := by decide

/-- The first clause on two states that differ in the other channel, the second on equal channels. -/
theorem witness_ChannelsAreIndependent :
    (let r := { ready with buf := ⟨ready.buf.left, []⟩ }
     r.cfg = ready.cfg ∧ r.bank = ready.bank ∧ r.draws = ready.draws ∧ r.buf.get .left = ready.buf.get .left
       ∧ r.hist.get .left = ready.hist.get .left)
    ∧ (let s := { ready with buf := ⟨ready.buf.left, ready.buf.left⟩ }
       s.hist.left = s.hist.right ∧ ∀ j, j < 2 → ∃ v, s.buf.left.read j = some v ∧ s.buf.right.read j = some v) := by
  refine ⟨⟨rfl, rfl, rfl, rfl, rfl⟩, rfl, fun j hj => ?_⟩
  obtain rfl | rfl : j = 0 ∨ j = 1 := by omega
  · exact ⟨_, rfl, rfl⟩
  · exact ⟨_, rfl, rfl⟩

/-- A section below the active count, one at it, one flagged; and another bank that agrees where it must. -/
theorem witness_CutStageRunsActiveSections :
    let dg : Quad Bool := ⟨false, true, false, false⟩
    let co : Quad Coef := Quad.tab fun _ => hp1
    let co' : Quad Coef := ⟨hp1, pk6, pk6, pk6⟩
    ((0 : Fin 4).val < 2 ∧ dg.get 0 = false) ∧ 2 ≤ (2 : Fin 4).val ∧ dg.get 1 = true
      ∧ (∀ k : Fin 4, k.val < 2 → dg.get k = false → co'.get k = co.get k) := by decide
/-- The first and the last section, processed and not. -/
theorem witness_CutStageRunsActiveSections_chain :
    let b : Bank := { Bank.reset 0 with actLp := 4, bypHp := true }
    Sec.all[0]? = some (.hp 0) ∧ b.processes (.hp 0) = false ∧ Sec.all[8]? = some (.lp 3) ∧ b.processes (.lp 3) = true
      ∧ b.processes .pk = true := by decide

/-- A NaN and an infinity, as input and in the history. -/
theorem witness_NonFinitePoisonsSection :
    isNan32 0x7FC00001#32 = true ∧ isFinite32 0xFF800000#32 = false ∧ ({ Hist.zero with y2 := 0x7FC00001#32 } : Hist).hasNan = true
      ∧ ({ Hist.zero with x1 := 0x7F800000#32 } : Hist).allFinite = false := by decide

theorem witness_ProcessStepsMakeExec :
    let s := { just .aud 0x02000000#32 2 0 ready with sched := List.replicate 16 (Move.advance .aud) ++ [] }
    s.aud.busy = true ∧ s.aud.pos = .start ∧ decode s.aud.cmd .aud = .ok .process
      ∧ s.sched = List.replicate 16 (Move.advance .aud) ++ [] := by decide

/-- One sample short of a block, and a full one. -/
theorem witness_StagingPublishesFullBlocks :
    let r : RelayCh := { RelayCh.reset with idx := 2, stg := [(0, 1), (1, 2)] }
    (0 < [3#32].length ∧ r.idx < 4 ∧ [3#32].length ≤ 4 ∧ r.idx + [3#32].length < 4)
      ∧ (0 < [3#32, 4#32].length ∧ [3#32, 4#32].length ≤ 4 ∧ 4 ≤ r.idx + [3#32, 4#32].length ∧ r.stg.read 1 = some 2) := by
  decide

/-! The FIFOs of `loaded`. -/

theorem fifo_empty_wf (ok : α → Prop) : Fifo.wf 2 ok ⟨[], 0, 0⟩ := by
  simp [Fifo.wf, Fifo.count, Cells.wf, Cells.below]

theorem fifo_one_wf (ok : α → Prop) (a : α) (ha : ok a) : Fifo.wf 2 ok ⟨[(0, a)], 1, 0⟩ := by
  simpa [Fifo.push, Fifo.count, Cells.write] using Fifo.wf_push (c := 2) (by decide) (fifo_empty_wf ok) ha

theorem fifo_two_wf (ok : α → Prop) (a b : α) (ha : ok a) (hb : ok b) : Fifo.wf 2 ok ⟨[(0, a), (1, b)], 2, 0⟩ := by
  simpa [Fifo.push, Fifo.count, Cells.write] using Fifo.wf_push (c := 2) (by decide) (fifo_one_wf ok a ha) hb

/-- A FIFO with room, a full one, an empty one. -/
theorem witness_FifoIsBoundedQueue :
    Fifo.wf 2 (fun _ => True) (⟨[(0, 7)], 1, 0⟩ : Fifo Nat) ∧ Fifo.count 2 (⟨[(0, 7)], 1, 0⟩ : Fifo Nat) < 2
      ∧ Fifo.wf 2 (fun _ => True) (⟨[(0, 7), (1, 8)], 2, 0⟩ : Fifo Nat) ∧ Fifo.count 2 (⟨[(0, 7), (1, 8)], 2, 0⟩ : Fifo Nat) = 2
      ∧ Fifo.pop 2 (⟨[], 0, 0⟩ : Fifo Nat) 0 = none
      ∧ Fifo.pop 2 (⟨[(0, 7)], 1, 0⟩ : Fifo Nat) 0 = some (7, ⟨[(0, 7)], 1, 1⟩) :=
  ⟨fifo_one_wf _ _ trivial, by decide, fifo_two_wf _ _ _ trivial trivial, by decide, by decide, by decide⟩

/-- `loaded` with the other fields of a state set so that every invariant has something to say: PROCESS 2 on AUD has
passed its checks, RND is in the first pop of an RPOLL, and a fault is on record. -/
def midway : State :=
  { loaded with
    aud := { PortRegs.idle with cmd := 0x02000000#32, arg0 := 2, busy := true, pos := .procFilt },
    rnd := { PortRegs.idle with cmd := 0x20800000#32, busy := true, pos := .rpollPop true .left 0 [.right] },
    fstat := 0x28#32, first := 3#32 }

theorem wf_tiny : tiny.wf = true := by decide

theorem loaded_fifos (s : State) (hc : s.cfg = tiny) (hr : s.relay = loaded.relay) (hs : s.spec = loaded.spec)
    (hm : s.maxblk = 2) (h1 : ∀ se ch more rest, s.rnd.pos = .rpollPop se ch more rest → ch = .left ∧ more = 0)
    (h2 : ∀ ch more rest, s.rnd.pos ≠ .sdrainPop ch more rest) : FifoInv s := by
  refine ⟨fun ch => ?_, fun se ch more rest _ e => ?_, fun ch more rest _ e => absurd e (h2 ch more rest)⟩
  · rw [hr, hs, hc, hm]
    cases ch
    · exact ⟨fifo_one_wf _ _ rfl, fifo_two_wf _ _ _ rfl rfl⟩
    · exact ⟨fifo_empty_wf _, fifo_empty_wf _⟩
  · obtain ⟨rfl, rfl⟩ := h1 se ch more rest e
    rw [relayCount, hr, hc]; decide

theorem loaded_spectrum (s : State) (hc : s.cfg = tiny) (hs : s.spec = loaded.spec) : SpectrumInv s := by
  intro ch; rw [hs, hc]; cases ch <;> decide

theorem midway_inv : Inv midway := by
  refine ⟨wf_tiny, ?_, ?_, ?_, ?_, ?_, ?_, loaded_spectrum _ rfl rfl⟩
  · intro p; cases p <;> decide
  · exact ⟨by decide, by decide, by decide, by decide, fun h => by cases h⟩
  · refine ⟨by decide, by decide, fun _ => ⟨fun _ => by decide +kernel, fun i _ _ => ?_, fun i _ _ => ?_⟩⟩
    · revert i; decide +kernel
    · revert i; decide +kernel
  · exact ⟨by decide, by decide, fun _ => by decide +kernel, fun _ => by decide, fun h => by cases h⟩
  · intro ch; cases ch <;> decide
  · exact loaded_fifos _ rfl rfl rfl rfl (fun _ _ _ _ e => by cases e; exact ⟨rfl, rfl⟩) (fun _ _ _ e => by cases e)

theorem loaded_fifoInv : FifoInv loaded :=
  loaded_fifos _ rfl rfl rfl rfl (fun _ _ _ _ e => by cases e) (fun _ _ _ e => by cases e)

/-- SPEC_EN on and off. -/
theorem witness_RpollDrainsRelays :
    loaded.cfg.wf = true ∧ FifoInv loaded ∧ SpectrumInv loaded ∧ loaded.sr.specEn.getLsbD 0 = true
      ∧ ({ loaded with sr := { Settings.reset with specEn := 2#32 } } : State).sr.specEn.getLsbD 0 = false :=
  ⟨wf_tiny, loaded_fifoInv, loaded_spectrum _ rfl rfl, by decide, by decide⟩

/-- `loaded` with a second block in the left relay, in a pop step of an RPOLL. -/
def polling (hop more : Nat) (chs : List Chan) : State :=
  { loaded with
    cfg := { tiny with hop := hop },
    relay := loaded.relay.set .left
      { RelayCh.reset with fifo := { slots := [(0, [0x3F800000#32, 0x40000000#32]), (1, [0#32, 1#32])], wr := 2, rd := 0 } },
    rnd := { PortRegs.idle with cmd := 0x20800000#32, busy := true, pos := .rpollPop true .left more chs },
    sched := [.advance .rnd] }

/-- The last pop of an RPOLL, the last of its first channel, and one with another after it; a HOP that the block reaches
and one that it misses by one sample. -/
theorem witness_PolledBlockTriggersTransform :
    ∀ hop ∈ [2, 3], ∀ more ∈ [0, 1], ∀ chs ∈ [[], [Chan.right]],
      let s := polling hop more chs
      s.cfg.wf = true ∧ FifoInv s ∧ s.rnd.busy = true ∧ s.rnd.pos = .rpollPop true .left more chs ∧ s.sched = .advance .rnd :: []
        ∧ ((s.spec.get .left).newcnt + s.maxblk < s.cfg.hop ↔ hop = 3) := by
  intro hop hh more hm chs _
  have hw : ∀ h ∈ [2, 3], ({ tiny with hop := h } : Config).wf = true ∧ (2 < h ↔ h = 3) := by decide
  have hc : more < 2 := (by decide : ∀ m ∈ [0, 1], m < 2) more hm
  refine ⟨(hw hop hh).1, ⟨fun ch => ?_, fun se ch more rest _ e => ?_, fun ch more rest _ e => by cases e⟩, rfl, rfl, rfl, ?_⟩
  · cases ch
    · exact ⟨fifo_two_wf _ _ _ rfl rfl, fifo_two_wf (fun b : Spectrum => b.db.length = tiny.nbins) _ _ rfl rfl⟩
    · exact ⟨fifo_empty_wf _, fifo_empty_wf _⟩
  · cases e
    have h : relayCount (polling hop more chs) .left = 2 := by simp [relayCount, polling, Fifo.count, tiny, Stereo.set, Stereo.get]
    exact h ▸ hc
  · simpa [polling, loaded, ready, Stereo.get, SpecCh.reset] using (hw hop hh).2

/-- The last element of the kept part, the first of the block, and a block as long as the window. -/
theorem witness_ShiftInIsRingShift :
    (List.replicate 4 0#32).length = 4 ∧ 1 < 4 - [1#32, 2].length ∧ ¬ 2 < 4 - [1#32, 2].length
      ∧ 4 ≤ (List.replicate 4 1#32).length := by decide

/-- -0.0, a NaN, and the least positive number. -/
theorem witness_DecibelKeepsFloor :
    lt32 plainFp 0#32 0x80000000#32 = false ∧ lt32 plainFp 0#32 0x7FC00001#32 = false ∧ lt32 plainFp 0#32 1#32 = true := by
  decide +kernel

/-- A channel with snapshots waiting and one with none. -/
theorem witness_SdrainKeepsNewest :
    loaded.cfg.wf = true ∧ FifoInv loaded ∧ (waitingSpectra loaded .left).getLast? = some snapB
      ∧ (waitingSpectra loaded .right).getLast? = none := ⟨wf_tiny, loaded_fifoInv, by decide, by decide⟩

theorem witness_RpollStepsMakeExec :
    let s := { just .rnd 0x20800000#32 0 0 loaded with sched := List.replicate (1 + 2 * (1 + 2)) (Move.advance .rnd) ++ [] }
    s.cfg.wf = true ∧ FifoInv s ∧ s.rnd.busy = true ∧ s.rnd.pos = .start ∧ decode s.rnd.cmd .rnd = .ok (.rpoll .both)
      ∧ s.sched = List.replicate (1 + 2 * (1 + s.cfg.cRelay)) (Move.advance .rnd) ++ [] :=
  ⟨wf_tiny, loaded_fifos _ rfl rfl rfl rfl (fun _ _ _ _ e => by cases e) (fun _ _ _ e => by cases e), rfl, rfl, by decide, rfl⟩

theorem witness_SdrainStepsMakeExec :
    let s := { just .rnd 0x21400000#32 0 0 loaded with sched := List.replicate (2 * (1 + 2)) (Move.advance .rnd) ++ [] }
    s.cfg.wf = true ∧ FifoInv s ∧ s.rnd.busy = true ∧ s.rnd.pos = .start ∧ decode s.rnd.cmd .rnd = .ok (.sdrain .right)
      ∧ s.sched = List.replicate (2 * (1 + s.cfg.cSpec)) (Move.advance .rnd) ++ [] :=
  ⟨wf_tiny, loaded_fifos _ rfl rfl rfl rfl (fun _ _ _ _ e => by cases e) (fun _ _ _ e => by cases e), rfl, rfl, by decide, rfl⟩

/-- `loaded` with a valid LATEST on the left and none on the right. -/
def latestLoaded : State :=
  { loaded with spec := loaded.spec.set .left { loaded.spec.left with latest := { valid := true, db := [0x40C0A8C1#32], binw := 1 } } }

/-- The last bin and the first that does not exist; a valid LATEST and none. -/
theorem witness_RdbinReadsLatest :
    ((latestLoaded.spec.get .left).latest.valid = true ∧ (latestLoaded.spec.get .left).latest.db.length = latestLoaded.cfg.nbins)
      ∧ (latestLoaded.spec.get .right).latest.valid = false ∧ latestLoaded.rnd.arg0.toNat < latestLoaded.cfg.nbins
      ∧ latestLoaded.cfg.nbins ≤ (issued .rnd 1 0 latestLoaded).rnd.arg0.toNat := by decide

theorem witness_RdmetaReadsMetadata :
    (latestLoaded.spec.get .right).latest.valid = false ∧ (latestLoaded.spec.get .left).latest.valid = true := by decide

theorem witness_RdoccReadsCount :
    (loaded.relay.get .left).fifo.rd < 2 * loaded.cfg.cRelay ∧ 2 * loaded.cfg.cRelay ≤ 2 ^ 64
      ∧ (loaded.spec.get .left).fifo.rd < 2 * loaded.cfg.cSpec ∧ 2 * loaded.cfg.cSpec ≤ 2 ^ 64 := by decide

/-- The hypotheses of the whole-machine statements together: `midway` meets every invariant, and its step (the default
port, RND, takes its pop) answers a next state; its fault record is not empty and it is no hardware reset. -/
theorem witness_InvariantIsKept :
    Inv midway ∧ (∃ t, step midway = .next t) ∧ (∀ rest, midway.sched ≠ .hwReset :: rest)
      ∧ midway.fstat.getLsbD 3 = true ∧ midway.first ≠ 0#32 :=
  ⟨midway_inv, ⟨_, rfl⟩, fun _ h => (by cases h), by decide, by decide⟩

/-- A HALTED machine whose step answers a next state. -/
theorem witness_FaultRecordIsSticky :
    let s := { State.reset with halted := true, fstat := 0x80#32, first := 7#32, sched := [.writeCmd .ctl 0x30000000#32] }
    (∃ t, step s = .next t) ∧ (∀ rest, s.sched ≠ .hwReset :: rest) ∧ s.fstat.getLsbD 7 = true ∧ s.first ≠ 0#32 ∧ s.halted = true :=
  ⟨⟨_, rfl⟩, fun _ h => (by cases h), by decide, by decide, rfl⟩

theorem witness_CommandsKeepToTheirState : ∃ t, exec (.setp 0x00#8) loaded = .next t := ⟨_, rfl⟩
theorem witness_ConfigurationIsFixed : ∃ t, step { loaded with sched := [.hwReset] } = .next t := ⟨_, rfl⟩
theorem witness_PositionsStayLegal : PortInv midway ∧ ∃ t, step midway = .next t := ⟨midway_inv.2.1, _, rfl⟩
theorem witness_FaultRecordStaysLegal : FaultInv midway ∧ ∃ t, step midway = .next t := ⟨midway_inv.2.2.1, _, rfl⟩
theorem witness_ProcessedSetsStayFinite : BankInv midway ∧ midway.prepared = true ∧ ∃ t, step midway = .next t :=
  ⟨midway_inv.2.2.2.1, rfl, _, rfl⟩
theorem witness_TransportStaysLegal : PortInv midway ∧ TransportInv midway ∧ inProcess midway.aud.pos = true ∧ ∃ t, step midway = .next t :=
  ⟨midway_inv.2.1, midway_inv.2.2.2.2.1, rfl, _, rfl⟩
theorem witness_MemoryStaysCanonical :
    midway.cfg.wf = true ∧ PortInv midway ∧ TransportInv midway ∧ MemoryInv midway ∧ ∃ t, step midway = .next t :=
  ⟨wf_tiny, midway_inv.2.1, midway_inv.2.2.2.2.1, midway_inv.2.2.2.2.2.1, _, rfl⟩
theorem witness_FifosStayLegal : midway.cfg.wf = true ∧ PortInv midway ∧ FifoInv midway ∧ ∃ t, step midway = .next t :=
  ⟨wf_tiny, midway_inv.2.1, midway_inv.2.2.2.2.2.2.1, _, rfl⟩
theorem witness_SpectrumStaysLegal : midway.cfg.wf = true ∧ SpectrumInv midway ∧ ∃ t, step midway = .next t :=
  ⟨wf_tiny, midway_inv.2.2.2.2.2.2.2, _, rfl⟩
theorem witness_WideningIsExact : isNan32 0x3F800000#32 = false ∧ isNan32 0x00000001#32 = false := by decide
/-- A sum that is zero, a quotient that is one, a division by -0.0, one of 0.0 by -0.0, under FTZ with a subnormal; the root
of 1.0, of -0.0 and of -1.0. -/
theorem witness_OperationsRoundToNearest :
    let e : FpEnv := { ftz := true, seq := 0 }
    (∃ p q, (e.num32 0x3F800000#32).toRat? = some p ∧ (e.num32 0xBF800000#32).toRat? = some q ∧ p + q = 0 ∧ p - p = 0 ∧ q ≠ 0)
      ∧ (∃ p q, (e.num32 0x3F800000#32).toRat? = some p ∧ (e.num32 0x80000000#32).toRat? = some q ∧ q = 0 ∧ p ≠ 0)
      ∧ (∃ p q, (e.num32 0x00000001#32).toRat? = some p ∧ (e.num32 0x80000000#32).toRat? = some q ∧ q = 0 ∧ p = 0)
      ∧ (∃ p q, (num64 0x3FF0000000000000#64).toRat? = some p ∧ (num64 0xBFF0000000000000#64).toRat? = some q
          ∧ p + q = 0 ∧ q ≠ 0 ∧ 0 ≤ p ∧ q < 0)
      ∧ (∃ p, (num64 0x8000000000000000#64).toRat? = some p ∧ 0 ≤ p ∧ p = 0) := by
  intro e
  have h1 : e.num32 0x3F800000#32 = .fin false 8388608 (-23) := by decide
  have h2 : e.num32 0xBF800000#32 = .fin true 8388608 (-23) := by decide
  have h3 : e.num32 0x80000000#32 = .fin true 0 (-149) := by decide
  have h4 : e.num32 0x00000001#32 = .fin false 0 (-149) := by decide
  have h5 : num64 0x3FF0000000000000#64 = .fin false 4503599627370496 (-52) := by decide
  have h6 : num64 0xBFF0000000000000#64 = .fin true 4503599627370496 (-52) := by decide
  have h7 : num64 0x8000000000000000#64 = .fin true 0 (-1074) := by decide
  rw [h1, h2, h3, h4, h5, h6, h7]
  refine ⟨⟨_, _, rfl, rfl, ?_, ?_, ?_⟩, ⟨_, _, rfl, rfl, ?_, ?_⟩, ⟨_, _, rfl, rfl, ?_, ?_⟩, ⟨_, _, rfl, rfl, ?_, ?_, ?_, ?_⟩,
    ⟨_, rfl, ?_, ?_⟩⟩ <;> norm_num
/-- The order on an infinity, a subnormal under FTZ, and a NaN (O6's comparison clauses). -/
theorem witness_OperationsRoundToNearest_order :
    let e : FpEnv := { ftz := true, seq := 0 }
    (e.num32 0x7F800000#32).HasValue ⊤ ∧ (e.num32 0x00000001#32).HasValue 0 ∧ (num64 0xFFF0000000000000#64).HasValue ⊥
      ∧ isNan32 0x7FC00001#32 = true ∧ isNan64 0x7FF8000000000001#64 = true
      ∧ lt32 e 0x00000001#32 0x7F800000#32 = true ∧ lt32 e 0x00000000#32 0x00000001#32 = false := by
  intro e
  have h1 : e.num32 0x7F800000#32 = .inf false := by decide
  have h2 : e.num32 0x00000001#32 = .fin false 0 (-149) := by decide
  have h3 : num64 0xFFF0000000000000#64 = .inf true := by decide
  rw [h1, h2, h3]
  exact ⟨rfl, ⟨0, by norm_num [Num.toRat?], by simp⟩, rfl, by decide, by decide, by decide, by decide⟩

theorem witness_ResetMeetsInvariant : ({} : Config).wf = true ∧ tiny.wf = true := by decide
theorem witness_ResetValues : ({ loaded with sched := [.hwReset] } : State).sched = .hwReset :: [] := rfl

end Sys2Proof.Machine
end

/-! The configuration is no step's to change (00_scope.md R6), and the arithmetic of 00_scope.md R9 and R13: widening is
exact, and each operation is the exact one rounded once. -/

namespace Sys2Proof.Machine

/-! ### The configuration -/

/-- Having a given configuration is kept by every update a command is made of. -/
theorem closed_cfg (c : Config) : Closed (fun u => u.cfg = c) (fun _ _ => True) (fun _ _ _ => True) where
  port _ _ _ h := (setPort_cfg _ _ _).trans h
  fault _ _ _ h _ := (raise_cfg _ _ _).trans h
  snap _ _ h := h
  coef _ _ h := h
  set _ _ _ h := h
  filt _ _ h _ := h
  relay _ _ _ h _ := h
  prep _ _ _ h _ := h
  poll _ _ _ h := (pollBlock_cfg _ _ _).trans h
  drain _ _ _ h := (drainOne_cfg _ _ _).trans h
  host _ _ _ _ h _ := h

/-- Every way of moving keeps the configuration, hardware reset included. -/
theorem moved_cfg {m : Option Move} {s t : State} (h : Moved m s t) : t.cfg = s.cfg :=
  (closed_cfg s.cfg).moved rfl (fun _ => trivial) (fun _ => trivial) (fun _ => rfl) h

/-- Settles O50: no way of moving touches the configuration, nor does taking a move off the list. -/
theorem configurationIsFixed : Obligations.ConfigurationIsFixed := by
  intro s t h
  exact step_keeps (P := fun u => u.cfg = s.cfg) (fun _ _ hu => hu) (fun _ _ _ hu hm => (moved_cfg hm).trans hu) rfl h

/-! ### Widening -/

/-- The scale at which a number is written does not change its rounding. -/
theorem roundMag_mul_two_pow (f : Fmt) {m : Nat} (k : Nat) {e : Int} (hm : m < 2 ^ (f.fbits + 1)) (he : f.emin ≤ e) :
    f.roundMag (m * 2 ^ k) (e - k) = f.roundMag m e := by
  rcases Nat.eq_zero_or_pos m with rfl | h0
  · simp [Fmt.roundMag]
  · exact roundMag_shift f m k e h0 hm he

/-- Packing a number binary64 holds gives a pattern of that number, written at a finer scale. -/
theorem num64_pack (neg : Bool) {m : Nat} {ex : Int} (hm : m < 2 ^ 53) (h1 : -1074 ≤ ex) (h2 : ex ≤ 971) :
    ∃ k : Nat, num64 (BitVec.ofNat 64 (Fmt.b64.pack (.fin neg m ex))) = .fin neg (m * 2 ^ k) (ex - k) := by
  have eM : Fmt.b64.emin = -1074 := by decide
  have eI : Fmt.b64.infBits = 2047 * 2 ^ 52 := by decide
  rcases Nat.eq_zero_or_pos m with rfl | h0
  · refine ⟨(ex + 1074).toNat, ?_⟩
    have hz : num64 (BitVec.ofNat 64 (Fmt.b64.withSign neg 0)) = .fin neg 0 (-1074) := by cases neg <;> decide
    rw [zero_mul, show ex - ((ex + 1074).toNat : Int) = -1074 by omega, ← hz]
    simp only [Fmt.pack, Fmt.roundMag, if_true]
  · obtain ⟨k, j, hR, hj, hlt, hge⟩ := roundMag_exact Fmt.b64 m ex h0 hm (by rw [eM]; exact h1)
    rw [eM] at hj
    have hfin : j * 2 ^ Fmt.b64.fbits + m * 2 ^ k < Fmt.b64.infBits := by
      rw [eI]; simp only [show Fmt.b64.fbits = 52 from rfl] at hlt ⊢; omega
    have hword : Fmt.b64.withSign neg (j * 2 ^ Fmt.b64.fbits + m * 2 ^ k) < 2 ^ 64 := by
      have eS : Fmt.b64.signBit = 2 ^ 63 := by decide
      rw [eI] at hfin
      unfold Fmt.withSign; split <;> omega
    refine ⟨k, ?_⟩
    rw [num64, Fmt.pack, hR, min_eq_left hfin.le, BitVec.toNat_ofNat, Nat.mod_eq_of_lt hword,
      unpack_mag Fmt.b64 neg j (m * 2 ^ k) hlt hge hfin, eM]
    congr 1
    omega

/-- The value of a number does not depend on the scale at which it is written. -/
theorem toRat?_mul_two_pow (neg : Bool) (m k : Nat) (e : Int) :
    (Num.fin neg (m * 2 ^ k) (e - k)).toRat? = (Num.fin neg m e).toRat? := by
  have : (2 : ℚ) ^ e = 2 ^ k * 2 ^ (e - k) := by
    rw [← zpow_natCast, ← zpow_add₀ (by norm_num)]; congr 1; omega
  simp only [Num.toRat?, this]
  push_cast
  ring_nf

/-- Settles O5: an infinity widens to the infinity of its sign; a finite binary32 is within binary64's significand and
exponents, so widening only rewrites it at a finer scale, from which rounding to binary32 gives the same pattern. -/
theorem wideningIsExact : Obligations.WideningIsExact := by
  intro e v hv
  rw [← flush_idem e v]
  unfold toB32 toB64 FpEnv.num32
  rcases unpack32_cases (e.flush v) (flush_notNan e v hv) with ⟨neg, hu, hpat⟩ | ⟨neg, m, ex, hu, hpat, hm, hlo, hhi⟩
  · have hinf : e.flush (e.flush v) = BitVec.ofNat 32 (Fmt.b32.withSign neg Fmt.b32.infBits) := by
      rw [flush_idem, ← hpat, BitVec.ofNat_toNat, BitVec.setWidth_eq]
    have hnum := num64_inf neg
    rw [hu, hinf]
    simp only [FpEnv.result64, hnum, true_and]
    rfl
  · obtain ⟨k, hk⟩ := num64_pack neg (m := m) (ex := ex) (by omega) (by omega) (by omega)
    rw [hu]
    simp only [FpEnv.result64, hk]
    refine ⟨toRat?_mul_two_pow neg m k ex, ?_⟩
    simp only [FpEnv.result32, Fmt.pack]
    rw [roundMag_mul_two_pow Fmt.b32 k hm (by simpa [Fmt.emin, Fmt.b32] using hlo), ← hpat, BitVec.ofNat_toNat,
      BitVec.setWidth_eq]

/-! ### Exact and rounded results -/

/-- A finite number of sign s and exact value p. -/
def Num.Exactly (a : Num) (s : Bool) (p : ℚ) : Prop := ∃ m x, a = .fin s m x ∧ p = sgn s * m * 2 ^ x

/-- A finite number of sign s that stands for the real x in all a format looks at, down to a sticky bit after b bits. -/
def Num.StandsFor (b : Nat) (a : Num) (s : Bool) (x : ℝ) : Prop :=
  ∃ m e y, a = .fin s m e ∧ Stands b m e y ∧ x = (sgn s : ℚ) * y

/-- The sign of a finite operand is its sign bit, a zero's included. -/
theorem num32_exactly {e : FpEnv} {a : B32} {p : ℚ} (h : (e.num32 a).toRat? = some p) : (e.num32 a).Exactly a.msb p := by
  obtain ⟨s, m, x, ha, hp⟩ := toRat?_fin h
  obtain rfl := num32_sign e a ha
  exact ⟨m, x, ha, hp⟩

theorem num64_exactly {a : B64} {p : ℚ} (h : (num64 a).toRat? = some p) : (num64 a).Exactly a.msb p := by
  obtain ⟨s, m, x, ha, hp⟩ := toRat?_fin h
  obtain rfl := num64_sign a ha
  exact ⟨m, x, ha, hp⟩

namespace Num.Exactly

variable {a b : Num} {s t : Bool} {p q : ℚ}

theorem standsFor (h : a.Exactly s p) (c : Nat) : a.StandsFor c s p := by
  obtain ⟨m, x, ha, rfl⟩ := h
  exact ⟨m, x, _, ha, .exact c m x, by push_cast; ring⟩

theorem negate (h : a.Exactly s p) : a.negate.Exactly (!s) (-p) := by
  obtain ⟨m, x, rfl, rfl⟩ := h
  exact ⟨m, x, rfl, by rw [sgn_not]; ring⟩

/-- A zero sum is negative only when both operands are. -/
theorem add (ha : a.Exactly s p) (hb : b.Exactly t q) :
    ∃ u, (a.add b).Exactly u (p + q) ∧ (p + q = 0 → u = (s && t)) := by
  obtain ⟨m, x, rfl, rfl⟩ := ha
  obtain ⟨n, y, rfl, rfl⟩ := hb
  obtain ⟨u, k, z, hsum, hval, hzero⟩ := num_add s t m n x y
  exact ⟨u, ⟨k, z, hsum, hval.symm⟩, hzero⟩

theorem sub (ha : a.Exactly s p) (hb : b.Exactly t q) :
    ∃ u, (a.sub b).Exactly u (p - q) ∧ (p - q = 0 → u = (s && !t)) := by
  simpa only [sub_eq_add_neg, Num.sub] using ha.add hb.negate

theorem mul (ha : a.Exactly s p) (hb : b.Exactly t q) : (a.mul b).Exactly (s != t) (p * q) := by
  obtain ⟨m, x, rfl, rfl⟩ := ha
  obtain ⟨n, y, rfl, rfl⟩ := hb
  exact ⟨m * n, x + y, rfl, (num_mul s t m n x y).symm⟩

theorem div (ha : a.Exactly s p) (hb : b.Exactly t q) (hq : q ≠ 0) (guard : Nat) :
    (Num.div guard a b).StandsFor (guard + 1) (s != t) ((p / q : ℚ) : ℝ) := by
  obtain ⟨m, x, rfl, rfl⟩ := ha
  obtain ⟨n, y, rfl, rfl⟩ := hb
  have hn : n ≠ 0 := fun h => hq (fin_zero.mpr h)
  obtain ⟨k, z, v, hquo, hst, rfl⟩ := num_div guard s t m n x y hn
  exact ⟨k, z, _, hquo, hst, div_val s t m n x y hn⟩

theorem div_zero (ha : a.Exactly s p) (hb : b.Exactly t 0) (guard : Nat) :
    Num.div guard a b = if p = 0 then .nan else .inf (s != t) := by
  obtain ⟨m, x, rfl, rfl⟩ := ha
  obtain ⟨n, y, rfl, hq⟩ := hb
  simp only [Num.div, fin_zero.mp hq.symm, fin_zero, if_true]

/-- The root of a zero is that zero; the root of a positive number is positive. -/
theorem sqrt (ha : a.Exactly s p) (hp : 0 ≤ p) (guard : Nat) :
    (Num.sqrt guard a).StandsFor (guard + 1) s (Real.sqrt p) := by
  obtain ⟨m, x, rfl, rfl⟩ := ha
  by_cases hm : m = 0
  · subst hm
    exact ⟨0, x, 0, by simp [Num.sqrt], by simpa using Stands.exact (guard + 1) 0 x, by simp⟩
  · cases s with
    | false =>
      obtain ⟨k, z, y, hroot, hst, rfl⟩ := num_sqrt guard m x hm
      exact ⟨k, z, _, hroot, hst, by simp [sgn]⟩
    | true =>
      have : (0 : ℚ) < m * 2 ^ x := by have := Nat.pos_of_ne_zero hm; positivity
      simp only [sgn, if_true] at hp
      linarith

theorem sqrt_neg (ha : a.Exactly s p) (hp : p < 0) (guard : Nat) : Num.sqrt guard a = .nan := by
  obtain ⟨m, x, rfl, rfl⟩ := ha
  have hm : m ≠ 0 := fun h => hp.ne (fin_zero.mpr h)
  cases s with
  | true => simp [Num.sqrt, hm]
  | false =>
    have : (0 : ℚ) ≤ m * 2 ^ x := by positivity
    simp only [sgn, Bool.false_eq_true, if_false] at hp
    linarith

end Num.Exactly

/-! ### Results as patterns -/

section Results

variable (e : FpEnv) (op : FpOp) (a b : U64) {v : Num} {s : Bool} {x : ℝ}

theorem Num.StandsFor.rounded32 {c : Nat} (h : v.StandsFor c s x) (hc : 25 ≤ c) :
    Rounded32 e (e.result32 op a b v) x ∧ (e.result32 op a b v).msb = s := by
  obtain ⟨m, z, y, rfl, hst, rfl⟩ := h
  exact result32_rounds e op a b s m z y (hst.mono hc)

theorem Num.StandsFor.rounded64 {c : Nat} (h : v.StandsFor c s x) (hc : 54 ≤ c) :
    RoundsTo .b64 (e.result64 op a b v).toNat x ∧ (e.result64 op a b v).msb = s := by
  obtain ⟨m, z, y, rfl, hst, rfl⟩ := h
  exact result64_rounds e op a b s m z y (hst.mono hc)

theorem result32_inf (s t : Bool) :
    e.result32 op a b (.inf (s != t)) = if s = t then 0x7F800000#32 else 0xFF800000#32 := by
  cases s <;> cases t <;> rfl

theorem result64_inf (s t : Bool) :
    e.result64 op a b (.inf (s != t)) = if s = t then 0x7FF0000000000000#64 else 0xFFF0000000000000#64 := by
  cases s <;> cases t <;> rfl

end Results

/-! ### The order -/

/-- Among the values, infinities included, the comparison is the order. -/
theorem Num.lt_iff_of_hasValue {a b : Num} {x y : EReal} (ha : a.HasValue x) (hb : b.HasValue y) :
    a.lt b = true ↔ x < y := by
  cases a with
  | nan => exact ha.elim
  | inf s =>
    cases b with
    | nan => exact hb.elim
    | inf t => cases s <;> cases t <;> simp_all [Num.HasValue, Num.lt]
    | fin t n g =>
      obtain ⟨q, -, rfl⟩ := hb
      cases s <;> simp_all [Num.HasValue, Num.lt]
  | fin s m e =>
    obtain ⟨p, hp, rfl⟩ := ha
    cases b with
    | nan => exact hb.elim
    | inf t => cases t <;> simp_all [Num.HasValue, Num.lt]
    | fin t n g =>
      obtain ⟨q, hq, rfl⟩ := hb
      rw [Num.lt_toRat hp hq, EReal.coe_lt_coe_iff, Rat.cast_lt]

@[simp] theorem isNan_num64 (x : B64) : (num64 x).isNan = isNan64 x := by
  have h := x.isLt
  have hpat : isNan64 x = true ↔ x.toNat / 2 ^ 52 % 2 ^ 11 = 2047 ∧ x.toNat % 2 ^ 52 ≠ 0 := by
    have eI : Fmt.b64.infBits = 2047 * 2 ^ 52 := by decide
    rw [isNan64, decide_eq_true_eq, eI]
    omega
  rw [Bool.eq_iff_iff, hpat]
  simp only [num64, Fmt.unpack, show Fmt.b64.fbits = 52 from rfl, show Fmt.b64.ebits = 11 from rfl,
    show 2 ^ 11 - 1 = 2047 from rfl]
  split_ifs <;> simp_all [Num.isNan]

theorem lt64_of_isNan {a b : B64} (h : isNan64 a = true ∨ isNan64 b = true) : lt64 a b = false :=
  h.elim (fun ha => Num.lt_isNan_left (by simpa using ha)) (fun hb => Num.lt_isNan_right (by simpa using hb))

theorem lt32_of_isNan {e : FpEnv} {a b : B32} (h : isNan32 a = true ∨ isNan32 b = true) : lt32 e a b = false :=
  h.elim (lt32_of_isNan_left e) (lt32_of_isNan_right e)

/-! ### The operations

Each operation's number is exact, or exact down to a sticky bit; its one rounding is then that of the exact result, and the
sign is the exact number's own. -/

section Binary32

variable {e : FpEnv} {a b : B32} {p q : ℚ} (ha : (e.num32 a).toRat? = some p) (hb : (e.num32 b).toRat? = some q)
include ha hb

theorem add32_rounds :
    Rounded32 e (add32 e a b) ((p + q : ℚ) : ℝ) ∧ (p + q = 0 → (add32 e a b).msb = (a.msb && b.msb)) := by
  obtain ⟨s, hs, hzero⟩ := (num32_exactly ha).add (num32_exactly hb)
  obtain ⟨hr, hm⟩ := (hs.standsFor 25).rounded32 e .add _ _ le_rfl
  exact ⟨hr, fun h => hm.trans (hzero h)⟩

theorem sub32_rounds :
    Rounded32 e (sub32 e a b) ((p - q : ℚ) : ℝ) ∧ (p - q = 0 → (sub32 e a b).msb = (a.msb && !b.msb)) := by
  obtain ⟨s, hs, hzero⟩ := (num32_exactly ha).sub (num32_exactly hb)
  obtain ⟨hr, hm⟩ := (hs.standsFor 25).rounded32 e .sub _ _ le_rfl
  exact ⟨hr, fun h => hm.trans (hzero h)⟩

theorem mul32_rounds : Rounded32 e (mul32 e a b) ((p * q : ℚ) : ℝ) ∧ (mul32 e a b).msb = (a.msb != b.msb) :=
  (((num32_exactly ha).mul (num32_exactly hb)).standsFor 25).rounded32 e .mul _ _ le_rfl

theorem div32_rounds (hq : q ≠ 0) :
    Rounded32 e (div32 e a b) ((p / q : ℚ) : ℝ) ∧ (div32 e a b).msb = (a.msb != b.msb) :=
  ((num32_exactly ha).div (num32_exactly hb) hq 28).rounded32 e .div _ _ (by norm_num)

theorem div32_zero (hq : q = 0) (hp : p ≠ 0) :
    div32 e a b = if a.msb = b.msb then 0x7F800000#32 else 0xFF800000#32 := by
  subst hq
  rw [div32, (num32_exactly ha).div_zero (num32_exactly hb), if_neg hp, result32_inf]

theorem isNan32_div32_zero (hq : q = 0) (hp : p = 0) : isNan32 (div32 e a b) = true := by
  subst hq
  rw [div32, (num32_exactly ha).div_zero (num32_exactly hb), if_pos hp]
  exact isNan32_result32 _ _ _ _ rfl

end Binary32

section Binary64

variable (e : FpEnv) {a b : B64} {p q : ℚ} (ha : (num64 a).toRat? = some p) (hb : (num64 b).toRat? = some q)
include ha

theorem toB32_rounds : Rounded32 e (toB32 e a) (p : ℝ) ∧ (toB32 e a).msb = a.msb :=
  ((num64_exactly ha).standsFor 25).rounded32 e .toB32 _ _ le_rfl

theorem sqrt64_rounds (hp : 0 ≤ p) :
    RoundsTo .b64 (sqrt64 e a).toNat (Real.sqrt p) ∧ (sqrt64 e a).msb = a.msb :=
  ((num64_exactly ha).sqrt hp 57).rounded64 e .sqrt _ _ (by norm_num)

theorem isNan64_sqrt64_neg (hp : p < 0) : isNan64 (sqrt64 e a) = true := by
  rw [sqrt64, (num64_exactly ha).sqrt_neg hp]
  exact isNan64_mkNan _

include hb

theorem add64_rounds :
    RoundsTo .b64 (add64 e a b).toNat ((p + q : ℚ) : ℝ) ∧ (p + q = 0 → (add64 e a b).msb = (a.msb && b.msb)) := by
  obtain ⟨s, hs, hzero⟩ := (num64_exactly ha).add (num64_exactly hb)
  obtain ⟨hr, hm⟩ := (hs.standsFor 54).rounded64 e .add _ _ le_rfl
  exact ⟨hr, fun h => hm.trans (hzero h)⟩

theorem sub64_rounds :
    RoundsTo .b64 (sub64 e a b).toNat ((p - q : ℚ) : ℝ) ∧ (p - q = 0 → (sub64 e a b).msb = (a.msb && !b.msb)) := by
  obtain ⟨s, hs, hzero⟩ := (num64_exactly ha).sub (num64_exactly hb)
  obtain ⟨hr, hm⟩ := (hs.standsFor 54).rounded64 e .sub _ _ le_rfl
  exact ⟨hr, fun h => hm.trans (hzero h)⟩

theorem mul64_rounds : RoundsTo .b64 (mul64 e a b).toNat ((p * q : ℚ) : ℝ) ∧ (mul64 e a b).msb = (a.msb != b.msb) :=
  (((num64_exactly ha).mul (num64_exactly hb)).standsFor 54).rounded64 e .mul _ _ le_rfl

theorem div64_rounds (hq : q ≠ 0) :
    RoundsTo .b64 (div64 e a b).toNat ((p / q : ℚ) : ℝ) ∧ (div64 e a b).msb = (a.msb != b.msb) :=
  ((num64_exactly ha).div (num64_exactly hb) hq 57).rounded64 e .div _ _ (by norm_num)

theorem div64_zero (hq : q = 0) (hp : p ≠ 0) :
    div64 e a b = if a.msb = b.msb then 0x7FF0000000000000#64 else 0xFFF0000000000000#64 := by
  subst hq
  rw [div64, (num64_exactly ha).div_zero (num64_exactly hb), if_neg hp, result64_inf]

theorem isNan64_div64_zero (hq : q = 0) (hp : p = 0) : isNan64 (div64 e a b) = true := by
  subst hq
  rw [div64, (num64_exactly ha).div_zero (num64_exactly hb), if_pos hp]
  exact isNan64_mkNan _

end Binary64

/-- Settles O6, operation by operation. -/
theorem operationsRoundToNearest : Obligations.OperationsRoundToNearest := by
  refine ⟨fun e a b p q ha hb => ?_, fun e a b p q ha hb => ?_, fun e a p ha => ?_, fun e a b => ?_, fun a b => ?_⟩
  · exact ⟨add32_rounds ha hb, sub32_rounds ha hb, mul32_rounds ha hb, div32_rounds ha hb, div32_zero ha hb,
      isNan32_div32_zero ha hb⟩
  · exact ⟨add64_rounds e ha hb, sub64_rounds e ha hb, mul64_rounds e ha hb, div64_rounds e ha hb, div64_zero e ha hb,
      isNan64_div64_zero e ha hb⟩
  · exact ⟨toB32_rounds e ha, sqrt64_rounds e ha, isNan64_sqrt64_neg e ha⟩
  · exact ⟨lt32_of_isNan, fun x y => Num.lt_iff_of_hasValue⟩
  · exact ⟨lt64_of_isNan, fun x y => Num.lt_iff_of_hasValue⟩

end Sys2Proof.Machine

/-! The state (10_state.md): what agents and hardware reset do to it, which command owns which part of it, and the
invariants every step keeps. -/

namespace Sys2Proof.Machine

/-! ### Agents at the ports and at BUF -/

/-- With a move listed, the step is that move. -/
theorem step_of_sched {s : State} {m : Move} {rest : List Move} (h : s.sched = m :: rest) :
    step s = applyMove m { s with sched := rest } := by
  rw [step, takeStep, h]

/-- A port's registers replaced: that port's only, and nothing beside the ports. -/
theorem setPort_eq (s : State) (p : Port) (r : PortRegs) :
    s.setPort p r = { s with
      aud := (s.setPort p r).aud, ctl := (s.setPort p r).ctl, rnd := (s.setPort p r).rnd } := by
  cases p <;> rfl

/-- An agent's write of an argument register: refused exactly while the port is busy, else it changes `f` of that port's
registers alone. -/
theorem argWrite_step {s : State} {m : Move} {rest : List Move} {p : Port} {f : PortRegs → PortRegs}
    (hs : s.sched = m :: rest)
    (hm : ∀ u, applyMove m u =
      if (u.portRegs p).busy then .refused .portBusy else .next (u.setPort p (f (u.portRegs p)))) :
    (step s = .refused .portBusy ↔ (s.portRegs p).busy = true)
    ∧ ((s.portRegs p).busy = false → ∃ t, step s = .next t ∧ t.portRegs p = f (s.portRegs p)
        ∧ (∀ q, q ≠ p → t.portRegs q = s.portRegs q)
        ∧ t = { s with aud := t.aud, ctl := t.ctl, rnd := t.rnd, sched := rest }) := by
  rw [step_of_sched hs, hm, portRegs_sched]
  cases hb : (s.portRegs p).busy
  · refine ⟨by simp, fun _ => ⟨_, rfl, portRegs_setPort_self _ _ _, fun q hq => ?_, setPort_eq _ _ _⟩⟩
    rw [portRegs_setPort_ne _ _ hq, portRegs_sched]
  · simp

/-- Settles O13: each of these moves tests BUSY first, and a write then replaces the one register or element. -/
theorem agentAccessRules : Obligations.AgentAccessRules := by
  intro s rest
  refine ⟨fun p v hs => argWrite_step (f := fun r => { r with arg0 := v }) hs fun _ => rfl,
    fun p v hs => argWrite_step (f := fun r => { r with arg1 := v }) hs fun _ => rfl,
    fun ch j v hs => ?_, fun p w hs => ?_, fun p hs => ?_, fun ch j hs => ?_⟩
  · rw [step_of_sched hs]
    simp only [applyMove, hostWrite]
    refine ⟨fun hb => by rw [if_pos hb], fun hb hj => by simp [hb, hj], fun hb hj => ?_⟩
    refine ⟨_, by rw [if_neg (by simp [hb]), if_neg (by omega)], ?_, fun k hk => ?_, fun c hc => ?_, rfl⟩
    · simp [memWrite]
    · simp [memWrite, Cells.read_write_ne _ _ hk]
    · exact Stereo.get_set_ne _ _ hc
  · rw [step_of_sched hs]
    simp only [applyMove, writeCmd, portRegs_sched]
    cases hb : (s.portRegs p).busy
    · cases hh : s.halted && !runsWhileHalted w <;> simp
    · simp
  · rw [step_of_sched hs]
    simp only [applyMove, readRes, portRegs_sched]
    exact ⟨fun hb => by rw [if_pos hb], fun hb => by simp [hb]⟩
  · rw [step_of_sched hs]
    simp only [applyMove, hostRead]
    refine ⟨fun hb => by rw [if_pos hb], fun hb hj => by simp [hb, hj], fun hb hj => ?_⟩
    rw [if_neg (by simp [hb]), if_neg (by omega)]

/-- Settles O60: the values are those `State.resetWith` writes. -/
theorem resetValues : Obligations.ResetValues := by
  intro s rest hs
  refine ⟨hwReset { s with sched := rest }, step_of_sched hs, fun p => by cases p <;> rfl, rfl, rfl, rfl, rfl, rfl, rfl,
    ⟨rfl, fun i => by fin_cases i <;> exact ⟨rfl, rfl⟩⟩, rfl, rfl, rfl, rfl, rfl, rfl, fun ch j => ?_, fun ch => ?_,
    fun ch => ?_, rfl, rfl, rfl⟩
  · cases ch <;> exact ⟨rfl, rfl⟩
  · cases ch <;> exact ⟨rfl, rfl, rfl⟩
  · cases ch <;> exact ⟨rfl, rfl, rfl, rfl, rfl⟩

/-! ### The fault record -/

/-- The bit of a cause is one of bits 1 to 8 of FSTAT (60_exceptions.md R291). -/
theorem Cause.bit_legal (c : Cause) : 1#32 <<< c.code &&& 0xFFFFFE01#32 = 0#32 := by cases c <;> decide

theorem Cause.bit_self (c : Cause) : (1#32 <<< c.code).getLsbD c.code = true := by cases c <;> decide

theorem Cause.toNat_code (c : Cause) : (BitVec.ofNat 32 c.code).toNat = c.code := by cases c <;> rfl

theorem Cause.code_bounds (c : Cause) : 1 ≤ c.code ∧ c.code ≤ 8 := by cases c <;> decide

theorem Cause.ofNat_code_ne (c : Cause) : BitVec.ofNat 32 c.code ≠ 0#32 := by cases c <;> decide

/-- A fault keeps the form of the record: it sets a legal bit, and FIRST stays, or becomes that bit's number. -/
theorem faultInv_raise {s : State} (c : Cause) (p : Port) (h : FaultInv s)
    (hc : c = .degenerateCoeff → s.cfg.degenPolicy = .fault) : FaultInv (raise c p s) := by
  obtain ⟨hmask, hle, hzero, hbit, hhalt⟩ := h
  have hself : (raise c p s).fstat.getLsbD c.code = true := by
    rw [raise_fstat, BitVec.getLsbD_or, c.bit_self, Bool.or_true]
  have hfirst : (raise c p s).first ≠ 0#32 ∧ (raise c p s).first.toNat ≤ 8
      ∧ (raise c p s).fstat.getLsbD (raise c p s).first.toNat = true := by
    rw [raise_first]
    split
    · rw [c.toNat_code]; exact ⟨c.ofNat_code_ne, c.code_bounds.2, hself⟩
    · rename_i h0; exact ⟨h0, hle, by rw [raise_fstat, BitVec.getLsbD_or, hbit h0, Bool.true_or]⟩
  refine ⟨?_, hfirst.2.1, ⟨fun h => absurd h hfirst.1, fun h => ?_⟩, fun _ => hfirst.2.2, fun hh => ?_⟩
  · rw [raise_fstat, BitVec.and_comm, BitVec.and_or_distrib_left, BitVec.and_comm, hmask, BitVec.and_comm, c.bit_legal,
      BitVec.or_zero]
  · rw [h] at hself; simp at hself
  · rw [raise_halted, Bool.or_eq_true, decide_eq_true_eq] at hh
    rw [raise_cfg]
    rcases hh with hh | rfl
    · obtain ⟨h7, hp⟩ := hhalt hh
      exact ⟨by rw [raise_fstat, BitVec.getLsbD_or, h7, Bool.true_or], hp⟩
    · exact ⟨hself, hc rfl⟩

theorem FaultInv.congr {s t : State} (h : FaultInv s) (hc : t.cfg = s.cfg) (hs : t.fstat = s.fstat)
    (hf : t.first = s.first) (hh : t.halted = s.halted) : FaultInv t := by
  unfold FaultInv; rw [hc, hs, hf, hh]; exact h

theorem closed_faultInv : Closed FaultInv (fun _ _ => True) (fun _ _ _ => True) where
  port _ _ _ h := h.congr (by simp) (by simp) (by simp) (by simp)
  fault _ _ _ h hc := faultInv_raise _ _ h hc
  snap _ _ h := h
  coef _ _ h := h
  set _ _ _ h := h
  filt _ _ h _ := h
  relay _ _ _ h _ := h
  prep _ _ _ h _ := h
  poll _ _ _ h := h.congr (by simp) (by simp) (by simp) (by simp)
  drain _ _ _ h := h.congr (by simp) (by simp) (by simp) (by simp)
  host _ _ _ _ h _ := h

theorem faultInv_reset (c : Config) (n : Nat) : FaultInv (State.resetWith c n) :=
  ⟨by simp [State.resetWith], by simp [State.resetWith], by simp [State.resetWith], by simp [State.resetWith],
    by simp [State.resetWith]⟩

theorem moved_faultInv {m : Option Move} {s t : State} (hs : FaultInv s) (h : Moved m s t) : FaultInv t :=
  closed_faultInv.moved hs (fun _ => trivial) (fun _ => trivial) (fun _ => faultInv_reset s.cfg s.draws) h

/-- Settles O52: only `raise` writes the record, and it keeps its form. -/
theorem faultRecordStaysLegal : Obligations.FaultRecordStaysLegal :=
  fun _ _ hs h => step_keeps (fun _ _ h => h) (fun _ _ _ => moved_faultInv) hs h

/-! ### The bank -/

theorem BankInv.congr {s t : State} (h : BankInv s) (hb : t.bank = s.bank) (hp : t.prepared = s.prepared) :
    BankInv t := by
  unfold BankInv; rw [hb, hp]; exact h

/-- A coefficient step makes every section that is processed finite, prepared or not. -/
theorem bankInv_of_coefStep {fs : B64} {s t : State} (h : t.bank = (coefStep fs s).bank) : BankInv t := by
  obtain ⟨hhp, hlp, hpk, hhs, hls⟩ := coefStep_bank fs s
  unfold BankInv; rw [h]; exact ⟨hhp, hlp, fun _ => ⟨hpk, hhs, hls⟩⟩

theorem closed_bankInv : Closed BankInv (fun _ _ => True) (fun _ _ _ => True) where
  port _ _ _ h := h.congr (by simp) (by simp)
  fault _ _ _ h _ := h.congr (by simp) (by simp)
  snap _ _ h := h
  coef _ _ _ := bankInv_of_coefStep rfl
  set _ _ _ h := h
  filt _ _ h _ := h
  relay _ _ _ h _ := h
  prep _ _ _ _ _ := bankInv_of_coefStep (prepareWrites_bank _ _ _)
  poll _ _ _ h := h.congr (by simp) (by simp)
  drain _ _ _ h := h.congr (by simp) (by simp)
  host _ _ _ _ h _ := h

theorem bankInv_reset (c : Config) (n : Nat) : BankInv (State.resetWith c n) :=
  ⟨by simp [State.resetWith, Bank.reset], by simp [State.resetWith, Bank.reset], fun h => by cases h⟩

theorem moved_bankInv {m : Option Move} {s t : State} (hs : BankInv s) (h : Moved m s t) : BankInv t :=
  closed_bankInv.moved hs (fun _ => trivial) (fun _ => trivial) (fun _ => bankInv_reset s.cfg s.draws) h

/-- Settles O53: a coefficient step leaves every processed section finite, and a PREPARE, which alone sets PREPARED,
takes one. -/
theorem processedSetsStayFinite : Obligations.ProcessedSetsStayFinite :=
  fun _ _ hs h => step_keeps (fun _ _ h => h) (fun _ _ _ => moved_bankInv) hs h

/-! ### What each command owns (10_state.md R41) -/

/-- Nothing differs but the ports, the settings file and the fault record. -/
def Light (s t : State) : Prop :=
  t = { s with aud := t.aud, ctl := t.ctl, rnd := t.rnd, sr := t.sr, gen := t.gen, fstat := t.fstat,
               first := t.first, halted := t.halted }

theorem light_complete (p : Port) (s : State) : Light s (complete p s) := by cases p <;> rfl

theorem light_completeWith (p : Port) (v : U64) (s : State) : Light s (completeWith p v s) := by cases p <;> rfl

theorem light_raise (c : Cause) (p : Port) (s : State) : Light s (raise c p s) := by cases p <;> rfl

/-- Every command but PREPARE, PROCESS, RPOLL and SDRAIN is light. -/
theorem exec_light {i : Instr} {s t : State} (h : exec i s = .next t) (h1 : i ≠ .prepare) (h2 : i ≠ .process)
    (h3 : ∀ c, i ≠ .rpoll c) (h4 : ∀ c, i ≠ .sdrain c) : Light s t := by
  cases i with
  | nop p => cases h; exact light_complete _ _
  | prepare => exact absurd rfl h1
  | process => exact absurd rfl h2
  | setp pid =>
    simp only [exec, execSetp] at h
    split at h <;> cases h
    · exact light_raise _ _ _
    · rfl
  | rdp pid =>
    simp only [exec, execRdp] at h
    split at h <;> cases h
    · exact light_raise _ _ _
    · exact light_completeWith _ _ _
  | rpoll c => exact absurd rfl (h3 c)
  | sdrain c => exact absurd rfl (h4 c)
  | rdbin c =>
    simp only [exec, execRdbin] at h
    split at h <;> cases h
    · exact light_raise _ _ _
    · exact light_completeWith _ _ _
  | rdmeta c sel => cases h; exact light_completeWith _ _ _
  | rdgen p => cases h; exact light_completeWith _ _ _
  | rdocc c sel => cases h; exact light_completeWith _ _ _
  | rdstat p => cases h; exact light_completeWith _ _ _

/-- PREPARE leaves BUF alone. -/
theorem exec_prepare_buf {s t : State} (h : exec .prepare s = .next t) : t.buf = s.buf := by
  simp only [exec, execPrepare] at h
  split at h
  · cases h; simp
  · split at h <;> cases h
    · simp
    · unfold prepareGlobal; split <;> simp

/-- A relay's read index is not the writer's to move. -/
theorem processBody_rd (n : Nat) (s : State) (ch : Chan) :
    ((processBody n s).relay.get ch).fifo.rd = (s.relay.get ch).fifo.rd := by
  rw [(processBody_parts n s ch).2.2, relayLoop_rd]

/-- PROCESS leaves the transport registers, the spectrum and the read indices alone. -/
theorem exec_process_frame {s t : State} (h : exec .process s = .next t) :
    (t.fs = s.fs ∧ t.maxblk = s.maxblk ∧ t.prepared = s.prepared) ∧ t.spec = s.spec
      ∧ ∀ ch, (t.relay.get ch).fifo.rd = (s.relay.get ch).fifo.rd := by
  simp only [exec, execProcess] at h
  split at h
  · cases h; simp
  · split at h <;> cases h
    · simp
    · simp [processBody_rd]

/-- What the commands of RND leave of a relay: all but its read index. -/
def SameWriter (r r' : RelayCh) : Prop :=
  r'.fifo.wr = r.fifo.wr ∧ r'.fifo.slots = r.fifo.slots ∧ r'.stg = r.stg ∧ r'.idx = r.idx

/-- What RPOLL leaves alone beside its port. -/
structure PollFrame (s t : State) : Prop where
  frame : t = { s with relay := t.relay, spec := t.spec, draws := t.draws }
  writer : ∀ ch, SameWriter (s.relay.get ch) (t.relay.get ch)

theorem PollFrame.refl (s : State) : PollFrame s s := ⟨rfl, fun _ => ⟨rfl, rfl, rfl, rfl⟩⟩

theorem PollFrame.trans {s t u : State} (h : PollFrame s t) (h' : PollFrame t u) : PollFrame s u where
  frame := by rw [h'.frame, h.frame]
  writer ch := by
    obtain ⟨a, b, c, d⟩ := h.writer ch
    obtain ⟨a', b', c', d'⟩ := h'.writer ch
    exact ⟨a'.trans a, b'.trans b, c'.trans c, d'.trans d⟩

theorem pollBlock_pollFrame (se : Bool) (ch : Chan) (s : State) : PollFrame s (pollBlock se ch s) :=
  ⟨pollBlock_frame se ch s, pollBlock_fifo se ch s⟩

theorem pollBlocks_pollFrame (se : Bool) (ch : Chan) (m : Nat) (s : State) : PollFrame s (pollBlocks se ch m s) := by
  induction m generalizing s with
  | zero => exact .refl s
  | succ m ih => exact (pollBlock_pollFrame se ch s).trans (ih _)

theorem pollChans_pollFrame (se : Bool) (l : List Chan) (s : State) : PollFrame s (l.foldl (pollChan se) s) := by
  induction l generalizing s with
  | nil => exact .refl s
  | cons ch l ih => exact (pollBlocks_pollFrame se ch _ s).trans (ih _)

/-- SDRAIN changes the spectrum state only. -/
theorem drainChans_frame (l : List Chan) (s : State) :
    l.foldl drainChan s = { s with spec := (l.foldl drainChan s).spec } := by
  induction l generalizing s with
  | nil => rfl
  | cons ch l ih =>
    rw [List.foldl_cons, ih, drainChan, drainMany_frame]

/-- A command leaves storage it does not own alone (R41): BUF; histories, bank and SNAP; the transport registers; the
spectrum; the read indices; the rest of the relays. -/
def StorageKept (i : Instr) (s t : State) : Prop :=
  (i ≠ .process → t.buf = s.buf)
    ∧ (i ≠ .prepare → i ≠ .process → t.hist = s.hist ∧ t.bank = s.bank ∧ t.snap = s.snap)
    ∧ (i ≠ .prepare → t.fs = s.fs ∧ t.maxblk = s.maxblk ∧ t.prepared = s.prepared)
    ∧ ((∀ c, i ≠ .rpoll c) → (∀ c, i ≠ .sdrain c) → i ≠ .prepare → t.spec = s.spec)
    ∧ ((∀ c, i ≠ .rpoll c) → i ≠ .prepare → ∀ ch, (t.relay.get ch).fifo.rd = (s.relay.get ch).fifo.rd)
    ∧ (i ≠ .process → i ≠ .prepare → ∀ ch, SameWriter (s.relay.get ch) (t.relay.get ch))

theorem Light.storageKept {i : Instr} {s t : State} (h : Light s t) : StorageKept i s t := by
  rw [h]
  exact ⟨fun _ => rfl, fun _ _ => ⟨rfl, rfl, rfl⟩, fun _ => ⟨rfl, rfl, rfl⟩, fun _ _ _ => rfl, fun _ _ _ => rfl,
    fun _ _ _ => ⟨rfl, rfl, rfl, rfl⟩⟩

theorem storageKept_prepare {s t : State} (h : exec .prepare s = .next t) : StorageKept .prepare s t :=
  ⟨fun _ => exec_prepare_buf h, fun e => absurd rfl e, fun e => absurd rfl e, fun _ _ e => absurd rfl e,
    fun _ e => absurd rfl e, fun _ e => absurd rfl e⟩

theorem storageKept_process {s t : State} (h : exec .process s = .next t) : StorageKept .process s t := by
  obtain ⟨htransport, hspec, hrd⟩ := exec_process_frame h
  exact ⟨fun e => absurd rfl e, fun _ e => absurd rfl e, fun _ => htransport, fun _ _ _ => hspec, fun _ _ => hrd,
    fun e => absurd rfl e⟩

theorem storageKept_rpoll {c : ChanSel} {s t : State} (h : exec (.rpoll c) s = .next t) : StorageKept (.rpoll c) s t := by
  cases h
  obtain ⟨hframe, hwriter⟩ := pollChans_pollFrame (specEnabled s) (firstChan c :: restChans c) s
  refine ⟨fun _ => ?_, fun _ _ => ?_, fun _ => ?_, fun e => absurd rfl (e c), fun e => absurd rfl (e c),
    fun _ _ => hwriter⟩
  · rw [hframe]; rfl
  · rw [hframe]; exact ⟨rfl, rfl, rfl⟩
  · rw [hframe]; exact ⟨rfl, rfl, rfl⟩

theorem storageKept_sdrain {c : ChanSel} {s t : State} (h : exec (.sdrain c) s = .next t) :
    StorageKept (.sdrain c) s t := by
  cases h
  rw [drainChans_frame]
  exact ⟨fun _ => rfl, fun _ _ => ⟨rfl, rfl, rfl⟩, fun _ => ⟨rfl, rfl, rfl⟩, fun _ e => absurd rfl (e c),
    fun _ _ _ => rfl, fun _ _ _ => ⟨rfl, rfl, rfl, rfl⟩⟩

theorem exec_storageKept {i : Instr} {s t : State} (h : exec i s = .next t) : StorageKept i s t := by
  by_cases h1 : i = .prepare
  · subst h1; exact storageKept_prepare h
  by_cases h2 : i = .process
  · subst h2; exact storageKept_process h
  by_cases h3 : ∃ c, i = .rpoll c
  · obtain ⟨c, rfl⟩ := h3; exact storageKept_rpoll h
  by_cases h4 : ∃ c, i = .sdrain c
  · obtain ⟨c, rfl⟩ := h4; exact storageKept_sdrain h
  exact (exec_light h h1 h2 (fun c e => h3 ⟨c, e⟩) (fun c e => h4 ⟨c, e⟩)).storageKept

/-- A command leaves the other ports, and its own CMD, ARG0 and ARG1, alone (20_memory.md R77). -/
theorem exec_ports {i : Instr} {s t : State} (h : exec i s = .next t) :
    Keep i.port s t ∧ (t.portRegs i.port).cmd = (s.portRegs i.port).cmd
      ∧ (t.portRegs i.port).arg0 = (s.portRegs i.port).arg0 ∧ (t.portRegs i.port).arg1 = (s.portRegs i.port).arg1 := by
  rcases exec_done h with ⟨hkeep, -, -, hcmd, h0, h1⟩ | ⟨rfl, -, rfl⟩
  · exact ⟨hkeep, hcmd, h0, h1⟩
  · exact ⟨fun q hq => setPos_portRegs_ne _ _ hq, rfl, rfl, rfl⟩

theorem complete_res {p : Port} {s u : State} (h : u.portRegs p = s.portRegs p) :
    ((complete p u).portRegs p).res = (s.portRegs p).res := by
  rw [complete_portRegs_self, h]

theorem raise_res {p : Port} {s u : State} (c : Cause) (h : u.portRegs p = s.portRegs p) :
    ((raise c p u).portRegs p).res = (s.portRegs p).res := by
  rw [raise_portRegs_self, h]

/-- A command that is no read leaves its RES alone (R77). -/
theorem exec_res {i : Instr} {s t : State} (h : exec i s = .next t) (hi : isRead i = false) :
    (t.portRegs i.port).res = (s.portRegs i.port).res := by
  cases i with
  | nop p => cases h; exact complete_res rfl
  | prepare =>
    simp only [exec, execPrepare] at h
    split at h
    · cases h; exact raise_res _ rfl
    · split at h <;> cases h
      · rfl
      · unfold prepareGlobal
        split
        · exact raise_res _ rfl
        · exact complete_res rfl
  | process =>
    simp only [exec, execProcess] at h
    split at h
    · cases h; exact raise_res _ rfl
    · split at h <;> cases h
      · exact raise_res _ rfl
      · exact complete_res (ports_processBody _ _ _)
  | setp pid =>
    simp only [exec, execSetp] at h
    split at h <;> cases h
    · exact raise_res _ rfl
    · exact complete_res rfl
  | rpoll c => cases h; exact complete_res (ports_foldPoll _ _ _ _)
  | sdrain c => cases h; exact complete_res (ports_foldDrain _ _ _)
  | rdp pid => cases hi
  | rdbin c => cases hi
  | rdmeta c sel => cases hi
  | rdgen p => cases hi
  | rdocc c sel => cases hi
  | rdstat p => cases hi

/-- Settles O49: the storage by kinds of command, the ports by how a command completes. -/
theorem commandsKeepToTheirState : Obligations.CommandsKeepToTheirState := by
  intro i s t h
  obtain ⟨hbuf, hfilter, htransport, hspec, hrd, hwriter⟩ := exec_storageKept h
  obtain ⟨hkeep, hcmd, h0, h1⟩ := exec_ports h
  exact ⟨hbuf, hfilter, htransport, hspec, hrd, hwriter, hkeep, hcmd, h0, h1, exec_res h⟩

/-! ### What a move does to the ports -/

/-- What a step of port p leaves alone, unless it is PREPARE's global step: the other ports, the transport registers, and,
if p is not RND, every block and snapshot that waits. -/
structure Frame (p : Port) (s t : State) : Prop where
  keep : Keep p s t
  cfg : t.cfg = s.cfg
  fs : t.fs = s.fs
  prepared : t.prepared = s.prepared
  maxblk : t.maxblk = s.maxblk
  count : p ≠ .rnd → s.cfg.wf = true → FifosOk s →
    ∀ ch, relayCount s ch ≤ relayCount t ch ∧ specCount s ch ≤ specCount t ch

namespace Frame

variable {p : Port} {s t : State}

theorem of_eq (hports : ∀ q, t.portRegs q = s.portRegs q) (hcfg : t.cfg = s.cfg) (hfs : t.fs = s.fs)
    (hprep : t.prepared = s.prepared) (hmax : t.maxblk = s.maxblk) (hrelay : t.relay = s.relay)
    (hspec : t.spec = s.spec) : Frame p s t where
  keep q _ := hports q
  cfg := hcfg
  fs := hfs
  prepared := hprep
  maxblk := hmax
  count _ _ _ ch := by simp [relayCount, specCount, hcfg, hrelay, hspec]

theorem refl (p : Port) (s : State) : Frame p s s := of_eq (fun _ => rfl) rfl rfl rfl rfl rfl rfl

theorem setPort (h : Frame p s t) (r : PortRegs) : Frame p s (t.setPort p r) where
  keep q hq := (portRegs_setPort_ne _ _ hq).trans (h.keep q hq)
  cfg := by rw [setPort_cfg, h.cfg]
  fs := by rw [setPort_fs, h.fs]
  prepared := by rw [setPort_prepared, h.prepared]
  maxblk := by rw [setPort_maxblk, h.maxblk]
  count := by simpa only [relayCount, specCount, setPort_cfg, setPort_relay, setPort_spec] using h.count

theorem raise (h : Frame p s t) (c : Cause) : Frame p s (raise c p t) where
  keep q hq := (raise_portRegs_ne _ _ hq).trans (h.keep q hq)
  cfg := by rw [raise_cfg, h.cfg]
  fs := by rw [raise_fs, h.fs]
  prepared := by rw [raise_prepared, h.prepared]
  maxblk := by rw [raise_maxblk, h.maxblk]
  count := by simpa only [relayCount, specCount, raise_cfg, raise_relay, raise_spec] using h.count

theorem relayChan (n : Nat) (ch : Chan) (s : State) : Frame .aud s (relayChan n ch s) where
  keep q _ := by cases q <;> rfl
  cfg := rfl
  fs := rfl
  prepared := rfl
  maxblk := rfl
  count _ hw hf c := ⟨relayChan_count n ch s hw hf c, le_rfl⟩

theorem pollBlock (se : Bool) (ch : Chan) (s : State) : Frame .rnd s (pollBlock se ch s) where
  keep q _ := same_ports (by simp) (by simp) (by simp) q
  cfg := by simp
  fs := by simp
  prepared := by simp
  maxblk := by simp
  count h := absurd rfl h

theorem drainOne (last : Bool) (ch : Chan) (s : State) : Frame .rnd s (drainOne last ch s) where
  keep q _ := same_ports (by simp) (by simp) (by simp) q
  cfg := by simp
  fs := by simp
  prepared := by simp
  maxblk := by simp
  count h := absurd rfl h

end Frame

/-- PROCESS removes no block. -/
theorem exec_process_count {s t : State} (h : exec .process s = .next t) (hw : s.cfg.wf = true) (hf : FifosOk s)
    (ch : Chan) : relayCount s ch ≤ relayCount t ch := by
  simp only [exec, execProcess] at h
  split at h
  · cases h; simp [relayCount]
  · split at h <;> cases h
    · simp [relayCount]
    · simp only [relayCount, complete_cfg, complete_relay, processBody_cfg, (processBody_parts _ _ ch).2.2]
      exact (relayLoop_wf _ _ _ _ _ _ _ _ (Config.wf_relay hw) (hf ch).1).2

theorem exec_frame {i : Instr} {s t : State} (hi : i ≠ .prepare) (h : exec i s = .next t) : Frame i.port s t := by
  obtain ⟨-, -, htransport, hspec, hrd, hwriter⟩ := exec_storageKept h
  obtain ⟨hfs, hmax, hprep⟩ := htransport hi
  refine ⟨(exec_ports h).1, exec_cfg h, hfs, hprep, hmax, fun hp hw hf ch => ?_⟩
  have hpoll : ∀ c, i ≠ .rpoll c := fun c e => hp (by rw [e]; rfl)
  have hdrain : ∀ c, i ≠ .sdrain c := fun c e => hp (by rw [e]; rfl)
  refine ⟨?_, by rw [specCount, specCount, exec_cfg h, hspec hpoll hdrain hi]⟩
  by_cases hproc : i = .process
  · subst hproc; exact exec_process_count h hw hf ch
  · rw [relayCount, relayCount, Fifo.count, Fifo.count, exec_cfg h, hrd hpoll hi ch, (hwriter hproc hi ch).1]

/-- What a port that has come to a position of a command has established: its command's checks, or how many pops are
left. -/
structure Reached (p : Port) (s t : State) (pos : Pos) : Prop where
  fits : posFits p pos = true
  checked : inProcess pos = true → processCheck s = none ∨ inProcess s.aud.pos = true
  held : pos = .prepHold → prepareCheck s = none
  polls : ∀ se ch more rest, pos = .rpollPop se ch more rest → FifoInv s → more < relayCount t ch
  drains : ∀ ch more rest, pos = .sdrainPop ch more rest → FifoInv s → more < specCount t ch

namespace Reached

variable {s t : State} {se : Bool} {ch : Chan} {more : Nat} {rest : List Chan}

theorem hold (h : prepareCheck s = none) : Reached .aud s t .prepHold := ⟨rfl, nofun, fun _ => h, nofun, nofun⟩

theorem procSnap {pid : Pid} (h : processCheck s = none ∨ inProcess s.aud.pos = true) :
    Reached .aud s t (.procSnap pid) := ⟨rfl, fun _ => h, nofun, nofun, nofun⟩

theorem procCoef (h : inProcess s.aud.pos = true) : Reached .aud s t .procCoef :=
  ⟨rfl, fun _ => .inr h, nofun, nofun, nofun⟩

theorem procFilt (h : inProcess s.aud.pos = true) : Reached .aud s t .procFilt :=
  ⟨rfl, fun _ => .inr h, nofun, nofun, nofun⟩

theorem procRelay (h : inProcess s.aud.pos = true) : Reached .aud s t (.procRelay ch) :=
  ⟨rfl, fun _ => .inr h, nofun, nofun, nofun⟩

theorem rpollCount : Reached .rnd s t (.rpollCount se ch rest) := ⟨rfl, nofun, nofun, nofun, nofun⟩

theorem sdrainCount : Reached .rnd s t (.sdrainCount ch rest) := ⟨rfl, nofun, nofun, nofun, nofun⟩

theorem rpollPop (h : FifoInv s → more < relayCount t ch) : Reached .rnd s t (.rpollPop se ch more rest) :=
  ⟨rfl, nofun, nofun, fun _ _ _ _ e => by cases e; exact h, nofun⟩

theorem sdrainPop (h : FifoInv s → more < specCount t ch) : Reached .rnd s t (.sdrainPop ch more rest) :=
  ⟨rfl, nofun, nofun, nofun, fun _ _ _ e => by cases e; exact h⟩

end Reached

/-- What a move does to the ports: at most one port moves, and it goes to no command or to a position it has reached. -/
inductive PortMove (s t : State) : Prop
  | reset (h : t = hwReset s)
  | prepared (hb : s.rnd.busy = false) (hc : prepareCheck s = none ∨ s.aud.pos = .prepHold) (h : t = prepareGlobal s)
  | same (hf : Frame .aud s t) (hp : t.aud = s.aud)
  | start (p : Port) (hf : Frame p s t) (hp : (t.portRegs p).pos = .start)
  | reached (p : Port) (pos : Pos) (hf : Frame p s t) (hb : (s.portRegs p).busy = true)
      (hp : t.portRegs p = { s.portRegs p with pos := pos }) (hr : Reached p s t pos)

namespace PortMove

variable {p : Port} {s u : State}

theorem complete (hf : Frame p s u) : PortMove s (complete p u) :=
  .start p (hf.setPort _) (by rw [complete_portRegs_self])

theorem raise (hf : Frame p s u) (c : Cause) : PortMove s (raise c p u) :=
  .start p (hf.raise c) (by rw [raise_portRegs_self])

theorem setPos {pos : Pos} (hf : Frame p s u) (hb : (s.portRegs p).busy = true) (hu : u.portRegs p = s.portRegs p)
    (hr : Reached p s (setPos p pos u) pos) : PortMove s (setPos p pos u) :=
  .reached p pos (hf.setPort _) hb (by rw [setPos_portRegs_self, hu]) hr

theorem pollNext (se : Bool) (rest : List Chan) (hf : Frame .rnd s u) (hb : s.rnd.busy = true) (hu : u.rnd = s.rnd) :
    PortMove s (pollNext se rest u) := by
  cases rest with
  | nil => exact complete hf
  | cons ch more => exact setPos hf hb hu .rpollCount

theorem drainNext (rest : List Chan) (hf : Frame .rnd s u) (hb : s.rnd.busy = true) (hu : u.rnd = s.rnd) :
    PortMove s (drainNext rest u) := by
  cases rest with
  | nil => exact complete hf
  | cons ch more => exact setPos hf hb hu .sdrainCount

theorem pollCountStep (se : Bool) (ch : Chan) (rest : List Chan) (hb : s.rnd.busy = true) :
    PortMove s (pollCountStep se ch rest s) := by
  unfold Machine.pollCountStep
  split
  · exact pollNext _ _ (.refl _ _) hb rfl
  · rename_i m hm
    have hcount : relayCount (Machine.setPos .rnd (.rpollPop se ch m rest) s) ch = m + 1 := hm
    exact setPos (.refl _ _) hb rfl (.rpollPop fun _ => by omega)

theorem drainCountStep (ch : Chan) (rest : List Chan) (hb : s.rnd.busy = true) :
    PortMove s (drainCountStep ch rest s) := by
  unfold Machine.drainCountStep
  split
  · exact drainNext _ (.refl _ _) hb rfl
  · rename_i m hm
    have hcount : specCount (Machine.setPos .rnd (.sdrainPop ch m rest) s) ch = m + 1 := hm
    exact setPos (.refl _ _) hb rfl (.sdrainPop fun _ => by omega)

theorem pollPopStep {se : Bool} {ch : Chan} {more : Nat} {rest : List Chan} (hb : s.rnd.busy = true)
    (hp : s.rnd.pos = .rpollPop se ch more rest) : PortMove s (pollPopStep se ch more rest s) := by
  unfold Machine.pollPopStep
  split
  · exact pollNext _ _ (.pollBlock _ _ _) hb (pollBlock_rnd _ _ _)
  · rename_i m
    refine setPos (.pollBlock _ _ _) hb (pollBlock_rnd _ _ _) (.rpollPop fun hinv => ?_)
    obtain ⟨hok, hpolls, -⟩ := hinv
    have hold := hpolls _ _ _ _ hb hp
    have hnew : relayCount (Machine.setPos .rnd (.rpollPop se ch m rest) (Machine.pollBlock se ch s)) ch
        = relayCount s ch - 1 := pollBlock_count se ch s hok
    omega

theorem drainPopStep {ch : Chan} {more : Nat} {rest : List Chan} (hb : s.rnd.busy = true)
    (hp : s.rnd.pos = .sdrainPop ch more rest) : PortMove s (drainPopStep ch more rest s) := by
  unfold Machine.drainPopStep
  split
  · exact drainNext _ (.drainOne _ _ _) hb (drainOne_rnd _ _ _)
  · rename_i m
    refine setPos (.drainOne _ _ _) hb (drainOne_rnd _ _ _) (.sdrainPop fun hinv => ?_)
    obtain ⟨hok, -, hdrains⟩ := hinv
    have hold := hdrains _ _ _ hb hp
    have hnew : specCount (Machine.setPos .rnd (.sdrainPop ch m rest) (Machine.drainOne false ch s)) ch
        = specCount s ch - 1 := drainOne_count false ch s hok
    omega

/-- A command run whole. -/
theorem of_exec {i : Instr} {t : State} (hb : (s.portRegs i.port).busy = true) (h : exec i s = .next t) :
    PortMove s t := by
  by_cases hi : i = .prepare
  · subst hi
    simp only [exec, execPrepare] at h
    split at h
    · cases h; exact raise (.refl _ _) _
    · rename_i hc
      split at h <;> cases h
      · exact setPos (.refl _ _) hb rfl (.hold hc)
      · rename_i hr; exact .prepared (by simpa using hr) (.inl hc) rfl
  · rcases exec_done h with ⟨-, -, hpos, -⟩ | ⟨e, -⟩
    · exact .start _ (exec_frame hi h) hpos
    · exact absurd e hi

/-- A command's first atomic step. -/
theorem of_firstStep {i : Instr} {t : State} (hb : (s.portRegs i.port).busy = true) (h : firstStep i s = .next t) :
    PortMove s t := by
  cases i with
  | prepare =>
    cases h
    unfold prepareFirst
    split
    · exact raise (.refl _ _) _
    · rename_i hc; exact setPos (.refl _ _) hb rfl (.hold hc)
  | process =>
    cases h
    unfold processFirst
    split
    · exact raise (.refl _ _) _
    · rename_i hc; exact setPos (.refl _ _) hb rfl (.procSnap (.inl hc))
  | rpoll c => cases h; exact setPos (.refl _ _) hb rfl .rpollCount
  | sdrain c => cases h; exact drainCountStep _ _ hb
  | nop p => exact of_exec (i := .nop p) hb h
  | setp pid => exact of_exec (i := .setp pid) hb h
  | rdp pid => exact of_exec (i := .rdp pid) hb h
  | rdbin c => exact of_exec (i := .rdbin c) hb h
  | rdmeta c sel => exact of_exec (i := .rdmeta c sel) hb h
  | rdgen p => exact of_exec (i := .rdgen p) hb h
  | rdocc c sel => exact of_exec (i := .rdocc c sel) hb h
  | rdstat p => exact of_exec (i := .rdstat p) hb h

theorem processSnap {pid : Pid} (hb : s.aud.busy = true) (hp : s.aud.pos = .procSnap pid) :
    PortMove s (processSnap pid s) := by
  have hin : inProcess s.aud.pos = true := by rw [hp]; rfl
  refine setPos (.of_eq (fun q => by cases q <;> rfl) rfl rfl rfl rfl rfl rfl) hb rfl ?_
  cases pid.next? with
  | none => exact .procCoef hin
  | some q => exact .procSnap (.inr hin)

theorem processCoef (hb : s.aud.busy = true) (hp : s.aud.pos = .procCoef) : PortMove s (processCoef s) := by
  unfold Machine.processCoef
  split
  · exact raise (.refl _ _) _
  · exact setPos (.of_eq (fun q => by cases q <;> rfl) rfl rfl rfl rfl rfl rfl) hb rfl (.procFilt (by rw [hp]; rfl))

theorem processFilt (hb : s.aud.busy = true) (hp : s.aud.pos = .procFilt) : PortMove s (processFilt s) :=
  setPos (.of_eq (fun q => by cases q <;> rfl) rfl rfl rfl rfl rfl rfl) hb rfl (.procRelay (by rw [hp]; rfl))

theorem processRelay {ch : Chan} (hb : s.aud.busy = true) (hp : s.aud.pos = .procRelay ch) :
    PortMove s (processRelay ch s) := by
  cases ch with
  | left => exact setPos (.relayChan _ _ _) hb rfl (.procRelay (by rw [hp]; rfl))
  | right => exact complete (.relayChan _ _ _)

end PortMove

/-- The positions of PREPARE and PROCESS are AUD's. -/
theorem PortInv.eq_aud {s : State} (h : PortInv s) {p : Port}
    (hp : (s.portRegs p).pos = .prepHold ∨ inProcess (s.portRegs p).pos = true) : p = .aud := by
  have hfit := (h p).1
  cases p with
  | aud => rfl
  | ctl => revert hfit hp; cases (s.portRegs .ctl).pos <;> simp [posFits, inProcess]
  | rnd => revert hfit hp; cases (s.portRegs .rnd).pos <;> simp [posFits, inProcess]

/-- The positions of RPOLL and SDRAIN are RND's. -/
theorem PortInv.eq_rnd {s : State} (h : PortInv s) {p : Port} (hp : posFits .aud (s.portRegs p).pos = false) :
    p = .rnd := by
  have hfit := (h p).1
  cases p with
  | aud => rw [hfit] at hp; cases hp
  | ctl => revert hfit hp; cases (s.portRegs .ctl).pos <;> simp [posFits]
  | rnd => rfl

/-- Every move is one of the five. -/
theorem portMove_of_moved {m : Option Move} {s t : State} (hs : PortInv s) (h : Moved m s t) : PortMove s t := by
  cases h with
  | idle h => subst h; exact .same (.refl _ _) rfl
  | regs p r hb _ hr h =>
    subst h
    exact .start p ((Frame.refl p s).setPort r) (by rw [portRegs_setPort_self, hr, (hs p).2 hb])
  | issue p w _ h => subst h; exact .start p ((Frame.refl p s).setPort _) (by rw [portRegs_setPort_self])
  | host ch j v _ _ h =>
    subst h
    exact .same (.of_eq (fun q => by cases q <;> rfl) rfl rfl rfl rfl rfl rfl) rfl
  | reset _ h => exact .reset h
  | whole p i hb _ hd h => obtain rfl := decode_port hd; exact .of_exec hb h
  | first p i hb _ hd h => obtain rfl := decode_port hd; exact .of_firstStep hb h
  | illegal p r _ _ _ h => subst h; exact .raise (.refl _ _) _
  | held p hb hp h =>
    obtain rfl := hs.eq_aud (.inl hp)
    subst h
    unfold prepareHeld
    split
    · exact .same (.refl _ _) rfl
    · rename_i hr; exact .prepared (by simpa using hr) (.inr hp) rfl
  | snap p pid hb hp h =>
    obtain rfl := hs.eq_aud (.inr (by rw [hp]; rfl))
    subst h; exact .processSnap hb hp
  | coef p hb hp h =>
    obtain rfl := hs.eq_aud (.inr (by rw [hp]; rfl))
    subst h; exact .processCoef hb hp
  | filt p hb hp h =>
    obtain rfl := hs.eq_aud (.inr (by rw [hp]; rfl))
    subst h; exact .processFilt hb hp
  | relay p ch hb hp h =>
    obtain rfl := hs.eq_aud (.inr (by rw [hp]; rfl))
    subst h; exact .processRelay hb hp
  | pollCount p se ch rest hb hp h =>
    obtain rfl := hs.eq_rnd (by rw [hp]; rfl)
    subst h; exact .pollCountStep _ _ _ hb
  | pollPop p se ch more rest hb hp h =>
    obtain rfl := hs.eq_rnd (by rw [hp]; rfl)
    subst h; exact .pollPopStep hb hp
  | drainCount p ch rest hb hp h =>
    obtain rfl := hs.eq_rnd (by rw [hp]; rfl)
    subst h; exact .drainCountStep _ _ hb
  | drainPop p ch more rest hb hp h =>
    obtain rfl := hs.eq_rnd (by rw [hp]; rfl)
    subst h; exact .drainPopStep hb hp

/-! ### The positions -/

/-- A port is at a position of its own commands, an idle one at none. -/
theorem PortInv.of_keep {p : Port} {s t : State} (hs : PortInv s) (hk : Keep p s t)
    (hp : posFits p (t.portRegs p).pos = true ∧ ((t.portRegs p).busy = false → (t.portRegs p).pos = .start)) :
    PortInv t := by
  intro q
  by_cases hq : q = p
  · subst hq; exact hp
  · rw [hk q hq]; exact hs q

theorem posFits_start (p : Port) : posFits p .start = true := by cases p <;> rfl

theorem portInv_reset (c : Config) (n : Nat) : PortInv (State.resetWith c n) := by
  intro p; cases p <;> exact ⟨rfl, fun _ => rfl⟩

theorem moved_portInv {m : Option Move} {s t : State} (hs : PortInv s) (h : Moved m s t) : PortInv t := by
  cases portMove_of_moved hs h with
  | reset h => subst h; exact fun p => portInv_reset s.cfg s.draws p
  | prepared _ _ h =>
    obtain ⟨hk, -, hp, -⟩ := done_prepareGlobal s
    subst h
    exact hs.of_keep hk ⟨by rw [hp]; rfl, fun _ => hp⟩
  | same hf hp => exact hs.of_keep hf.keep (by rw [show t.portRegs .aud = s.portRegs .aud from hp]; exact hs .aud)
  | start p hf hp => exact hs.of_keep hf.keep ⟨by rw [hp]; exact posFits_start p, fun _ => hp⟩
  | reached p pos hf hb hp hr =>
    refine hs.of_keep hf.keep ⟨by rw [hp]; exact hr.fits, fun hidle => ?_⟩
    rw [hp] at hidle
    exact absurd (hb.symm.trans hidle) (by decide)

theorem PortInv.sched {s : State} (r : List Move) (h : PortInv s) : PortInv { s with sched := r } := fun p => by
  rw [portRegs_sched]; exact h p

/-- Settles O51: the one port that moves goes to no command or to a position it has reached, which is its own. -/
theorem positionsStayLegal : Obligations.PositionsStayLegal :=
  fun _ _ hs h => step_keeps (fun _ r h => h.sched r) (fun _ _ _ => moved_portInv) hs h

/-! ### The transport state -/

theorem transportInv_reset (c : Config) (n : Nat) : TransportInv (State.resetWith c n) := by
  simp [TransportInv, State.resetWith, PortRegs.idle, inProcess]

theorem badMaxBlock_eq_false {c : Config} {m : Nat} : badMaxBlock c m = false ↔ 1 ≤ m ∧ m ≤ c.maxBlkCap := by
  simp [badMaxBlock, Nat.one_le_iff_ne_zero]

/-- A PREPARE whose arguments are good leaves a legal transport state, fault or not. -/
theorem transportInv_prepareGlobal {s : State} (hs : TransportInv s) (hc : prepareCheck s = none) :
    TransportInv (prepareGlobal s) := by
  obtain ⟨hcap, hiff, hrate, -, -⟩ := hs
  obtain ⟨hfs, hmax⟩ := prepareCheck_args hc
  obtain ⟨hpos, hle⟩ := badMaxBlock_eq_false.mp hmax
  obtain ⟨-, -, hstart, -⟩ := done_prepareGlobal s
  replace hstart : (prepareGlobal s).aud.pos = .start := hstart
  have htransport : (prepareGlobal s).maxblk ≤ (prepareGlobal s).cfg.maxBlkCap
      ∧ ((prepareGlobal s).prepared = true ↔ 1 ≤ (prepareGlobal s).maxblk)
      ∧ ((prepareGlobal s).prepared = true → badRate (prepareGlobal s).fs = false) := by
    unfold prepareGlobal
    split
    · simpa using ⟨hcap, hiff, hrate⟩
    · simp [prepareWrites, hle, hpos, hfs]
  exact ⟨htransport.1, htransport.2.1, htransport.2.2, by simp [hstart, inProcess], by simp [hstart]⟩

theorem prepareCheck_congr {s t : State} (hc : t.cfg = s.cfg) (h0 : t.aud.arg0 = s.aud.arg0)
    (h1 : t.aud.arg1 = s.aud.arg1) : prepareCheck t = prepareCheck s := by
  unfold prepareCheck rateArg maxBlockArg; rw [hc, h0, h1]

/-- A step that leaves the transport registers alone has to answer only for the position of AUD. -/
theorem TransportInv.of_frame {p : Port} {s t : State} (hs : TransportInv s) (hf : Frame p s t)
    (hproc : inProcess t.aud.pos = true → s.prepared = true ∧ blockArg t ≤ s.maxblk)
    (hhold : t.aud.pos = .prepHold → prepareCheck t = none) : TransportInv t := by
  obtain ⟨hcap, hiff, hrate, -, -⟩ := hs
  unfold TransportInv
  rw [hf.cfg, hf.maxblk, hf.prepared, hf.fs]
  exact ⟨hcap, hiff, hrate, hproc, hhold⟩

theorem TransportInv.of_same_aud {p : Port} {s t : State} (hs : TransportInv s) (hf : Frame p s t)
    (ha : t.aud = s.aud) : TransportInv t := by
  obtain ⟨-, -, -, hproc, hhold⟩ := id hs
  refine hs.of_frame hf ?_ ?_
  · rw [blockArg, ha]; exact hproc
  · rw [ha, prepareCheck_congr hf.cfg (by rw [ha]) (by rw [ha])]; exact hhold

theorem moved_transportInv {m : Option Move} {s t : State} (hp : PortInv s) (hs : TransportInv s) (h : Moved m s t) :
    TransportInv t := by
  cases portMove_of_moved hp h with
  | reset h => subst h; exact transportInv_reset s.cfg s.draws
  | prepared _ hc h =>
    subst h
    obtain ⟨-, -, -, -, hhold⟩ := id hs
    exact transportInv_prepareGlobal hs (hc.elim id hhold)
  | same hf ha => exact hs.of_same_aud hf ha
  | start p hf hpos =>
    by_cases e : p = .aud
    · subst e
      replace hpos : t.aud.pos = .start := hpos
      exact hs.of_frame hf (by simp [hpos, inProcess]) (by simp [hpos])
    · exact hs.of_same_aud hf (hf.keep .aud (Ne.symm e))
  | reached p pos hf _ hregs hr =>
    by_cases e : p = .aud
    · subst e
      replace hregs : t.aud = { s.aud with pos := pos } := hregs
      obtain ⟨-, -, -, hproc, -⟩ := id hs
      refine hs.of_frame hf ?_ ?_
      · rw [blockArg, hregs]; exact fun hin => (hr.checked hin).elim processCheck_args hproc
      · rw [prepareCheck_congr hf.cfg (by rw [hregs]) (by rw [hregs]), hregs]; exact hr.held
    · exact hs.of_same_aud hf (hf.keep .aud (Ne.symm e))

/-- Settles O54: only PREPARE's global step writes the transport registers, with arguments it has checked; a port past a
check has passed it, and its arguments stay while it is busy. -/
theorem transportStaysLegal : Obligations.TransportStaysLegal := by
  intro s t hp hs h
  exact (step_keeps (P := fun s => PortInv s ∧ TransportInv s) (fun _ r hu => ⟨hu.1.sched r, hu.2⟩)
    (fun _ _ _ ⟨hp, hs⟩ hm => ⟨moved_portInv hp hm, moved_transportInv hp hs hm⟩) ⟨hp, hs⟩ h).2

/-! ### The memories -/

/-- The memories are canonical, and MAXBLK is within them. -/
def MemoryOk (s : State) : Prop := s.maxblk ≤ s.cfg.maxBlkCap ∧ MemoryInv s

theorem MemoryOk.congr {s t : State} (h : MemoryOk s) (hc : t.cfg = s.cfg) (hm : t.maxblk = s.maxblk)
    (hb : t.buf = s.buf) (hr : ∀ ch, SameWriter (s.relay.get ch) (t.relay.get ch)) : MemoryOk t := by
  obtain ⟨hcap, hinv⟩ := h
  refine ⟨by rw [hc, hm]; exact hcap, fun ch => ?_⟩
  obtain ⟨-, -, hstg, hidx⟩ := hr ch
  rw [hc, hm, hb, hstg, hidx]; exact hinv ch

theorem SameWriter.of_eq {q r : Stereo RelayCh} (h : r = q) (ch : Chan) : SameWriter (q.get ch) (r.get ch) := by
  rw [h]; exact ⟨rfl, rfl, rfl, rfl⟩

theorem memoryOk_filtStep {s : State} {n : Nat} (h : MemoryOk s) (hn : n ≤ s.maxblk) : MemoryOk (filtStep n s) := by
  obtain ⟨hcap, hinv⟩ := h
  refine ⟨hcap, fun ch => ?_⟩
  obtain ⟨hbuf, hstg, hidx⟩ := hinv ch
  refine ⟨?_, hstg, hidx⟩
  rw [filtStep_buf]
  exact filtLoop_wf _ _ _ _ _ _ _ hbuf (by rw [filtStep_cfg]; omega)

theorem memoryOk_relayChan {s : State} {n : Nat} (ch : Chan) (h : MemoryOk s) (hn : n ≤ s.maxblk) :
    MemoryOk (relayChan n ch s) := by
  obtain ⟨hcap, hinv⟩ := h
  refine ⟨hcap, fun c => ⟨(hinv c).1, ?_⟩⟩
  obtain ⟨-, hstg, hidx⟩ := hinv c
  simp only [relayChan, Stereo.get_set]
  split
  · rename_i e; subst e; exact relayLoop_stg _ _ _ _ _ _ _ _ hcap hn hstg hidx
  · exact ⟨hstg, hidx⟩

/-- HOST's write is to an element BUF has (20_memory.md R62). -/
theorem memoryOk_hostWrite {s : State} {j : Nat} (ch : Chan) (v : B32) (h : MemoryOk s) (hj : j < s.cfg.maxBlkCap) :
    MemoryOk { s with buf := s.buf.set ch (memWrite (s.buf.get ch) j v) } := by
  obtain ⟨hcap, hinv⟩ := h
  refine ⟨hcap, fun c => ⟨?_, (hinv c).2⟩⟩
  simp only [Stereo.get_set]
  split
  · exact Memory.wf_memWrite _ _ _ _ (hinv ch).1 hj
  · exact (hinv c).1

theorem memoryOk_prepare {s : State} {fs : B64} {m : Nat} (h : MemoryOk s) (hm : m ≤ s.cfg.maxBlkCap) :
    MemoryOk (prepareWrites fs m (coefStep fs (takeSnapshot s))) := by
  obtain ⟨-, hinv⟩ := h
  refine ⟨hm, fun ch => ?_⟩
  obtain ⟨hbuf, hstg, -⟩ := hinv ch
  refine ⟨hbuf, ?_⟩
  cases ch <;> exact ⟨hstg, Nat.lt_of_lt_of_le Nat.one_pos (le_max_left _ _)⟩

theorem closed_memoryOk : Closed MemoryOk (fun N n => n ≤ N) (fun c _ m => m ≤ c.maxBlkCap) where
  port _ _ _ h := h.congr (by simp) (by simp) (by simp) (SameWriter.of_eq (by simp))
  fault _ _ _ h _ := h.congr (by simp) (by simp) (by simp) (SameWriter.of_eq (by simp))
  snap _ _ h := h
  coef _ _ h := h
  set _ _ _ h := h
  filt _ _ h hn := memoryOk_filtStep h hn
  relay _ _ ch h hn := memoryOk_relayChan ch h hn
  prep _ _ _ h hm := memoryOk_prepare h hm
  poll s se ch h := h.congr (by simp) (by simp) (by simp) (pollBlock_fifo se ch s)
  drain _ _ _ h := h.congr (by simp) (by simp) (by simp) (SameWriter.of_eq (by simp))
  host _ ch _ v h hj := memoryOk_hostWrite ch v h hj

theorem memoryOk_reset (c : Config) (n : Nat) : MemoryOk (State.resetWith c n) :=
  ⟨Nat.zero_le _, fun ch => by cases ch <;> exact ⟨rfl, rfl, Nat.one_pos⟩⟩

/-- A PROCESS that filters or stages has a block within MAXBLK, a PREPARE that installs a block size one within
MAXBLK_CAP. -/
theorem moved_memoryInv {m : Option Move} {s t : State} (hp : PortInv s) (ht : TransportInv s) (hs : MemoryInv s)
    (h : Moved m s t) : MemoryInv t := by
  obtain ⟨hcap, -, -, hproc, hhold⟩ := ht
  refine (closed_memoryOk.moved ⟨hcap, hs⟩ (fun hok => ?_) (fun hok => ?_) (fun _ => memoryOk_reset s.cfg s.draws) h).2
  · rcases hok with hc | ⟨p, pos, rfl, hpos⟩
    · exact (processCheck_args hc).2
    · have hin : inProcess (s.portRegs p).pos = true := by rcases hpos with e | ⟨ch, e⟩ <;> rw [e] <;> rfl
      obtain rfl := hp.eq_aud (.inr hin)
      exact (hproc hin).2
  · have hc : prepareCheck s = none := by
      rcases hok with hc | ⟨p, hpos⟩
      · exact hc
      · obtain rfl := hp.eq_aud (.inl hpos); exact hhold hpos
    exact (badMaxBlock_eq_false.mp (prepareCheck_args hc).2).2

/-- Settles O55. The bounds of the configuration are not needed. -/
theorem memoryStaysCanonical : Obligations.MemoryStaysCanonical := by
  intro s t _ hp ht hs h
  exact (step_keeps (P := fun s => PortInv s ∧ TransportInv s ∧ MemoryInv s)
    (fun _ r hu => ⟨hu.1.sched r, hu.2⟩)
    (fun _ _ _ ⟨hp, ht, hs⟩ hm => ⟨moved_portInv hp hm, moved_transportInv hp ht hm, moved_memoryInv hp ht hs hm⟩)
    ⟨hp, ht, hs⟩ h).2.2

/-! ### The FIFOs -/

theorem FifosOk.congr {s t : State} (h : FifosOk s) (hc : t.cfg = s.cfg) (hm : t.maxblk = s.maxblk)
    (hr : t.relay = s.relay) (hs : t.spec = s.spec) : FifosOk t := by
  unfold FifosOk; rw [hc, hm, hr, hs]; exact h

/-- A block fed to the spectrum pushes at most one snapshot, of NBINS bins. -/
theorem feedBlock_wf (e : FpEnv) (c : Config) (fs : B64) (n : Nat) (sp : SpecCh) (blk : List B32) (hc : 1 ≤ c.cSpec)
    (h : Fifo.wf c.cSpec (fun b => b.db.length = c.nbins) sp.fifo) :
    Fifo.wf c.cSpec (fun b => b.db.length = c.nbins) (feedBlock e c fs n sp blk).fifo := by
  unfold feedBlock
  split
  · exact Fifo.wf_push hc h (by simp [transform])
  · exact h

theorem fifosOk_pollBlock {s : State} (se : Bool) (ch : Chan) (hw : s.cfg.wf = true) (h : FifosOk s) :
    FifosOk (pollBlock se ch s) := by
  unfold pollBlock
  split
  · exact h
  · rename_i blk q hpop
    obtain ⟨-, -, hq, -⟩ := Fifo.pop_some (h ch).1 hpop
    have hrelay : FifosOk { s with relay := s.relay.set ch { s.relay.get ch with fifo := q } } := fun c => by
      refine ⟨?_, (h c).2⟩
      simp only [Stereo.get_set]
      split
      · exact hq
      · exact (h c).1
    split
    · intro c
      refine ⟨(hrelay c).1, ?_⟩
      simp only [Stereo.get_set]
      split
      · exact feedBlock_wf _ _ _ _ _ _ (Config.wf_spec hw) (h ch).2
      · exact (h c).2
    · exact hrelay

theorem fifosOk_drainOne {s : State} (last : Bool) (ch : Chan) (h : FifosOk s) : FifosOk (drainOne last ch s) := by
  unfold drainOne
  split
  · exact h
  · rename_i snap q hpop
    obtain ⟨-, -, hq, -⟩ := Fifo.pop_some (h ch).2 hpop
    intro c
    refine ⟨(h c).1, ?_⟩
    simp only [Stereo.get_set]
    split
    · exact hq
    · exact (h c).2

theorem fifosOk_relayChan {s : State} (n : Nat) (ch : Chan) (hw : s.cfg.wf = true) (h : FifosOk s) :
    FifosOk (relayChan n ch s) := by
  intro c
  refine ⟨?_, (h c).2⟩
  simp only [relayChan, Stereo.get_set]
  split
  · rename_i e; subst e; exact (relayLoop_wf _ _ _ _ _ _ _ _ (Config.wf_relay hw) (h c).1).1
  · exact (h c).1

/-- PREPARE empties every FIFO, so the new block length asks nothing of the slots. -/
theorem fifosOk_prepare {s : State} (fs : B64) (m : Nat) (hw : s.cfg.wf = true) (h : FifosOk s) :
    FifosOk (prepareWrites fs m (coefStep fs (takeSnapshot s))) := by
  intro ch
  obtain ⟨hrelay, hspec⟩ := h ch
  cases ch <;> exact ⟨Fifo.wf_clear (Config.wf_relay hw) hrelay, Fifo.wf_clear (Config.wf_spec hw) hspec⟩

theorem closed_fifosOk :
    Closed (fun s => s.cfg.wf = true ∧ FifosOk s) (fun _ _ => True) (fun _ _ _ => True) where
  port _ _ _ h := ⟨by simpa using h.1, h.2.congr (by simp) (by simp) (by simp) (by simp)⟩
  fault _ _ _ h _ := ⟨by simpa using h.1, h.2.congr (by simp) (by simp) (by simp) (by simp)⟩
  snap _ _ h := h
  coef _ _ h := h
  set _ _ _ h := h
  filt _ _ h _ := h
  relay _ n ch h _ := ⟨h.1, fifosOk_relayChan n ch h.1 h.2⟩
  prep _ fs m h _ := ⟨h.1, fifosOk_prepare fs m h.1 h.2⟩
  poll _ se ch h := ⟨by simpa using h.1, fifosOk_pollBlock se ch h.1 h.2⟩
  drain _ last ch h := ⟨by simpa using h.1, fifosOk_drainOne last ch h.2⟩
  host _ _ _ _ h _ := h

theorem fifosOk_reset {c : Config} (n : Nat) (hw : c.wf = true) : FifosOk (State.resetWith c n) := by
  intro ch
  cases ch <;> exact ⟨Fifo.wf_empty _ _ (Config.wf_relay hw), Fifo.wf_empty _ _ (Config.wf_spec hw)⟩

theorem moved_fifosOk {m : Option Move} {s t : State} (hw : s.cfg.wf = true) (hs : FifosOk s) (h : Moved m s t) :
    FifosOk t :=
  (closed_fifosOk.moved ⟨hw, hs⟩ (fun _ => trivial) (fun _ => trivial) (fun _ => ⟨hw, fifosOk_reset s.draws hw⟩) h).2

/-- A drain in progress on RND has no more pops left than there are blocks (43_relay_fifo.md R194). -/
def DrainOk (s : State) : Prop :=
  (∀ se ch more rest, s.rnd.busy = true → s.rnd.pos = .rpollPop se ch more rest → more < relayCount s ch)
    ∧ (∀ ch more rest, s.rnd.busy = true → s.rnd.pos = .sdrainPop ch more rest → more < specCount s ch)

theorem fifoInv_iff {s : State} : FifoInv s ↔ FifosOk s ∧ DrainOk s := Iff.rfl

theorem drainOk_of_start {s : State} (h : s.rnd.pos = .start) : DrainOk s := by simp [DrainOk, h]

theorem drainOk_of_idle {s : State} (h : s.rnd.busy = false) : DrainOk s := by simp [DrainOk, h]

theorem DrainOk.of_frame {p : Port} {s t : State} (hs : DrainOk s) (hw : s.cfg.wf = true) (hok : FifosOk s)
    (hf : Frame p s t) (hp : p ≠ .rnd) : DrainOk t := by
  have hrnd : t.rnd = s.rnd := hf.keep .rnd (Ne.symm hp)
  have hcount := hf.count hp hw hok
  unfold DrainOk
  rw [hrnd]
  exact ⟨fun se ch more rest hb hpos => (hs.1 se ch more rest hb hpos).trans_le (hcount ch).1,
    fun ch more rest hb hpos => (hs.2 ch more rest hb hpos).trans_le (hcount ch).2⟩

/-- While RND drains only PROCESS can touch the FIFOs, and it only adds blocks; PREPARE waits for RND (45_control.md
R271). -/
theorem moved_drainOk {m : Option Move} {s t : State} (hw : s.cfg.wf = true) (hp : PortInv s) (hs : FifoInv s)
    (h : Moved m s t) : DrainOk t := by
  obtain ⟨hok, hdrain⟩ := fifoInv_iff.mp hs
  cases portMove_of_moved hp h with
  | reset h => subst h; exact drainOk_of_start rfl
  | prepared hb _ h =>
    subst h
    obtain ⟨hk, -⟩ := done_prepareGlobal s
    exact drainOk_of_idle (by rw [show (prepareGlobal s).rnd = s.rnd from hk .rnd (by decide)]; exact hb)
  | same hf _ => exact hdrain.of_frame hw hok hf (by decide)
  | start p hf hpos =>
    by_cases e : p = .rnd
    · subst e; exact drainOk_of_start hpos
    · exact hdrain.of_frame hw hok hf e
  | reached p pos hf _ hregs hr =>
    by_cases e : p = .rnd
    · subst e
      replace hregs : t.rnd = { s.rnd with pos := pos } := hregs
      unfold DrainOk
      rw [hregs]
      exact ⟨fun _ _ _ _ _ hpos => hr.polls _ _ _ _ hpos hs, fun _ _ _ _ hpos => hr.drains _ _ _ hpos hs⟩
    · exact hdrain.of_frame hw hok hf e

theorem fifoInv_reset {c : Config} (n : Nat) (hw : c.wf = true) : FifoInv (State.resetWith c n) :=
  fifoInv_iff.mpr ⟨fifosOk_reset n hw, drainOk_of_start rfl⟩

theorem moved_fifoInv {m : Option Move} {s t : State} (hw : s.cfg.wf = true) (hp : PortInv s) (hs : FifoInv s)
    (h : Moved m s t) : FifoInv t :=
  fifoInv_iff.mpr ⟨moved_fifosOk hw hs.1 h, moved_drainOk hw hp hs h⟩

/-! ### The spectrum -/

/-- The spectrum state of one channel is legal. -/
def SpecCh.Ok (c : Config) (sp : SpecCh) : Prop :=
  sp.win.length = c.len ∧ sp.newcnt < c.hop ∧ (sp.latest.valid = true → sp.latest.db.length = c.nbins)
    ∧ ∀ p ∈ sp.fifo.slots, p.2.db.length = c.nbins

theorem SpectrumInv.congr {s t : State} (h : SpectrumInv s) (hc : t.cfg = s.cfg) (hs : t.spec = s.spec) :
    SpectrumInv t := by
  unfold SpectrumInv; rw [hc, hs]; exact h

/-- A pushed block is the only new one. -/
theorem Fifo.mem_push {α : Type} {c : Nat} {q : Fifo α} {b : α} {p : Nat × α} (h : p ∈ (Fifo.push c q b).slots) :
    p.2 = b ∨ p ∈ q.slots := by
  unfold Fifo.push at h
  split at h
  · exact .inr h
  · exact (Cells.mem_write h).imp (fun e => by rw [e]) id

/-- A popped block stood in a slot, or is the draw; the slots stay. -/
theorem Fifo.pop_mem {α : Type} {c : Nat} {q q' : Fifo α} {d b : α} (h : Fifo.pop c q d = some (b, q')) :
    q'.slots = q.slots ∧ (b = d ∨ ∃ k, (k, b) ∈ q.slots) := by
  unfold Fifo.pop at h
  split at h <;> cases h
  refine ⟨rfl, ?_⟩
  cases hr : q.slots.read (q.rd % c) with
  | none => exact .inl rfl
  | some x => exact .inr ⟨_, Cells.mem_of_read hr⟩

theorem SpecCh.Ok.feedBlock {c : Config} {sp : SpecCh} (h : sp.Ok c) (hw : c.wf = true) (e : FpEnv) (fs : B64) (n : Nat)
    (blk : List B32) : (feedBlock e c fs n sp blk).Ok c := by
  obtain ⟨hwin, hnew, hlatest, hslots⟩ := h
  have hwin' : (shiftIn c.len sp.win blk).length = c.len := shiftIn_length _ _ _ hwin
  unfold Machine.feedBlock
  split
  · refine ⟨hwin', Config.wf_hop hw, hlatest, fun p hp => ?_⟩
    rcases Fifo.mem_push hp with e | hp
    · rw [e]; simp [transform]
    · exact hslots p hp
  · rename_i hlt; exact ⟨hwin', by simpa using hlt, hlatest, hslots⟩

theorem SpecCh.Ok.clear {c : Config} {sp : SpecCh} (h : sp.Ok c) (hw : c.wf = true) : (clearSpec c sp).Ok c := by
  obtain ⟨-, -, -, hslots⟩ := h
  exact ⟨by simp [clearSpec], Config.wf_hop hw, nofun, hslots⟩

theorem spectrumInv_pollBlock {s : State} (se : Bool) (ch : Chan) (hw : s.cfg.wf = true) (h : SpectrumInv s) :
    SpectrumInv (pollBlock se ch s) := by
  unfold pollBlock
  split
  · exact h
  · split
    · intro c
      simp only [Stereo.get_set]
      split
      · exact SpecCh.Ok.feedBlock (h ch) hw _ _ _ _
      · exact h c
    · exact h

theorem spectrumInv_drainOne {s : State} (last : Bool) (ch : Chan) (h : SpectrumInv s) :
    SpectrumInv (drainOne last ch s) := by
  unfold drainOne
  split
  · exact h
  · rename_i snap q hpop
    obtain ⟨hq, hsnap⟩ := Fifo.pop_mem hpop
    obtain ⟨hwin, hnew, hlatest, hslots⟩ := h ch
    have hdb : snap.db.length = s.cfg.nbins := by
      rcases hsnap with rfl | ⟨k, hk⟩
      · simp [specSlotDraw]
      · exact hslots _ hk
    intro c
    simp only [Stereo.get_set]
    split
    · refine ⟨hwin, hnew, ?_, by rw [hq]; exact hslots⟩
      cases last
      · exact hlatest
      · exact fun _ => hdb
    · exact h c

theorem spectrumInv_prepare {s : State} (fs : B64) (m : Nat) (hw : s.cfg.wf = true) (h : SpectrumInv s) :
    SpectrumInv (prepareWrites fs m (coefStep fs (takeSnapshot s))) := by
  intro ch
  cases ch
  · exact SpecCh.Ok.clear (h .left) hw
  · exact SpecCh.Ok.clear (h .right) hw

theorem closed_spectrumInv :
    Closed (fun s => s.cfg.wf = true ∧ SpectrumInv s) (fun _ _ => True) (fun _ _ _ => True) where
  port _ _ _ h := ⟨by simpa using h.1, h.2.congr (by simp) (by simp)⟩
  fault _ _ _ h _ := ⟨by simpa using h.1, h.2.congr (by simp) (by simp)⟩
  snap _ _ h := h
  coef _ _ h := h
  set _ _ _ h := h
  filt _ _ h _ := h
  relay _ _ _ h _ := h
  prep _ fs m h _ := ⟨h.1, spectrumInv_prepare fs m h.1 h.2⟩
  poll _ se ch h := ⟨by simpa using h.1, spectrumInv_pollBlock se ch h.1 h.2⟩
  drain _ last ch h := ⟨by simpa using h.1, spectrumInv_drainOne last ch h.2⟩
  host _ _ _ _ h _ := h

theorem spectrumInv_reset {c : Config} (n : Nat) (hw : c.wf = true) : SpectrumInv (State.resetWith c n) := by
  have hok : ∀ k, (SpecCh.reset c n k).Ok c := fun k =>
    ⟨by simp [SpecCh.reset], Config.wf_hop hw, nofun, nofun⟩
  intro ch
  cases ch
  · exact hok 0
  · exact hok 1

theorem moved_spectrumInv {m : Option Move} {s t : State} (hw : s.cfg.wf = true) (hs : SpectrumInv s)
    (h : Moved m s t) : SpectrumInv t :=
  (closed_spectrumInv.moved ⟨hw, hs⟩ (fun _ => trivial) (fun _ => trivial) (fun _ => ⟨hw, spectrumInv_reset s.draws hw⟩)
    h).2

/-- Settles O57: a pop of RPOLL and a pop of SDRAIN keep each channel legal, PREPARE clears it. -/
theorem spectrumStaysLegal : Obligations.SpectrumStaysLegal := by
  intro s t hw hs h
  exact (step_keeps (P := fun s => s.cfg.wf = true ∧ SpectrumInv s) (fun _ _ hu => hu)
    (fun _ _ _ hu hm => ⟨by rw [moved_cfg hm]; exact hu.1, moved_spectrumInv hu.1 hu.2 hm⟩) ⟨hw, hs⟩ h).2

/-! ### All the invariants -/

theorem inv_reset {c : Config} (n : Nat) (hw : c.wf = true) : Inv (State.resetWith c n) :=
  ⟨hw, portInv_reset c n, faultInv_reset c n, bankInv_reset c n, transportInv_reset c n, (memoryOk_reset c n).2,
    fifoInv_reset n hw, spectrumInv_reset n hw⟩

/-- Settles O59. -/
theorem resetMeetsInvariant : Obligations.ResetMeetsInvariant := fun _ n hw => inv_reset n hw

theorem moved_inv {m : Option Move} {s t : State} (hs : Inv s) (h : Moved m s t) : Inv t := by
  obtain ⟨hw, hport, hfault, hbank, htransport, hmemory, hfifo, hspectrum⟩ := hs
  exact ⟨by rw [moved_cfg h]; exact hw, moved_portInv hport h, moved_faultInv hfault h, moved_bankInv hbank h,
    moved_transportInv hport htransport h, moved_memoryInv hport htransport hmemory h, moved_fifoInv hw hport hfifo h,
    moved_spectrumInv hw hspectrum h⟩

/-- Settles O58: every way of moving keeps each invariant, given those it rests on. -/
theorem invariantIsKept : Obligations.InvariantIsKept := by
  intro s t hs h
  refine step_keeps (fun u r hu => ?_) (fun _ _ _ => moved_inv) hs h
  obtain ⟨hw, hport, hrest⟩ := hu
  exact ⟨hw, hport.sched r, hrest⟩

end Sys2Proof.Machine

/-! Memory (20_memory.md): a read command changes RES of its port alone and may be repeated (R66), and a PROCESS takes its
snapshot one field per step (R71). -/

namespace Sys2Proof.Machine

/-! ### Read commands -/

@[simp] theorem completeWith_completeWith (p : Port) (v w : U64) (s : State) :
    completeWith p v (completeWith p w s) = completeWith p v s := by
  simp [completeWith]

/-- A fault leaves the same record the second time: its bit of FSTAT is set, and FIRST holds a code. -/
@[simp] theorem raise_raise (c : Cause) (p : Port) (s : State) : raise c p (raise c p s) = raise c p s := by
  cases p <;> simp [raise, complete, State.setPort, State.portRegs, BitVec.or_assoc] <;> split_ifs <;> rfl

theorem endsWith_completeWith (p : Port) (v : U64) (s : State) : EndsWith p v s (completeWith p v s) :=
  ⟨completeWith_portRegs_self p v s, fun _ hq => completeWith_portRegs_ne v s hq⟩

/-- A fault other than a degenerate coefficient that adds nothing to the record only ends the command, RES as it was. -/
theorem raise_eq_completeWith {c : Cause} {p : Port} {s : State} (hc : c ≠ .degenerateCoeff)
    (hfstat : (raise c p s).fstat = s.fstat) (hfirst : (raise c p s).first = s.first) :
    raise c p s = completeWith p (s.portRegs p).res s := by
  rw [raise_fstat] at hfstat
  rw [raise_first] at hfirst
  cases p <;> simp [raise, hfstat, hfirst, hc] <;> rfl

/-- What a read command can do to the state: it completes with a result, or it records a fault that does not halt. -/
inductive ReadDone (p : Port) (s t : State) : Prop
  | value (v : U64) (h : t = completeWith p v s)
  | fault (c : Cause) (hc : c ≠ .degenerateCoeff) (h : t = raise c p s)

/-- A read that records nothing new has completed with some result. -/
theorem ReadDone.eq_completeWith {p : Port} {s t : State} (h : ReadDone p s t) (hfstat : t.fstat = s.fstat)
    (hfirst : t.first = s.first) : ∃ v, t = completeWith p v s := by
  cases h with
  | value v h => exact ⟨v, h⟩
  | fault c hc h => subst h; exact ⟨_, raise_eq_completeWith hc hfstat hfirst⟩

/-- The command is done as a read is, and from the state it leaves it leaves that state. -/
def ReadRepeats (i : Instr) (s : State) : Prop :=
  ∃ t, ReadDone i.port s t ∧ exec i s = .next t ∧ exec i t = .next t

theorem readRepeats_value {i : Instr} {s : State} {v : U64} (h : exec i s = .next (completeWith i.port v s))
    (h' : exec i (completeWith i.port v s) = .next (completeWith i.port v (completeWith i.port v s))) :
    ReadRepeats i s :=
  ⟨_, .value v rfl, h, by rw [h', completeWith_completeWith]⟩

theorem readRepeats_fault {i : Instr} {s : State} {c : Cause} (hc : c ≠ .degenerateCoeff)
    (h : exec i s = .next (raise c i.port s))
    (h' : exec i (raise c i.port s) = .next (raise c i.port (raise c i.port s))) : ReadRepeats i s :=
  ⟨_, .fault c hc rfl, h, by rw [h', raise_raise]⟩

theorem exec_rdp_none {pid : BitVec 8} (h : Pid.ofByte? pid = none) (s : State) :
    exec (.rdp pid) s = .next (raise .badPid .ctl s) := by
  simp [exec, execRdp, h]

theorem exec_rdp_some {pid : BitVec 8} {r : Pid} (h : Pid.ofByte? pid = some r) (s : State) :
    exec (.rdp pid) s = .next (completeWith .ctl ((s.sr.get r).zeroExtend 64) s) := by
  simp [exec, execRdp, h]

/-- What a read answers rests on storage that its own end does not write, so it answers the same again: SR, GEN, LATEST, the
FIFO indices, ARG0 of its port, and the status, since RDSTAT records no fault. -/
theorem exec_read {i : Instr} (hi : isRead i = true) (s : State) : ReadRepeats i s := by
  cases i with
  | rdp pid =>
    cases hpid : Pid.ofByte? pid with
    | none => exact readRepeats_fault (c := .badPid) nofun (exec_rdp_none hpid s) (exec_rdp_none hpid _)
    | some r => exact readRepeats_value (exec_rdp_some hpid s) (exec_rdp_some hpid _)
  | rdbin c =>
    by_cases hbin : s.cfg.nbins ≤ binArg s
    · exact readRepeats_fault (c := .binIndex) nofun (if_pos hbin) (if_pos hbin)
    · exact readRepeats_value (if_neg hbin) (if_neg hbin)
  | rdmeta c sel => exact readRepeats_value rfl rfl
  | rdgen p => exact readRepeats_value rfl (by simp [exec, execRdgen, Instr.port])
  | rdocc c sel => exact readRepeats_value rfl rfl
  | rdstat p => exact readRepeats_value rfl (by simp [exec, execRdstat, Instr.port])
  | nop p => cases hi
  | prepare => cases hi
  | process => cases hi
  | setp pid => cases hi
  | rpoll c => cases hi
  | sdrain c => cases hi

/-- Settles O19: a read repeats, and where it records no new fault it has only completed with a result. -/
theorem readsAreIdempotent : Obligations.ReadsAreIdempotent := by
  intro i s hi
  obtain ⟨t, hdone, hexec, hagain⟩ := exec_read hi s
  refine ⟨t, hexec, hagain, fun hfstat hfirst => ?_⟩
  obtain ⟨v, rfl⟩ := hdone.eq_completeWith hfstat hfirst
  exact ⟨v, endsWith_completeWith _ _ _, setPort_eq _ _ _⟩

/-! ### The snapshot of a PROCESS -/

/-- One field read gives its field the value the whole snapshot gives it, whatever SNAP held. -/
theorem sameField_readField_self (e : FpEnv) (r : Settings) (pid : Pid) (sn sn' : Snap) :
    SameField pid (sn.readField e r pid) (Pid.all.foldl (Snap.readField e r) sn') := by
  cases pid <;> rfl

/-- One field read leaves every other field. -/
theorem sameField_readField_ne (e : FpEnv) (r : Settings) {pid q : Pid} (sn : Snap) (h : q ≠ pid) :
    SameField q (sn.readField e r pid) sn := by
  cases pid <;> cases q <;> simp [SameField, Snap.readField] at h ⊢

/-- A busy port at a field read takes that read. -/
theorem advancePort_procSnap {p : Port} {pid : Pid} {s : State} (hb : (s.portRegs p).busy = true)
    (hp : (s.portRegs p).pos = .procSnap pid) : advancePort p s = .next (processSnap pid s) := by
  rw [advancePort, if_pos hb, hp]

/-- Settles O22: the step is the read of one field, from SR as it is at that step. -/
theorem snapshotReadsOneFieldPerStep : Obligations.SnapshotReadsOneFieldPerStep := by
  intro s pid rest hs hb hp
  have hstep : step s = .next (processSnap pid { s with sched := rest }) := by
    rw [step_of_sched hs]; exact advancePort_procSnap hb hp
  exact ⟨_, hstep, rfl, sameField_readField_self s.env s.sr pid s.snap s.snap,
    fun q hq => sameField_readField_ne s.env s.sr s.snap hq, rfl⟩

end Sys2Proof.Machine

/-! The encoding (30_encoding.md): the decoder and the encoder are inverse to one another and agree with the command table,
an issued word runs as the command it decodes to, and the pseudo-instructions expand to their commands. -/

namespace Sys2Proof

/-! ### Decoding and encoding -/

theorem ChanSel.bits_getD_ofBits? {b : BitVec 2} (h : (ofBits? b).isSome = true) (d : ChanSel) :
    ((ofBits? b).getD d).bits = b := by
  obtain ⟨c, hc⟩ := Option.isSome_iff_exists.mp h
  rw [hc]; exact bits_of_ofBits? hc

theorem Chan.bits_getD_ofBits? {b : BitVec 2} (h : (ofBits? b).isSome = true) (d : Chan) :
    ((ofBits? b).getD d).bits = b := by
  obtain ⟨c, hc⟩ := Option.isSome_iff_exists.mp h
  rw [hc]; exact bits_of_ofBits? hc

theorem MetaSel.byte_getD_ofByte? {b : BitVec 8} (h : (ofByte? b).isSome = true) (d : MetaSel) :
    ((ofByte? b).getD d).byte = b := by
  obtain ⟨c, hc⟩ := Option.isSome_iff_exists.mp h
  rw [hc]; exact byte_of_ofByte? hc

theorem OccSel.byte_getD_ofByte? {b : BitVec 8} (h : (ofByte? b).isSome = true) (d : OccSel) :
    ((ofByte? b).getD d).byte = b := by
  obtain ⟨c, hc⟩ := Option.isSome_iff_exists.mp h
  rw [hc]; exact byte_of_ofByte? hc

/-- The command of accepted fields has the word of those fields. -/
theorem encode_build {o : Opcode} (p : Port) {ch : BitVec 2} {pid imm : BitVec 8} (hch : o.acceptsCh ch = true)
    (hpid : o.takesPid = true ∨ pid = 0#8) (himm : o.acceptsImm imm = true) :
    encode (o.build p ch pid imm) = packWord o.byte ch pid imm := by
  have hpid' (h : o.takesPid = false) : pid = 0#8 := hpid.resolve_left (by simp [h])
  cases o with
  | nop | prepare | process | rdgen | rdstat =>
    rw [hpid' rfl, eq_of_beq hch, eq_of_beq himm]; rfl
  | setp | rdp => rw [eq_of_beq hch, eq_of_beq himm]; rfl
  | rpoll | sdrain =>
    rw [hpid' rfl, eq_of_beq himm, Opcode.build, encode, ChanSel.bits_getD_ofBits? hch]; rfl
  | rdbin => rw [hpid' rfl, eq_of_beq himm, Opcode.build, encode, Chan.bits_getD_ofBits? hch]; rfl
  | rdmeta =>
    rw [hpid' rfl, Opcode.build, encode, Chan.bits_getD_ofBits? hch, MetaSel.byte_getD_ofByte? himm]; rfl
  | rdocc =>
    rw [hpid' rfl, Opcode.build, encode, Chan.bits_getD_ofBits? hch, OccSel.byte_getD_ofByte? himm]; rfl

/-- An operation gives a well-formed command on a port that admits it. -/
theorem wf_build {o : Opcode} {p : Port} (h : o.admits p = true) (ch : BitVec 2) (pid imm : BitVec 8) :
    (o.build p ch pid imm).wf = true := by
  cases o with
  | rdgen =>
    have hp : p ≠ .aud := by rintro rfl; cases h
    exact decide_eq_true hp
  | _ => rfl

/-- Settles O1: the word of each command is packed from fields its operation accepts, and those fields build the command. -/
theorem decodeOfEncode : Obligations.DecodeOfEncode := by
  intro i hi
  cases i with
  | nop p => exact decode_packWord (o := .nop) rfl rfl (.inr rfl) rfl rfl
  | prepare => exact decode_packWord (o := .prepare) rfl rfl (.inr rfl) rfl rfl
  | process => exact decode_packWord (o := .process) rfl rfl (.inr rfl) rfl rfl
  | setp pid => exact decode_packWord (o := .setp) rfl rfl (.inl rfl) rfl rfl
  | rdp pid => exact decode_packWord (o := .rdp) rfl rfl (.inl rfl) rfl rfl
  | rpoll c => exact decode_packWord (o := .rpoll) rfl (by cases c <;> rfl) (.inr rfl) rfl (by cases c <;> rfl)
  | sdrain c => exact decode_packWord (o := .sdrain) rfl (by cases c <;> rfl) (.inr rfl) rfl (by cases c <;> rfl)
  | rdbin c => exact decode_packWord (o := .rdbin) rfl (by cases c <;> rfl) (.inr rfl) rfl (by cases c <;> rfl)
  | rdmeta c sel =>
    exact decode_packWord (o := .rdmeta) rfl (by cases c <;> rfl) (.inr rfl) (by cases sel <;> rfl)
      (by cases c <;> cases sel <;> rfl)
  | rdgen p =>
    have hadm : Opcode.rdgen.admits p = true := by
      cases p with
      | aud => cases hi
      | ctl => rfl
      | rnd => rfl
    exact decode_packWord (o := .rdgen) hadm rfl (.inr rfl) rfl rfl
  | rdocc c sel =>
    exact decode_packWord (o := .rdocc) rfl (by cases c <;> rfl) (.inr rfl) (by cases sel <;> rfl)
      (by cases c <;> cases sel <;> rfl)
  | rdstat p => exact decode_packWord (o := .rdstat) rfl rfl (.inr rfl) rfl rfl

/-- Settles O2: a word that decodes is packed from accepted fields, and so is the word of the command they build. -/
theorem decodedWordIsItsEncoding : Obligations.DecodedWordIsItsEncoding := by
  intro w p i h
  obtain ⟨o, hopc, hadm, hrsv, hch, hpid, himm, hbuild⟩ := (decode_ok_iff w p i).mp h
  refine ⟨?_, Machine.decode_port h, hbuild ▸ wf_build hadm _ _ _⟩
  calc encode i
    _ = packWord o.byte (chField w) (pidField w) (immField w) := by rw [← hbuild, encode_build p hch hpid himm]
    _ = w := by rw [Opcode.byte_of_ofByte? hopc, packWord_fields w hrsv]

/-! ### The command table -/

/-- The bits of a field the table fixes for an operation (R87): the whole field, unless the operation takes an operand in
it. -/
def Opcode.chMask (o : Opcode) : BitVec 2 := if o.acceptsCh 1#2 then 0#2 else 3#2
def Opcode.pidMask (o : Opcode) : BitVec 8 := if o.takesPid then 0#8 else 0xFF#8
def Opcode.immMask (o : Opcode) : BitVec 8 := if o.acceptsImm 1#8 then 0#8 else 0xFF#8

/-- The table's row of an operation. -/
def Opcode.row (o : Opcode) : Machine.EncRow :=
  { pattern := o.byte ++ 0#2 ++ 0#6 ++ 0#8 ++ 0#8, mask := 0xFF#8 ++ o.chMask ++ 0x3F#6 ++ o.pidMask ++ o.immMask,
    ports := [.aud, .ctl, .rnd].filter o.admits, chs := [0#2, 1#2, 2#2, 3#2].filter o.acceptsCh,
    imms := [0#8, 1#8, 2#8].filter o.acceptsImm }

/-- The table of R87 is the rows of the operations, in order. -/
theorem encTable_eq_rows : Machine.encTable = Opcode.all.map Opcode.row := by decide

theorem Opcode.mem_all (o : Opcode) : o ∈ Opcode.all := by cases o <;> decide

theorem Opcode.mem_row_ports (o : Opcode) (p : Port) : p ∈ o.row.ports ↔ o.admits p = true := by
  cases p <;> simp [Opcode.row]

/-- A CH value the row lists has the bits its mask fixes. -/
theorem Opcode.row_ch (o : Opcode) (b : BitVec 2) : b &&& o.chMask = 0#2 ∧ b ∈ o.row.chs ↔ o.acceptsCh b = true := by
  revert b; cases o <;> decide

theorem and_0xFF (b : BitVec 8) : b &&& 0xFF#8 = b := BitVec.and_allOnes

theorem Opcode.row_pid (o : Opcode) (b : BitVec 8) : b &&& o.pidMask = 0#8 ↔ o.takesPid = true ∨ b = 0#8 := by
  cases h : o.takesPid <;> simp [Opcode.pidMask, h, and_0xFF]

/-- An IMM8 value an operation accepts has the bits its mask fixes, and is 0, 1 or 2 (R85). -/
theorem Opcode.imm_of_acceptsImm {o : Opcode} {b : BitVec 8} (h : o.acceptsImm b = true) :
    b &&& o.immMask = 0#8 ∧ b ∈ [0#8, 1#8, 2#8] := by
  cases o with
  | rdmeta =>
    obtain ⟨m, hm⟩ := Option.isSome_iff_exists.mp h
    rw [← MetaSel.byte_of_ofByte? hm]; cases m <;> decide
  | rdocc =>
    obtain ⟨m, hm⟩ := Option.isSome_iff_exists.mp h
    rw [← OccSel.byte_of_ofByte? hm]; cases m <;> decide
  | _ => rw [eq_of_beq h]; decide

/-- An IMM8 value the row lists has the bits its mask fixes. -/
theorem Opcode.row_imm (o : Opcode) (b : BitVec 8) : b &&& o.immMask = 0#8 ∧ b ∈ o.row.imms ↔ o.acceptsImm b = true := by
  rw [Opcode.row, List.mem_filter]
  refine ⟨fun ⟨_, _, h⟩ => h, fun h => ?_⟩
  obtain ⟨hmask, hmem⟩ := imm_of_acceptsImm h
  exact ⟨hmask, hmem, h⟩

/-- A row accepts a word when the operation's checks of R88 pass. -/
theorem Opcode.row_accepts_iff (o : Opcode) (w : U32) (p : Port) :
    o.row.accepts w p ↔ opcField w = o.byte ∧ o.admits p = true ∧ rsvField w = 0#6 ∧ o.acceptsCh (chField w) = true
      ∧ (o.takesPid = true ∨ pidField w = 0#8) ∧ o.acceptsImm (immField w) = true := by
  have hmask : w &&& o.row.mask = o.row.pattern ↔ opcField w = o.byte ∧ chField w &&& o.chMask = 0#2
      ∧ rsvField w = 0#6 ∧ pidField w &&& o.pidMask = 0#8 ∧ immField w &&& o.immMask = 0#8 := by
    rw [Opcode.row, and_fields_eq, and_0xFF, show rsvField w &&& 0x3F#6 = rsvField w from BitVec.and_allOnes]
  rw [Machine.EncRow.accepts, hmask, o.mem_row_ports, ← o.row_ch, ← o.row_pid, ← o.row_imm]
  change _ ∧ _ ∧ chField w ∈ _ ∧ immField w ∈ _ ↔ _
  tauto

/-- Settles O3: the row of an operation makes the checks the decoder makes once OPC names that operation. -/
theorem decoderMatchesTable : Obligations.DecoderMatchesTable := by
  intro w p
  simp only [encTable_eq_rows, List.mem_map, exists_exists_and_eq_and, Opcode.row_accepts_iff]
  constructor
  · rintro ⟨i, h⟩
    obtain ⟨o, hopc, hadm, hrsv, hch, hpid, himm, -⟩ := (decode_ok_iff w p i).mp h
    exact ⟨o, o.mem_all, (Opcode.byte_of_ofByte? hopc).symm, hadm, hrsv, hch, hpid, himm⟩
  · rintro ⟨o, -, hopc, hadm, hrsv, hch, hpid, himm⟩
    exact ⟨_, (decode_ok_iff w p _).mpr ⟨o, by rw [hopc, Opcode.ofByte?_byte], hadm, hrsv, hch, hpid, himm, rfl⟩⟩

/-- Settles O4: each word is closed, so the decoder evaluates. -/
theorem tableWordsDecode : Obligations.TableWordsDecode := by
  unfold Obligations.TableWordsDecode
  decide

end Sys2Proof

namespace Sys2Proof.Machine

/-! ### Running an issued command -/

/-- With no move listed, the default port runs. -/
theorem step_of_defaultPort {s : State} {p : Port} (hs : s.sched = []) (hd : defaultPort s = some p) :
    step s = runPort p s := by
  rw [step, takeStep, hs]; simp only [hd]

/-- A listed run of a port at the start of its command is exec of that command. -/
theorem step_run {s : State} {p : Port} {i : Instr} {rest : List Move} (hs : s.sched = .run p :: rest)
    (hb : (s.portRegs p).busy = true) (hp : (s.portRegs p).pos = .start) (hd : decode (s.portRegs p).cmd p = .ok i) :
    step s = exec i { s with sched := rest } := by
  rw [step_of_sched hs]; exact runPort_start (by simpa using hb) (by simpa using hp) (by simpa using hd)

/-- Settles O7: the listed run, or that of the default port, finds the port at the start of its command. -/
theorem stepRunsTheDecodedCommand : Obligations.StepRunsTheDecodedCommand := fun _ _ _ _ hb hp hd =>
  ⟨fun hs => step_run hs hb hp hd, fun hs hdef => (step_of_defaultPort hs hdef).trans (runPort_start hb hp hd)⟩

theorem decode_of_decode? {w : U32} {p : Port} {i : Instr} (h : decode? w p = some i) : decode w p = .ok i := by
  unfold decode? at h; split at h <;> cases h; assumption

/-- A table word that decodes does so on the port it is issued on. -/
theorem decode_issuePort {n w : Nat} {i : Instr} (h : decodeTableWord n w = some i) :
    decode (tableWord n w) (issuePort (tableWord n w)) = .ok i := by
  unfold decodeTableWord at h
  split at h
  · rename_i p hp; rw [issuePort, hp]; exact decode_of_decode? h
  · cases h

/-- A port's registers that stand at the start of a command, with the run of that port listed. -/
theorem step_run_setPort {s : State} {p : Port} {r : PortRegs} {i : Instr} {rest : List Move} (hb : r.busy = true)
    (hp : r.pos = .start) (hd : decode r.cmd p = .ok i) :
    step { s.setPort p r with sched := .run p :: rest } = exec i { s.setPort p r with sched := rest } :=
  step_run rfl (by rwa [portRegs_sched, portRegs_setPort_self]) (by rwa [portRegs_sched, portRegs_setPort_self])
    (by rwa [portRegs_sched, portRegs_setPort_self])

/-- A command placed on a port runs next. -/
theorem step_placeCommand {w : U32} {p : Port} {i : Instr} (s : State) (hd : decode w p = .ok i) :
    step (placeCommand p w s) = exec i (s.setPort p { s.portRegs p with cmd := w, busy := true, pos := .start }) := by
  have hsched (r : PortRegs) : { s.setPort p r with sched := s.sched } = s.setPort p r := by cases p <;> rfl
  rw [← hsched]
  exact step_run_setPort rfl rfl hd

/-- Settles O8: the word is placed on the port it decodes on, which is the command's own. -/
theorem placedWordRunsNext : Obligations.PlacedWordRunsNext := by
  intro s w i h
  have hd := decode_issuePort h
  have hw : tableWord 32 w = BitVec.ofNat 32 w := by
    apply BitVec.eq_of_toNat_eq; simp [tableWord]
  rw [State.withFetchWord, step_placeCommand s hd, decode_port hd, hw]

/-! ### Illegal words -/

/-- Only the bit of its code is set in the bit of a cause. -/
theorem Cause.getLsbD_bit (c : Cause) (i : Nat) : (1#32 <<< c.code).getLsbD i = (i == c.code) := by
  have h := c.code_bounds
  rw [Bool.eq_iff_iff, BitVec.getLsbD_shiftLeft, BitVec.getLsbD_one]
  simp only [Bool.and_eq_true, Bool.not_eq_true', decide_eq_true_eq, decide_eq_false_iff_not, beq_iff_eq]
  omega

/-- What `raise` does, in the words of the statements: the record, the end of the command, and nothing else. -/
theorem faultsWith_raise (c : Cause) (p : Port) (s : State) : FaultsWith c.code p s (raise c p s) := by
  refine ⟨⟨fun i => ?_, raise_first c p s⟩, ⟨raise_portRegs_self c p s, fun q hq => raise_portRegs_ne c s hq⟩, ?_, ?_⟩
  · rw [raise_fstat, BitVec.getLsbD_or, c.getLsbD_bit]
  · rw [raise_halted]; cases c <;> rfl
  · cases p <;> rfl

/-- A port that advances from the start of a word that does not decode records that; so does one that runs. -/
theorem advancePort_illegal {s : State} {p : Port} {r : Reject} (hb : (s.portRegs p).busy = true)
    (hp : (s.portRegs p).pos = .start) (hd : decode (s.portRegs p).cmd p = .error r) :
    advancePort p s = .next (raise .illegalCmd p s) := by
  simp [advancePort, hb, hp, fetch, hd]

theorem runPort_illegal {s : State} {p : Port} {r : Reject} (hb : (s.portRegs p).busy = true)
    (hp : (s.portRegs p).pos = .start) (hd : decode (s.portRegs p).cmd p = .error r) :
    runPort p s = .next (raise .illegalCmd p s) := by
  simp [runPort, hb, hp, fetch, hd]

/-- Settles O9: both moves raise F_ILLEGAL_CMD, whose code is 1. -/
theorem illegalWordIsOnlyRecorded : Obligations.IllegalWordIsOnlyRecorded := by
  intro s p r m rest hb hp hd hm hs
  refine ⟨raise .illegalCmd p { s with sched := rest }, ?_, faultsWith_raise .illegalCmd p _⟩
  rw [step_of_sched hs]
  rw [← portRegs_sched s rest p] at hb hp hd
  rcases hm with rfl | rfl
  · exact runPort_illegal hb hp hd
  · exact advancePort_illegal hb hp hd

/-! ### Issue -/

theorem step_writeArg0 {s : State} {p : Port} {v : U64} {rest : List Move} (hs : s.sched = .writeArg0 p v :: rest)
    (hb : (s.portRegs p).busy = false) :
    step s = .next ({ s with sched := rest }.setPort p { s.portRegs p with arg0 := v }) := by
  rw [step_of_sched hs]; simp [applyMove, writeArg0, hb]

theorem step_writeArg1 {s : State} {p : Port} {v : U64} {rest : List Move} (hs : s.sched = .writeArg1 p v :: rest)
    (hb : (s.portRegs p).busy = false) :
    step s = .next ({ s with sched := rest }.setPort p { s.portRegs p with arg1 := v }) := by
  rw [step_of_sched hs]; simp [applyMove, writeArg1, hb]

/-- The issue on an idle port: HALTED turns away every word but those of NOP and RDSTAT (60_exceptions.md R296). -/
theorem step_writeCmd {s : State} {p : Port} {w : U32} {rest : List Move} (hs : s.sched = .writeCmd p w :: rest)
    (hb : (s.portRegs p).busy = false) :
    step s = .next ({ s with sched := rest }.setPort p
      (if s.halted = false ∨ w = 0x00000000#32 ∨ w = 0x30000000#32 then
        { s.portRegs p with cmd := w, busy := true, pos := .start } else { s.portRegs p with cmd := w })) := by
  have hrun : (s.halted && !runsWhileHalted w) = true ↔ ¬(s.halted = false ∨ w = 0x00000000#32 ∨ w = 0x30000000#32) := by
    cases s.halted <;> simp [runsWhileHalted]
  rw [step_of_sched hs, applyMove, writeCmd, portRegs_sched, if_neg (by simp [hb])]
  by_cases hc : s.halted = false ∨ w = 0x00000000#32 ∨ w = 0x30000000#32
  · rw [if_neg (hrun.not.mpr (not_not.mpr hc)), if_pos hc]
  · rw [if_pos (hrun.mpr hc), if_neg hc]

/-- Settles O10: the write of CMD is one replacement of the port's registers. -/
theorem issueSetsBusyUnlessHalted : Obligations.IssueSetsBusyUnlessHalted := by
  intro s p w rest hs hb
  refine ⟨_, step_writeCmd hs hb, portRegs_setPort_self _ _ _, fun q hq => ?_, setPort_eq _ _ _⟩
  rw [portRegs_setPort_ne _ _ hq, portRegs_sched]

theorem run_of_step (k : Nat) {s t : State} (h : step s = .next t) :
    Sys2Proof.core.run (k + 1) s = Sys2Proof.core.run k t :=
  run_succ _ _ _ _ h

/-- A run of one step is that step. -/
theorem run_one (M : Host.Core) (s : M.State) : M.run 1 s = M.step s := by
  rw [Host.Core.run]; cases M.step s <;> rfl

/-- The three writes of an issue on an idle port of a machine that is not HALTED. -/
theorem run_issue (k : Nat) {s : State} {p : Port} {w : U32} {a0 a1 : U64} {rest : List Move}
    (hs : s.sched = .writeArg0 p a0 :: .writeArg1 p a1 :: .writeCmd p w :: rest)
    (hb : (s.portRegs p).busy = false) (hh : s.halted = false) :
    Sys2Proof.core.run (k + 3) s = Sys2Proof.core.run k
      { s.setPort p { s.portRegs p with cmd := w, arg0 := a0, arg1 := a1, busy := true, pos := .start }
        with sched := rest } := by
  refine (run_of_step _ (step_writeArg0 hs hb)).trans ?_
  refine (run_of_step _ (step_writeArg1 (setPort_sched _ _ _) (by simpa using hb))).trans ?_
  refine (run_of_step _ (step_writeCmd (setPort_sched _ _ _) (by simpa using hb))).trans ?_
  rw [if_pos (.inl (by simpa using hh))]
  cases p <;> rfl

/-- Settles O11: three writes of the port's registers, then the run of a word that decodes to the command. -/
theorem issueProtocolRunsCommand : Obligations.IssueProtocolRunsCommand := by
  intro s i a0 a1 rest hi hb hh hs
  rw [run_issue (p := i.port) (w := encode i) 1 hs hb hh]
  exact (run_one _ _).trans (step_run_setPort rfl rfl (decodeOfEncode i hi))

/-! ### Pseudo-instructions -/

/-- The selector of a slope is d/12 - 1 for the four slopes there are (R106). -/
theorem slopeSelector_eq (d : Nat) :
    slopeSelector d = if d = 12 ∨ d = 24 ∨ d = 36 ∨ d = 48 then some (BitVec.ofNat 32 (d / 12 - 1)) else none := by
  by_cases hd : d = 12 ∨ d = 24 ∨ d = 36 ∨ d = 48
  · rw [if_pos hd]
    rcases hd with rfl | rfl | rfl | rfl <;> rfl
  · rw [if_neg hd]
    simp only [not_or] at hd
    simp [slopeSelector, hd]

/-- `ctl: SETP pid, v` written out (R102). -/
theorem setpIssue_eq (pid : Pid) (v : U32) :
    setpIssue pid v = ⟨.ctl, packWord 0x10#8 0#2 pid.byte 0#8, BitVec.ofNat 64 v.toNat, 0#64⟩ := by
  rw [setpIssue, BitVec.ofNat_toNat]; rfl

/-- Settles O12: SETP takes its value zero-extended to 64 bits, and a slope's selector fits 32. -/
theorem pseudoInstructionsExpand : Obligations.PseudoInstructionsExpand := by
  refine ⟨rfl, fun b => by cases b <;> rfl, fun b => ?_, fun d => ?_⟩
  · simp only [Pseudo.expand, setpIssue_eq]
    exact ⟨rfl, rfl, rfl, rfl⟩
  · simp only [Pseudo.expand, slopeSelector_eq]
    by_cases hd : d = 12 ∨ d = 24 ∨ d = 36 ∨ d = 48
    · simp only [if_pos hd]
      rcases hd with rfl | rfl | rfl | rfl <;> exact ⟨rfl, rfl⟩
    · simp only [if_neg hd]
      exact ⟨rfl, rfl⟩

end Sys2Proof.Machine

/-! The coefficient factory (41_coefficient_factory.md): the designs written out, what the coefficient step installs, and
the finiteness of R129. -/

namespace Sys2Proof.Machine

/-! ### The designs -/

/-- The Nyquist clamp by its two cases (R112). -/
theorem fclamp_of_lt {e : FpEnv} {c : Config} {fs : B64} {f : B32}
    (h : lt64 (mul64 e c.nyqRatio fs) (toB64 e f) = true) : fclamp e c fs f = mul64 e c.nyqRatio fs := if_pos h

theorem fclamp_of_not_lt {e : FpEnv} {c : Config} {fs : B64} {f : B32}
    (h : lt64 (mul64 e c.nyqRatio fs) (toB64 e f) = false) : fclamp e c fs f = toB64 e f :=
  if_neg (by simp [h])

/-- The clamped frequency is never above the clamp value. -/
theorem not_lt_fclamp (e : FpEnv) (c : Config) (fs : B64) (f : B32) :
    lt64 (mul64 e c.nyqRatio fs) (fclamp e c fs f) = false := by
  cases h : lt64 (mul64 e c.nyqRatio fs) (toB64 e f) with
  | true => rw [fclamp_of_lt h]; exact Num.lt_irrefl _
  | false => rw [fclamp_of_not_lt h]; exact h

/-- Of the configuration the peak design reads NYQ_RATIO alone. -/
theorem peakCoeffs_congr (e : FpEnv) {c d : Config} (h : c.nyqRatio = d.nyqRatio) (fs : B64) (pf pg pq : B32) :
    peakCoeffs e c fs pf pg pq = peakCoeffs e d fs pf pg pq := by
  have hf : fclamp e c fs pf = fclamp e d fs pf := by simp only [fclamp, h]
  simp only [peakCoeffs, hf]

/-- The peak section written out is the model's (R113 to R116). -/
theorem peakDesign_iff {e : FpEnv} {c : Config} {fs : B64} {pf pg pq : B32} {co : Coef} :
    PeakDesign e c fs pf pg pq co ↔ co = peakCoeffs e c fs pf pg pq := by
  constructor
  · rintro ⟨G, A, w, alpha, aA, aoA, B1, A0, rfl, rfl, rfl, rfl, rfl, rfl, rfl, rfl, rfl⟩
    rfl
  · rintro rfl
    exact ⟨_, _, _, _, _, _, _, _, rfl, rfl, rfl, rfl, rfl, rfl, rfl, rfl, rfl⟩

/-- A high-pass section written out is the model's, at the section Q of its order (R119, R120). -/
theorem cutDesign_true_iff {e : FpEnv} {c : Config} {fs : B64} {f : B32} {N i : Nat} {co : Coef} :
    CutDesign true e c fs f N i co ↔ co = hpSection e c fs f (bwq e N i) := by
  constructor
  · rintro ⟨Q, K, n, n2, iq, k, rfl, rfl, rfl, rfl, rfl, rfl, rfl⟩
    rfl
  · rintro rfl
    exact ⟨_, _, _, _, _, _, rfl, rfl, rfl, rfl, rfl, rfl, rfl⟩

/-- A low-pass section written out is the model's (R119, R121). -/
theorem cutDesign_false_iff {e : FpEnv} {c : Config} {fs : B64} {f : B32} {N i : Nat} {co : Coef} :
    CutDesign false e c fs f N i co ↔ co = lpSection e c fs f (bwq e N i) := by
  constructor
  · rintro ⟨Q, K, n, n2, iq, k, rfl, rfl, rfl, rfl, rfl, rfl, rfl⟩
    rfl
  · rintro rfl
    exact ⟨_, _, _, _, _, _, rfl, rfl, rfl, rfl, rfl, rfl, rfl⟩

/-! ### Installation -/

/-- What a candidate leaves in its slot is R124's outcome. -/
theorem installedFrom_install (old cand : Coef) (fl : Bool) :
    InstalledFrom cand old (installSet old (some cand)) (installFlag fl (some cand)) :=
  ⟨rfl, fun h => if_pos h, fun h => if_neg (by simp [h])⟩

section Stage

variable (old : Quad Coef) (fl : Quad Bool) {cand : Quad (Option Coef)} {i : Fin 4}

/-- A slot with a candidate, after its stage is installed. -/
theorem installedFrom_stage {co : Coef} (h : cand.get i = some co) :
    InstalledFrom co (old.get i) ((installSets old cand).get i) ((installFlags fl cand).get i) := by
  rw [installSets, installFlags, Quad.get_tab, Quad.get_tab, h]
  exact installedFrom_install _ _ _

/-- A slot without a candidate keeps its set and flag (R122, R126). -/
theorem install_keeps_slot (h : cand.get i = none) :
    (installSets old cand).get i = old.get i ∧ (installFlags fl cand).get i = fl.get i := by
  rw [installSets, installFlags, Quad.get_tab, Quad.get_tab, h]
  exact ⟨rfl, rfl⟩

end Stage

section Candidates

variable {e : FpEnv} {c : Config} {fs : B64} {sn : Snap} {i : Fin 4}

/-- A stage has a candidate for each slot below the active count and none beyond (R122). -/
theorem get_hpCands_active (h : i.val ≤ sn.hs.val) :
    (hpCands e c fs sn).get i = some (hpSection e c fs sn.hf (bwq e (2 * (sn.hs.val + 1)) i.val)) := by
  rw [hpCands, Quad.get_tab, activeCount, if_pos (by omega)]

theorem get_hpCands_beyond (h : sn.hs.val < i.val) : (hpCands e c fs sn).get i = none := by
  rw [hpCands, Quad.get_tab, activeCount, if_neg (by omega)]

theorem get_lpCands_active (h : i.val ≤ sn.ls.val) :
    (lpCands e c fs sn).get i = some (lpSection e c fs sn.lf (bwq e (2 * (sn.ls.val + 1)) i.val)) := by
  rw [lpCands, Quad.get_tab, activeCount, if_pos (by omega)]

theorem get_lpCands_beyond (h : sn.ls.val < i.val) : (lpCands e c fs sn).get i = none := by
  rw [lpCands, Quad.get_tab, activeCount, if_neg (by omega)]

end Candidates

/-! ### The ranges of R129 as real numbers -/

@[simp] theorem isFin_num64 (x : B64) : (num64 x).isFin = isFinite64 x := by
  have hx := x.isLt
  have hpat : isFinite64 x = true ↔ x.toNat / 2 ^ 52 % 2 ^ 11 ≠ 2047 := by
    have eI : Fmt.b64.infBits = 2047 * 2 ^ 52 := by decide
    rw [isFinite64, decide_eq_true_eq, eI]
    omega
  rw [Bool.eq_iff_iff, hpat]
  simp only [num64, Fmt.unpack, show Fmt.b64.fbits = 52 from rfl, show Fmt.b64.ebits = 11 from rfl,
    show 2 ^ 11 - 1 = 2047 from rfl]
  split_ifs <;> simp_all [Num.isFin]

/-- A finite binary64 stands for a real. -/
theorem val64_of_isFinite64 {x : B64} (h : isFinite64 x = true) : ∃ v, Val64 x v := by
  rw [← isFin_num64] at h
  cases hn : num64 x with
  | nan => rw [hn] at h; cases h
  | inf s => rw [hn] at h; cases h
  | fin s m k => exact ⟨_, _, by rw [hn]; rfl, rfl⟩

theorem le_of_not_lt64 {a b : B64} {p q : ℝ} (ha : Val64 a p) (hb : Val64 b q) (h : lt64 a b = false) : q ≤ p := by
  rw [← not_lt, ← lt64_val ha hb, h]
  exact Bool.false_ne_true

/-- A normal binary32 keeps its value under either flush mode. -/
theorem val32_of_normal (e : FpEnv) {x : B32} {q : ℚ} (hx : x.toNat / 2 ^ 23 % 2 ^ 8 ≠ 0)
    (hq : (Fmt.b32.unpack x.toNat).toRat? = some q) : Val32 e x q :=
  ⟨q, by rw [FpEnv.num32, flush_eq_of_exp e x hx, hq], rfl⟩

/-- The rates of R129: from 1.0 to the binary64 nearest 1e100, which is below 2^333. -/
theorem rate_bounds {fs : B64} (hf : isFinite64 fs = true) (h1 : lt64 fs 0x3FF0000000000000#64 = false)
    (h2 : lt64 0x54B249AD2594C37D#64 fs = false) : ∃ S, Val64 fs S ∧ 1 ≤ S ∧ S ≤ 2 ^ 333 := by
  obtain ⟨S, hS⟩ := val64_of_isFinite64 hf
  have hmax : Val64 0x54B249AD2594C37D#64 (5147557589468029 * 2 ^ 280) :=
    ⟨5147557589468029 * 2 ^ 280, by
      rw [show num64 0x54B249AD2594C37D#64 = .fin false 5147557589468029 280 from by decide]
      norm_num [Num.toRat?], by norm_num⟩
  refine ⟨S, hS, le_of_not_lt64 hS val_c1 h1, (le_of_not_lt64 hmax hS h2).trans ?_⟩
  rw [show (333 : Nat) = 53 + 280 from rfl, pow_add]
  exact mul_le_mul_of_nonneg_right (by norm_num) (by positivity)

/-- The ranges of the clamped parameters (45_control.md R263). -/
theorem freq_bounds {e : FpEnv} {f : B32} (h : InRange e 0x41A00000#32 0x469C4000#32 f) :
    ∃ F, Val32 e f F ∧ 20 ≤ F ∧ F ≤ 20000 := by
  obtain ⟨hn, hlo, hhi⟩ := h
  have lo : Val32 e 0x41A00000#32 (20 : ℚ) := val32_of_normal e (by decide) (by
    rw [show Fmt.b32.unpack (0x41A00000#32).toNat = .fin false 10485760 (-19) from by decide]; norm_num [Num.toRat?])
  have hi : Val32 e 0x469C4000#32 (20000 : ℚ) := val32_of_normal e (by decide) (by
    rw [show Fmt.b32.unpack (0x469C4000#32).toNat = .fin false 10240000 (-9) from by decide]; norm_num [Num.toRat?])
  simpa using val32_between lo hi hn hlo hhi

theorem gain_bounds {e : FpEnv} {g : B32} (h : InRange e 0xC1C00000#32 0x41C00000#32 g) :
    ∃ G, Val32 e g G ∧ -24 ≤ G ∧ G ≤ 24 := by
  obtain ⟨hn, hlo, hhi⟩ := h
  have lo : Val32 e 0xC1C00000#32 (-24 : ℚ) := val32_of_normal e (by decide) (by
    rw [show Fmt.b32.unpack (0xC1C00000#32).toNat = .fin true 12582912 (-19) from by decide]; norm_num [Num.toRat?])
  have hi : Val32 e 0x41C00000#32 (24 : ℚ) := val32_of_normal e (by decide) (by
    rw [show Fmt.b32.unpack (0x41C00000#32).toNat = .fin false 12582912 (-19) from by decide]; norm_num [Num.toRat?])
  simpa using val32_between lo hi hn hlo hhi

/-- The lower bound is the binary32 nearest 0.1, which is just above it. -/
theorem q_bounds {e : FpEnv} {q : B32} (h : InRange e 0x3DCCCCCD#32 0x41200000#32 q) :
    ∃ Q, Val32 e q Q ∧ 0.1 ≤ Q ∧ Q ≤ 10 := by
  obtain ⟨hn, hlo, hhi⟩ := h
  have lo : Val32 e 0x3DCCCCCD#32 (13421773 / 2 ^ 27 : ℚ) := val32_of_normal e (by decide) (by
    rw [show Fmt.b32.unpack (0x3DCCCCCD#32).toNat = .fin false 13421773 (-27) from by decide]; norm_num [Num.toRat?])
  have hi : Val32 e 0x41200000#32 (10 : ℚ) := val32_of_normal e (by decide) (by
    rw [show Fmt.b32.unpack (0x41200000#32).toNat = .fin false 10485760 (-20) from by decide]; norm_num [Num.toRat?])
  obtain ⟨Q, hQ, h1, h2⟩ := val32_between lo hi hn hlo hhi
  exact ⟨Q, hQ, le_trans (by norm_num) h1, by simpa using h2⟩

/-! ### Finiteness (R129) -/

section Finite

variable (hM : MathContract) {e : FpEnv} {c : Config} (hc : c.nyqRatio = nyqDefault) {fs : B64} {S : ℝ}
  (hS : Val64 fs S) (hS0 : 1 ≤ S)
include hM hc hS hS0

theorem peakDesign_not_degenerate {pf pg pq : B32} {co : Coef} (hf : InRange e 0x41A00000#32 0x469C4000#32 pf)
    (hg : InRange e 0xC1C00000#32 0x41C00000#32 pg) (hq : InRange e 0x3DCCCCCD#32 0x41200000#32 pq)
    (h : PeakDesign e c fs pf pg pq co) : co.degenerate = false := by
  obtain ⟨F, hF, hF1⟩ := freq_bounds hf
  obtain ⟨G, hG, hG1⟩ := gain_bounds hg
  obtain ⟨Q, hQ, hQ1⟩ := q_bounds hq
  have hrate : (2⁻¹ : ℝ) ^ 1060 ≤ S := (pow_le_one₀ (by norm_num) (by norm_num)).trans hS0
  rw [peakDesign_iff.mp h, peakCoeffs_congr e (d := {}) hc]
  exact peakCoeffs_finite hM e (by decide) hS hrate hF hG hQ hF1 hG1 hQ1

theorem cutDesign_not_degenerate (hS1 : S ≤ 2 ^ 333) {highPass : Bool} {f : B32} {k i : Nat} {co : Coef}
    (hf : InRange e 0x41A00000#32 0x469C4000#32 f) (hk : k ≤ 4) (hi : i < k)
    (h : CutDesign highPass e c fs f (2 * k) i co) : co.degenerate = false := by
  obtain ⟨F, hF, hF0, hF1⟩ := freq_bounds hf
  obtain ⟨hp, lp⟩ := cutSections_finite hM e hc hS hS0 hS1 hF hF0 hF1 hk hi
  cases highPass with
  | true => rw [cutDesign_true_iff.mp h]; exact hp
  | false => rw [cutDesign_false_iff.mp h]; exact lp

end Finite

/-- Settles O23: the designs written out are the model's own, so that the installation is R124's slot by slot, the gain 0.0
is R117(a)'s case of the peak set, and the finiteness is that of both kinds of section over R129's ranges. -/
theorem coefStepInstallsDesigns : Obligations.CoefStepInstallsDesigns := by
  refine ⟨fun e c fs f => ⟨fclamp_of_lt, fclamp_of_not_lt, not_lt_fclamp e c fs f⟩, fun x => rfl, fun fs s => ?_, ?_, ?_⟩
  · exact ⟨⟨_, peakDesign_iff.mpr rfl, installedFrom_install _ _ s.bank.dgpk⟩,
      fun _ hi => ⟨_, cutDesign_true_iff.mpr rfl, installedFrom_stage _ _ (get_hpCands_active hi)⟩,
      fun _ hi => ⟨_, cutDesign_false_iff.mpr rfl, installedFrom_stage _ _ (get_lpCands_active hi)⟩,
      fun _ hi => install_keeps_slot _ _ (get_hpCands_beyond hi),
      fun _ hi => install_keeps_slot _ _ (get_lpCands_beyond hi), rfl, rfl, rfl, rfl, rfl, rfl⟩
  · intro e c fs pf pg pq co hpg hco hd
    obtain rfl := peakDesign_iff.mp hco
    exact peakCoeffs_zeroGain e c fs pf pq hpg hd
  · intro hM e c fs hc hfin h1 h2
    obtain ⟨S, hS, hS0, hS1⟩ := rate_bounds hfin h1 h2
    exact ⟨fun _ _ _ _ hf hg hq => peakDesign_not_degenerate hM hc hS hS0 hf hg hq,
      fun _ _ _ _ _ hf hk hi => cutDesign_not_degenerate hM hc hS hS0 hS1 hf hk hi⟩

end Sys2Proof.Machine

/-! The filter chain (42_filter_chain.md): what PROCESS answers (R158 to R165) and its atomic steps (R160), the channels
side by side (R157), the cascade of the sections (R153 to R156), and poisoning (R152, R168). -/

namespace Sys2Proof.Machine

/-! ### The outcomes of PROCESS -/

/-- A check that fails ends PROCESS in its fault. -/
theorem exec_process_of_check {s : State} {c : Cause} (h : processCheck s = some c) :
    exec .process s = .next (raise c .aud s) := by
  rw [exec, execProcess, h]

/-- A coefficient step that faults ends PROCESS with SNAP taken. -/
theorem exec_process_of_coefFaults {s : State} (h : processCheck s = none)
    (hf : coefFaults s.fs (takeSnapshot s) = true) :
    exec .process s = .next (raise .degenerateCoeff .aud (takeSnapshot s)) := by
  rw [exec, execProcess, h]; exact if_pos hf

/-- Otherwise PROCESS installs the coefficients, filters and relays. -/
theorem exec_process_of_body {s : State} (h : processCheck s = none)
    (hf : ¬ coefFaults s.fs (takeSnapshot s) = true) :
    exec .process s
      = .next (complete .aud (processBody (blockArg s) (coefStep s.fs (takeSnapshot s)))) := by
  rw [exec, execProcess, h]; exact if_neg hf

/-- When the coefficient step of a PROCESS faults, in the words of the statements. -/
theorem coefFaults_process (s : State) :
    coefFaults s.fs (takeSnapshot s) = true
      ↔ s.cfg.degenPolicy = .fault ∧ someDegenerate (designEnv s.cfg) s.cfg s.fs (takeSnapshot s).snap = true :=
  coefFaults_iff s.fs (takeSnapshot s)

theorem processCheck_notPrepared {s : State} (h : s.prepared = false) : processCheck s = some .notPrepared := by
  simp [processCheck, h]

theorem processCheck_blockTooLong {s : State} (h : s.prepared = true) (hn : s.maxblk < s.aud.arg0.toNat) :
    processCheck s = some .blockTooLong := by
  simp [processCheck, h, blockArg, hn]

/-- Settles O29: each failing check raises its own cause, and `raise` writes the record and the port alone. -/
theorem processChecksFirst : Obligations.ProcessChecksFirst := fun s =>
  ⟨fun h => ⟨_, exec_process_of_check (processCheck_notPrepared h), faultsWith_raise .notPrepared .aud s⟩,
    fun h hn => ⟨_, exec_process_of_check (processCheck_blockTooLong h hn), faultsWith_raise .blockTooLong .aud s⟩⟩

theorem endsOn_complete (p : Port) {s u : State} (h : ∀ q, u.portRegs q = s.portRegs q) : EndsOn p s (complete p u) :=
  ⟨by rw [complete_portRegs_self, h], fun q hq => by rw [complete_portRegs_ne u hq, h]⟩

theorem endsOn_process (n : Nat) (s : State) :
    EndsOn .aud s (complete .aud (processBody n (coefStep s.fs (takeSnapshot s)))) :=
  endsOn_complete .aud fun q => by rw [ports_processBody]; exact same_ports rfl rfl rfl q

/-! ### A block of no samples -/

@[simp] theorem Stereo.set_get (q : Stereo α) (ch : Chan) : q.set ch (q.get ch) = q := by cases ch <;> rfl

@[simp] theorem filtChan_zero (ch : Chan) (s : State) : filtChan 0 ch s = s := by simp [filtChan, filtLoop]

@[simp] theorem filtStep_zero (s : State) : filtStep 0 s = s := by simp [filtStep]

@[simp] theorem relayChan_zero (ch : Chan) (s : State) : relayChan 0 ch s = s := by simp [relayChan, relayLoop]

@[simp] theorem processBody_zero (s : State) : processBody 0 s = s := by simp [processBody]

/-- Settles O30: with no samples FILT and RELAY change nothing, which leaves the snapshot and the coefficient step. -/
theorem processZeroInstallsOnly : Obligations.ProcessZeroInstallsOnly := by
  intro s hp hn hf
  have hcheck : processCheck s = none := processCheck_none hp (by simp [hn])
  have hblock : blockArg s = 0 := by simp [blockArg, hn]
  have hends := endsOn_process 0 s
  have hexec := exec_process_of_body hcheck (mt (coefFaults_process s).mp hf)
  rw [processBody_zero] at hends
  rw [hblock, processBody_zero] at hexec
  exact ⟨_, hexec, rfl, hends, rfl⟩

/-! ### FILT and RELAY over a block -/

/-- FILT runs the chain over the input block of each channel, and leaves the elements past the block. -/
theorem filtStep_chainRun (n : Nat) (s : State) (ch : Chan) :
    (filtStep n s).hist.get ch = (chainRun s.env s.bank 0 (inputBlock s ch n) (s.hist.get ch)).2
    ∧ ∀ k, ((filtStep n s).buf.get ch).read k =
        if k < n then (chainRun s.env s.bank 0 (inputBlock s ch n) (s.hist.get ch)).1[k]?
        else (s.buf.get ch).read k := by
  rw [filtStep_hist, filtStep_buf]
  simpa [inputBlock, State.env] using filtLoop_spec s.env s.bank ch n 0 (s.buf.get ch) (s.hist.get ch)

theorem inputBlock_length (s : State) (ch : Chan) (n : Nat) : (inputBlock s ch n).length = n := by simp [inputBlock]

/-- What FILT and RELAY write of a channel: the chain's outputs over its input block, staged one by one
(43_relay_fifo.md R198). -/
theorem processBody_chainRun (n : Nat) (s : State) (ch : Chan) :
    let out := chainRun s.env s.bank 0 (inputBlock s ch n) (s.hist.get ch)
    out.1.length = n ∧ (processBody n s).hist.get ch = out.2
    ∧ (∀ j, j < n → ((processBody n s).buf.get ch).read j = out.1[j]?)
    ∧ (∀ j, n ≤ j → ((processBody n s).buf.get ch).read j = (s.buf.get ch).read j)
    ∧ (processBody n s).relay.get ch
        = out.1.foldl (relaySample s.cfg (s.draws + n) ch s.maxblk) (s.relay.get ch) := by
  intro out
  obtain ⟨hbuf, hhist, hrelay⟩ := processBody_parts n s ch
  rw [← filtStep_buf] at hbuf hrelay
  rw [← filtStep_hist] at hhist
  obtain ⟨hout, hread⟩ := filtStep_chainRun n s ch
  have hlen : out.1.length = n := by rw [chainRun_length, inputBlock_length]
  refine ⟨hlen, hhist.trans hout, fun j hj => ?_, fun j hj => ?_, ?_⟩
  · rw [hbuf, hread, if_pos hj]
  · rw [hbuf, hread, if_neg (by omega)]
  · rw [hrelay]
    exact relayLoop_fold _ _ _ _ _ _ _ _ out.1 hlen fun i hi => by rw [hread, Nat.zero_add, if_pos hi]

theorem processBody_draws (n : Nat) (s : State) : (processBody n s).draws = s.draws + n := rfl

/-- Nothing differs but what a PROCESS without a fault writes. -/
def ProcessFrame (s t : State) : Prop :=
  t = { s with snap := t.snap, bank := t.bank, hist := t.hist, buf := t.buf, relay := t.relay, draws := t.draws,
               aud := t.aud }

theorem processFrame_of_eq {s t : State} {sn : Snap} {b : Bank} {h : Stereo ChanHist} {m : Stereo Memory}
    {r : Stereo RelayCh} {d : Nat} {a : PortRegs}
    (ht : t = { s with snap := sn, bank := b, hist := h, buf := m, relay := r, draws := d, aud := a }) :
    ProcessFrame s t := by
  subst ht; rfl

/-- Settles O28: a PROCESS past its check faults in its coefficient step or does not; where it does not,
FILT and RELAY write each channel as its chain run over its input block. -/
theorem processFiltersInPlace : Obligations.ProcessFiltersInPlace := by
  intro s hp hn
  have hcheck := processCheck_none hp hn
  by_cases hf : coefFaults s.fs (takeSnapshot s) = true
  · refine ⟨_, exec_process_of_coefFaults hcheck hf, ?_⟩
    rw [if_pos ((coefFaults_process s).mp hf)]
    exact faultsWith_raise .degenerateCoeff .aud (takeSnapshot s)
  · refine ⟨_, exec_process_of_body hcheck hf, ?_⟩
    rw [if_neg (mt (coefFaults_process s).mpr hf)]
    refine ⟨endsOn_process _ s, complete_snap _ _, complete_bank _ _, fun ch => ?_,
      (complete_draws _ _).trans (processBody_draws _ _), processFrame_of_eq (process_frame _ _ s rfl)⟩
    rw [complete_hist, complete_buf, complete_relay]
    exact processBody_chainRun (blockArg s) (coefStep s.fs (takeSnapshot s)) ch

/-- Settles O31: a PROCESS that faults writes neither BUF nor the histories; one that does not runs a chain whose stages
are all bypassed, as SR says. -/
theorem fullBypassIsIdentity : Obligations.FullBypassIsIdentity := by
  intro s hhp hpk hlp
  cases hcheck : processCheck s with
  | some c => exact ⟨_, exec_process_of_check hcheck, raise_hist _ _ _, fun ch j v hv => by rwa [raise_buf]⟩
  | none =>
    by_cases hf : coefFaults s.fs (takeSnapshot s) = true
    · exact ⟨_, exec_process_of_coefFaults hcheck hf, raise_hist _ _ _, fun ch j v hv => by rwa [raise_buf]⟩
    · have hloop (ch : Chan) := filtLoop_bypass s.env (coefStep s.fs (takeSnapshot s)).bank ch (blockArg s) 0
        (s.buf.get ch) (s.hist.get ch) hhp hpk hlp
      have hparts := processBody_parts (blockArg s) (coefStep s.fs (takeSnapshot s))
      refine ⟨_, exec_process_of_body hcheck hf, ?_, fun ch j v hv => ?_⟩
      · rw [complete_hist]
        exact Stereo.ext_get fun ch => (hparts ch).2.1.trans (hloop ch).1
      · rw [complete_buf, (hparts ch).1]
        exact (hloop ch).2 j v hv

/-! ### The channels side by side -/

/-- Elements that hold the same values are read as the same input block, whichever the channel. -/
theorem inputBlock_left_eq_right {n : Nat} {s : State}
    (h : ∀ j, j < n → ∃ v, s.buf.left.read j = some v ∧ s.buf.right.read j = some v) :
    inputBlock s .left n = inputBlock s .right n := by
  refine List.map_congr_left fun j hj => ?_
  obtain ⟨v, hl, hr⟩ := h j (List.mem_range.mp hj)
  exact (memRead_of_read hl).trans (memRead_of_read hr).symm

/-- Settles O32: FILT of a channel is a loop over that channel's BUF and history, and both channels run the same chain
under the same draws. -/
theorem channelsAreIndependent : Obligations.ChannelsAreIndependent := by
  refine ⟨fun n ch s r hcfg hbank hdraws hbuf hhist => ?_, fun n s hhist hvals => ?_⟩
  · have henv : r.env = s.env := by rw [State.env, hcfg, hdraws, State.env]
    simp only [filtStep_buf, filtStep_hist, henv, hbank, hbuf, hhist, and_self]
  · obtain ⟨hl, hbl⟩ := filtStep_chainRun n s .left
    obtain ⟨hr, hbr⟩ := filtStep_chainRun n s .right
    have hrun : chainRun s.env s.bank 0 (inputBlock s .left n) (s.hist.get .left)
        = chainRun s.env s.bank 0 (inputBlock s .right n) (s.hist.get .right) := by
      rw [inputBlock_left_eq_right hvals]; exact congrArg _ hhist
    refine ⟨hl.trans (by rw [hrun]; exact hr.symm), fun j hj => ?_⟩
    exact (hbl j).trans (by rw [hrun, if_pos hj]; exact ((hbr j).trans (if_pos hj)).symm)

/-! ### The cascade of the sections -/

theorem pkStage_processed {e : FpEnv} {b : Bank} (h : Hist) (x : B32) (hb : b.processes .pk = true) :
    pkStage e b h x = runSection e b.cpk h x := by
  simp only [Bank.processes, Bool.and_eq_true, Bool.not_eq_true'] at hb
  simp [pkStage, hb]

theorem pkStage_passed {e : FpEnv} {b : Bank} (h : Hist) (x : B32) (hb : b.processes .pk = false) :
    pkStage e b h x = (x, h) := by
  rw [Bank.processes, ← Bool.not_or, Bool.not_eq_false'] at hb
  exact if_pos hb

/-- The place of a section in the cascade. -/
def Sec.place : Sec → Nat
  | .hp i => i.val
  | .pk => 4
  | .lp i => 5 + i.val

theorem Sec.place_of_all {k : Nat} {σ : Sec} (h : Sec.all[k]? = some σ) : k = σ.place := by
  have hk : k < 9 := (List.getElem?_eq_some_iff.mp h).1
  interval_cases k <;> cases h <;> rfl

/-- What the section at place k of a chain is given, from what the high-pass and the low-pass sections are given. -/
def chainIn (hp lp : Nat → B32) (k : Nat) : B32 := if k ≤ 4 then hp k else lp (k - 5)

theorem chainIn_hp (hp lp : Nat → B32) {k : Nat} (h : k ≤ 4) : chainIn hp lp k = hp k := if_pos h

theorem chainIn_lp (hp lp : Nat → B32) (k : Nat) : chainIn hp lp (5 + k) = lp k := by
  rw [chainIn, if_neg (by omega), Nat.add_sub_cancel_left]

/-- The chain as one cascade of nine sections (R156). -/
theorem chain_cascade (e : FpEnv) (b : Bank) (h : ChanHist) (x : B32) :
    ∃ v : Nat → B32, v 0 = x ∧ (chain e b h x).1 = v 9 ∧ ∀ σ : Sec,
      (b.processes σ = true →
        v (σ.place + 1) = sectionStep e (b.coef σ) (h.sec σ) (v σ.place)
        ∧ (chain e b h x).2.sec σ = (h.sec σ).shift (v σ.place) (v (σ.place + 1)))
      ∧ (b.processes σ = false → v (σ.place + 1) = v σ.place ∧ (chain e b h x).2.sec σ = h.sec σ) := by
  obtain ⟨hp, hp0, hp4, hhp⟩ := cutStage_cascade e b.bypHp b.actHp b.dghp b.chp h.hp x
  obtain ⟨lp, lp0, lp4, hlp⟩ := cutStage_cascade e b.bypLp b.actLp b.dglp b.clp h.lp (pkStage e b h.pk (hp 4)).1
  rw [← hp4] at lp0 lp4 hlp
  refine ⟨chainIn hp lp, hp0, lp4, fun σ => ?_⟩
  cases σ with
  | hp i =>
    rw [Sec.place, chainIn_hp hp lp (by omega), chainIn_hp hp lp (by omega)]
    exact hhp i
  | pk =>
    have hin : chainIn hp lp 4 = (cutStage e b.bypHp b.actHp b.dghp b.chp h.hp x).1 := hp4.symm
    have hout : chainIn hp lp (4 + 1) = (pkStage e b h.pk (cutStage e b.bypHp b.actHp b.dghp b.chp h.hp x).1).1 := lp0
    rw [Sec.place, hin, hout]
    refine ⟨fun hb => ?_, fun hb => ?_⟩
    · rw [chain, pkStage_processed _ _ hb]; exact ⟨rfl, rfl⟩
    · rw [chain, pkStage_passed _ _ hb]; exact ⟨rfl, rfl⟩
  | lp i =>
    rw [Sec.place, Nat.add_assoc, chainIn_lp, chainIn_lp]
    exact hlp i

/-- Settles O33: both cascades, with each section's step written out as R150 writes it. -/
theorem cutStageRunsActiveSections : Obligations.CutStageRunsActiveSections := by
  refine ⟨fun e act dg co h x => ⟨rfl, ?_, fun co' hco => ?_⟩, fun e b h x => ?_⟩
  · obtain ⟨v, hv0, hv4, hv⟩ := cutStage_cascade e false act dg co h x
    refine ⟨v, hv0, hv4, fun i => ⟨fun ⟨hact, hdg⟩ => (hv i).1 (by simp [hact, hdg]), fun hpass => (hv i).2 ?_⟩⟩
    rcases hpass with hact | hdg
    · simp [hact]
    · simp [hdg]
  · exact cutSections_coef e act dg co co' _ _ hco
  · obtain ⟨v, hv0, hv9, hv⟩ := chain_cascade e b h x
    refine ⟨v, hv0, hv9, fun k σ hk => ?_⟩
    rw [Sec.place_of_all hk]
    exact hv σ

/-! ### Poisoning -/

/-- A property that the output of a section has when its history or its input has it, and that the history has when the
output shifted into it has it, stays to the end of the run. -/
theorem sectionRun_poisoned {e : FpEnv} {co : Coef} {inHist : Hist → Prop} {bad : B32 → Prop}
    (hout : ∀ h x, inHist h ∨ bad x → bad (sectionStep e co h x))
    (hkeep : ∀ (h : Hist) x y, bad y → inHist (h.shift x y)) (xs : List B32) :
    ∀ (h : Hist) (x : B32), inHist h ∨ bad x → ∀ y ∈ sectionRun e co (x :: xs) h, bad y := by
  induction xs with
  | nil =>
    intro h x hp y hy
    rw [List.mem_singleton.mp hy]; exact hout h x hp
  | cons x' xs ih =>
    intro h x hp y hy
    rcases List.mem_cons.mp hy with rfl | hy
    · exact hout h x hp
    · exact ih _ x' (.inl (hkeep h x _ (hout h x hp))) y hy

theorem Hist.hasNan_shift (h : Hist) (x y : B32) (hy : isNan32 y = true) : (h.shift x y).hasNan = true := by
  simp [Hist.hasNan, Hist.shift, hy]

theorem Hist.allFinite_shift (h : Hist) (x y : B32) (hy : isFinite32 y = false) :
    (h.shift x y).allFinite = false := by
  simp [Hist.allFinite, Hist.shift, hy]

/-- Settles O34: a poisoned output stands in the history of the next sample as y1, so the poison never leaves. -/
theorem nonFinitePoisonsSection : Obligations.NonFinitePoisonsSection := fun e co h x xs =>
  ⟨sectionRun_poisoned (sectionStep_nan e co) Hist.hasNan_shift xs h x,
    sectionRun_poisoned (sectionStep_finite e co) Hist.allFinite_shift xs h x⟩

/-! ### The atomic steps of PROCESS -/

/-- A port that has raised a fault idles to the end. -/
theorem run_raised (c : Cause) (p : Port) (rest : List Move) (s : State) (k : Nat) :
    Sys2Proof.core.run k (raise c p { s with sched := List.replicate k (.advance p) ++ rest })
      = .next (raise c p { s with sched := rest }) := by
  rw [run_idle k p _ rest (raise_sched _ _ _) (by rw [raise_portRegs_self])]
  cases p <;> rfl

/-- One field read, and the read of the next field to come. -/
theorem run_field {rest : List Move} {s : State} {pid q : Pid} {k : Nat} (hq : pid.next? = some q)
    (hb : s.aud.busy = true) :
    Sys2Proof.core.run (k + 1) (atPos .aud rest s (.procSnap pid) (k + 1))
      = Sys2Proof.core.run k (atPos .aud rest (takeField pid s) (.procSnap q) k) := by
  rw [atPos_snap hb, hq]

/-- The eleven field reads make the snapshot (45_control.md R262). -/
theorem run_fields {rest : List Move} {s : State} (hb : s.aud.busy = true) (k : Nat) :
    Sys2Proof.core.run (k + 11) (atPos .aud rest s (.procSnap .peakFreq) (k + 11))
      = Sys2Proof.core.run k (atPos .aud rest (takeSnapshot s) .procCoef k) := by
  have hsnap : takeSnapshot s = Pid.all.foldl (fun X pid => takeField pid X) s := (takeFields Pid.all s).symm
  rw [hsnap]
  simp only [Pid.all, List.foldl_cons, List.foldl_nil]
  iterate 10 refine Eq.trans (run_field rfl (by exact hb)) ?_
  exact atPos_snap hb

/-- The coefficient step, and the rest of PROCESS where it does not fault. -/
theorem run_coef {rest : List Move} {s : State} (hb : s.aud.busy = true) :
    Sys2Proof.core.run 4 (atPos .aud rest s .procCoef 4)
      = if coefFaults s.fs s then .next (raise .degenerateCoeff .aud { s with sched := rest })
        else .next (complete .aud (processBody (blockArg s) (coefStep s.fs { s with sched := rest }))) := by
  have hadv : advancePort .aud (atPos .aud rest s .procCoef 3)
      = .next (processCoef (atPos .aud rest s .procCoef 3)) := by
    rw [advancePort, if_pos (atPos_busy (p := .aud) hb), atPos_pos]
  rw [atPos_step hadv]
  have hf : coefFaults (atPos .aud rest s .procCoef 3).fs (atPos .aud rest s .procCoef 3) = coefFaults s.fs s := rfl
  rw [processCoef, hf]
  split
  · exact run_raised .degenerateCoeff .aud rest s 3
  · exact atPos_filt (X := coefStep s.fs s) hb

/-- Settles O35: the check, the eleven reads, the coefficient step, FILT and the two relay steps; after a fault the steps
that are left change nothing. -/
theorem processStepsMakeExec : Obligations.ProcessStepsMakeExec := by
  intro s rest hb hp hd hs
  have hadv : advancePort .aud { s with sched := List.replicate 15 (.advance .aud) ++ rest }
      = .next (processFirst { s with sched := List.replicate 15 (.advance .aud) ++ rest }) := by
    simp [advancePort, State.portRegs, hb, hp, fetch, hd, firstStep]
  rw [run_adv hs hadv, processFirst]
  have hsched (l : List Move) : processCheck { s with sched := l } = processCheck s := rfl
  rw [hsched]
  cases hcheck : processCheck s with
  | some c => exact (run_raised c .aud rest s 15).trans (exec_process_of_check ((hsched rest).trans hcheck)).symm
  | none =>
    refine (run_fields hb 4).trans ((run_coef (s := takeSnapshot s) hb).trans ?_)
    split
    case isTrue hf => exact (exec_process_of_coefFaults ((hsched rest).trans hcheck) hf).symm
    case isFalse hf => exact (exec_process_of_body ((hsched rest).trans hcheck) hf).symm

end Sys2Proof.Machine

/-! Relay and FIFO (43_relay_fifo.md): the ring is a bounded queue (R190 to R196), staging publishes whole blocks (R198,
R199), and every step keeps the FIFOs legal. -/

namespace Sys2Proof.Machine

/-! ### The invariant -/

/-- Settles O56: taking a move off the list leaves ports and FIFOs alone, and every way of moving keeps them legal. -/
theorem fifosStayLegal : Obligations.FifosStayLegal := by
  intro s t hw hp hs h
  obtain ⟨-, -, hfifo⟩ := step_keeps (P := fun s => s.cfg.wf = true ∧ PortInv s ∧ FifoInv s)
    (fun _ r ⟨hw, hp, hf⟩ => ⟨hw, hp.sched r, hf⟩)
    (fun _ _ _ ⟨hw, hp, hf⟩ hm => ⟨by rw [moved_cfg hm]; exact hw, moved_portInv hp hm, moved_fifoInv hw hp hf hm⟩)
    ⟨hw, hp, hs⟩ h
  exact hfifo

/-! ### The FIFO as a queue -/

theorem Fifo.contents_eq_nil {α : Type} {c : Nat} {q : Fifo α} : Fifo.contents c q = [] ↔ Fifo.count c q = 0 := by
  simp [Fifo.contents]

/-- A pop takes the first block of the queue. -/
theorem Fifo.contents_pop {α : Type} {c : Nat} {ok : α → Prop} {q q' : Fifo α} {d x : α} (h : Fifo.wf c ok q)
    (hp : Fifo.pop c q d = some (x, q')) : Fifo.contents c q = some x :: Fifo.contents c q' := by
  obtain ⟨hx, -, -, hcount, hq'⟩ := Fifo.pop_some h hp
  obtain ⟨hwr, hrd, -⟩ := h
  rw [Fifo.contents_cons c q (by omega) hwr hrd, hx, hq']

/-- Settles O37, from the rules of push and pop. -/
theorem fifoIsBoundedQueue : Obligations.FifoIsBoundedQueue := by
  intro α c ok q b dflt hc h hb
  obtain ⟨hwr, hrd, -⟩ := id h
  refine ⟨fun hroom => Fifo.contents_push c q b hroom hwr hrd, fun hfull => if_pos hfull, Fifo.wf_push hc h hb,
    Fifo.pop_none.trans Fifo.contents_eq_nil.symm, fun x q' hp => ?_⟩
  obtain ⟨-, hok, hwf, -⟩ := Fifo.pop_some h hp
  exact ⟨Fifo.contents_pop h hp, hok, hwf⟩

/-! ### Staging -/

/-- A staged element stands in the block at its own place. -/
theorem stagedBlock_getElem? {seq n j : Nat} {ch : Chan} {m : Memory} {v : B32} (hj : j < n) (h : m.read j = some v) :
    (stagedBlock seq ch n m)[j]? = some v := by
  simp [stagedBlock, hj, h]

section
variable {c : Config} {seq n : Nat} {ch : Chan} {r : RelayCh}

/-- The samples that fill the staging block up: its last one pushes it. -/
theorem relaySample_fill {ws : List B32} (hi : r.idx < n) (h : r.idx + ws.length = n) :
    let t := ws.foldl (relaySample c seq ch n) r
    t.idx = 0 ∧ t.fifo = Fifo.push c.cRelay r.fifo (stagedBlock seq ch n t.stg)
      ∧ ∀ j, t.stg.read j = if r.idx ≤ j ∧ j < n then ws[j - r.idx]? else r.stg.read j := by
  obtain rfl | ⟨pre, v, rfl⟩ := List.eq_nil_or_concat' ws
  · simp at h; omega
  rw [List.length_append, List.length_singleton] at h
  obtain ⟨hfifo, hidx, hread⟩ := relaySample_run c seq ch n pre r (by omega)
  rw [List.foldl_append, List.foldl_cons, List.foldl_nil, relaySample, if_pos (by omega), hfifo, hidx]
  refine ⟨rfl, rfl, fun j => ?_⟩
  rw [Cells.read_write, hread]
  by_cases hlast : j = r.idx + pre.length
  · rw [if_pos hlast, if_pos (by omega), show j - r.idx = pre.length by omega, List.getElem?_concat_length]
  · rw [if_neg hlast]
    by_cases hin : r.idx ≤ j ∧ j < r.idx + pre.length
    · rw [if_pos hin, if_pos (by omega), List.getElem?_append_left (by omega)]
    · rw [if_neg hin, if_neg (by omega)]

/-- Samples that reach the end of the staging block: it is pushed, and those left over are staged from element 0 on. -/
theorem relaySample_overflow {vs : List B32} (hi : r.idx < n) (hlen : vs.length ≤ n) (h : n ≤ r.idx + vs.length) :
    let t := vs.foldl (relaySample c seq ch n) r
    let u := (vs.take (n - r.idx)).foldl (relaySample c seq ch n) r
    t.idx = r.idx + vs.length - n ∧ t.fifo = u.fifo
      ∧ ∀ j, t.stg.read j = if j < t.idx then vs[n - r.idx + j]? else u.stg.read j := by
  intro t u
  obtain ⟨huidx, -, -⟩ := relaySample_fill (c := c) (seq := seq) (ch := ch) (ws := vs.take (n - r.idx)) hi
    (by rw [List.length_take]; omega)
  have ht : t = (vs.drop (n - r.idx)).foldl (relaySample c seq ch n) u := by
    rw [← List.foldl_append, List.take_append_drop]
  obtain ⟨hfifo, hidx, hread⟩ := relaySample_run c seq ch n (vs.drop (n - r.idx)) u
    (by rw [huidx, List.length_drop]; omega)
  rw [← ht, huidx] at hidx hread
  rw [← ht] at hfifo
  have hcount : t.idx = r.idx + vs.length - n := by rw [hidx, List.length_drop]; omega
  refine ⟨hcount, hfifo, fun j => ?_⟩
  rw [hread, ← hidx, List.getElem?_drop, Nat.sub_zero]
  simp only [Nat.zero_le, true_and]

end

/-- Settles O36: the samples are those that fill the block up and those that start the next one. -/
theorem stagingPublishesFullBlocks : Obligations.StagingPublishesFullBlocks := by
  intro c seq ch n r vs _ hi hlen t
  refine ⟨fun hroom => ?_, fun hfull => ?_⟩
  · obtain ⟨hfifo, hidx, hread⟩ := relaySample_run c seq ch n vs r hroom
    exact ⟨hfifo, hidx, by rw [hidx]; exact hread⟩
  · obtain ⟨-, hpush, hblock⟩ := relaySample_fill (c := c) (seq := seq) (ch := ch) (ws := vs.take (n - r.idx)) hi
      (by rw [List.length_take]; omega)
    obtain ⟨hidx, hfifo, hread⟩ := relaySample_overflow (c := c) (seq := seq) (ch := ch) hi hlen hfull
    have hnew : ∀ j, r.idx ≤ j → j < n → (vs.take (n - r.idx))[j - r.idx]? = vs[j - r.idx]? :=
      fun j _ _ => List.getElem?_take_of_lt (by omega)
    refine ⟨hidx, _, by simp [stagedBlock], hfifo.trans hpush, fun j v hj hv => ?_, fun j hj hjn => ?_, fun j => ?_⟩
    · exact stagedBlock_getElem? (by omega) (by rw [hblock, if_neg (by omega), hv])
    · have hlt : j - r.idx < vs.length := by omega
      rw [List.getElem?_eq_getElem hlt]
      refine stagedBlock_getElem? hjn ?_
      rw [hblock, if_pos ⟨hj, hjn⟩, hnew j hj hjn, List.getElem?_eq_getElem hlt]
    · rw [hread, hblock]
      split
      · rfl
      · split
        case isTrue hin => exact hnew j hin.1 hin.2
        case isFalse => rfl

end Sys2Proof.Machine

/-! The spectrum (44_spectrum.md): the reads of port RND (R233 to R235), shift-in and decibels (R224, R229), one pop
step of RPOLL and its transform (R222 to R230), RPOLL and SDRAIN whole (R221 to R225, R231), and their atomic steps. -/

namespace Sys2Proof.Machine

/-! ### Reads -/

theorem decode_of_encode {w : U32} {i : Instr} (hw : encode i = w) (hi : i.wf = true) : decode w i.port = .ok i :=
  hw ▸ decodeOfEncode i hi

theorem decode_rdbin (c : Chan) : decode (0x22000000#32 ||| (c.bits.zeroExtend 32 <<< 22)) .rnd = .ok (.rdbin c) :=
  decode_of_encode (i := .rdbin c) (by cases c <;> rfl) rfl

theorem decode_rdmeta (c : Chan) (sel : MetaSel) :
    decode (0x23000000#32 ||| (c.bits.zeroExtend 32 <<< 22) ||| sel.byte.zeroExtend 32) .rnd = .ok (.rdmeta c sel) :=
  decode_of_encode (i := .rdmeta c sel) (by cases c <;> cases sel <;> rfl) rfl

theorem decode_rdocc (c : Chan) (sel : OccSel) :
    decode (0x25000000#32 ||| (c.bits.zeroExtend 32 <<< 22) ||| sel.byte.zeroExtend 32) .rnd = .ok (.rdocc c sel) :=
  decode_of_encode (i := .rdocc c sel) (by cases c <;> cases sel <;> rfl) rfl

theorem decode_sdrain (c : ChanSel) :
    decode (0x21000000#32 ||| (c.bits.zeroExtend 32 <<< 22)) .rnd = .ok (.sdrain c) :=
  decode_of_encode (i := .sdrain c) (by cases c <;> rfl) rfl

/-- Settles O45: an index in range reads LATEST, or the floor where there is none; one out of range is a fault. -/
theorem rdbinReadsLatest : Obligations.RdbinReadsLatest := by
  intro c s hlen
  refine ⟨decode_rdbin c, fun hk => ?_, fun hk => ⟨_, if_pos hk, faultsWith_raise .binIndex .rnd s⟩⟩
  refine ⟨_, _, if_neg (Nat.not_le.mpr hk), endsWith_completeWith _ _ _, fun hv => ?_, fun hv => ?_, rfl⟩
  · rw [if_pos hv, binArg, List.getD_eq_getElem _ _ (by rw [hlen hv]; exact hk), List.getElem?_eq_getElem]
  · rw [hv]; rfl

theorem metaWord_invalid {l : Latest} (c : Config) (sel : MetaSel) (h : l.valid = false) : metaWord c l sel = 0#64 := by
  simp [metaWord, h]

theorem metaWord_valid {l : Latest} (c : Config) (h : l.valid = true) :
    metaWord c l .valid = 1#64 ∧ metaWord c l .bins = BitVec.ofNat 64 c.nbins ∧ metaWord c l .binw = l.binw := by
  simp [metaWord, h]

theorem endsWith_of_eq {p : Port} {v w : U64} (s : State) (h : w = v) : EndsWith p v s (completeWith p w s) :=
  h ▸ endsWith_completeWith p w s

/-- Settles O46: RDMETA completes with the word of R234's table. -/
theorem rdmetaReadsMetadata : Obligations.RdmetaReadsMetadata := by
  intro c sel s
  refine ⟨decode_rdmeta c sel, _, rfl, rfl, fun hv => ?_, fun hv => ?_⟩
  · exact endsWith_of_eq s (metaWord_invalid s.cfg sel hv)
  · obtain ⟨hvalid, hbins, hbinw⟩ := metaWord_valid s.cfg hv
    refine ⟨?_, ?_, ?_⟩ <;> rintro rfl
    · exact endsWith_of_eq s hvalid
    · exact endsWith_of_eq s hbins
    · exact endsWith_of_eq s hbinw

/-- The count of R191, as an integer modulus. -/
theorem Fifo.count_cast {α : Type} {c : Nat} {q : Fifo α} (hr : q.rd < 2 * c) :
    (Fifo.count c q : ℤ) = ((q.wr : ℤ) - q.rd) % (2 * c : Nat) := by
  rw [Fifo.count, Int.natCast_mod, Nat.cast_sub (by omega), Nat.cast_add, add_sub_right_comm, Int.add_emod_right]

/-- A count is below 2C, so a register that holds 2C holds it. -/
theorem Fifo.count_word {α : Type} {c : Nat} {q : Fifo α} (hr : q.rd < 2 * c) (hc : 2 * c ≤ 2 ^ 64) :
    ((BitVec.ofNat 64 (Fifo.count c q)).toNat : ℤ) = ((q.wr : ℤ) - q.rd) % (2 * c : Nat) := by
  have hlt : Fifo.count c q < 2 ^ 64 := (Nat.mod_lt _ (by omega)).trans_le hc
  rw [BitVec.toNat_ofNat, Nat.mod_eq_of_lt hlt, Fifo.count_cast hr]

/-- Settles O47: RDOCC completes with the count of the FIFO its selector names. -/
theorem rdoccReadsCount : Obligations.RdoccReadsCount := by
  intro c sel s
  refine ⟨decode_rdocc c sel, _, _, rfl, endsWith_completeWith _ _ _, rfl, ?_, ?_⟩ <;> rintro rfl
  · exact Fifo.count_word
  · exact Fifo.count_word

/-! ### Shift-in and decibels -/

/-- Settles O40: the window and the block in a row, less as many elements in front as the block has. -/
theorem shiftInIsRingShift : Obligations.ShiftInIsRingShift := by
  intro l win blk hlen
  refine ⟨shiftIn_length l win blk hlen, fun j hj => ?_⟩
  rw [shiftIn_drop l win blk hlen, List.getElem?_drop]
  split
  case isTrue hfull =>
    rw [List.getElem?_append_right (by omega)]; congr 1; omega
  case isFalse hshort =>
    split
    case isTrue hold => rw [List.getElem?_append_left (by omega), Nat.add_comm]
    case isFalse hnew => rw [List.getElem?_append_right (by omega)]; congr 1; omega

theorem decibel_of_not_pos {e : FpEnv} {c : Config} {v : B32} (h : lt32 e 0#32 v = false) :
    decibel e c v = c.dbFloor := by
  simp [decibel, h]

theorem decibel_of_pos {e : FpEnv} {c : Config} {v : B32} (h : lt32 e 0#32 v = true) :
    decibel e c v = if lt32 e (toB32 e (mul64 e c20 (Config.LOG10 (toB64 e v)))) c.dbFloor then c.dbFloor
      else toB32 e (mul64 e c20 (Config.LOG10 (toB64 e v))) := by
  rw [decibel, if_pos h]

/-- Settles O41: the value is the floor or was compared with it, and nothing is below itself. -/
theorem decibelKeepsFloor : Obligations.DecibelKeepsFloor := by
  intro e c v
  refine ⟨?_, decibel_of_not_pos, fun hpos => ⟨fun hd => ?_, fun hd => ?_⟩⟩
  · cases hpos : lt32 e 0#32 v with
    | false => rw [decibel_of_not_pos hpos]; exact lt32_irrefl _ _
    | true =>
      rw [decibel_of_pos hpos]
      split
      case isTrue => exact lt32_irrefl _ _
      case isFalse hd => exact eq_false_of_ne_true hd
  · rw [decibel_of_pos hpos]; exact if_neg (ne_true_of_eq_false hd)
  · rw [decibel_of_pos hpos]; exact if_pos hd

/-! ### One pop step of RPOLL -/

theorem feedBlock_win (e : FpEnv) (c : Config) (fs : B64) (n : Nat) (sp : SpecCh) (blk : List B32) :
    (feedBlock e c fs n sp blk).win = shiftIn c.len sp.win blk := by
  unfold feedBlock; split <;> rfl

theorem feedBlock_latest (e : FpEnv) (c : Config) (fs : B64) (n : Nat) (sp : SpecCh) (blk : List B32) :
    (feedBlock e c fs n sp blk).latest = sp.latest := by
  unfold feedBlock; split <;> rfl

/-- HOP new samples: the transform of the new window is pushed, and the count starts again (R225). -/
theorem feedBlock_hop {c : Config} {n : Nat} {sp : SpecCh} (e : FpEnv) (fs : B64) (blk : List B32)
    (h : c.hop ≤ sp.newcnt + n) :
    (feedBlock e c fs n sp blk).newcnt = 0
      ∧ (feedBlock e c fs n sp blk).fifo
          = Fifo.push c.cSpec sp.fifo (transform e c fs (shiftIn c.len sp.win blk)) := by
  rw [feedBlock, if_pos h]; exact ⟨rfl, rfl⟩

theorem feedBlock_count {c : Config} {n : Nat} {sp : SpecCh} (e : FpEnv) (fs : B64) (blk : List B32)
    (h : sp.newcnt + n < c.hop) :
    (feedBlock e c fs n sp blk).newcnt = sp.newcnt + n ∧ (feedBlock e c fs n sp blk).fifo = sp.fifo := by
  rw [feedBlock, if_neg (Nat.not_le.mpr h)]; exact ⟨rfl, rfl⟩

theorem windowed_length (e : FpEnv) (c : Config) (win : List B32) : (windowed e c win).length = c.len := by
  simp [windowed]

theorem windowed_getElem? (e : FpEnv) (c : Config) (win : List B32) {j : Nat} (h : j < c.len) :
    (windowed e c win)[j]? = some (mul32 e (win.getD j 0#32) ((windowTable c).getD j 0#32)) := by
  simp [windowed, h]

theorem transform_db_length (e : FpEnv) (c : Config) (fs : B64) (win : List B32) :
    (transform e c fs win).db.length = c.nbins := by
  simp [transform]

theorem transform_db_getElem? (e : FpEnv) (c : Config) (fs : B64) (win : List B32) {k : Nat} (h : k < c.nbins) :
    (transform e c fs win).db[k]? = some (decibel e c (clampFin
      (div32 e (Config.FFT_MAG c.fftOrder (windowed e c win) k) (natB32 c.nbins)))) := by
  simp [transform, h]

/-- A pop step where a block waits: the oldest block leaves the queue, and with the spectrum enabled feeds it. -/
theorem pollBlock_pop {s : State} {ch : Chan} (se : Bool) (hok : FifosOk s) (h : relayCount s ch ≠ 0) :
    ∃ blk, waitingBlocks s ch = blk :: waitingBlocks (pollBlock se ch s) ch ∧ blk.length = s.maxblk
      ∧ (se = true →
          (pollBlock se ch s).spec.get ch = feedBlock s.env s.cfg s.fs s.maxblk (s.spec.get ch) blk) := by
  cases hpop : Fifo.pop s.cfg.cRelay (s.relay.get ch).fifo (relaySlotDraw s.draws ch s.maxblk) with
  | none => exact absurd (Fifo.pop_none.mp hpop) h
  | some x =>
    obtain ⟨blk, q⟩ := x
    obtain ⟨-, hlen, -⟩ := Fifo.pop_some (hok ch).1 hpop
    refine ⟨blk, ?_, hlen, ?_⟩
    · simp only [waitingBlocks, pollBlock_cfg, pollBlock_relay, hpop, if_true]
      rw [Fifo.contents_pop (hok ch).1 hpop]; rfl
    · rintro rfl
      simp only [pollBlock, hpop, if_true, Stereo.get_set_self]; rfl

theorem pollNext_frame (se : Bool) (more : List Chan) (s : State) :
    pollNext se more s = { s with rnd := (pollNext se more s).rnd } := by cases more <;> rfl

/-- A pop step moves the position, beside the pop. -/
theorem pollPopStep_frame (se : Bool) (ch : Chan) (m : Nat) (more : List Chan) (s : State) :
    pollPopStep se ch m more s = { pollBlock se ch s with rnd := (pollPopStep se ch m more s).rnd } := by
  cases m with
  | zero => exact pollNext_frame se more (pollBlock se ch s)
  | succ m => rfl

/-- Where the command stands after a pop step. -/
theorem pollPopStep_rnd (se : Bool) (ch : Chan) (m : Nat) (more : List Chan) (s : State) :
    (pollPopStep se ch m more s).rnd = match m, more with
      | n + 1, _ => { s.rnd with pos := .rpollPop se ch n more }
      | 0, c :: cs => { s.rnd with pos := .rpollCount se c cs }
      | 0, [] => { s.rnd with busy := false, pos := .start } := by
  rw [← pollBlock_rnd se ch s]
  cases m with
  | zero => cases more <;> rfl
  | succ n => rfl

theorem advancePort_rpollPop {s : State} {se : Bool} {ch : Chan} {m : Nat} {more : List Chan} (hb : s.rnd.busy = true)
    (hp : s.rnd.pos = .rpollPop se ch m more) : advancePort .rnd s = .next (pollPopStep se ch m more s) := by
  simp [advancePort, State.portRegs, hb, hp]

theorem SameWriter.eq_rd {r r' : RelayCh} (h : SameWriter r r') :
    r' = { r with fifo := { r.fifo with rd := r'.fifo.rd } } := by
  obtain ⟨hwr, hslots, hstg, hidx⟩ := h
  simp only [← hwr, ← hslots, ← hstg, ← hidx]

/-- Settles O39: the step is one pop of a relay that holds a block, and a move of the position. -/
theorem polledBlockTriggersTransform : Obligations.PolledBlockTriggersTransform := by
  intro ch more chs s rest _ hfifo hb hp hs
  obtain ⟨hok, hpolls, -⟩ := hfifo
  have hstep : step s = .next (pollPopStep true ch more chs { s with sched := rest }) := by
    rw [step_of_sched hs]; exact advancePort_rpollPop hb hp
  have hcount : relayCount s ch ≠ 0 := Nat.ne_zero_of_lt (hpolls true ch more chs hb hp)
  obtain ⟨blk, hwait, hlen, hspec⟩ := pollBlock_pop (s := { s with sched := rest }) true hok hcount
  have hother := pollBlock_other true ch { s with sched := rest }
  have hpoll := pollBlock_pollFrame true ch { s with sched := rest }
  have hframe := pollPopStep_frame true ch more chs { s with sched := rest }
  have hrnd := pollPopStep_rnd true ch more chs { s with sched := rest }
  generalize pollPopStep true ch more chs { s with sched := rest } = t at hstep hframe hrnd
  have hsp : t.spec.get ch = feedBlock s.env s.cfg s.fs s.maxblk (s.spec.get ch) blk := by
    rw [hframe]; exact hspec rfl
  refine ⟨t, blk, hstep, ?_, hlen, ?_, ?_, fun c hc => ?_, ?_, ?_, ?_, ?_⟩
  · rw [hframe]; exact hwait
  · simp only [hsp]
    refine ⟨feedBlock_win _ _ _ _ _ _, feedBlock_latest _ _ _ _ _ _, fun hhop => ?_, feedBlock_count s.env s.fs blk⟩
    obtain ⟨hnew, hpush⟩ := feedBlock_hop s.env s.fs blk hhop
    exact ⟨hnew, _, hpush, rfl, transform_db_length _ _ _ _, rfl, fun k hk =>
      ⟨_, windowed_length _ _ _, fun j => windowed_getElem? _ _ _, transform_db_getElem? _ _ _ _ hk⟩⟩
  · rw [hframe]; exact (hpoll.writer ch).eq_rd
  · rw [hframe]; exact hother c hc
  · rintro m rfl; exact hrnd
  · rintro c cs rfl rfl; exact hrnd
  · rintro rfl rfl
    refine ⟨hrnd, fun q hq => ?_⟩
    rw [hframe, hpoll.frame]
    cases q with
    | rnd => exact absurd rfl hq
    | aud => rfl
    | ctl => rfl
  · rw [hframe, hpoll.frame]

/-! ### RPOLL and SDRAIN whole -/

/-- What the drain of one channel works on, with the configuration. -/
def State.chan (s : State) (ch : Chan) : Config × RelayCh × SpecCh := (s.cfg, s.relay.get ch, s.spec.get ch)

theorem State.chan_eq {s t : State} {ch : Chan} :
    t.chan ch = s.chan ch ↔ t.cfg = s.cfg ∧ t.relay.get ch = s.relay.get ch ∧ t.spec.get ch = s.spec.get ch := by
  simp [State.chan]

theorem relayCount_congr {s t : State} {ch : Chan} (h : t.chan ch = s.chan ch) : relayCount t ch = relayCount s ch := by
  obtain ⟨hcfg, hrelay, -⟩ := State.chan_eq.mp h
  rw [relayCount, relayCount, hcfg, hrelay]

theorem waitingBlocks_congr {s t : State} {ch : Chan} (h : t.chan ch = s.chan ch) :
    waitingBlocks t ch = waitingBlocks s ch := by
  obtain ⟨hcfg, hrelay, -⟩ := State.chan_eq.mp h
  rw [waitingBlocks, waitingBlocks, hcfg, hrelay]

theorem specCount_congr {s t : State} {ch : Chan} (h : t.chan ch = s.chan ch) : specCount t ch = specCount s ch := by
  obtain ⟨hcfg, -, hspec⟩ := State.chan_eq.mp h
  rw [specCount, specCount, hcfg, hspec]

theorem waitingSpectra_congr {s t : State} {ch : Chan} (h : t.chan ch = s.chan ch) :
    waitingSpectra t ch = waitingSpectra s ch := by
  obtain ⟨hcfg, -, hspec⟩ := State.chan_eq.mp h
  rw [waitingSpectra, waitingSpectra, hcfg, hspec]

theorem nodup_chans (c : ChanSel) : (firstChan c :: restChans c).Nodup := by cases c <;> decide

theorem mem_chans {c : ChanSel} {ch : Chan} : ch ∈ firstChan c :: restChans c ↔ selects c ch = true := by
  cases c <;> cases ch <;> decide

/-- A drain of each channel of a list that leaves the other channel alone leaves a channel outside the list alone. -/
theorem foldl_chan_of_notMem {f : State → Chan → State} {ch : Chan}
    (hother : ∀ u c, ch ≠ c → (f u c).chan ch = u.chan ch) {l : List Chan} (h : ch ∉ l) (s : State) :
    (l.foldl f s).chan ch = s.chan ch :=
  List.foldlRecOn (motive := fun u => u.chan ch = s.chan ch) l f rfl fun u hu c hc =>
    (hother u c fun e => h (e ▸ hc)).trans hu

/-- A channel of the list is as its own drain leaves it, from a state with that channel as before all drains. -/
theorem foldl_chan_of_mem {f : State → Chan → State} {P : State → Prop} {ch : Chan}
    (hother : ∀ u c, ch ≠ c → (f u c).chan ch = u.chan ch) (hkeep : ∀ u c, P u → P (f u c)) {l : List Chan}
    (hl : l.Nodup) (h : ch ∈ l) {s : State} (hs : P s) :
    ∃ u, P u ∧ u.chan ch = s.chan ch ∧ (l.foldl f s).chan ch = (f u ch).chan ch := by
  obtain ⟨before, after, rfl⟩ := List.append_of_mem h
  obtain ⟨-, hrest, hdisjoint⟩ := List.nodup_append.mp hl
  have hbefore : ch ∉ before := fun hm => hdisjoint ch hm ch List.mem_cons_self rfl
  have hafter : ch ∉ after := (List.nodup_cons.mp hrest).1
  refine ⟨before.foldl f s, List.foldlRecOn before f hs fun u hu c _ => hkeep u c hu,
    foldl_chan_of_notMem hother hbefore s, ?_⟩
  rw [List.foldl_append, List.foldl_cons]
  exact foldl_chan_of_notMem hother hafter _

/-! #### RPOLL -/

theorem pollBlocks_keeps {P : State → Prop} {se : Bool} {ch : Chan} (h : ∀ u, P u → P (pollBlock se ch u)) (m : Nat)
    {s : State} (hs : P s) : P (pollBlocks se ch m s) := by
  induction m generalizing s with
  | zero => exact hs
  | succ m ih => exact ih (h s hs)

theorem pollChans_keeps {P : State → Prop} {se : Bool} (h : ∀ u ch, P u → P (pollBlock se ch u)) (l : List Chan)
    {s : State} (hs : P s) : P (l.foldl (pollChan se) s) :=
  List.foldlRecOn l (pollChan se) hs fun _ hu ch _ => pollBlocks_keeps (fun v => h v ch) _ hu

theorem pollChan_other (se : Bool) {ch : Chan} (s : State) (c : Chan) (h : ch ≠ c) :
    (pollChan se s c).chan ch = s.chan ch :=
  pollBlocks_keeps (P := fun u => u.chan ch = s.chan ch)
    (fun u hu => (State.chan_eq.mpr ⟨pollBlock_cfg se c u, pollBlock_other se c u ch h⟩).trans hu) _ rfl

/-- With the spectrum disabled a block is discarded (R223). -/
theorem pollBlock_disabled {se : Bool} (h : se = false) (ch : Chan) (s : State) :
    (pollBlock se ch s).spec = s.spec := by
  subst h; unfold pollBlock; split <;> rfl

theorem pollBlock_latest (se : Bool) (ch : Chan) (s : State) (c : Chan) :
    ((pollBlock se ch s).spec.get c).latest = (s.spec.get c).latest := by
  unfold pollBlock
  split
  · rfl
  · split
    · simp only [Stereo.get_set]
      split
      case isTrue h => rw [feedBlock_latest, h]
      case isFalse => rfl
    · rfl

/-- As many pops as blocks wait empty the relay. -/
theorem pollBlocks_count {se : Bool} {ch : Chan} {m : Nat} {s : State} (hw : s.cfg.wf = true) (hok : FifosOk s)
    (hm : relayCount s ch = m) : relayCount (pollBlocks se ch m s) ch = 0 := by
  induction m generalizing s with
  | zero => exact hm
  | succ m ih =>
    exact ih (by rw [pollBlock_cfg]; exact hw) (fifosOk_pollBlock se ch hw hok)
      (by rw [pollBlock_count se ch s hok, hm]; rfl)

theorem waitingBlocks_of_empty {s : State} {ch : Chan} (h : relayCount s ch = 0) : waitingBlocks s ch = [] := by
  rw [waitingBlocks, Fifo.contents_eq_nil.mpr h]; rfl

/-- As many pops as blocks wait shift them in, in order (R224). -/
theorem pollBlocks_win {ch : Chan} {m : Nat} {s : State} (hw : s.cfg.wf = true) (hok : FifosOk s) (hsp : SpectrumInv s)
    (hm : relayCount s ch = m) :
    ((pollBlocks true ch m s).spec.get ch).win
      = ((s.spec.get ch).win ++ (waitingBlocks s ch).flatten).drop (waitingBlocks s ch).flatten.length := by
  induction m generalizing s with
  | zero => simp [waitingBlocks_of_empty hm, pollBlocks]
  | succ m ih =>
    obtain ⟨blk, hwait, -, hfeed⟩ := pollBlock_pop true hok (by omega : relayCount s ch ≠ 0)
    rw [pollBlocks, ih (by rw [pollBlock_cfg]; exact hw) (fifosOk_pollBlock true ch hw hok)
      (spectrumInv_pollBlock true ch hw hsp) (by rw [pollBlock_count true ch s hok, hm]; rfl), hfeed rfl, feedBlock_win,
      shiftIn_drop _ _ _ (hsp ch).1, hwait, List.flatten_cons, drop_lem]

/-- RPOLL of a selected channel: its relay is empty, and with the spectrum enabled its window has taken the blocks. -/
theorem pollChans_selected {se : Bool} {l : List Chan} {ch : Chan} {s : State} (hl : l.Nodup) (hmem : ch ∈ l)
    (hw : s.cfg.wf = true) (hok : FifosOk s) (hsp : SpectrumInv s) :
    relayCount (l.foldl (pollChan se) s) ch = 0
      ∧ (se = true → ((l.foldl (pollChan se) s).spec.get ch).win
          = ((s.spec.get ch).win ++ (waitingBlocks s ch).flatten).drop (waitingBlocks s ch).flatten.length) := by
  obtain ⟨u, ⟨⟨hwu, hoku⟩, -, hspu⟩, hu, ht⟩ := foldl_chan_of_mem (f := pollChan se)
    (P := fun u => (u.cfg.wf = true ∧ FifosOk u) ∧ u.cfg.wf = true ∧ SpectrumInv u) (pollChan_other se)
    (fun u c ⟨hf, hs⟩ => ⟨closed_fifosOk.pollBlocks se c _ hf, closed_spectrumInv.pollBlocks se c _ hs⟩)
    hl hmem ⟨⟨hw, hok⟩, hw, hsp⟩
  refine ⟨(relayCount_congr ht).trans (pollBlocks_count hwu hoku rfl), ?_⟩
  rintro rfl
  obtain ⟨-, -, hus⟩ := State.chan_eq.mp hu
  obtain ⟨-, -, hts⟩ := State.chan_eq.mp ht
  rw [hts, ← hus, ← waitingBlocks_congr hu]
  exact pollBlocks_win hwu hoku hspu rfl

theorem SameWriter.eq_fifo {r r' : RelayCh} (h : SameWriter r r') : r' = { r with fifo := r'.fifo } := by
  obtain ⟨-, -, hstg, hidx⟩ := h
  simp only [← hstg, ← hidx]

theorem notMem_chans {c : ChanSel} {ch : Chan} (h : selects c ch = false) : ch ∉ firstChan c :: restChans c := by
  rw [mem_chans, h]; decide

/-- Settles O38: the drains of the selected channels do not meet, and each pops what waits. -/
theorem rpollDrainsRelays : Obligations.RpollDrainsRelays := by
  intro c s hw hfifo hsp
  obtain ⟨hok, -⟩ := hfifo
  have hframe := pollChans_pollFrame (specEnabled s) (firstChan c :: restChans c) s
  have hsel (ch : Chan) (h : selects c ch = true) := pollChans_selected (se := specEnabled s) (nodup_chans c)
    (mem_chans.mpr h) hw hok hsp
  refine ⟨_, rfl, endsOn_complete .rnd (ports_foldPoll _ _ s), fun ch => ⟨fun h => ?_, fun h => ?_, ?_, ?_, ?_⟩,
    fun h => ?_, fun h ch hch => ?_, ?_⟩
  · exact ⟨(hsel ch h).1, (hframe.writer ch).eq_fifo⟩
  · exact (State.chan_eq.mp (foldl_chan_of_notMem (pollChan_other _) (notMem_chans h) s)).2
  · exact (hframe.writer ch).2.1
  · exact (hframe.writer ch).1
  · exact pollChans_keeps (P := fun u => (u.spec.get ch).latest = (s.spec.get ch).latest)
      (fun u c hu => (pollBlock_latest _ c u ch).trans hu) _ rfl
  · exact pollChans_keeps (P := fun u => u.spec = s.spec) (fun u c hu => (pollBlock_disabled h c u).trans hu) _ rfl
  · exact (hsel ch hch).2 h
  · rw [hframe.frame]; rfl

/-! #### SDRAIN -/

/-- A snapshot as LATEST holds it. -/
def Spectrum.asLatest (x : Spectrum) : Latest := { valid := true, db := x.db, binw := x.binw }

/-- What SDRAIN leaves of a channel: all but the read index and LATEST. -/
def SameWindow (sp sp' : SpecCh) : Prop :=
  sp' = { sp with fifo := { sp.fifo with rd := sp'.fifo.rd }, latest := sp'.latest }

theorem SameWindow.trans {a b c : SpecCh} (h : SameWindow a b) (h' : SameWindow b c) : SameWindow a c := by
  rw [SameWindow, h', h]

theorem Fifo.pop_eq_rd {α : Type} {c : Nat} {q q' : Fifo α} {d x : α} (h : Fifo.pop c q d = some (x, q')) :
    q' = { q with rd := q'.rd } := by
  unfold Fifo.pop at h; split at h <;> cases h; rfl

theorem drainOne_sameWindow (last : Bool) (ch : Chan) (s : State) (c : Chan) :
    SameWindow (s.spec.get c) ((drainOne last ch s).spec.get c) := by
  unfold drainOne
  split
  · rfl
  · rename_i hpop
    simp only [Stereo.get_set]
    split
    case isTrue h => subst h; rw [SameWindow, ← Fifo.pop_eq_rd hpop]
    case isFalse => rfl

/-- A pop step where a snapshot waits: the oldest leaves the queue, and the last pop makes it LATEST. -/
theorem drainOne_pop {s : State} {ch : Chan} (last : Bool) (hok : FifosOk s) (h : specCount s ch ≠ 0) :
    ∃ x, waitingSpectra s ch = x :: waitingSpectra (drainOne last ch s) ch
      ∧ ((drainOne last ch s).spec.get ch).latest = if last then x.asLatest else (s.spec.get ch).latest := by
  cases hpop : Fifo.pop s.cfg.cSpec (s.spec.get ch).fifo (specSlotDraw s.cfg s.draws ch) with
  | none => exact absurd (Fifo.pop_none.mp hpop) h
  | some y =>
    obtain ⟨x, q⟩ := y
    have hcontents := Fifo.contents_pop (hok ch).2 hpop
    refine ⟨x, ?_, ?_⟩
    · simp only [waitingSpectra, drainOne, hpop, Stereo.get_set_self]
      rw [hcontents]; rfl
    · simp only [drainOne, hpop, Stereo.get_set_self]; rfl

theorem drainMany_keeps {P : State → Prop} {ch : Chan} (h : ∀ last u, P u → P (drainOne last ch u)) (m : Nat)
    {s : State} (hs : P s) : P (drainMany ch m s) := by
  induction m generalizing s with
  | zero => exact hs
  | succ m ih => exact ih (h _ s hs)

theorem drainChans_sameWindow (l : List Chan) (s : State) (ch : Chan) :
    SameWindow (s.spec.get ch) ((l.foldl drainChan s).spec.get ch) :=
  List.foldlRecOn (motive := fun u => SameWindow (s.spec.get ch) (u.spec.get ch)) l drainChan (by rfl) fun _ hu c _ =>
    drainMany_keeps (P := fun v => SameWindow (s.spec.get ch) (v.spec.get ch))
      (fun last v hv => hv.trans (drainOne_sameWindow last c v ch)) _ hu

theorem drainChan_other {ch : Chan} (s : State) (c : Chan) (h : ch ≠ c) : (drainChan s c).chan ch = s.chan ch :=
  State.chan_eq.mpr ⟨drainChan_cfg s c, by rw [drainChan_relay], drainMany_other c _ s ch h⟩

/-- As many pops as snapshots wait empty the FIFO. -/
theorem drainMany_count {ch : Chan} {m : Nat} {s : State} (hok : FifosOk s) (hm : specCount s ch = m) :
    specCount (drainMany ch m s) ch = 0 := by
  induction m generalizing s with
  | zero => exact hm
  | succ m ih => exact ih (fifosOk_drainOne _ ch hok) (by rw [drainOne_count _ ch s hok, hm]; rfl)

theorem waitingSpectra_of_empty {s : State} {ch : Chan} (h : specCount s ch = 0) : waitingSpectra s ch = [] := by
  rw [waitingSpectra, Fifo.contents_eq_nil.mpr h]; rfl

/-- As many pops as snapshots wait leave the newest in LATEST, if there was one (R231). -/
theorem drainMany_latest {ch : Chan} {m : Nat} {s : State} (hok : FifosOk s) (hm : specCount s ch = m) :
    ((drainMany ch m s).spec.get ch).latest
      = ((waitingSpectra s ch).getLast?.map Spectrum.asLatest).getD (s.spec.get ch).latest := by
  induction m generalizing s with
  | zero => rw [waitingSpectra_of_empty hm]; rfl
  | succ m ih =>
    obtain ⟨x, hwait, hlatest⟩ := drainOne_pop (m == 0) hok (by omega : specCount s ch ≠ 0)
    have hok' := fifosOk_drainOne (m == 0) ch hok
    have hm' : specCount (drainOne (m == 0) ch s) ch = m := by rw [drainOne_count _ ch s hok, hm]; rfl
    rw [drainMany, ih hok' hm', hwait, hlatest]
    generalize drainOne (m == 0) ch s = u at hok' hm'
    cases m with
    | zero => rw [waitingSpectra_of_empty hm']; rfl
    | succ n =>
      obtain ⟨y, hnext, -⟩ := drainOne_pop (n == 0) hok' (by omega : specCount u ch ≠ 0)
      rw [hnext, List.getLast?_cons_cons, List.getLast?_cons]; rfl

/-- SDRAIN of a selected channel. -/
theorem drainChans_selected {l : List Chan} {ch : Chan} {s : State} (hl : l.Nodup) (hmem : ch ∈ l)
    (hw : s.cfg.wf = true) (hok : FifosOk s) :
    specCount (l.foldl drainChan s) ch = 0
      ∧ ((l.foldl drainChan s).spec.get ch).latest
          = ((waitingSpectra s ch).getLast?.map Spectrum.asLatest).getD (s.spec.get ch).latest := by
  obtain ⟨u, ⟨-, hoku⟩, hu, ht⟩ := foldl_chan_of_mem (f := drainChan)
    (P := fun u => u.cfg.wf = true ∧ FifosOk u) drainChan_other (fun u c hf => closed_fifosOk.drainMany c _ hf)
    hl hmem ⟨hw, hok⟩
  obtain ⟨-, -, hus⟩ := State.chan_eq.mp hu
  obtain ⟨-, -, hts⟩ := State.chan_eq.mp ht
  refine ⟨(specCount_congr ht).trans (drainMany_count hoku rfl), ?_⟩
  rw [hts, ← hus, ← waitingSpectra_congr hu]
  exact drainMany_latest hoku rfl

/-- Settles O42: the drains of the selected channels do not meet, and the last pop of each writes LATEST. -/
theorem sdrainKeepsNewest : Obligations.SdrainKeepsNewest := by
  intro c s hw hfifo
  obtain ⟨hok, -⟩ := hfifo
  refine ⟨decode_sdrain c, _, rfl, endsOn_complete .rnd (ports_foldDrain _ s),
    fun ch => ⟨fun h => ?_, fun h => ?_⟩, ?_⟩
  · exact (State.chan_eq.mp (foldl_chan_of_notMem (fun u c => drainChan_other u c) (notMem_chans h) s)).2.2
  · obtain ⟨hcount, hlatest⟩ := drainChans_selected (nodup_chans c) (mem_chans.mpr h) hw hok
    refine ⟨hcount, ?_, drainChans_sameWindow _ s ch⟩
    rw [complete_spec, hlatest]
    cases (waitingSpectra s ch).getLast? <;> rfl
  · rw [drainChans_frame]; rfl

/-! ### The atomic steps -/

/-- After a channel: the next channel, at the position `pos` names, or the end of the command. -/
def chanNext (pos : Chan → List Chan → Pos) : List Chan → State → State
  | [], s => complete .rnd s
  | ch :: more, s => setPos .rnd (pos ch more) s

theorem pollNext_eq (se : Bool) (more : List Chan) (s : State) :
    pollNext se more s = chanNext (.rpollCount se) more s := by cases more <;> rfl

theorem drainNext_eq (more : List Chan) (s : State) : drainNext more s = chanNext .sdrainCount more s := by
  cases more <;> rfl

/-- A command of RND that stands at `pos ch more` before a channel takes the effect `f` of that channel in at most N + 1
steps, and goes on to the channels `more`. -/
structure StepsByChan (rest : List Move) (pos : Chan → List Chan → Pos) (f : State → Chan → State)
    (P : State → Prop) (N : Nat) : Prop where
  run_chan : ∀ ch more X, P X → ∃ n, n ≤ N ∧ ∀ k,
    Sys2Proof.core.run (1 + n + k) (atPos .rnd rest X (pos ch more) (1 + n + k))
      = Sys2Proof.core.run k (chanNext pos more (atPos .rnd rest (f X ch) .start k))
  keeps : ∀ ch X, P X → P (f X ch)

/-- The channels one after another, and the end of the command; steps that are left over change nothing. -/
theorem StepsByChan.run {rest : List Move} {pos : Chan → List Chan → Pos} {f : State → Chan → State}
    {P : State → Prop} {N : Nat} (h : StepsByChan rest pos f P N) (more : List Chan) {ch : Chan} {X : State} {k : Nat}
    (hX : P X) (hk : (more.length + 1) * (1 + N) ≤ k) :
    Sys2Proof.core.run k (atPos .rnd rest X (pos ch more) k)
      = .next (complete .rnd { (ch :: more).foldl f X with sched := rest }) := by
  obtain ⟨n, hn, hrun⟩ := h.run_chan ch more X hX
  induction more generalizing ch X k n with
  | nil =>
    rw [List.length_nil] at hk
    obtain ⟨j, rfl⟩ := Nat.exists_eq_add_of_le (show 1 + n ≤ k by omega)
    exact (hrun j).trans (run_done (p := .rnd) (X := f X ch))
  | cons c more ih =>
    rw [List.length_cons, Nat.succ_mul] at hk
    obtain ⟨j, rfl⟩ := Nat.exists_eq_add_of_le (show 1 + n ≤ k by omega)
    obtain ⟨m, hm, hnext⟩ := h.run_chan c more (f X ch) (h.keeps ch X hX)
    exact (hrun j).trans (ih (h.keeps ch X hX) (by omega) m hm hnext)

/-- RND is busy and the FIFOs are legal, under a legal configuration that stays. -/
def Draining (c : Config) (s : State) : Prop := s.rnd.busy = true ∧ s.cfg = c ∧ s.cfg.wf = true ∧ FifosOk s

theorem relayCount_le {s : State} (h : FifosOk s) (ch : Chan) : relayCount s ch ≤ s.cfg.cRelay := by
  obtain ⟨-, -, hle, -⟩ := (h ch).1; exact hle

theorem specCount_le {s : State} (h : FifosOk s) (ch : Chan) : specCount s ch ≤ s.cfg.cSpec := by
  obtain ⟨-, -, hle, -⟩ := (h ch).2; exact hle

theorem stepsByChan_rpoll (rest : List Move) (se : Bool) (c : Config) :
    StepsByChan rest (.rpollCount se) (pollChan se) (Draining c) c.cRelay where
  run_chan ch more X := by
    rintro ⟨hb, rfl, -, hok⟩
    exact ⟨relayCount X ch, relayCount_le hok ch,
      fun k => (poll_chan se ch more rest k X hb).trans (by rw [pollNext_eq])⟩
  keeps ch X := by
    rintro ⟨hb, hc, hok⟩
    exact ⟨by rw [pollChan_rnd]; exact hb, by rw [pollChan_cfg]; exact hc, closed_fifosOk.pollBlocks se ch _ hok⟩

theorem stepsByChan_sdrain (rest : List Move) (c : Config) :
    StepsByChan rest .sdrainCount drainChan (Draining c) c.cSpec where
  run_chan ch more X := by
    rintro ⟨hb, rfl, -, hok⟩
    exact ⟨specCount X ch, specCount_le hok ch,
      fun k => (drain_chan ch more rest k X hb).trans (by rw [drainNext_eq])⟩
  keeps ch X := by
    rintro ⟨hb, hc, hok⟩
    exact ⟨by rw [drainChan_rnd]; exact hb, by rw [drainChan_cfg]; exact hc, closed_fifosOk.drainMany ch _ hok⟩

/-- At most two channels are selected. -/
theorem length_restChans (c : ChanSel) : (restChans c).length ≤ 1 := by cases c <;> decide

theorem two_chans_le (c : ChanSel) (N : Nat) : ((restChans c).length + 1) * (1 + N) ≤ 2 * (1 + N) :=
  Nat.mul_le_mul_right _ (Nat.succ_le_succ (length_restChans c))

/-! The moves still to come have no part in a drain. -/

theorem pollBlock_setSched (se : Bool) (ch : Chan) (s : State) (r : List Move) :
    pollBlock se ch { s with sched := r } = { pollBlock se ch s with sched := r } := by
  simp only [pollBlock]
  split
  · rfl
  · split <;> rfl

theorem drainOne_setSched (last : Bool) (ch : Chan) (s : State) (r : List Move) :
    drainOne last ch { s with sched := r } = { drainOne last ch s with sched := r } := by
  simp only [drainOne]
  split <;> rfl

theorem pollBlocks_setSched (se : Bool) (ch : Chan) (m : Nat) (s : State) (r : List Move) :
    pollBlocks se ch m { s with sched := r } = { pollBlocks se ch m s with sched := r } := by
  induction m generalizing s with
  | zero => rfl
  | succ m ih => rw [pollBlocks, pollBlock_setSched, ih]; rfl

theorem drainMany_setSched (ch : Chan) (m : Nat) (s : State) (r : List Move) :
    drainMany ch m { s with sched := r } = { drainMany ch m s with sched := r } := by
  induction m generalizing s with
  | zero => rfl
  | succ m ih => rw [drainMany, drainOne_setSched, ih]; rfl

theorem exec_rpoll_setSched (c : ChanSel) (s : State) (r : List Move) :
    exec (.rpoll c) { s with sched := r } = .next (complete .rnd
      { (firstChan c :: restChans c).foldl (pollChan (specEnabled s)) s with sched := r }) :=
  congrArg (fun u => Host.Outcome.next (complete .rnd u))
    (List.foldl_hom (fun u : State => { u with sched := r }) fun u ch => pollBlocks_setSched _ ch (relayCount u ch) u r)

theorem exec_sdrain_setSched (c : ChanSel) (s : State) (r : List Move) :
    exec (.sdrain c) { s with sched := r } = .next (complete .rnd
      { (firstChan c :: restChans c).foldl drainChan s with sched := r }) :=
  congrArg (fun u => Host.Outcome.next (complete .rnd u))
    (List.foldl_hom (fun u : State => { u with sched := r }) fun u ch => drainMany_setSched ch (specCount u ch) u r)

/-- A port that advances from the start of a command takes its first step. -/
theorem run_start {p : Port} {i : Instr} {s t : State} {r : List Move} {k : Nat} (hs : s.sched = .advance p :: r)
    (hb : (s.portRegs p).busy = true) (hp : (s.portRegs p).pos = .start) (hd : decode (s.portRegs p).cmd p = .ok i)
    (ht : firstStep i { s with sched := r } = .next t) :
    Sys2Proof.core.run (k + 1) s = Sys2Proof.core.run k t :=
  run_adv hs (by simp [advancePort, hb, hp, fetch, hd, ht])

/-- Settles O43: the read of SPEC_EN, then the channels one after another. -/
theorem rpollStepsMakeExec : Obligations.RpollStepsMakeExec := by
  intro c s rest hw ⟨hok, _⟩ hb hp hd hs
  rw [exec_rpoll_setSched, Nat.add_comm 1]
  rw [Nat.add_comm 1, List.replicate_succ, List.cons_append] at hs
  refine (run_start (p := .rnd) hs hb hp hd rfl).trans ?_
  exact (stepsByChan_rpoll rest (specEnabled s) s.cfg).run (restChans c) ⟨hb, rfl, hw, hok⟩ (two_chans_le c _)

/-- The count step of a channel finds its command at any position. -/
theorem drainCountStep_setPos (ch : Chan) (more : List Chan) (s : State) (pos : Pos) :
    drainCountStep ch more (setPos .rnd pos s) = drainCountStep ch more s := by
  have hcount : specCount (setPos .rnd pos s) ch = specCount s ch := rfl
  rw [drainCountStep, drainCountStep, hcount]
  split
  · cases more <;> rfl
  · rfl

/-- An SDRAIN that starts is one that stands at the count step of its first channel. -/
theorem run_sdrain_start {c : ChanSel} {s : State} {rest : List Move} {k : Nat} (hb : s.rnd.busy = true)
    (hp : s.rnd.pos = .start) (hd : decode s.rnd.cmd .rnd = .ok (.sdrain c))
    (hs : s.sched = List.replicate (k + 1) (.advance .rnd) ++ rest) :
    Sys2Proof.core.run (k + 1) s
      = Sys2Proof.core.run (k + 1) (atPos .rnd rest s (.sdrainCount (firstChan c) (restChans c)) (k + 1)) := by
  have hcount : advancePort .rnd (atPos .rnd rest s (.sdrainCount (firstChan c) (restChans c)) k)
      = .next (drainCountStep (firstChan c) (restChans c)
          { s with sched := List.replicate k (.advance .rnd) ++ rest }) := by
    rw [advancePort, if_pos (atPos_busy (p := .rnd) hb), atPos_pos]
    exact congrArg Host.Outcome.next (drainCountStep_setPos _ _ _ _)
  rw [List.replicate_succ, List.cons_append] at hs
  rw [atPos_step hcount]
  exact run_start (p := .rnd) hs hb hp hd rfl

/-- Settles O44: the channels one after another. -/
theorem sdrainStepsMakeExec : Obligations.SdrainStepsMakeExec := by
  intro c s rest hw ⟨hok, _⟩ hb hp hd hs
  rw [exec_sdrain_setSched]
  have hsteps : 2 * (1 + s.cfg.cSpec) = 1 + 2 * s.cfg.cSpec + 1 := by omega
  rw [hsteps] at hs ⊢
  rw [run_sdrain_start hb hp hd hs, ← hsteps]
  exact (stepsByChan_sdrain rest s.cfg).run (restChans c) ⟨hb, rfl, hw, hok⟩ (two_chans_le c _)

end Sys2Proof.Machine

/-! Settings, transport and status (45_control.md): NOP, SETP, RDP, RDGEN and RDSTAT (R261 to R268, R274, R275), which
command writes SR and GEN (R267), the snapshot (R262 to R265), and PREPARE (R269 to R272). -/

namespace Sys2Proof.Machine

/-! ### The command words -/

/-- A word whose one operand is a PID, as the statements write it: the two fields share no bit. -/
theorem packWord_pid (opc pid : BitVec 8) :
    packWord opc 0#2 pid 0#8 = (opc.zeroExtend 32 <<< 24) ||| (pid.zeroExtend 32 <<< 8) := by
  apply BitVec.eq_of_getLsbD_eq
  intro i hi
  simp only [packWord, BitVec.getLsbD_append, BitVec.getLsbD_or, BitVec.getLsbD_shiftLeft, BitVec.getLsbD_zero,
    BitVec.getLsbD_setWidth]
  grind

theorem decode_setp (pid : BitVec 8) : decode (0x10000000#32 ||| (pid.zeroExtend 32 <<< 8)) .ctl = .ok (.setp pid) :=
  decode_of_encode (i := .setp pid) (packWord_pid 0x10#8 pid) rfl

theorem decode_rdp (pid : BitVec 8) : decode (0x11000000#32 ||| (pid.zeroExtend 32 <<< 8)) .ctl = .ok (.rdp pid) :=
  decode_of_encode (i := .rdp pid) (packWord_pid 0x11#8 pid) rfl

theorem decode_rdgen {p : Port} (h : p ≠ .aud) : decode 0x24000000#32 p = .ok (.rdgen p) :=
  decode_of_encode (i := .rdgen p) rfl (decide_eq_true h)

/-! ### The settings and status commands -/

/-- Settles O14: word 0 is not turned away by HALTED, and NOP is `complete` alone. -/
theorem nopOnlyCompletes : Obligations.NopOnlyCompletes := by
  intro p s
  refine ⟨decode_of_encode (i := .nop p) rfl rfl, fun hb rest hs => ⟨_, step_writeCmd hs hb, ?_⟩,
    _, rfl, endsOn_complete p fun _ => rfl, setPort_eq s p _⟩
  rw [portRegs_setPort_self, if_pos (.inr (.inl rfl))]

theorem exec_setp_none {pid : BitVec 8} (h : Pid.ofByte? pid = none) (s : State) :
    exec (.setp pid) s = .next (raise .badPid .ctl s) := by
  simp [exec, execSetp, h]

theorem exec_setp_some {pid : BitVec 8} {r : Pid} (h : Pid.ofByte? pid = some r) (s : State) :
    exec (.setp pid) s
      = .next (complete .ctl { s with sr := s.sr.set r (valueArg s), gen := s.gen + 1#32 }) := by
  simp [exec, execSetp, h]

/-- Settles O15: a PID up to 0x0A names a register, and a larger one none. -/
theorem setpWritesRegisterAndCounts : Obligations.SetpWritesRegisterAndCounts := by
  intro pid s
  refine ⟨decode_setp pid, fun h => ?_,
    fun h => ⟨_, exec_setp_none (Pid.ofByte_none h) s, faultsWith_raise .badPid .ctl s⟩⟩
  obtain ⟨r, hr, hset, -⟩ := Pid.ofByte_some h
  refine ⟨_, exec_setp_some hr s, endsOn_complete .ctl (same_ports rfl rfl rfl), ?_, BitVec.toNat_add _ _, rfl⟩
  rw [complete_sr, hset, valueArg_eq]

/-- Settles O16: RDP completes with the register the PID names, or records that it names none. -/
theorem rdpReturnsStoredValue : Obligations.RdpReturnsStoredValue := by
  intro pid s
  refine ⟨decode_rdp pid, fun h => ?_,
    fun h => ⟨_, exec_rdp_none (Pid.ofByte_none h) s, faultsWith_raise .badPid .ctl s⟩⟩
  obtain ⟨r, hr, -, hget⟩ := Pid.ofByte_some h
  exact ⟨_, _, exec_rdp_some hr s, hget s.sr, endsWith_completeWith _ _ _, rfl⟩

/-- Settles O17: RDGEN completes with GEN. -/
theorem rdgenReturnsGeneration : Obligations.RdgenReturnsGeneration := fun p s =>
  ⟨decode_rdgen, _, rfl, endsWith_completeWith p _ s, setPort_eq s p _⟩

/-- The status word bit by bit (R274). -/
theorem getLsbD_statusWord (halted prepared : Bool) (first fstat : U32) (i : Nat) :
    (statusWord halted prepared first fstat).getLsbD i =
      if i ≤ 8 then fstat.getLsbD i
      else if 16 ≤ i ∧ i ≤ 19 then first.getLsbD (i - 16)
      else if i = 30 then prepared else if i = 31 then halted else false := by
  simp only [statusWord, BitVec.getLsbD_append, BitVec.getLsbD_extractLsb', BitVec.getLsbD_ofBool, BitVec.getLsbD_zero,
    Nat.sub_sub, Nat.zero_add]
  split_ifs <;> simp_all <;> omega

/-- Settles O18: RDSTAT completes with the status word, whose top half is zero. -/
theorem rdstatLaysOutStatus : Obligations.RdstatLaysOutStatus := by
  intro p s
  refine ⟨decode_of_encode (i := .rdstat p) rfl rfl, _, _, rfl, endsWith_completeWith p _ s, fun i => ?_,
    setPort_eq s p _⟩
  rw [← getLsbD_statusWord, BitVec.getLsbD_setWidth]
  simpa using fun h => (BitVec.lt_of_getLsbD h).trans (by omega)

/-! ### Who writes SR and GEN -/

/-- SR and GEN are as they were. -/
structure SameSettings (s t : State) : Prop where
  sr : t.sr = s.sr
  gen : t.gen = s.gen

namespace SameSettings

variable {s t : State} {p : Port}

theorem setPort {r : PortRegs} (h : SameSettings s t) : SameSettings s (t.setPort p r) :=
  ⟨(setPort_sr t p r).trans h.sr, (setPort_gen t p r).trans h.gen⟩

theorem complete (h : SameSettings s t) : SameSettings s (complete p t) := h.setPort

theorem setPos {pos : Pos} (h : SameSettings s t) : SameSettings s (setPos p pos t) := h.setPort

theorem completeWith (p : Port) (v : U64) (s : State) : SameSettings s (completeWith p v s) :=
  ⟨completeWith_sr p v s, completeWith_gen p v s⟩

theorem raise {c : Cause} (h : SameSettings s t) : SameSettings s (raise c p t) :=
  ⟨(raise_sr c p t).trans h.sr, (raise_gen c p t).trans h.gen⟩

theorem prepareGlobal (s : State) : SameSettings s (prepareGlobal s) := by
  unfold Machine.prepareGlobal
  split
  · exact raise ⟨rfl, rfl⟩
  · exact complete ⟨by simp, by simp⟩

theorem pollBlock (se : Bool) (ch : Chan) (s : State) : SameSettings s (pollBlock se ch s) :=
  ⟨pollBlock_sr se ch s, pollBlock_gen se ch s⟩

theorem drainOne (last : Bool) (ch : Chan) (s : State) : SameSettings s (drainOne last ch s) :=
  ⟨drainOne_sr last ch s, drainOne_gen last ch s⟩

theorem pollNext (h : SameSettings s t) (se : Bool) (rest : List Chan) : SameSettings s (pollNext se rest t) := by
  cases rest with
  | nil => exact h.complete
  | cons ch more => exact h.setPos

theorem drainNext (h : SameSettings s t) (rest : List Chan) : SameSettings s (drainNext rest t) := by
  cases rest with
  | nil => exact h.complete
  | cons ch more => exact h.setPos

theorem pollCountStep (se : Bool) (ch : Chan) (rest : List Chan) (s : State) :
    SameSettings s (pollCountStep se ch rest s) := by
  unfold Machine.pollCountStep
  split
  · exact pollNext ⟨rfl, rfl⟩ _ _
  · exact setPos ⟨rfl, rfl⟩

theorem drainCountStep (ch : Chan) (rest : List Chan) (s : State) : SameSettings s (drainCountStep ch rest s) := by
  unfold Machine.drainCountStep
  split
  · exact drainNext ⟨rfl, rfl⟩ _
  · exact setPos ⟨rfl, rfl⟩

theorem pollPopStep (se : Bool) (ch : Chan) (more : Nat) (rest : List Chan) (s : State) :
    SameSettings s (pollPopStep se ch more rest s) := by
  cases more with
  | zero => exact (pollBlock se ch s).pollNext se rest
  | succ m => exact (pollBlock se ch s).setPos

theorem drainPopStep (ch : Chan) (more : Nat) (rest : List Chan) (s : State) :
    SameSettings s (drainPopStep ch more rest s) := by
  cases more with
  | zero => exact (drainOne true ch s).drainNext rest
  | succ m => exact (drainOne false ch s).setPos

theorem prepareFirst (s : State) : SameSettings s (prepareFirst s) := by
  unfold Machine.prepareFirst
  split
  · exact raise ⟨rfl, rfl⟩
  · exact setPos ⟨rfl, rfl⟩

theorem prepareHeld (s : State) : SameSettings s (prepareHeld s) := by
  unfold Machine.prepareHeld
  split
  · exact ⟨rfl, rfl⟩
  · exact prepareGlobal s

theorem processFirst (s : State) : SameSettings s (processFirst s) := by
  unfold Machine.processFirst
  split
  · exact raise ⟨rfl, rfl⟩
  · exact setPos ⟨rfl, rfl⟩

theorem processCoef (s : State) : SameSettings s (processCoef s) := by
  unfold Machine.processCoef
  split
  · exact raise ⟨rfl, rfl⟩
  · exact setPos ⟨rfl, rfl⟩

theorem processRelay (ch : Chan) (s : State) : SameSettings s (processRelay ch s) := by
  cases ch with
  | left => exact setPos ⟨rfl, rfl⟩
  | right => exact complete ⟨rfl, rfl⟩

end SameSettings

theorem exec_read_sameSettings {i : Instr} {s t : State} (hi : isRead i = true) (h : exec i s = .next t) :
    SameSettings s t := by
  obtain ⟨u, hdone, hexec, -⟩ := exec_read hi s
  rw [hexec] at h
  cases h
  cases hdone with
  | value v h => subst h; exact .completeWith _ _ _
  | fault c _ h => subst h; exact .raise ⟨rfl, rfl⟩

/-- Every command but SETP leaves SR and GEN alone (R267). -/
theorem exec_sameSettings {i : Instr} {s t : State} (h : exec i s = .next t) (hi : ∀ pid, i ≠ .setp pid) :
    SameSettings s t := by
  cases i with
  | setp pid => exact absurd rfl (hi pid)
  | nop p => cases h; exact .complete ⟨rfl, rfl⟩
  | prepare =>
    simp only [exec, execPrepare] at h
    split at h
    · cases h; exact .raise ⟨rfl, rfl⟩
    · split at h <;> cases h
      · exact .setPos ⟨rfl, rfl⟩
      · exact .prepareGlobal s
  | process =>
    simp only [exec, execProcess] at h
    split at h
    · cases h; exact .raise ⟨rfl, rfl⟩
    · split at h <;> cases h
      · exact .raise ⟨rfl, rfl⟩
      · exact .complete ⟨processBody_sr _ _, processBody_gen _ _⟩
  | rpoll c =>
    cases h
    refine .complete ?_
    rw [(pollChans_pollFrame _ _ s).frame]; exact ⟨rfl, rfl⟩
  | sdrain c =>
    cases h
    refine .complete ?_
    rw [drainChans_frame]; exact ⟨rfl, rfl⟩
  | rdp pid | rdbin c | rdmeta c sel | rdgen p | rdocc c sel | rdstat p =>
    exact exec_read_sameSettings rfl h

/-- A step leaves SR and GEN alone, or is one SETP of CTL that writes them. -/
def SettingsStep (s t : State) : Prop :=
  SameSettings s t
    ∨ ∃ pid : BitVec 8, pid.toNat ≤ 10 ∧ (s.ctl.busy = true ∧ s.ctl.pos = .start)
      ∧ decode s.ctl.cmd .ctl = .ok (.setp pid) ∧ t.gen = s.gen + 1#32
      ∧ srList t.sr = (srList s.sr).set pid.toNat (s.ctl.arg0.truncate 32)

theorem SettingsStep.of_sched {s t : State} {r : List Move} (h : SettingsStep { s with sched := r } t) :
    SettingsStep s t :=
  h.imp_left fun ⟨hsr, hgen⟩ => ⟨hsr, hgen⟩

theorem settingsStep_setp {pid : BitVec 8} {s t : State} (hb : s.ctl.busy = true) (hp : s.ctl.pos = .start)
    (hd : decode s.ctl.cmd .ctl = .ok (.setp pid)) (h : exec (.setp pid) s = .next t) : SettingsStep s t := by
  by_cases hpid : pid.toNat ≤ 10
  · obtain ⟨r, hr, hset, -⟩ := Pid.ofByte_some hpid
    rw [exec_setp_some hr] at h
    cases h
    exact .inr ⟨pid, hpid, ⟨hb, hp⟩, hd, complete_gen _ _, by rw [complete_sr, hset, valueArg_eq]⟩
  · rw [exec_setp_none (Pid.ofByte_none (Nat.not_le.mp hpid))] at h
    cases h
    exact .inl (.raise ⟨rfl, rfl⟩)

theorem settingsStep_exec {p : Port} {i : Instr} {s t : State} (hb : (s.portRegs p).busy = true)
    (hp : (s.portRegs p).pos = .start) (hd : decode (s.portRegs p).cmd p = .ok i) (h : exec i s = .next t) :
    SettingsStep s t := by
  by_cases hi : ∃ pid, i = .setp pid
  · obtain ⟨pid, rfl⟩ := hi
    obtain rfl : Port.ctl = p := decode_port hd
    exact settingsStep_setp hb hp hd h
  · exact .inl (exec_sameSettings h fun pid e => hi ⟨pid, e⟩)

/-- A command of more than one step is no SETP. -/
theorem settingsStep_firstStep {p : Port} {i : Instr} {s t : State} (hb : (s.portRegs p).busy = true)
    (hp : (s.portRegs p).pos = .start) (hd : decode (s.portRegs p).cmd p = .ok i) (h : firstStep i s = .next t) :
    SettingsStep s t := by
  cases i with
  | prepare => cases h; exact .inl (.prepareFirst s)
  | process => cases h; exact .inl (.processFirst s)
  | rpoll c => cases h; exact .inl (.setPos ⟨rfl, rfl⟩)
  | sdrain c => cases h; exact .inl (.drainCountStep _ _ s)
  | _ => exact settingsStep_exec hb hp hd h

/-- Every way of moving but hardware reset. -/
theorem moved_settingsStep {m : Option Move} {s t : State} (hm : m ≠ some .hwReset) (h : Moved m s t) :
    SettingsStep s t := by
  cases h with
  | reset hr _ => exact absurd hr hm
  | whole p i hb hp hd h => exact settingsStep_exec hb hp hd h
  | first p i hb hp hd h => exact settingsStep_firstStep hb hp hd h
  | idle h => subst h; exact .inl ⟨rfl, rfl⟩
  | regs p r _ _ _ h => subst h; exact .inl (.setPort ⟨rfl, rfl⟩)
  | issue p w _ h => subst h; exact .inl (.setPort ⟨rfl, rfl⟩)
  | host ch j v _ _ h => subst h; exact .inl ⟨rfl, rfl⟩
  | illegal p r _ _ _ h => subst h; exact .inl (.raise ⟨rfl, rfl⟩)
  | held p _ _ h => subst h; exact .inl (.prepareHeld s)
  | snap p pid _ _ h => subst h; exact .inl (.setPos ⟨rfl, rfl⟩)
  | coef p _ _ h => subst h; exact .inl (.processCoef s)
  | filt p _ _ h => subst h; exact .inl (.setPos ⟨rfl, rfl⟩)
  | relay p ch _ _ h => subst h; exact .inl (.processRelay ch s)
  | pollCount p se ch rest _ _ h => subst h; exact .inl (.pollCountStep se ch rest s)
  | pollPop p se ch more rest _ _ h => subst h; exact .inl (.pollPopStep se ch more rest s)
  | drainCount p ch rest _ _ h => subst h; exact .inl (.drainCountStep ch rest s)
  | drainPop p ch more rest _ _ h => subst h; exact .inl (.drainPopStep ch more rest s)

/-- Settles O20: of the ways of moving only hardware reset and SETP write SR or GEN. -/
theorem onlySetpChangesSettings : Obligations.OnlySetpChangesSettings := by
  intro s t h hreset
  have hset : SettingsStep s t := by
    rcases moved_of_step h with ⟨-, hm⟩ | ⟨m, rest, hs, hm⟩
    · exact moved_settingsStep (by simp) hm
    · have hne : some m ≠ some .hwReset := fun e => hreset rest (Option.some.inj e ▸ hs)
      exact (moved_settingsStep hne hm).of_sched
  exact hset.imp_left fun h => ⟨h.sr, h.gen⟩

/-! ### The snapshot -/

/-- A value clamped to bounds that are numbers in order (00_scope.md R11). -/
theorem clampedTo_clamp32 {e : FpEnv} {lo hi : B32} (raw : B32) (hlo : isNan32 lo = false) (hhi : isNan32 hi = false)
    (hb : lt32 e hi lo = false) : ClampedTo e lo hi raw (clamp32 e raw lo hi) := by
  cases hn : isNan32 raw with
  | true =>
    have hh : lt32 e hi raw = false := lt32_of_isNan_right e hn
    simp [ClampedTo, clamp32, hn, hh, hlo, hb, lt32_irrefl]
  | false =>
    cases hl : lt32 e raw lo with
    | true =>
      have hh : lt32 e hi raw = false :=
        eq_false_of_ne_true fun hh => ne_true_of_eq_false hb (lt32_trans e hh hl)
      simp [ClampedTo, clamp32, hn, hl, hh, hlo, hb, lt32_irrefl]
    | false => cases hh : lt32 e hi raw <;> simp [ClampedTo, clamp32, hn, hl, hh, hhi, hb, lt32_irrefl]

/-- A comparison depends on the flush mode alone. -/
theorem lt32_eq_false_of_ftz {a b : B32} (h : ∀ ftz, lt32 ⟨ftz, 0⟩ a b = false) (e : FpEnv) :
    lt32 e a b = false :=
  h e.ftz

theorem clampedTo_freq (e : FpEnv) (raw : B32) : ClampedTo e freqLo freqHi raw (clamp32 e raw freqLo freqHi) :=
  clampedTo_clamp32 raw (by decide) (by decide) (lt32_eq_false_of_ftz (by decide) e)

theorem clampedTo_gain (e : FpEnv) (raw : B32) : ClampedTo e gainLo gainHi raw (clamp32 e raw gainLo gainHi) :=
  clampedTo_clamp32 raw (by decide) (by decide) (lt32_eq_false_of_ftz (by decide) e)

theorem clampedTo_q (e : FpEnv) (raw : B32) : ClampedTo e qLo qHi raw (clamp32 e raw qLo qHi) :=
  clampedTo_clamp32 raw (by decide) (by decide) (lt32_eq_false_of_ftz (by decide) e)

theorem selector_val (r : U32) : (selector r).val = min r.toNat 3 := by
  unfold selector
  split_ifs with h0 h1 h2
  · subst h0; rfl
  · subst h1; rfl
  · subst h2; rfl
  · have h3 : 3 ≤ r.toNat := by bv_omega
    rw [min_eq_right h3]; rfl

/-- Settles O21: each field is one read, which clamps as R263 to R265 say. -/
theorem snapshotClampsEveryField : Obligations.SnapshotClampsEveryField := fun s =>
  ⟨clampedTo_freq s.env _, clampedTo_gain s.env _, clampedTo_q s.env _, clampedTo_freq s.env _,
    clampedTo_freq s.env _, selector_val _, selector_val _, rfl, rfl, rfl, rfl, rfl⟩

/-! ### The outcomes of PREPARE -/

/-- A check that fails ends PREPARE in its fault. -/
theorem exec_prepare_of_check {s : State} {c : Cause} (h : prepareCheck s = some c) :
    exec .prepare s = .next (raise c .aud s) := by
  rw [exec, execPrepare, h]

/-- Past its checks PREPARE holds while RND is busy (R271). -/
theorem exec_prepare_of_busy {s : State} (h : prepareCheck s = none) (hb : s.rnd.busy = true) :
    exec .prepare s = .next (setPos .aud .prepHold s) := by
  rw [exec, execPrepare, h]; exact if_pos hb

/-- Otherwise it takes its global step (R270). -/
theorem exec_prepare_of_idle {s : State} (h : prepareCheck s = none) (hb : s.rnd.busy = false) :
    exec .prepare s = .next (prepareGlobal s) := by
  rw [exec, execPrepare, h]; exact if_neg (by simp [hb])

theorem prepareCheck_badRate {s : State} (h : badRate s.aud.arg0 = true) : prepareCheck s = some .badRate := if_pos h

theorem prepareCheck_of_goodRate {s : State} (h : badRate s.aud.arg0 = false) :
    prepareCheck s = if badMaxBlock s.cfg s.aud.arg1.toNat then some .badMaxBlock else none :=
  if_neg (by simp [rateArg, h])

theorem prepareCheck_none {s : State} (hr : badRate s.aud.arg0 = false) (h1 : 1 ≤ s.aud.arg1.toNat)
    (h2 : s.aud.arg1.toNat ≤ s.cfg.maxBlkCap) : prepareCheck s = none := by
  rw [prepareCheck_of_goodRate hr, badMaxBlock_eq_false.mpr ⟨h1, h2⟩]; rfl

theorem badRate_eq_false {fs : B64} : badRate fs = false ↔ isFinite64 fs = true ∧ lt64 0#64 fs = true := by
  simp [badRate]

theorem badRate_eq_true {fs : B64} : badRate fs = true ↔ isFinite64 fs = false ∨ lt64 0#64 fs = false := by
  simp [badRate]

/-- Settles O25: the rate is checked first. -/
theorem prepareRejectsBadArguments : Obligations.PrepareRejectsBadArguments := by
  intro s
  refine ⟨fun h => ?_, fun h1 h2 hm => ?_⟩
  · have hcheck := prepareCheck_badRate (badRate_eq_true.mpr h)
    exact ⟨_, exec_prepare_of_check hcheck, faultsWith_raise .badRate .aud s⟩
  · have hbad : badMaxBlock s.cfg s.aud.arg1.toNat = true := by
      rcases hm with h0 | hcap
      · simp [badMaxBlock, h0]
      · simp [badMaxBlock, hcap]
    have hcheck := prepareCheck_of_goodRate (badRate_eq_false.mpr ⟨h1, h2⟩)
    rw [hbad, if_pos rfl] at hcheck
    exact ⟨_, exec_prepare_of_check hcheck, faultsWith_raise .badMaxBlock .aud s⟩

/-! ### The hold and the global step -/

theorem advancePort_prepHold {s : State} (hb : s.aud.busy = true) (hp : s.aud.pos = .prepHold) :
    advancePort .aud s = .next (prepareHeld s) := by
  simp [advancePort, State.portRegs, hb, hp]

theorem prepareHeld_busy {s : State} (h : s.rnd.busy = true) : prepareHeld s = s := if_pos h

/-- With RND idle PREPARE and its held step take the same global step. -/
theorem exec_prepare_eq_prepareHeld {s : State} (h : prepareCheck s = none) (hb : s.rnd.busy = false) :
    exec .prepare s = .next (prepareHeld s) := by
  rw [exec_prepare_of_idle h hb, prepareHeld, if_neg (by simp [hb])]

/-- Settles O26: past the check both the command and its held step test RND. -/
theorem prepareHoldsForRnd : Obligations.PrepareHoldsForRnd := by
  refine ⟨fun s hf hpos h1 h2 hr => ?_, fun s rest hb hp hs => ?_⟩
  · exact exec_prepare_of_busy (prepareCheck_none (badRate_eq_false.mpr ⟨hf, hpos⟩) h1 h2) hr
  · have hstep : step s = .next (prepareHeld { s with sched := rest }) := by
      rw [step_of_sched hs]; exact advancePort_prepHold hb hp
    refine ⟨fun hr => ?_, fun hr hc => ?_⟩
    · exact hstep.trans (congrArg _ (prepareHeld_busy hr))
    · exact hstep.trans (exec_prepare_eq_prepareHeld (s := { s with sched := rest }) hc hr).symm

/-- The state the global step leaves where it does not fault. -/
def prepareDone (s : State) : State :=
  complete .aud (prepareWrites (rateArg s) (maxBlockArg s) (coefStep (rateArg s) (takeSnapshot s)))

/-- Where the coefficient step faults, PREPARE only records that. -/
theorem prepareGlobal_of_coefFaults {s : State} (h : coefFaults (rateArg s) (takeSnapshot s) = true) :
    prepareGlobal s = raise .degenerateCoeff .aud s := if_pos h

theorem prepareGlobal_of_not_coefFaults {s : State} (h : ¬ coefFaults (rateArg s) (takeSnapshot s) = true) :
    prepareGlobal s = prepareDone s := if_neg h

theorem prepareDone_cfg (s : State) : (prepareDone s).cfg = s.cfg := by simp [prepareDone]
theorem prepareDone_sr (s : State) : (prepareDone s).sr = s.sr := by simp [prepareDone]
theorem prepareDone_snap (s : State) : (prepareDone s).snap = (takeSnapshot s).snap := complete_snap _ _
theorem prepareDone_bank (s : State) :
    (prepareDone s).bank = (coefStep (rateArg s) (takeSnapshot s)).bank := complete_bank _ _
theorem prepareDone_relay (s : State) :
    (prepareDone s).relay = ⟨clearRelay s.relay.left, clearRelay s.relay.right⟩ := complete_relay _ _
theorem prepareDone_spec (s : State) :
    (prepareDone s).spec = ⟨clearSpec s.cfg s.spec.left, clearSpec s.cfg s.spec.right⟩ := complete_spec _ _
theorem prepareDone_draws (s : State) : (prepareDone s).draws = s.draws := by simp [prepareDone]
theorem prepareDone_aud (s : State) : (prepareDone s).aud = { s.aud with busy := false, pos := .start } :=
  complete_portRegs_self .aud _

theorem prepareDone_env (s : State) : (prepareDone s).env = s.env := by
  rw [State.env, prepareDone_cfg, prepareDone_draws, State.env]

theorem rateArg_prepareDone (s : State) : rateArg (prepareDone s) = rateArg s := by
  rw [rateArg, prepareDone_aud, rateArg]

theorem maxBlockArg_prepareDone (s : State) : maxBlockArg (prepareDone s) = maxBlockArg s := by
  rw [maxBlockArg, prepareDone_aud, maxBlockArg]

theorem endsOn_prepareDone (s : State) : EndsOn .aud s (prepareDone s) :=
  endsOn_complete .aud (same_ports (by simp) (by simp) (by simp))

/-- Nothing differs but what the global step writes. -/
theorem complete_prepareWrites_frame (fs : B64) (m : Nat) (s : State) (sn : Snap) (b : Bank) :
    let t := complete .aud (prepareWrites fs m { s with snap := sn, bank := b })
    t = { s with fs := t.fs, maxblk := t.maxblk, prepared := t.prepared, snap := t.snap, bank := t.bank,
                 hist := t.hist, relay := t.relay, spec := t.spec, aud := t.aud } := rfl

/-- Settles O24: the global step faults in its coefficient step, or makes all its writes. -/
theorem prepareTakesItsGlobalStep : Obligations.PrepareTakesItsGlobalStep := by
  intro s hf hpos h1 h2 hr
  have hexec := exec_prepare_of_idle (prepareCheck_none (badRate_eq_false.mpr ⟨hf, hpos⟩) h1 h2) hr
  have hfaults := coefFaults_iff s.aud.arg0 (takeSnapshot s)
  refine ⟨_, hexec, ?_⟩
  split
  case isTrue h =>
    rw [prepareGlobal_of_coefFaults (hfaults.mpr h)]
    exact faultsWith_raise .degenerateCoeff .aud s
  case isFalse h =>
    rw [prepareGlobal_of_not_coefFaults (mt hfaults.mp h)]
    refine ⟨endsOn_prepareDone s, complete_fs _ _, complete_maxblk _ _, complete_prepared _ _, prepareDone_snap s,
      prepareDone_bank s, complete_hist _ _, fun ch => ?_, fun ch => ?_, complete_prepareWrites_frame _ _ s _ _⟩
    · rw [relayCount, prepareDone_relay]
      cases ch <;> exact ⟨rfl, Fifo.count_clear _ _, rfl, rfl⟩
    · rw [prepareDone_spec]
      cases ch <;> exact ⟨rfl, rfl, rfl, rfl, rfl⟩

/-! ### PREPARE again -/

/-- PREPARE leaves its arguments and RND alone, so it comes to the same tests again. -/
theorem exec_prepare_check {s t : State} (h : exec .prepare s = .next t) :
    prepareCheck t = prepareCheck s ∧ t.rnd = s.rnd := by
  obtain ⟨hkeep, -, h0, h1⟩ := exec_ports h
  exact ⟨prepareCheck_congr (exec_cfg h) h0 h1, hkeep .rnd (by decide)⟩

theorem coefFaults_congr (fs : B64) {s t : State} (hc : t.cfg = s.cfg) (hsnap : t.snap = s.snap) :
    coefFaults fs t = coefFaults fs s := by
  rw [coefFaults, coefFaults, hc, hsnap]

theorem coefFaults_raise (c : Cause) (s : State) :
    coefFaults (rateArg (raise c .aud s)) (takeSnapshot (raise c .aud s))
      = coefFaults (rateArg s) (takeSnapshot s) := by
  have hrate : rateArg (raise c .aud s) = rateArg s := rfl
  rw [hrate, takeSnapshot_raise]; exact coefFaults_congr _ (raise_cfg _ _ _) (raise_snap _ _ _)

/-- A snapshot overwrites every field, whatever SNAP held. -/
theorem foldl_readField (e : FpEnv) (r : Settings) (sn sn' : Snap) :
    Pid.all.foldl (Snap.readField e r) sn = Pid.all.foldl (Snap.readField e r) sn' := rfl

/-- After the global step SNAP is the snapshot of the settings. -/
theorem takeSnapshot_prepareDone (s : State) : takeSnapshot (prepareDone s) = prepareDone s := by
  have hsnap : Pid.all.foldl (Snap.readField (prepareDone s).env (prepareDone s).sr) (prepareDone s).snap
      = (prepareDone s).snap := by
    rw [prepareDone_env, prepareDone_sr, prepareDone_snap]; exact foldl_readField _ _ _ _
  rw [takeSnapshot, hsnap]

/-- After the global step the bank holds the sets of SNAP. -/
theorem coefStep_prepareDone (s : State) : coefStep (rateArg s) (prepareDone s) = prepareDone s := by
  have hbank : installBank (designEnv (prepareDone s).cfg) (prepareDone s).cfg (rateArg s) (prepareDone s).snap
      (prepareDone s).bank = (prepareDone s).bank := by
    rw [prepareDone_cfg, prepareDone_snap, prepareDone_bank]; exact installBank_idem _ _ _ _ _
  rw [coefStep, hbank]

theorem complete_prepareWrites_idem (fs : B64) (m : Nat) (s : State) :
    complete .aud (prepareWrites fs m (complete .aud (prepareWrites fs m s)))
      = complete .aud (prepareWrites fs m s) := rfl

theorem prepareDone_prepareDone (s : State) : prepareDone (prepareDone s) = prepareDone s := by
  generalize hu : prepareDone s = u
  rw [prepareDone, ← hu, rateArg_prepareDone, maxBlockArg_prepareDone, takeSnapshot_prepareDone, coefStep_prepareDone]
  exact complete_prepareWrites_idem _ _ _

theorem prepareGlobal_prepareGlobal (s : State) : prepareGlobal (prepareGlobal s) = prepareGlobal s := by
  by_cases hf : coefFaults (rateArg s) (takeSnapshot s) = true
  · rw [prepareGlobal_of_coefFaults hf, prepareGlobal_of_coefFaults ((coefFaults_raise _ s).trans hf), raise_raise]
  · have hf' : ¬ coefFaults (rateArg (prepareDone s)) (takeSnapshot (prepareDone s)) = true := by
      rwa [takeSnapshot_prepareDone, rateArg_prepareDone,
        coefFaults_congr _ (s := takeSnapshot s) (prepareDone_cfg s) (prepareDone_snap s)]
    rw [prepareGlobal_of_not_coefFaults hf, prepareGlobal_of_not_coefFaults hf', prepareDone_prepareDone]

/-- Settles O27: both PREPAREs end in the same way, and each way leaves what it finds the second time. -/
theorem prepareTwiceIsOnce : Obligations.PrepareTwiceIsOnce := by
  intro s t h
  obtain ⟨hcheck, hrnd⟩ := exec_prepare_check h
  cases hc : prepareCheck s with
  | some c =>
    rw [exec_prepare_of_check hc] at h
    cases h
    rw [exec_prepare_of_check (hcheck.trans hc), raise_raise]
  | none =>
    cases hb : s.rnd.busy with
    | true =>
      rw [exec_prepare_of_busy hc hb] at h
      cases h
      exact exec_prepare_of_busy (hcheck.trans hc) hb
    | false =>
      rw [exec_prepare_of_idle hc hb] at h
      cases h
      rw [exec_prepare_of_idle (hcheck.trans hc) (hrnd ▸ hb), prepareGlobal_prepareGlobal]

end Sys2Proof.Machine

/-! The fault record outlives every command (60_exceptions.md R296, R297). -/

namespace Sys2Proof.Machine

/-- `t` holds every fault bit of `s`, the FIRST of `s` where it is set, and HALTED where `s` has it. -/
structure FaultRecordKept (s t : State) : Prop where
  fstat : ∀ i, s.fstat.getLsbD i = true → t.fstat.getLsbD i = true
  first : s.first ≠ 0#32 → t.first = s.first
  halted : s.halted = true → t.halted = true

theorem FaultRecordKept.refl (s : State) : FaultRecordKept s s := ⟨fun _ => id, fun _ => rfl, id⟩

theorem FaultRecordKept.congr {s t u : State} (h : FaultRecordKept s t) (hfstat : u.fstat = t.fstat)
    (hfirst : u.first = t.first) (hhalted : u.halted = t.halted) : FaultRecordKept s u where
  fstat i hi := hfstat ▸ h.fstat i hi
  first h0 := hfirst.trans (h.first h0)
  halted hh := hhalted.trans (h.halted hh)

/-- A fault only adds to the record: it ORs its bit in, and writes FIRST where that is still 0. -/
theorem FaultRecordKept.raise {s t : State} (h : FaultRecordKept s t) (c : Cause) (p : Port) :
    FaultRecordKept s (raise c p t) where
  fstat i hi := by rw [raise_fstat, BitVec.getLsbD_or, h.fstat i hi, Bool.true_or]
  first h0 := by rw [raise_first, h.first h0, if_neg h0]
  halted hh := by rw [raise_halted, h.halted hh, Bool.true_or]

/-- Of the updates a command is made of only `raise` writes the record. -/
theorem closed_faultRecordKept (s : State) : Closed (FaultRecordKept s) (fun _ _ => True) (fun _ _ _ => True) where
  port _ _ _ h := h.congr (setPort_fstat _ _ _) (setPort_first _ _ _) (setPort_halted _ _ _)
  fault _ c p h _ := h.raise c p
  snap _ _ h := h.congr rfl rfl rfl
  coef _ _ h := h.congr rfl rfl rfl
  set _ _ _ h := h.congr rfl rfl rfl
  filt _ _ h _ := h.congr rfl rfl rfl
  relay _ _ _ h _ := h.congr rfl rfl rfl
  prep _ _ _ h _ := h.congr rfl rfl rfl
  poll _ _ _ h := h.congr (pollBlock_fstat _ _ _) (pollBlock_first _ _ _) (pollBlock_halted _ _ _)
  drain _ _ _ h := h.congr (drainOne_fstat _ _ _) (drainOne_first _ _ _) (drainOne_halted _ _ _)
  host _ _ _ _ h _ := h.congr rfl rfl rfl

/-- Every way of moving but hardware reset. -/
theorem moved_faultRecordKept {m : Option Move} {s t u : State} (hm : m ≠ some .hwReset) (h : Moved m t u)
    (hs : FaultRecordKept s t) : FaultRecordKept s u :=
  (closed_faultRecordKept s).moved hs (fun _ => trivial) (fun _ => trivial) (fun hr => absurd hr hm) h

/-- Settles O48: every way of moving but hardware reset keeps the record, and taking a move off the list leaves it
alone. -/
theorem faultRecordIsSticky : Obligations.FaultRecordIsSticky := by
  intro s t h hreset
  have hkept : FaultRecordKept s t := by
    rcases moved_of_step h with ⟨-, hm⟩ | ⟨m, rest, hs, hm⟩
    · exact moved_faultRecordKept (by simp) hm (.refl s)
    · have hne : some m ≠ some .hwReset := fun e => hreset rest (Option.some.inj e ▸ hs)
      exact moved_faultRecordKept hne hm ((FaultRecordKept.refl s).congr rfl rfl rfl)
  exact ⟨hkept.fstat, hkept.first, hkept.halted⟩

end Sys2Proof.Machine
